-- ==== Sys2Proof/Word.lean ====
section
/-! DEFINITION. The word types of the AN20's frames and of its lines. -/

namespace Sys2Proof

/-- A payload byte (R26). -/
abbrev Byte := BitVec 8

/-- A station number as the source field of a frame carries it (Table 1-2); 1 to 62 are stations. -/
abbrev StationId := BitVec 6

/-- A group address as the number field of a GROUP destination carries it (R27); 1 to 31 are addresses. -/
abbrev GroupAddr := BitVec 6

/-- A station set (R26): station n is a member when the bit of weight 2^n is one. -/
abbrev StationSet := BitVec 64

/-- One level of the trunk in one bit time (R1): dominant is 0, recessive is 1. -/
abbrev TrunkBit := Bool

/-- The dominant level, 0 (R1). -/
abbrev dominant : TrunkBit := false

/-- The recessive level, 1 (R1). -/
abbrev recessive : TrunkBit := true

/-- The level of an axis line, a strap or nRESET. -/
inductive Level where
  | low
  | high
  deriving DecidableEq, Repr

end Sys2Proof
end

