-- ==== Sys2Proof/Config.lean ====
section
/-! DEFINITION. The AN20's fixed figures, each from the rule that gives it, and the levels of the outside
lines that the spec leaves open at reset. -/

namespace Sys2Proof.Config

/-- The bound of the counter range (R26, R131): positions run from −1,073,741,823 to +1,073,741,823. -/
def counterMax : Int := 1073741823

/-- The largest distance and span (Table 2-6), and the largest count a 3-byte steps field reports (R120). -/
def stepsMax : Nat := 16777215

/-- Segments the queue holds (R58). -/
def queueCapacity : Nat := 16

/-- Entries the heard-mark list holds (R146). -/
def heardCapacity : Nat := 8

/-- Notices the backlog list holds (R174). -/
def backlogCapacity : Nat := 8

/-- Consecutive recessive bit times that make the line idle (R4, R18). -/
def idleLength : Nat := 9

/-- Consecutive dominant bit times that make the line stuck (R19). -/
def stuckLength : Nat := 48

/-- Consecutive recessive bit times that end STUCK (R20). -/
def recoveryLength : Nat := 24

/-- Bit times of a break (R3). -/
def breakLength : Nat := 16

/-- Equal bits after which an insert bit follows (R2). -/
def insertAfter : Nat := 7

/-- The largest count of a MARK or of a heard-mark entry (R30, R146). -/
def markCountMax : Nat := 15

/-- The floor, in nanoseconds, of an interval that begins from rest (R106: 5 µs). -/
def fromRestFloor : Nat := 5000

/-- DESIGN CHOICE (unsafe, entry 2): the level at which LIMP, LIMN, REF and DFLT stand in `State.reset`,
which is their inactive level under the polarities after reset (Table 3-2). -/
def switchLevelAtReset : Level := .high

/-- DESIGN CHOICE (unsafe, entry 2): the level at which QI, QA and QB stand in `State.reset`. -/
def encoderLevelAtReset : Level := .low

end Sys2Proof.Config
end

