-- ==== Sys2Proof/Syntax.lean ====
section
/-! DEFINITION. The commands of the AN20: one constructor of `Instr` for each row of the table of operations
and events. A row that is a taken frame carries the frame's source and its payload fields at their widths on
the wire (Frame Formats); a row about the line carries the bits that were read; a row about an input carries
the new level; a row that samples the straps carries the levels standing on them. -/

namespace Sys2Proof

/-- The strap levels (R40): STN[5:0] as a number, RATE[1:0] as a number, and RSTEN. -/
structure Straps where
  stn : StationId
  rate : BitVec 2
  rsten : Level
  deriving DecidableEq, Repr

/-- A frame by its fields (Table 1-2), without start bit, length, check field and window: the length is that of
the payload, the check is computed (R7). -/
structure Frame where
  cls : BitVec 2
  kind : BitVec 4
  source : StationId
  dest : Byte
  payload : List Byte
  deriving DecidableEq, Repr

/-- The 13-byte profile block of a LOAD (Table 2-7). -/
structure RawProfile where
  cls : Byte
  fl : BitVec 24
  fh : BitVec 24
  accel : BitVec 24
  decel : BitVec 24
  deriving DecidableEq, Repr

/-- The kind-specific part of a LOAD (Table 2-6); the constructor is the code field `segment kind`. -/
inductive LoadBody where
  | move (distance : BitVec 32) (p : RawProfile)
  | moveTo (target : BitVec 32) (p : RawProfile)
  | span (distance : BitVec 32) (span : BitVec 24) (p : RawProfile)
  | run (direction endMark : Byte) (p : RawProfile)
  | dwell (ms : BitVec 16)
  | seek (direction options indexCount : Byte) (preset : BitVec 32) (p : RawProfile)
  deriving DecidableEq, Repr

/-- A LOAD payload after its reference byte (Tables 2-5 and 2-6). -/
structure LoadRecord where
  tag : Byte
  slot : Byte
  start : Byte
  startMark : Byte
  body : LoadBody
  deriving DecidableEq, Repr

/-- The nineteen setting bytes of a SETUP (Table 2-9, bytes 1 to 19). -/
structure SetupFields where
  report : Byte
  mask : Byte
  retry : Byte
  timeout : BitVec 16
  following : BitVec 16
  softEnable : Byte
  softMin : BitVec 32
  softMax : BitVec 32
  stopOutput : Byte
  encoder : Byte
  polarity : Byte
  deriving DecidableEq, Repr

/-- How an attempt of the node is voided (R13). -/
inductive VoidHow where
  /-- the two window bits as read; a dominant one is a complaint -/
  | complaint (windowA windowB : TrunkBit)
  /-- the break test found 8 dominant bit times -/
  | broken
  deriving DecidableEq, Repr

/-- The two limit inputs. -/
inductive LimitInput where
  | limp
  | limn
  deriving DecidableEq, Repr

/-- The commands, one constructor for each row of the table. -/
inductive Instr where
  /-- nRESET goes low with these strap levels standing (R42, R40). -/
  | nresetAsserted (straps : Straps)
  /-- nRESET goes high with these strap levels standing (R43, R40). -/
  | nresetReleased (straps : Straps)
  /-- A RESTART from a station is taken with these strap levels standing (R44). -/
  | restartTaken (source : StationId) (straps : Straps)
  /-- The ninth consecutive recessive bit time in JOINING (R18). -/
  | joiningIdleReached
  /-- With the line idle the node drives the start bit of its chosen frame (R5, R23). The bits are the levels that the
  node has read since the last row of the line; none if this row comes in the bit time directly after that one (R4). -/
  | attemptStart (bits : List TrunkBit := [])
  /-- The node reads dominant where it drove recessive in the arbitration field (R8). -/
  | arbitrationLost
  /-- The 7 bit times that follow a mismatched bit have been read (R15). -/
  | mismatchTestEnd (levels : Vector TrunkBit 7)
  /-- The bits of a frame read so far, start bit first, or after the levels read since the last event of the line; the
  last one shows a coding error or completes an unusable length (R3). -/
  | codingError (bits : List TrunkBit)
  /-- A whole coded frame, start bit first, or after the levels read since the last event of the line, and the window
  bits as the other stations drive them (R9 to R11). -/
  | frameVoided (bits : List TrunkBit) (othersA othersB : TrunkBit)
  /-- The node's own attempt is voided (R13). -/
  | attemptVoided (how : VoidHow)
  /-- The 48th consecutive dominant bit time (R19). -/
  | linkStuck
  /-- The 24th consecutive recessive bit time in STUCK (R20). -/
  | stuckRecovery
  /-- A frame that does not concern the node is taken (R37). -/
  | frameTakenNoEffect (frame : Frame)
  /-- The node's own ANSWER is taken (R12, R170). -/
  | ownAnswerTaken
  /-- The node's own NOTICE is taken (R12, R176). -/
  | ownNoticeTaken
  /-- HALT(GROUP) taken (R95). -/
  | haltGroupTaken (source : StationId) (group : GroupAddr) (cause mode tag : Byte)
  /-- HALT(ALL) taken (R97). -/
  | haltAllTaken (source : StationId) (cause mode tag : Byte)
  /-- CLEAR(GROUP) taken (R99). -/
  | clearGroupTaken (source : StationId) (group : GroupAddr) (sequence : Byte)
  /-- CLEAR(ALL) taken (R101). -/
  | clearAllTaken (source : StationId) (sequence : Byte)
  /-- CLEAR(STATION) to the node (R165). -/
  | clearStationTaken (source : StationId) (reference : Byte)
  /-- READY taken (R85). -/
  | readyTaken (source : StationId) (group : GroupAddr) (sequence tag : Byte)
  /-- MARK taken (R147); `packed` is payload byte 1 (R30). -/
  | markTaken (source : StationId) (unit packed : Byte) (position : BitVec 32)
  /-- LOAD to the node (R57). -/
  | load (source : StationId) (reference : Byte) (record : LoadRecord)
  /-- FLUSH with selector ALL (R77). -/
  | flushAll (source : StationId) (reference value : Byte)
  /-- FLUSH with selector TAG (R77). -/
  | flushTag (source : StationId) (reference value : Byte)
  /-- FLUSH with selector SLOT (R77). -/
  | flushSlot (source : StationId) (reference value : Byte)
  /-- STOP (R79). -/
  | stop (source : StationId) (reference mode tag : Byte)
  /-- MARKSET with action ARM (R140). -/
  | marksetArm (source : StationId) (reference unit sourceCond : Byte) (threshold : BitVec 32) (period : BitVec 24)
  /-- MARKSET with action DISARM (R141); `unused` is bytes 3 to 10. -/
  | marksetDisarm (source : StationId) (reference unit : Byte) (unused : BitVec 64)
  /-- QUERY STATUS (R172); `qi` is the level standing on QI, whose fall is no row (entry 12). -/
  | queryStatus (source : StationId) (reference item : Byte) (qi : Level)
  /-- QUERY POSITION (R172, R120). -/
  | queryPosition (source : StationId) (reference item : Byte)
  /-- QUERY QUEUE (R172). -/
  | queryQueue (source : StationId) (reference item : Byte)
  /-- QUERY GROUP (R172). -/
  | queryGroup (source : StationId) (reference item : Byte)
  /-- QUERY MARKS (R172). -/
  | queryMarks (source : StationId) (reference item : Byte)
  /-- QUERY SETUP (R172). -/
  | querySetup (source : StationId) (reference item : Byte)
  /-- SETUP (R46). -/
  | setup (source : StationId) (reference : Byte) (fields : SetupFields)
  /-- DEFINE (R48). -/
  | define (source : StationId) (reference slot address : Byte) (roster : StationSet)
  /-- COMMIT (R49). -/
  | commit (source : StationId) (reference : Byte)
  /-- The rendezvous timer expires (R90). -/
  | rendezvousTimeout
  /-- The interval in progress ends (R107). -/
  | intervalEnd
  /-- The 2 µs high time of a pulse ends (R119). -/
  | pulseHighEnd
  /-- The dwell time has elapsed (R116). -/
  | dwellEnd
  /-- DFLT changes to this level, after its filter (R157). -/
  | driveFaultChange (level : Level)
  /-- LIMP or LIMN changes to this level, after its filter (R155). -/
  | limitInputChange (input : LimitInput) (level : Level)
  /-- REF changes to this level, after its filter (R123). -/
  | refChange (level : Level)
  /-- QI changes to high (R126). -/
  | qiRise
  /-- QA and QB read this new combination (R133). -/
  | quadratureTransition (qa qb : Level)
  /-- After winning arbitration the node reads dominant in a bit it drove recessive (R15). -/
  | mismatch
  /-- The node's own 16-bit-time break runs out (R3). -/
  | breakEnd
  deriving DecidableEq, Repr

end Sys2Proof
end

