-- ==== Sys2Proof/Decode.lean ====
section
/-! DEFINITION. The decoder over the rows of the table that give bits. No row does: the commands of the AN20 are
taken frames and events, which no word spells. -/

namespace Sys2Proof

/-- The command that a word spells by the table's bits: none, as no row gives bits (entry 23). -/
def decodeTableWord (_nbits _w : Nat) : Option Instr := none

end Sys2Proof
end

