-- ==== Sys2Proof/Machine/State.lean ====
section
/-! DEFINITION. The AN20's state as plain data, block by block, and the state of the node in reset. -/

namespace Sys2Proof.Machine

/-! ### Setup Store -/

/-- Node states (Table 3-1). -/
inductive NodeState where
  | held
  | setup
  | run
  | silent
  deriving DecidableEq, Repr

/-- What drove the last reset (R53). -/
inductive ResetCause where
  | pin
  | restart
  deriving DecidableEq, Repr

/-- The report station (Table 3-2): NONE, a station, or ALL. -/
inductive ReportTo where
  | nobody
  | station (n : StationId)
  | everyone
  deriving DecidableEq, Repr

/-- A stop mode (R29). -/
inductive Mode where
  | smooth
  | abrupt
  deriving DecidableEq, Repr

/-- Output forms (R119). -/
inductive OutputForm where
  | stepDir
  | cwCcw
  deriving DecidableEq, Repr

/-- Encoder modes (R133). -/
inductive EncMode where
  | off
  | x1
  | x2
  | x4
  deriving DecidableEq, Repr

/-- The settings record (Table 3-2). The mask keeps the bits of Table 2-9. -/
structure Settings where
  report : ReportTo
  mask : Byte
  retryLimit : Nat
  timeout : Nat
  following : Nat
  softEnable : Bool
  softMin : Int
  softMax : Int
  limitMode : Mode
  form : OutputForm
  encMode : EncMode
  encInvert : Bool
  limpHigh : Bool
  limnHigh : Bool
  dfltHigh : Bool
  refRising : Bool
  deriving DecidableEq, Repr

/-- The Setup Store (R40 to R53). -/
structure Ss where
  node : NodeState
  straps : Straps
  settings : Settings
  locked : Bool
  lastReset : ResetCause
  deriving DecidableEq, Repr

/-! ### Causes and the Guard -/

/-- Cause codes 1 to 16 (Table 2-4). -/
inductive Cause where
  | limitPlus
  | limitMinus
  | softLimit
  | countRange
  | driveFault
  | followingError
  | encoderError
  | trunkStuck
  | sendFailed
  | duplicateStation
  | operator
  | rendezvousTimeout
  | rosterMismatch
  | sequenceFault
  | seekFailed
  | peerAllHalt
  deriving DecidableEq, Repr

/-- Guard states (section 9.1). -/
inductive GuardState where
  | normal
  | stopping
  | stopped
  deriving DecidableEq, Repr

/-- The Guard's record (Table 9-1) and the output DEN it drives (R168). -/
structure Gd where
  state : GuardState
  first : Option Cause
  causes : BitVec 16
  originator : Option StationId
  stopMode : Option Mode
  den : Level
  deriving DecidableEq, Repr

/-! ### The segment queue -/

/-- A direction of travel. -/
inductive Dir where
  | plus
  | minus
  deriving DecidableEq, Repr

/-- A mark reference (R26): a station and one of its mark units. -/
structure MarkRef where
  station : StationId
  unit : Fin 4
  deriving DecidableEq, Repr

/-- Profile classes (Table 2-7). -/
inductive ProfileClass where
  | flatLow
  | flatHigh
  | ramp
  deriving DecidableEq, Repr

/-- A profile; `accel` and `decel` hold the field, in units of 10 steps/s² (Table 2-7). -/
structure Profile where
  cls : ProfileClass
  fl : Nat
  fh : Nat
  accel : Nat
  decel : Nat
  deriving DecidableEq, Repr

/-- Seek variants; INDEX carries its index count (Table 4-1). -/
inductive SeekVariant where
  | edge
  | index (count : Nat)
  deriving DecidableEq, Repr

/-- The SEEK part of a record (Table 4-1). -/
structure SeekSpec where
  dir : Dir
  variant : SeekVariant
  reverse : Bool
  preset : Int
  deriving DecidableEq, Repr

/-- A segment's kind with the fields Table 4-1 gives it. -/
inductive SegKind where
  | move (distance : Int) (p : Profile)
  | moveTo (target : Int) (p : Profile)
  | span (distance : Int) (span : Nat) (p : Profile)
  | run (dir : Dir) (endMark : Option MarkRef) (p : Profile)
  | dwell (ms : Nat)
  | seek (spec : SeekSpec) (p : Profile)
  deriving DecidableEq, Repr

/-- A segment's start (Table 4-1). -/
inductive StartCond where
  | immediate
  | rendezvous
  | mark (m : MarkRef)
  deriving DecidableEq, Repr

/-- Segment outcomes (Table 4-3). -/
inductive SegOutcome where
  | done
  | stopped
  | halted
  | faulted
  | seekFailed
  | flushed
  deriving DecidableEq, Repr

/-- Segment states (Table 4-2); ENDING holds its fixed outcome and its stop mode (R54, R60). -/
inductive SegState where
  | queued
  | waiting
  | announcing
  | announced
  | running
  | ending (outcome : SegOutcome) (mode : Mode)
  deriving DecidableEq, Repr

/-- A segment record (R54). -/
structure Segment where
  tag : Byte
  kind : SegKind
  slot : Option (Fin 8)
  start : StartCond
  state : SegState
  deriving DecidableEq, Repr

/-! ### Rendezvous Unit -/

/-- A group definition (R48). -/
structure GroupDef where
  address : GroupAddr
  roster : StationSet
  deriving DecidableEq, Repr

/-- The state of a live slot (R82); HALTED holds its cause and originator (Table 5-1). -/
inductive GroupState where
  | opened
  | armed
  | halted (cause : Cause) (originator : StationId)
  deriving DecidableEq, Repr

/-- A live group (Table 5-1). -/
structure Group where
  address : GroupAddr
  roster : StationSet
  sequence : Byte
  ready : StationSet
  state : GroupState
  deriving DecidableEq, Repr

/-- A group slot: empty, defined in node state SETUP (R48), or live from COMMIT on (R81). -/
inductive Slot where
  | empty
  | defined (d : GroupDef)
  | live (g : Group)
  deriving DecidableEq, Repr

/-- The group table and the rendezvous timer, stopped or with the milliseconds that remain (R81, R89). -/
structure Ru where
  slots : Vector Slot 8
  timer : Option Nat
  deriving DecidableEq, Repr

/-! ### Profile Generator -/

/-- Phases (Table 6-1). -/
inductive Phase where
  | idle
  | accel
  | cruise
  | decel
  | creep
  | dwell
  | search
  | count
  deriving DecidableEq, Repr

/-- Stages of a seek (Table 7-1). -/
inductive SeekStage where
  | search
  | count
  | settle
  deriving DecidableEq, Repr

/-- The seek state (Table 7-1), from the start of a SEEK until it leaves the queue (R122); `latched` is command, then
feedback. From the entry into ENDING on there is no stage (R129). -/
structure Seek where
  stage : Option SeekStage
  reversed : Bool
  qualified : Bool
  counted : Nat
  latched : Option (Int × Int)
  deriving DecidableEq, Repr

/-- The Profile Generator (Tables 6-1 and 7-1) and its two output lines (R119). In output form STEP_DIR
`dirCcw` is Table 6-1's direction level. `fromRest` marks the interval that has the 5 µs floor (R106);
`speedName` is the name R111 gives the speed of the interval in progress. -/
structure Pg where
  phase : Phase
  speedSq : Nat
  dir : Option Dir
  remaining : Nat
  progress : Nat
  acc : Nat
  dwellLeft : Nat
  stop : Option Mode
  fromRest : Bool
  speedName : Phase
  seek : Option Seek
  stepCw : Level
  dirCcw : Level
  deriving DecidableEq, Repr

/-! ### Position Block -/

/-- The combinations of QA and QB (R133). -/
inductive Quad where
  | s0
  | s1
  | s2
  | s3
  deriving DecidableEq, Repr

/-- Mark unit states (Table 8-3). -/
inductive MarkState where
  | disarmed
  | armed
  | fired
  deriving DecidableEq, Repr

/-- Mark unit sources (Table 8-3). -/
inductive MarkSource where
  | command
  | feedback
  deriving DecidableEq, Repr

/-- Mark unit conditions (Table 8-3). -/
inductive MarkCond where
  | crossUp
  | crossDown
  | atOrAbove
  | atOrBelow
  deriving DecidableEq, Repr

/-- Firings folded into one count (R144): count, saturated flag, position of the first. -/
structure Firings where
  count : Nat
  saturated : Bool
  position : Int
  deriving DecidableEq, Repr

/-- A mark unit (Table 8-3). Its frame record is its MARK in the transmit queue, which holds the unit's MARK
exactly while the record is not none (R144). -/
structure MarkUnit where
  state : MarkState
  source : MarkSource
  cond : MarkCond
  threshold : Int
  period : Nat
  held : Option Firings
  deriving DecidableEq, Repr

/-- An entry of the heard-mark list (R146). -/
structure Heard where
  ref : MarkRef
  count : Nat
  deriving DecidableEq, Repr

/-- The Position Block (Tables 8-1 and 8-3, R146). -/
structure Pb where
  command : Int
  feedback : Int
  decoder : Quad
  units : Vector MarkUnit 4
  heard : List Heard
  deriving DecidableEq, Repr

/-! ### Trunk Interface, Frame Handler, Notice Backlog -/

/-- Link states (Table 1-5). -/
inductive Link where
  | held
  | joining
  | listening
  | sending
  | stuck
  | silent
  deriving DecidableEq, Repr

/-- Notice types (Table 2-16). -/
inductive NoticeType where
  | done
  | halt
  | fault
  | empty
  | seek
  | link
  deriving DecidableEq, Repr

/-- A notice: its type and its contents, bytes 2 onward of Table 2-16. -/
structure Notice where
  type : NoticeType
  contents : List Byte
  deriving DecidableEq, Repr

/-- A frame of the transmit queue with its producer's identity, destination and payload (R21). A MARK is its
unit's frame record (R144); a NOTICE is the pending NOTICE with the overflow value it carries (R174). -/
inductive TxFrame where
  | ready (slot : Fin 8) (group : GroupAddr) (sequence tag : Byte)
  | mark (unit : Fin 4) (firings : Firings)
  | answer (slot : Fin 2) (station : StationId) (payload : List Byte)
  | notice (dest : Byte) (overflow : Bool) (notice : Notice)
  deriving DecidableEq, Repr

/-- An entry of the transmit queue (R21). -/
structure TxEntry where
  frame : TxFrame
  attempts : Nat
  onLine : Bool
  withdrawn : Bool
  deriving DecidableEq, Repr

/-- A member of the halt-owed set (R25, R93). -/
structure HaltEntry where
  cause : Cause
  mode : Mode
  tag : Byte
  attempts : Nat
  onLine : Bool
  deriving DecidableEq, Repr

/-- What the frame on the line is to the node as a receiver (R3, R8). -/
inductive Reception where
  /-- the node decodes the next frame on the line from its start bit on -/
  | awaits
  /-- another station's frame is on the line, whose start bit the node has read (R5) or which it has lost arbitration to
  (R8): the node receives it -/
  | reads
  /-- the frame was broken: the node does not decode it, and waits for the line to become idle (R3, R15) -/
  | skips
  deriving DecidableEq, Repr

/-- The Trunk Interface (chapter 1). The three counts hold the value the last event gave them (entry 5). -/
structure Tif where
  link : Link
  txd : TrunkBit
  idleCount : Nat
  stuckCount : Nat
  recoveryCount : Nat
  breakLeft : Nat
  reception : Reception
  mismatchTest : Bool
  windowA : TrunkBit
  windowB : TrunkBit
  queue : List TxEntry
  owed : Vector (Option HaltEntry) 8
  deriving DecidableEq, Repr

/-- An occupied answer slot (R170). -/
structure AnswerSlot where
  station : StationId
  reference : Byte
  kind : BitVec 4
  deriving DecidableEq, Repr

/-- The Frame Handler's two answer slots (R170). -/
structure Fh where
  slots : Vector (Option AnswerSlot) 2
  deriving DecidableEq, Repr

/-- The Notice Backlog (R174); the pending NOTICE is the one in the transmit queue. -/
structure Nb where
  list : List Notice
  overflow : Bool
  lateOverflow : Bool
  deriving DecidableEq, Repr

/-- The levels standing on nRESET, on the filtered switch inputs and on QI. QA and QB stand in `Pb.decoder`. -/
structure Pins where
  nreset : Level
  limp : Level
  limn : Level
  ref : Level
  dflt : Level
  qi : Level
  deriving DecidableEq, Repr

/-! ### The machine -/

/-- The whole node, and the commands that wait, oldest first. -/
structure State where
  pins : Pins
  ss : Ss
  tif : Tif
  fh : Fh
  queue : List Segment
  ru : Ru
  pg : Pg
  pb : Pb
  gd : Gd
  nb : Nb
  pending : List Instr
  deriving DecidableEq, Repr

/-- The reasons the machine could stop with a fault: none. The spec names nothing that stops the node, and an
inductive without constructors says so (safe: no run ends here). -/
inductive Fault where
  deriving DecidableEq

/-- The reasons the machine could refuse a command. -/
inductive Refusal where
  /-- Raised by a dispatch arm that has no meaning yet (safe: no effect is claimed). No arm of this model raises it. -/
  | notModelled (mnemonic : String)
  deriving DecidableEq, Repr

/-- The settings after reset (Table 3-2). -/
def Settings.reset : Settings where
  report := .nobody
  mask := 0
  retryLimit := 8
  timeout := 1000
  following := 0
  softEnable := false
  softMin := 0
  softMax := 0
  limitMode := .abrupt
  form := .stepDir
  encMode := .off
  encInvert := false
  limpHigh := false
  limnHigh := false
  dfltHigh := false
  refRising := false

/-- The Trunk Interface in HELD (Table 1-6, R17). -/
def Tif.reset : Tif where
  link := .held
  txd := recessive
  idleCount := 0
  stuckCount := 0
  recoveryCount := 0
  breakLeft := 0
  reception := .awaits
  mismatchTest := false
  windowA := recessive
  windowB := recessive
  queue := []
  owed := Vector.replicate 8 none

/-- The Profile Generator after reset (Table 6-1, R105). -/
def Pg.reset : Pg where
  phase := .idle
  speedSq := 0
  dir := none
  remaining := 0
  progress := 0
  acc := 0
  dwellLeft := 0
  stop := none
  fromRest := false
  speedName := .idle
  seek := none
  stepCw := .low
  dirCcw := .low

/-- A mark unit after reset (Table 8-3). -/
def MarkUnit.reset : MarkUnit where
  state := .disarmed
  source := .command
  cond := .crossUp
  threshold := 0
  period := 0
  held := none

/-- The Guard's record after reset (Table 9-1) with DEN low (R168). -/
def Gd.reset : Gd where
  state := .normal
  first := none
  causes := 0
  originator := none
  stopMode := none
  den := .low

/-- The machine right after reset: nRESET has gone low and stands low, so that every block holds the values
R42 gives and the node is HELD until NRESET_RELEASED. The strap levels (entry 1) and the levels on the other
inputs (entry 2) are DESIGN CHOICES. -/
def State.reset : State where
  pins := { nreset := .low, limp := Config.switchLevelAtReset, limn := Config.switchLevelAtReset,
            ref := Config.switchLevelAtReset, dflt := Config.switchLevelAtReset, qi := Config.encoderLevelAtReset }
  ss := { node := .held, straps := { stn := 0, rate := 0, rsten := .low }, settings := .reset, locked := false,
          lastReset := .pin }
  tif := .reset
  fh := { slots := Vector.replicate 2 none }
  queue := []
  ru := { slots := Vector.replicate 8 .empty, timer := none }
  pg := .reset
  pb := { command := 0, feedback := 0, decoder := .s0, units := Vector.replicate 4 .reset, heard := [] }
  gd := .reset
  nb := { list := [], overflow := false, lateOverflow := false }
  pending := []

end Sys2Proof.Machine
end

