-- ==== Sys2Proof/Machine/Wire.lean ====
section
/-! DEFINITION. Frames on the wire: bit coding, the check field, reception, the header and payload checks
every station makes, and the payload layouts of chapter 2. -/

namespace Sys2Proof

/-! ### Bits and bytes -/

/-- The bits of a field, most significant first (R6). -/
def bitsOf {w : Nat} (x : BitVec w) : List TrunkBit := (List.range w).reverse.map fun i => x.getLsbD i

/-- The number that bits spell, most significant first (R6). -/
def natOfBits (bits : List TrunkBit) : Nat := bits.foldl (fun a b => 2 * a + b.toNat) 0

/-- The field that bits spell (R6). -/
def ofBits (w : Nat) (bits : List TrunkBit) : BitVec w := BitVec.ofNat w (natOfBits bits)

/-- A 2-byte field, most significant byte first (R26). -/
def bytes2 (x : BitVec 16) : List Byte := [x.extractLsb' 8 8, x.extractLsb' 0 8]

/-- A 3-byte field (R26). -/
def bytes3 (x : BitVec 24) : List Byte := [x.extractLsb' 16 8, x.extractLsb' 8 8, x.extractLsb' 0 8]

/-- A 4-byte field (R26). -/
def bytes4 (x : BitVec 32) : List Byte :=
  [x.extractLsb' 24 8, x.extractLsb' 16 8, x.extractLsb' 8 8, x.extractLsb' 0 8]

/-- An 8-byte field (R26). -/
def bytes8 (x : BitVec 64) : List Byte := bytes4 (x.extractLsb' 32 32) ++ bytes4 (x.extractLsb' 0 32)

/-- The 2-byte field two bytes hold (R26). -/
def word2 (a b : Byte) : BitVec 16 := a ++ b

/-- The 3-byte field three bytes hold (R26). -/
def word3 (a b c : Byte) : BitVec 24 := a ++ b ++ c

/-- The 4-byte field four bytes hold (R26). -/
def word4 (a b c d : Byte) : BitVec 32 := a ++ b ++ c ++ d

/-- The 8-byte field eight bytes hold (R26). -/
def word8 (a b c d e f g h : Byte) : BitVec 64 := a ++ b ++ c ++ d ++ e ++ f ++ g ++ h

/-- A signed 4-byte field (R26: two's complement, most significant byte first). -/
def signed4 (x : Int) : List Byte := bytes4 (BitVec.ofInt 32 x)

/-! ### Frame kinds and destinations -/

/-- Kind codes (Table 2-1). -/
abbrev kindHalt : BitVec 4 := 0
abbrev kindClear : BitVec 4 := 1
abbrev kindRestart : BitVec 4 := 2
abbrev kindReady : BitVec 4 := 3
abbrev kindMark : BitVec 4 := 4
abbrev kindLoad : BitVec 4 := 5
abbrev kindFlush : BitVec 4 := 6
abbrev kindStop : BitVec 4 := 7
abbrev kindMarkset : BitVec 4 := 8
abbrev kindQuery : BitVec 4 := 9
abbrev kindAnswer : BitVec 4 := 10
abbrev kindNotice : BitVec 4 := 11
abbrev kindSetup : BitVec 4 := 12
abbrev kindDefine : BitVec 4 := 13
abbrev kindCommit : BitVec 4 := 14

/-- Class URGENT, TIMED, ROUTINE (Table 1-2). -/
abbrev clsUrgent : BitVec 2 := 0
abbrev clsTimed : BitVec 2 := 1
abbrev clsRoutine : BitVec 2 := 2

/-- The class of each kind; code 15 is no kind (Table 2-1). -/
def classOfKind (k : BitVec 4) : Option (BitVec 2) :=
  if k.toNat ≤ 2 then some clsUrgent
  else if k.toNat ≤ 4 then some clsTimed
  else if k.toNat ≤ 14 then some clsRoutine
  else none

/-- Destination STATION n (R27). -/
def destStation (n : StationId) : Byte := (0#2) ++ n

/-- Destination GROUP g (R27). -/
def destGroup (g : GroupAddr) : Byte := (1#2) ++ g

/-- Destination ALL (R27). -/
def destAll : Byte := (2#2) ++ (0#6)

/-- The type of a destination (R27). -/
def destType (d : Byte) : BitVec 2 := d.extractLsb' 6 2

/-- The number of a destination (R27). -/
def destNumber (d : Byte) : BitVec 6 := d.extractLsb' 0 6

/-- A station number of 1 to 62. -/
def stationOk (n : StationId) : Bool := n != 0 && n != 63

/-- The destination's number suits its type (R27). -/
def destNumberOk (d : Byte) : Bool :=
  if destType d = 0 then stationOk (destNumber d)
  else if destType d = 1 then decide (1 ≤ (destNumber d).toNat ∧ (destNumber d).toNat ≤ 31)
  else if destType d = 2 then destNumber d == 0
  else false

/-- The destination types Table 2-1 allows each kind. -/
def destTypeOk (k : BitVec 4) (d : Byte) : Bool :=
  let t := destType d
  if k = kindHalt then t == 1 || t == 2
  else if k = kindClear then t == 0 || t == 1 || t == 2
  else if k = kindRestart || k = kindMark then t == 2
  else if k = kindReady then t == 1
  else if k = kindNotice then t == 0 || t == 2
  else t == 0

/-- The payload length of each segment kind (Table 2-6). -/
def segmentLength (code : Byte) : Option Nat :=
  if code = 0 then some 23
  else if code = 1 then some 23
  else if code = 2 then some 26
  else if code = 3 then some 21
  else if code = 4 then some 8
  else if code = 5 then some 26
  else none

/-- The payload length of each notice type (Table 2-16). -/
def noticeLength (code : Byte) : Option Nat :=
  if code = 0 then some 11
  else if code = 1 then some 6
  else if code = 2 then some 9
  else if code = 3 then some 6
  else if code = 4 then some 16
  else if code = 5 then some 4
  else none

/-- The payload length belongs to the kind (R27, Table 2-1). -/
def lengthOk (k : BitVec 4) (payload : List Byte) : Bool :=
  let n := payload.length
  if k = kindHalt then n == 3
  else if k = kindClear then n == 1
  else if k = kindRestart then n == 0
  else if k = kindReady then n == 2
  else if k = kindMark then n == 6
  else if k = kindLoad then (payload[2]?.bind segmentLength) == some n
  else if k = kindFlush || k = kindStop || k = kindQuery then n == 3
  else if k = kindMarkset || k = kindDefine then n == 11
  else if k = kindAnswer then decide (3 ≤ n ∧ n ≤ 28)
  else if k = kindNotice then (payload[0]?.bind noticeLength) == some n
  else if k = kindSetup then n == 20
  else if k = kindCommit then n == 1
  else false

/-- The counter range (R26). -/
def inCounterRange (x : Int) : Bool := decide (-Config.counterMax ≤ x ∧ x ≤ Config.counterMax)

/-- The request kinds by code (section 2.2). -/
def isRequestKind (k : Nat) : Bool := k == 1 || (5 ≤ k && k ≤ 9) || (12 ≤ k && k ≤ 14)

/-- The code fields of the payload hold defined codes (R28, R29, R30, Table 2-3). -/
def codesOk (k : BitVec 4) (payload : List Byte) : Bool :=
  if k = kindHalt then
    match payload with
    | [cause, mode, _] => decide (1 ≤ cause.toNat ∧ cause.toNat ≤ 15) && decide (mode.toNat ≤ 1)
    | _ => false
  else if k = kindMark then
    match payload with
    | [unit, packed, a, b, c, d] =>
      decide (unit.toNat ≤ 3) && (packed &&& 0x70 == 0) && (packed &&& 0x0F != 0)
        && inCounterRange (word4 a b c d).toInt
    | _ => false
  else if k = kindFlush then payload[1]?.any fun b => decide (b.toNat ≤ 2)
  else if k = kindMarkset then payload[2]?.any fun b => decide (b.toNat ≤ 1)
  else if k = kindQuery then payload[1]?.any fun b => decide (b.toNat ≤ 5)
  else if k = kindAnswer then
    (payload[1]?.any fun b => isRequestKind b.toNat) && (payload[2]?.any fun b => decide (b.toNat ≤ 9))
  else if k = kindNotice then payload[1]?.any fun b => b &&& 0x7F == 0
  else true

/-- The frame is malformed (R9, R27, R28): a code outside Table 1-2, a class that is not its kind's, a
destination or a length not allowed for its kind, or an undefined code in a payload. The segment kind of a
LOAD and the notice type are checked with the length that belongs to them. -/
def Frame.malformed (f : Frame) : Bool :=
  !(classOfKind f.kind == some f.cls && stationOk f.source && destTypeOk f.kind f.dest && destNumberOk f.dest
    && lengthOk f.kind f.payload && codesOk f.kind f.payload)

/-- The frame is a request (section 2.2): CLEAR counts when its destination is STATION. -/
def Frame.isRequest (f : Frame) : Bool :=
  isRequestKind f.kind.toNat && (f.kind != kindClear || destType f.dest == 0)

/-! ### Bit coding and the check field -/

/-- One step of the check register (R7): shift left, and add 1021h when the bit that left differs from the bit
shifted in. -/
def crcStep (r : BitVec 16) (b : TrunkBit) : BitVec 16 :=
  if r.msb != b then (r <<< 1) ^^^ 0x1021#16 else r <<< 1

/-- The check over the bits from class to payload (R7), from FFFFh, not inverted. -/
def crc (bits : List TrunkBit) : BitVec 16 := bits.foldl crcStep 0xFFFF#16

/-- The bits from class to payload (Table 1-2). -/
def Frame.checkedBits (f : Frame) : List TrunkBit :=
  bitsOf f.cls ++ bitsOf f.kind ++ bitsOf f.source ++ bitsOf f.dest ++ bitsOf (BitVec.ofNat 5 f.payload.length)
    ++ f.payload.flatMap bitsOf

/-- Start bit to check field, before insert bits (Table 1-2). -/
def Frame.dataBits (f : Frame) : List TrunkBit :=
  dominant :: (f.checkedBits ++ bitsOf (crc f.checkedBits))

/-- Insert bits after the rest of a run (R2); an insert bit is the first bit of a new run, and one is still sent
when the seventh equal bit is the last. -/
def stuffFrom (last : TrunkBit) (run : Nat) : List TrunkBit → List TrunkBit
  | [] => if run = Config.insertAfter then [!last] else []
  | b :: rest =>
    if run = Config.insertAfter then (!last) :: b :: stuffFrom b (if b = last then 1 else 2) rest
    else b :: stuffFrom b (if b = last then run + 1 else 1) rest

/-- The coded part: the data bits with insert bits (R2). -/
def stuff : List TrunkBit → List TrunkBit
  | [] => []
  | b :: rest => b :: stuffFrom b 1 rest

/-- The bits a sender drives from start bit to the last bit of the coded part (R2, R6, R7). -/
def Frame.codedBits (f : Frame) : List TrunkBit := stuff f.dataBits

/-- What a receiver has made of the bits so far: still reading, an error that draws a break (R3), the whole
coded part read, or bits beyond it. -/
inductive Rx where
  | reading (data : List TrunkBit) (last : TrunkBit) (run : Nat)
  | failed
  | whole (data : List TrunkBit)
  | overrun
  deriving DecidableEq, Repr

/-- The length code of the frame whose data bits these are: the 5 bits after start, class, kind, source and
destination (Table 1-2). -/
def lengthCode (data : List TrunkBit) : Nat := natOfBits ((data.drop 21).take 5)

/-- The data bits of the whole frame: 26 to the length field, the payload, 16 of check (Table 1-2). -/
def dataLength (data : List TrunkBit) : Nat := 42 + 8 * lengthCode data

/-- The header is read and all data bits are in. -/
def dataComplete (data : List TrunkBit) : Bool := decide (26 ≤ data.length) && data.length == dataLength data

/-- One bit read (R2, R3): after 7 equal bits the next is removed, or is a coding error if it is the eighth; the
length field is judged when its last bit is in; an insert bit due after the last check bit is awaited (R6). -/
def rxStep : Rx → TrunkBit → Rx
  | .reading data last run, b =>
    if run = Config.insertAfter then
      if b = last then .failed
      else if dataComplete data then .whole data
      else .reading data b 1
    else if data = [] && b == recessive then .reading [] recessive 0
    else
      let data' := data ++ [b]
      let run' := if b = last then run + 1 else 1
      if data'.length = 26 && decide (29 ≤ lengthCode data') then .failed
      else if dataComplete data' && run' != Config.insertAfter then .whole data'
      else .reading data' b run'
  | .failed, _ => .failed
  | .whole _, _ => .overrun
  | .overrun, _ => .overrun

/-- What a receiver makes of the bits it read, from an idle line on. -/
def receive (bits : List TrunkBit) : Rx := bits.foldl rxStep (.reading [] recessive 0)

/-- The payload bytes in a run of bits. -/
def payloadOf : Nat → List TrunkBit → List Byte
  | 0, _ => []
  | n + 1, bits => ofBits 8 (bits.take 8) :: payloadOf n (bits.drop 8)

/-- The fields of a whole frame's data bits (Table 1-2). -/
def frameOfData (data : List TrunkBit) : Frame where
  cls := ofBits 2 ((data.drop 1).take 2)
  kind := ofBits 4 ((data.drop 3).take 4)
  source := ofBits 6 ((data.drop 7).take 6)
  dest := ofBits 8 ((data.drop 13).take 8)
  payload := payloadOf (lengthCode data) (data.drop 26)

/-- The received check field equals the check of the received bits (R7). -/
def checkOk (data : List TrunkBit) : Bool :=
  let n := 25 + 8 * lengthCode data
  ofBits 16 ((data.drop (1 + n)).take 16) == crc ((data.drop 1).take n)

/-- The frame a receiver has read whole, with whether its check agrees; none if the bits are no whole coded
part. -/
def receivedFrame (bits : List TrunkBit) : Option (Frame × Bool) :=
  match receive bits with
  | .whole data => some (frameOfData data, checkOk data)
  | _ => none

/-- The last of these bits is where a receiver finds an error that draws a break (R3). -/
def breaksAtLast (bits : List TrunkBit) : Bool :=
  receive bits == .failed && receive bits.dropLast != .failed

/-- Bit times a frame occupies without insert bits, start bit to the end of the window (R6). -/
def Frame.bitTimes (f : Frame) : Nat := f.dataBits.length + 2

/-! ### Payload layouts (sections 2.4 to 2.6) -/

/-- The profile block (Table 2-7). -/
def RawProfile.bytes (p : RawProfile) : List Byte :=
  p.cls :: (bytes3 p.fl ++ bytes3 p.fh ++ bytes3 p.accel ++ bytes3 p.decel)

/-- The segment kind code (Table 2-5). -/
def LoadBody.code : LoadBody → Byte
  | .move _ _ => 0
  | .moveTo _ _ => 1
  | .span _ _ _ => 2
  | .run _ _ _ => 3
  | .dwell _ => 4
  | .seek _ _ _ _ _ => 5

/-- The kind-specific part (Table 2-6). -/
def LoadBody.bytes : LoadBody → List Byte
  | .move d p => bytes4 d ++ p.bytes
  | .moveTo t p => bytes4 t ++ p.bytes
  | .span d n p => bytes4 d ++ bytes3 n ++ p.bytes
  | .run dir m p => [dir, m] ++ p.bytes
  | .dwell ms => bytes2 ms
  | .seek dir opt idx pre p => [dir, opt, idx] ++ bytes4 pre ++ p.bytes

/-- The LOAD payload (Tables 2-5 and 2-6). -/
def LoadRecord.payload (reference : Byte) (r : LoadRecord) : List Byte :=
  [reference, r.tag, r.body.code, r.slot, r.start, r.startMark] ++ r.body.bytes

/-- The nineteen setting bytes (Table 2-9). -/
def SetupFields.bytes (f : SetupFields) : List Byte :=
  [f.report, f.mask, f.retry] ++ bytes2 f.timeout ++ bytes2 f.following ++ [f.softEnable] ++ bytes4 f.softMin
    ++ bytes4 f.softMax ++ [f.stopOutput, f.encoder, f.polarity]

/-- A ROUTINE frame to one station. -/
def requestFrame (kind : BitVec 4) (source own : StationId) (payload : List Byte) : Frame :=
  { cls := clsRoutine, kind, source, dest := destStation own, payload }

/-- The frame on the wire that a frame command stands for at the node with station number `own` (R27, R29 to
R33); none for a command that is no frame with fields of its own. -/
def frameOf (own : StationId) : Instr → Option Frame
  | .restartTaken src _ => some { cls := clsUrgent, kind := kindRestart, source := src, dest := destAll, payload := [] }
  | .frameTakenNoEffect f => some f
  | .haltGroupTaken src g cause mode tag =>
    some { cls := clsUrgent, kind := kindHalt, source := src, dest := destGroup g, payload := [cause, mode, tag] }
  | .haltAllTaken src cause mode tag =>
    some { cls := clsUrgent, kind := kindHalt, source := src, dest := destAll, payload := [cause, mode, tag] }
  | .clearGroupTaken src g n =>
    some { cls := clsUrgent, kind := kindClear, source := src, dest := destGroup g, payload := [n] }
  | .clearAllTaken src n =>
    some { cls := clsUrgent, kind := kindClear, source := src, dest := destAll, payload := [n] }
  | .clearStationTaken src ref =>
    some { cls := clsUrgent, kind := kindClear, source := src, dest := destStation own, payload := [ref] }
  | .readyTaken src g n tag =>
    some { cls := clsTimed, kind := kindReady, source := src, dest := destGroup g, payload := [n, tag] }
  | .markTaken src unit packed pos =>
    some { cls := clsTimed, kind := kindMark, source := src, dest := destAll, payload := [unit, packed] ++ bytes4 pos }
  | .load src ref r => some (requestFrame kindLoad src own (r.payload ref))
  | .flushAll src ref v => some (requestFrame kindFlush src own [ref, 0, v])
  | .flushTag src ref v => some (requestFrame kindFlush src own [ref, 1, v])
  | .flushSlot src ref v => some (requestFrame kindFlush src own [ref, 2, v])
  | .stop src ref mode tag => some (requestFrame kindStop src own [ref, mode, tag])
  | .marksetArm src ref u sc t p =>
    some (requestFrame kindMarkset src own ([ref, u, 0, sc] ++ bytes4 t ++ bytes3 p))
  | .marksetDisarm src ref u rest => some (requestFrame kindMarkset src own ([ref, u, 1] ++ bytes8 rest))
  | .queryStatus src ref item _ => some (requestFrame kindQuery src own [ref, 0, item])
  | .queryPosition src ref item => some (requestFrame kindQuery src own [ref, 1, item])
  | .queryQueue src ref item => some (requestFrame kindQuery src own [ref, 2, item])
  | .queryGroup src ref item => some (requestFrame kindQuery src own [ref, 3, item])
  | .queryMarks src ref item => some (requestFrame kindQuery src own [ref, 4, item])
  | .querySetup src ref item => some (requestFrame kindQuery src own [ref, 5, item])
  | .setup src ref f => some (requestFrame kindSetup src own (ref :: f.bytes))
  | .define src ref slot addr roster => some (requestFrame kindDefine src own ([ref, slot, addr] ++ bytes8 roster))
  | .commit src ref => some (requestFrame kindCommit src own [ref])
  | .nresetAsserted _ | .nresetReleased _ | .joiningIdleReached | .attemptStart _ | .arbitrationLost
  | .mismatchTestEnd _ | .codingError _ | .frameVoided _ _ _ | .attemptVoided _ | .linkStuck | .stuckRecovery
  | .ownAnswerTaken | .ownNoticeTaken | .rendezvousTimeout | .intervalEnd | .pulseHighEnd | .dwellEnd
  | .driveFaultChange _ | .limitInputChange _ _ | .refChange _ | .qiRise | .quadratureTransition _ _ | .mismatch
  | .breakEnd => none

/-- The profile block's fields (Table 2-7). -/
def profileOfBytes : List Byte → Option RawProfile
  | [c, a1, a2, a3, b1, b2, b3, c1, c2, c3, d1, d2, d3] =>
    some { cls := c, fl := word3 a1 a2 a3, fh := word3 b1 b2 b3, accel := word3 c1 c2 c3, decel := word3 d1 d2 d3 }
  | _ => none

/-- The kind-specific part's fields (Table 2-6). -/
def bodyOfBytes (code : Byte) (bytes : List Byte) : Option LoadBody :=
  if code = 0 then
    match bytes with
    | a :: b :: c :: d :: rest => (profileOfBytes rest).map (.move (word4 a b c d))
    | _ => none
  else if code = 1 then
    match bytes with
    | a :: b :: c :: d :: rest => (profileOfBytes rest).map (.moveTo (word4 a b c d))
    | _ => none
  else if code = 2 then
    match bytes with
    | a :: b :: c :: d :: e :: f :: g :: rest => (profileOfBytes rest).map (.span (word4 a b c d) (word3 e f g))
    | _ => none
  else if code = 3 then
    match bytes with
    | dir :: m :: rest => (profileOfBytes rest).map (.run dir m)
    | _ => none
  else if code = 4 then
    match bytes with
    | [a, b] => some (.dwell (word2 a b))
    | _ => none
  else if code = 5 then
    match bytes with
    | dir :: opt :: idx :: a :: b :: c :: d :: rest => (profileOfBytes rest).map (.seek dir opt idx (word4 a b c d))
    | _ => none
  else none

/-- The setting fields (Table 2-9). -/
def setupOfBytes : List Byte → Option SetupFields
  | [r, m, n, t1, t2, f1, f2, e, a1, a2, a3, a4, b1, b2, b3, b4, so, en, po] =>
    some { report := r, mask := m, retry := n, timeout := word2 t1 t2, following := word2 f1 f2, softEnable := e,
           softMin := word4 a1 a2 a3 a4, softMax := word4 b1 b2 b3 b4, stopOutput := so, encoder := en, polarity := po }
  | _ => none

/-- The command that a request to the node stands for, by its payload (R31 to R33). -/
def requestOf (kind : BitVec 4) (src : StationId) (qi : Level) (payload : List Byte) : Option Instr :=
  if kind = kindClear then
    match payload with
    | [ref] => some (.clearStationTaken src ref)
    | _ => none
  else if kind = kindLoad then
    match payload with
    | ref :: tag :: code :: slot :: start :: startMark :: rest =>
      (bodyOfBytes code rest).map fun body => .load src ref { tag, slot, start, startMark, body }
    | _ => none
  else if kind = kindFlush then
    match payload with
    | [ref, sel, v] =>
      if sel = 0 then some (.flushAll src ref v)
      else if sel = 1 then some (.flushTag src ref v)
      else if sel = 2 then some (.flushSlot src ref v)
      else none
    | _ => none
  else if kind = kindStop then
    match payload with
    | [ref, mode, tag] => some (.stop src ref mode tag)
    | _ => none
  else if kind = kindMarkset then
    match payload with
    | [ref, u, action, x3, x4, x5, x6, x7, x8, x9, x10] =>
      if action = 0 then some (.marksetArm src ref u x3 (word4 x4 x5 x6 x7) (word3 x8 x9 x10))
      else if action = 1 then some (.marksetDisarm src ref u (word8 x3 x4 x5 x6 x7 x8 x9 x10))
      else none
    | _ => none
  else if kind = kindQuery then
    match payload with
    | [ref, subject, item] =>
      if subject = 0 then some (.queryStatus src ref item qi)
      else if subject = 1 then some (.queryPosition src ref item)
      else if subject = 2 then some (.queryQueue src ref item)
      else if subject = 3 then some (.queryGroup src ref item)
      else if subject = 4 then some (.queryMarks src ref item)
      else if subject = 5 then some (.querySetup src ref item)
      else none
    | _ => none
  else if kind = kindSetup then
    match payload with
    | ref :: rest => (setupOfBytes rest).map (.setup src ref)
    | _ => none
  else if kind = kindDefine then
    match payload with
    | [ref, slot, addr, a, b, c, d, e, f, g, h] => some (.define src ref slot addr (word8 a b c d e f g h))
    | _ => none
  else if kind = kindCommit then
    match payload with
    | [ref] => some (.commit src ref)
    | _ => none
  else none

/-- The command that a well-formed taken frame is at the node with station number `own` (R37), with the strap
levels and the QI level standing: a request to the node, a coordination frame for a group or for ALL, and for
every other frame FRAME_TAKEN_NO_EFFECT. The node's own ANSWER and NOTICE are rows without fields. -/
def commandOf (own : StationId) (straps : Straps) (qi : Level) (f : Frame) : Option Instr :=
  if destType f.dest = 0 then
    if destNumber f.dest = own && f.isRequest then requestOf f.kind f.source qi f.payload
    else some (.frameTakenNoEffect f)
  else if destType f.dest = 1 then
    let g := destNumber f.dest
    if f.kind = kindHalt then
      match f.payload with
      | [cause, mode, tag] => some (.haltGroupTaken f.source g cause mode tag)
      | _ => none
    else if f.kind = kindClear then
      match f.payload with
      | [n] => some (.clearGroupTaken f.source g n)
      | _ => none
    else if f.kind = kindReady then
      match f.payload with
      | [n, tag] => some (.readyTaken f.source g n tag)
      | _ => none
    else none
  else if f.kind = kindHalt then
    match f.payload with
    | [cause, mode, tag] => some (.haltAllTaken f.source cause mode tag)
    | _ => none
  else if f.kind = kindClear then
    match f.payload with
    | [n] => some (.clearAllTaken f.source n)
    | _ => none
  else if f.kind = kindRestart then some (.restartTaken f.source straps)
  else if f.kind = kindMark then
    match f.payload with
    | [unit, packed, a, b, c, d] => some (.markTaken f.source unit packed (word4 a b c d))
    | _ => none
  else some (.frameTakenNoEffect f)

end Sys2Proof
end

