-- ==== Sys2Proof/Machine/Flags.lean ====
section
/-! DEFINITION. The codes, packed bytes and sets that frames, answers and notices carry (chapter 2). -/

namespace Sys2Proof.Machine

/-- Cause codes (Table 2-4). -/
def Cause.code : Cause → Nat
  | .limitPlus => 1
  | .limitMinus => 2
  | .softLimit => 3
  | .countRange => 4
  | .driveFault => 5
  | .followingError => 6
  | .encoderError => 7
  | .trunkStuck => 8
  | .sendFailed => 9
  | .duplicateStation => 10
  | .operator => 11
  | .rendezvousTimeout => 12
  | .rosterMismatch => 13
  | .sequenceFault => 14
  | .seekFailed => 15
  | .peerAllHalt => 16

/-- All causes, by rising code. -/
def allCauses : List Cause :=
  [.limitPlus, .limitMinus, .softLimit, .countRange, .driveFault, .followingError, .encoderError, .trunkStuck,
   .sendFailed, .duplicateStation, .operator, .rendezvousTimeout, .rosterMismatch, .sequenceFault, .seekFailed,
   .peerAllHalt]

/-- The cause with a code (Table 2-4). -/
def causeOf (b : Byte) : Option Cause := allCauses.find? fun c => c.code == b.toNat

/-- A cause as a byte. -/
def Cause.byte (c : Cause) : Byte := BitVec.ofNat 8 c.code

/-- A first cause as a byte, 0 for none (R29). -/
def causeByte : Option Cause → Byte
  | none => 0
  | some c => c.byte

/-- The bit of a cause in a cause set: weight 2^(c−1) (R26). -/
def Cause.bit (c : Cause) : BitVec 16 := 1#16 <<< (c.code - 1)

/-- Membership in a cause set (R26). -/
def hasCause (set : BitVec 16) (c : Cause) : Bool := set.getLsbD (c.code - 1)

/-- The set of a list of causes. -/
def causeSet (cs : List Cause) : BitVec 16 := cs.foldl (fun s c => s ||| c.bit) 0

/-- The lowest-coded member of a cause set (R163). -/
def lowestCause (set : BitVec 16) : Option Cause := allCauses.find? fun c => hasCause set c

/-- Stop mode codes (R29). -/
def Mode.byte : Mode → Byte
  | .smooth => 0
  | .abrupt => 1

/-- The mode a code names (R29). -/
def modeOf (b : Byte) : Option Mode :=
  if b = 0 then some .smooth else if b = 1 then some .abrupt else none

/-- Outcome codes (R36). -/
def SegOutcome.byte : SegOutcome → Byte
  | .done => 0
  | .stopped => 1
  | .halted => 2
  | .faulted => 3
  | .seekFailed => 4
  | .flushed => 5

/-- Notice type codes (Table 2-16). -/
def NoticeType.byte : NoticeType → Byte
  | .done => 0
  | .halt => 1
  | .fault => 2
  | .empty => 3
  | .seek => 4
  | .link => 5

/-- The bit of a notice type in the notice mask (Table 2-9). -/
def NoticeType.maskBit : NoticeType → Nat
  | .done => 0
  | .halt => 1
  | .fault => 2
  | .empty => 3
  | .seek => 4
  | .link => 5

/-- Node state codes (R35). -/
def NodeState.byte : NodeState → Byte
  | .held => 0
  | .setup => 1
  | .run => 2
  | .silent => 3

/-- Link state codes (R35). -/
def Link.byte : Link → Byte
  | .held => 0
  | .joining => 1
  | .listening => 2
  | .sending => 3
  | .stuck => 4
  | .silent => 5

/-- Guard state codes (R35). -/
def GuardState.byte : GuardState → Byte
  | .normal => 0
  | .stopping => 1
  | .stopped => 2

/-- Segment state codes (R35). -/
def SegState.byte : SegState → Byte
  | .queued => 1
  | .waiting => 2
  | .announcing => 3
  | .announced => 4
  | .running => 5
  | .ending _ _ => 6

/-- Group state codes of a live slot (R35). -/
def GroupState.byte : GroupState → Byte
  | .opened => 0
  | .armed => 1
  | .halted _ _ => 2

/-- Phase codes (R35). -/
def Phase.byte : Phase → Byte
  | .idle => 0
  | .accel => 1
  | .cruise => 2
  | .decel => 3
  | .creep => 4
  | .dwell => 5
  | .search => 6
  | .count => 7

/-- Mark unit state codes (R35). -/
def MarkState.code : MarkState → BitVec 2
  | .disarmed => 0
  | .armed => 1
  | .fired => 2

/-- Mark source codes (Table 2-8). -/
def MarkSource.code : MarkSource → BitVec 1
  | .command => 0
  | .feedback => 1

/-- Mark condition codes (Table 2-8). -/
def MarkCond.code : MarkCond → BitVec 2
  | .crossUp => 0
  | .crossDown => 1
  | .atOrAbove => 2
  | .atOrBelow => 3

/-- Reset cause codes (Table 2-14). -/
def ResetCause.byte : ResetCause → Byte
  | .pin => 0
  | .restart => 1

/-- Results of a request (Table 2-12). -/
inductive Result where
  | accepted
  | state
  | full
  | duplicateTag
  | range
  | slotUndefined
  | notFound
  | locked
  | setupInvalid
  | stillActive
  deriving DecidableEq, Repr

/-- Result codes (Table 2-12). -/
def Result.byte : Result → Byte
  | .accepted => 0
  | .state => 1
  | .full => 2
  | .duplicateTag => 3
  | .range => 4
  | .slotUndefined => 5
  | .notFound => 6
  | .locked => 7
  | .setupInvalid => 8
  | .stillActive => 9

/-- A mark reference as its byte: station in bits 7 to 2, unit in bits 1 to 0 (R26). -/
def MarkRef.byte (m : MarkRef) : Byte := m.station ++ BitVec.ofNat 2 m.unit.val

/-- Packed byte 1 of a MARK: saturated flag in bit 7, count in bits 3 to 0 (R30). -/
def Firings.packed (f : Firings) : Byte := BitVec.ofBool f.saturated ++ 0#3 ++ BitVec.ofNat 4 f.count

/-- The flags byte of a NOTICE: the overflow flag in bit 7 (R36). -/
def flagsByte (overflow : Bool) : Byte := BitVec.ofBool overflow ++ 0#7

/-- A count reported in 3 bytes, at most 16,777,215 (R120). -/
def steps3 (n : Nat) : List Byte := bytes3 (BitVec.ofNat 24 (min n Config.stepsMax))

/-- The station number 0 stands for "no station" in reports (R29, Table 2-14). -/
def stationByte : Option StationId → Byte
  | none => 0
  | some n => n.setWidth 8

/-- LINK reason codes (R36). -/
abbrev reasonMarkAbandoned : Byte := 0
abbrev reasonReadyAbandoned : Byte := 1
abbrev reasonMarksFull : Byte := 2
abbrev reasonStuckRecovered : Byte := 3

end Sys2Proof.Machine
end

