-- ==== Sys2Proof/Machine/Operands.lean ====
section
/-! DEFINITION. The values that a request's number fields stand for, and the range checks the addressed node
makes on them (R28, R31 to R33, R46, R55, R56). A check that fails answers none. -/

namespace Sys2Proof.Machine

/-- A direction byte, PLUS 0 or MINUS 1 (R56). -/
def dirOf (b : Byte) : Option Dir :=
  if b = 0 then some .plus else if b = 1 then some .minus else none

/-- A mark reference that names a station (R26). -/
def markRefOf (b : Byte) : Option MarkRef :=
  let st : StationId := b.extractLsb' 2 6
  if stationOk st then some { station := st, unit := ⟨(b.extractLsb' 0 2).toNat, (b.extractLsb' 0 2).isLt⟩ } else none

/-- An end mark byte: 00h is NONE, otherwise a mark reference (R56). -/
def endMarkOf (b : Byte) : Option (Option MarkRef) :=
  if b = 0 then some none else (markRefOf b).map some

/-- A group slot byte: 0 to 7, or FFh for NONE (R55). -/
def slotOf (b : Byte) : Option (Option (Fin 8)) :=
  if b = 0xFF then some none
  else if h : b.toNat < 8 then some (some ⟨b.toNat, h⟩)
  else none

/-- A slot number of 0 to 7. -/
def slotIndexOf (b : Byte) : Option (Fin 8) := if h : b.toNat < 8 then some ⟨b.toNat, h⟩ else none

/-- A mark unit of 0 to 3. -/
def unitOf (b : Byte) : Option (Fin 4) := if h : b.toNat < 4 then some ⟨b.toNat, h⟩ else none

/-- Profile class codes (Table 2-7). -/
def profileClassOf (b : Byte) : Option ProfileClass :=
  if b = 0 then some .flatLow else if b = 1 then some .flatHigh else if b = 2 then some .ramp else none

/-- The profile block: all five fields are checked whatever the class (R31, R56). -/
def profileOf (r : RawProfile) : Option Profile :=
  match profileClassOf r.cls with
  | none => none
  | some cls =>
    let p : Profile := { cls, fl := r.fl.toNat, fh := r.fh.toNat, accel := r.accel.toNat, decel := r.decel.toNat }
    if 10 ≤ p.fl ∧ p.fl ≤ 100000 ∧ p.fl ≤ p.fh ∧ p.fh ≤ 250000 ∧ 1 ≤ p.accel ∧ p.accel ≤ 1000000
        ∧ 1 ≤ p.decel ∧ p.decel ≤ 1000000 then some p
    else none

/-- A signed field within −16,777,215 to +16,777,215 (R56). -/
def distanceOf (x : BitVec 32) : Option Int :=
  if x.toInt.natAbs ≤ Config.stepsMax then some x.toInt else none

/-- A signed field within the counter range (R26). -/
def positionOf (x : BitVec 32) : Option Int := if inCounterRange x.toInt then some x.toInt else none

/-- The options and index count of a SEEK (R56): no bit but bits 0 and 1; the index count is 1 to 16 for INDEX
and not examined for EDGE. -/
def variantOf (options indexCount : Byte) : Option SeekVariant :=
  if options &&& 0xFC ≠ 0 then none
  else if options.getLsbD 0 then
    if 1 ≤ indexCount.toNat ∧ indexCount.toNat ≤ 16 then some (.index indexCount.toNat) else none
  else some .edge

/-- The kind-specific part (R56). -/
def kindOf : LoadBody → Option SegKind
  | .move d p => do
    let d ← distanceOf d
    let p ← profileOf p
    if d = 0 then none else some (.move d p)
  | .moveTo t p => do
    let t ← positionOf t
    let p ← profileOf p
    some (.moveTo t p)
  | .span d n p => do
    let d ← distanceOf d
    let p ← profileOf p
    if 1 ≤ n.toNat ∧ d.natAbs ≤ n.toNat then some (.span d n.toNat p) else none
  | .run dir m p => do
    let dir ← dirOf dir
    let m ← endMarkOf m
    let p ← profileOf p
    some (.run dir m p)
  | .dwell ms => if 1 ≤ ms.toNat then some (.dwell ms.toNat) else none
  | .seek dir opt idx pre p => do
    let dir ← dirOf dir
    let variant ← variantOf opt idx
    let preset ← positionOf pre
    let p ← profileOf p
    some (.seek { dir, variant, reverse := opt.getLsbD 1, preset } p)

/-- The start with its mark (R55): 00h unless the start is MARK. -/
def startOf (start startMark : Byte) : Option StartCond :=
  if start = 0 then if startMark = 0 then some .immediate else none
  else if start = 1 then if startMark = 0 then some .rendezvous else none
  else if start = 2 then (markRefOf startMark).map .mark
  else none

/-- The kind is SPAN. -/
def SegKind.isSpan : SegKind → Bool
  | .span _ _ _ => true
  | _ => false

/-- The segment a LOAD payload stands for, QUEUED; none where a constraint of R55 or R56 is broken. -/
def segmentOf (r : LoadRecord) : Option Segment := do
  let slot ← slotOf r.slot
  let start ← startOf r.start r.startMark
  let kind ← kindOf r.body
  if r.tag = 0 then none
  else if start = .rendezvous ∧ slot = none then none
  else if kind.isSpan ∧ (slot = none ∨ start ≠ .rendezvous) then none
  else some { tag := r.tag, kind, slot, start, state := .queued }

/-- The report station (Table 2-9). -/
def reportOf (b : Byte) : Option ReportTo :=
  if b = 0 then some .nobody
  else if b.toNat ≤ 62 then some (.station (b.setWidth 6))
  else if b = 63 then some .everyone
  else none

/-- A yes or no byte (Table 2-9). -/
def yesNoOf (b : Byte) : Option Bool := if b = 0 then some false else if b = 1 then some true else none

/-- Encoder mode codes (Table 2-9). -/
def encModeOf (c : BitVec 2) : EncMode :=
  if c = 0 then .off else if c = 1 then .x1 else if c = 2 then .x2 else .x4

/-- The settings a SETUP carries; none if any field is outside its range (R46, Table 2-9). -/
def settingsOf (f : SetupFields) : Option Settings := do
  let report ← reportOf f.report
  let softEnable ← yesNoOf f.softEnable
  let softMin ← positionOf f.softMin
  let softMax ← positionOf f.softMax
  if f.mask &&& 0xC0 = 0 ∧ 1 ≤ f.retry.toNat ∧ f.retry.toNat ≤ 15 ∧ f.timeout.toNat ≤ 60000
      ∧ f.stopOutput &&& 0xFC = 0 ∧ f.encoder &&& 0x7C = 0 ∧ f.polarity &&& 0xF0 = 0 then
    some {
      report, mask := f.mask, retryLimit := f.retry.toNat, timeout := f.timeout.toNat
      following := f.following.toNat, softEnable, softMin, softMax
      limitMode := if f.stopOutput.getLsbD 0 then .abrupt else .smooth
      form := if f.stopOutput.getLsbD 1 then .cwCcw else .stepDir
      encMode := encModeOf (f.encoder.extractLsb' 0 2)
      encInvert := f.encoder.getLsbD 7
      limpHigh := f.polarity.getLsbD 0
      limnHigh := f.polarity.getLsbD 1
      dfltHigh := f.polarity.getLsbD 2
      refRising := f.polarity.getLsbD 3 }
  else none

/-- The report station's byte (Table 2-9). -/
def ReportTo.byte : ReportTo → Byte
  | .nobody => 0
  | .station n => n.setWidth 8
  | .everyone => 63

/-- Encoder mode codes (Table 2-9). -/
def EncMode.code : EncMode → BitVec 2
  | .off => 0
  | .x1 => 1
  | .x2 => 2
  | .x4 => 3

/-- The setting bytes in force, as QUERY SETUP returns them (R33, Table 2-15). -/
def fieldsOf (s : Settings) : SetupFields where
  report := s.report.byte
  mask := s.mask
  retry := BitVec.ofNat 8 s.retryLimit
  timeout := BitVec.ofNat 16 s.timeout
  following := BitVec.ofNat 16 s.following
  softEnable := if s.softEnable then 1 else 0
  softMin := BitVec.ofInt 32 s.softMin
  softMax := BitVec.ofInt 32 s.softMax
  stopOutput := 0#6 ++ BitVec.ofBool (s.form == .cwCcw) ++ BitVec.ofBool (s.limitMode == .abrupt)
  encoder := BitVec.ofBool s.encInvert ++ 0#5 ++ s.encMode.code
  polarity := 0#4 ++ BitVec.ofBool s.refRising ++ BitVec.ofBool s.dfltHigh ++ BitVec.ofBool s.limnHigh
    ++ BitVec.ofBool s.limpHigh

/-- Members of a station set (R26). -/
def setSize (set : StationSet) : Nat := (List.range 64).countP fun i => set.getLsbD i

/-- Membership in a station set (R26). -/
def hasStation (set : StationSet) (n : StationId) : Bool := set.getLsbD n.toNat

/-- The set with a station added. -/
def addStation (set : StationSet) (n : StationId) : StationSet := set ||| (1#64 <<< n.toNat)

/-- The definition a DEFINE carries for a node with number `own` (R48, checks 2 to 5): some none empties the
slot, none is RANGE. -/
def definitionOf (own : StationId) (address : Byte) (roster : StationSet) : Option (Option GroupDef) :=
  if address = 0 then some none
  else if 31 < address.toNat then none
  else if roster.getLsbD 0 || roster.getLsbD 63 then none
  else if !hasStation roster own then none
  else if setSize roster < 2 ∨ 16 < setSize roster then none
  else some (some { address := address.setWidth 6, roster })

/-- The source of a MARKSET ARM (Table 2-8, byte 3 bit 4). -/
def markSourceOf (b : Byte) : MarkSource := if b.getLsbD 4 then .feedback else .command

/-- The condition of a MARKSET ARM (Table 2-8, byte 3 bits 1 to 0). -/
def markCondOf (b : Byte) : MarkCond :=
  let c : BitVec 2 := b.extractLsb' 0 2
  if c = 0 then .crossUp else if c = 1 then .crossDown else if c = 2 then .atOrAbove else .atOrBelow

end Sys2Proof.Machine
end

