-- ==== Sys2Proof/Machine/Ops.lean ====
section
/-! DEFINITION. Shared operations of the Trunk Interface and the Notice Backlog: admission, withdrawal, the
folding of firings, the frame on the line, what is taken, and notices. -/

namespace Sys2Proof.Machine

/-- The eight group slots, ascending. -/
def allSlots : List (Fin 8) := [0, 1, 2, 3, 4, 5, 6, 7]

/-- The four mark units, ascending. -/
def allUnits : List (Fin 4) := [0, 1, 2, 3]

/-- The node's own station number (R40). -/
def State.own (s : State) : StationId := s.ss.straps.stn

/-- The oldest segment (R59). -/
def State.head? (s : State) : Option Segment := s.queue.head?

/-- The live group in a slot (R81). -/
def State.group? (s : State) (k : Fin 8) : Option Group :=
  match s.ru.slots[k] with
  | .live g => some g
  | _ => none

/-- The slot that holds a live group with this address (R37). -/
def State.slotOfAddress? (s : State) (a : GroupAddr) : Option (Fin 8) :=
  allSlots.find? fun k => (s.group? k).any fun g => g.address == a

/-- Replace a slot of the group table. -/
def State.setSlot (k : Fin 8) (x : Slot) (s : State) : State :=
  { s with ru := { s.ru with slots := s.ru.slots.set k x } }

/-- The address a slot's HALT is sent to (R25). -/
def State.slotAddress (s : State) (k : Fin 8) : GroupAddr := ((s.group? k).map Group.address).getD 0

/-! ### The transmit queue -/

/-- The limit of R21 for a frame's kind, and the entries that count against it. -/
def txLimit : TxFrame → Nat
  | .answer _ _ _ => 2
  | _ => 1

/-- Whether two frames count against the same limit of R21. -/
def sameLimit : TxFrame → TxFrame → Bool
  | .ready _ _ _ _, .ready _ _ _ _ => true
  | .mark u _, .mark v _ => u == v
  | .answer _ _ _, .answer _ _ _ => true
  | .notice _ _ _, .notice _ _ _ => true
  | _, _ => false

/-- Admission (R21): the frame joins the end with attempt count 0, unless its kind's limit is reached. -/
def enqueue (f : TxFrame) (s : State) : State :=
  if (s.tif.queue.countP fun e => sameLimit f e.frame) < txLimit f then
    { s with tif := { s.tif with queue := s.tif.queue ++ [{ frame := f, attempts := 0, onLine := false, withdrawn := false }] } }
  else s

/-- The frame is a READY. -/
def TxFrame.isReady : TxFrame → Bool
  | .ready _ _ _ _ => true
  | _ => false

/-- The frame is the MARK of a unit. -/
def TxFrame.isMark (u : Fin 4) : TxFrame → Bool
  | .mark v _ => u == v
  | _ => false

/-- The frame is a NOTICE. -/
def TxFrame.isNotice : TxFrame → Bool
  | .notice _ _ _ => true
  | _ => false

/-- The frame is an ANSWER. -/
def TxFrame.isAnswer : TxFrame → Bool
  | .answer _ _ _ => true
  | _ => false

/-- Withdrawal (R24) of the entries a test picks: off the line they are removed at once, on the line the
withdrawal is recorded. -/
def withdraw (p : TxFrame → Bool) (s : State) : State :=
  let q := s.tif.queue.filterMap fun e =>
    if p e.frame then (if e.onLine then some { e with withdrawn := true } else none) else some e
  { s with tif := { s.tif with queue := q } }

/-- Withdrawal of the node's READY (R24). -/
def withdrawReady (s : State) : State := withdraw TxFrame.isReady s

/-- Change in place the frames a test picks that are not on the line (R22). -/
def changeWaiting (p : TxFrame → Bool) (g : TxFrame → TxFrame) (s : State) : State :=
  let q := s.tif.queue.map fun e => if p e.frame && !e.onLine then { e with frame := g e.frame } else e
  { s with tif := { s.tif with queue := q } }

/-- The entry on the line (R21). -/
def State.onLineEntry? (s : State) : Option TxEntry := s.tif.queue.find? fun e => e.onLine

/-- The slot whose owed HALT is on the line. -/
def State.onLineHalt? (s : State) : Option (Fin 8) :=
  allSlots.find? fun k => (s.tif.owed[k]).any fun e => e.onLine

/-- The frame on the wire of a transmit queue entry (R30, R34, R36). -/
def TxFrame.wire (own : StationId) : TxFrame → Frame
  | .ready _ g n tag => { cls := clsTimed, kind := kindReady, source := own, dest := destGroup g, payload := [n, tag] }
  | .mark u f =>
    { cls := clsTimed, kind := kindMark, source := own, dest := destAll,
      payload := [BitVec.ofNat 8 u.val, f.packed] ++ signed4 f.position }
  | .answer _ st payload => { cls := clsRoutine, kind := kindAnswer, source := own, dest := destStation st, payload }
  | .notice dest overflow n =>
    { cls := clsRoutine, kind := kindNotice, source := own, dest,
      payload := [n.type.byte, flagsByte overflow] ++ n.contents }

/-- The HALT of a halt-owed entry on the wire (R25, R29). -/
def HaltEntry.wire (own : StationId) (g : GroupAddr) (e : HaltEntry) : Frame :=
  { cls := clsUrgent, kind := kindHalt, source := own, dest := destGroup g, payload := [e.cause.byte, e.mode.byte, e.tag] }

/-- The node's frame on the line, if it is sending one (R11, R21). -/
def State.lineFrame? (s : State) : Option Frame :=
  match s.onLineHalt? with
  | some k => (s.tif.owed[k]).map fun e => e.wire s.own (s.slotAddress k)
  | none => s.onLineEntry?.map fun e => e.frame.wire s.own

/-! ### Firings and MARK frames -/

/-- `k` more firings counted into a record that counts `c` (R144): at most 15, with the saturated flag beyond. -/
def Firings.more (k : Nat) (f : Firings) : Firings :=
  { f with count := min Config.markCountMax (f.count + k), saturated := f.saturated || decide (Config.markCountMax < f.count + k) }

/-- `k` firings with position `n`, as a record of their own (R144). -/
def Firings.fresh (k : Nat) (n : Int) : Firings := Firings.more k { count := 0, saturated := false, position := n }

/-- Held firings added into the frame (R145): the frame keeps its own position. -/
def Firings.fold (held f : Firings) : Firings :=
  { f with
    count := min Config.markCountMax (f.count + held.count)
    saturated := f.saturated || held.saturated || decide (Config.markCountMax < f.count + held.count) }

/-- Replace a mark unit's record. -/
def State.setUnit (u : Fin 4) (x : MarkUnit) (s : State) : State :=
  { s with pb := { s.pb with units := s.pb.units.set u x } }

/-- The MARK of a unit in the transmit queue, its frame record (Table 8-3). -/
def State.markEntry? (s : State) (u : Fin 4) : Option TxEntry := s.tif.queue.find? fun e => e.frame.isMark u

/-- The firings of a MARK changed; other frames stay. -/
def TxFrame.mapFirings (g : Firings → Firings) : TxFrame → TxFrame
  | .mark u f => .mark u (g f)
  | f => f

/-- `k` firings of unit `u` at position `n` handed to its MARK (R144): a new MARK, more counted into the waiting
one, or held while it is on the line. -/
def handFirings (u : Fin 4) (k : Nat) (n : Int) (s : State) : State :=
  if k = 0 then s else
  match s.markEntry? u with
  | none => enqueue (.mark u (Firings.fresh k n)) s
  | some e =>
    if e.onLine then
      let x := s.pb.units[u]
      s.setUnit u { x with held := some (match x.held with | none => Firings.fresh k n | some h => h.more k) }
    else changeWaiting (TxFrame.isMark u) (TxFrame.mapFirings (Firings.more k)) s

/-- A new MARK from a unit's held firings, which become none (R145, taken and abandoned). -/
def releaseHeld (u : Fin 4) (s : State) : State :=
  let x := s.pb.units[u]
  match x.held with
  | none => s
  | some h => enqueue (.mark u h) (s.setUnit u { x with held := none })

/-- A unit's held firings folded into its waiting MARK (R145, voided and arbitration lost). -/
def foldHeld (u : Fin 4) (s : State) : State :=
  let x := s.pb.units[u]
  match x.held with
  | none => s
  | some h => changeWaiting (TxFrame.isMark u) (TxFrame.mapFirings h.fold) (s.setUnit u { x with held := none })

/-! ### Notices -/

/-- A notice of this type is reported (R173): the report station is not NONE and the mask holds the type. -/
def State.reports (s : State) (t : NoticeType) : Bool :=
  s.ss.settings.report != .nobody && s.ss.settings.mask.getLsbD t.maskBit

/-- There is a pending NOTICE (R174). -/
def State.noticePending (s : State) : Bool := s.tif.queue.any fun e => e.frame.isNotice

/-- The destination of a NOTICE (R36); NONE has none. -/
def ReportTo.dest : ReportTo → Option Byte
  | .nobody => none
  | .station n => some (destStation n)
  | .everyone => some destAll

/-- Composition of the next NOTICE (R175): outside SILENT, with no pending NOTICE and a list that is not empty.
With report station NONE every entry is discarded and the overflow flag set. -/
def composeNotice (s : State) : State :=
  if s.ss.node = .silent || s.noticePending then s else
  match s.nb.list with
  | [] => s
  | n :: rest =>
    match ReportTo.dest s.ss.settings.report with
    | none => { s with nb := { s.nb with list := [], overflow := true } }
    | some d =>
      enqueue (.notice d s.nb.overflow n) { s with nb := { s.nb with list := rest, lateOverflow := false } }

/-- The overflow flag set in a NOTICE's flags byte (R174). -/
def TxFrame.markOverflow : TxFrame → TxFrame
  | .notice d _ n => .notice d true n
  | f => f

/-- A notice discarded (R174): the overflow flag is set, and the pending NOTICE carries it, in place while it
waits, or has its late-overflow marker set while it is on the line. -/
def discardNotice (s : State) : State :=
  let s := { s with nb := { s.nb with overflow := true } }
  if s.tif.queue.any (fun e => e.frame.isNotice && e.onLine) then { s with nb := { s.nb with lateOverflow := true } }
  else changeWaiting TxFrame.isNotice TxFrame.markOverflow s

/-- A produced notice (R173, R174). With no pending NOTICE outside SILENT it is composed at once; otherwise it
joins the list, or is discarded when the list holds 8. -/
def produce (t : NoticeType) (contents : List Byte) (s : State) : State :=
  if !s.reports t then s
  else if s.nb.list.length < Config.backlogCapacity then
    composeNotice { s with nb := { s.nb with list := s.nb.list ++ [{ type := t, contents }] } }
  else discardNotice s

/-- The pending NOTICE has been taken (R176): a flag it carried is cleared unless its late-overflow marker is
set; the next NOTICE is composed. -/
def noticeTaken (carried : Bool) (s : State) : State :=
  composeNotice { s with nb := { s.nb with
    overflow := if carried && !s.nb.lateOverflow then false else s.nb.overflow
    lateOverflow := false } }

/-- The pending NOTICE waits again (R176): a late overflow is set in its flags byte. -/
def noticeWaits (s : State) : State :=
  if s.nb.lateOverflow then
    changeWaiting TxFrame.isNotice TxFrame.markOverflow { s with nb := { s.nb with lateOverflow := false } }
  else s

/-- The pending NOTICE has been abandoned (R176): the flag stays as it stands. -/
def noticeAbandoned (s : State) : State := composeNotice { s with nb := { s.nb with lateOverflow := false } }

/-- The command counter as a notice carries it. -/
def State.commandBytes (s : State) : List Byte := signed4 s.pb.command

/-! ### Answer slots -/

/-- Free an answer slot (R170). -/
def freeSlot (i : Fin 2) (s : State) : State := { s with fh := { s.fh with slots := s.fh.slots.set i none } }

/-- The answer slot a request occupies, the lowest free one (R170, entry 11). -/
def State.freeSlot? (s : State) : Option (Fin 2) :=
  if s.fh.slots[0].isNone then some 0 else if s.fh.slots[1].isNone then some 1 else none

/-- Occupied answer slots (R170). -/
def State.slotsInUse (s : State) : Nat :=
  (if s.fh.slots[0].isSome then 1 else 0) + (if s.fh.slots[1].isSome then 1 else 0)

/-! ### The line -/

/-- The line is idle (R4). -/
def State.lineIdle (s : State) : Bool := decide (Config.idleLength ≤ s.tif.idleCount)

/-- The recessive bit times in a row once these bits have been read, counted on from `n`; a dominant one sets the count
back to zero (R4). -/
def idleCountAfter (n : Nat) (bits : List TrunkBit) : Nat :=
  bits.foldl (fun n b => if b = recessive then n + 1 else 0) n

/-- The bits from the first instant at which the line is idle on, with `n` recessive bit times counted before them; none
if it does not become idle (R4). -/
def fromIdle (n : Nat) : List TrunkBit → Option (List TrunkBit)
  | [] => if Config.idleLength ≤ n then some [] else none
  | b :: rest => if Config.idleLength ≤ n then some (b :: rest) else fromIdle (if b = recessive then n + 1 else 0) rest

/-- The bits that the receiver decodes (R3): all that were read, or those from the idle line on when the frame before
them was broken; none while it goes on waiting for the line to become idle. -/
def State.decodes (s : State) (bits : List TrunkBit) : Option (List TrunkBit) :=
  if s.tif.reception = .skips then fromIdle s.tif.idleCount bits else some bits

/-- The node has read these bits on the line between two rows, LISTENING and driving nothing (R4, R5). The idle count runs
over them. On an idle line the frame before it is over, and a dominant bit on an idle line is the start bit of another
station's frame, which the node receives. -/
def readLine (bits : List TrunkBit) (s : State) : State :=
  let n := idleCountAfter s.tif.idleCount bits
  { s with tif := { s.tif with
    idleCount := n
    reception :=
      if Config.idleLength ≤ n then .awaits
      else if (fromIdle s.tif.idleCount bits).isSome then .reads
      else s.tif.reception } }

/-! ### Taking a frame -/

/-- The busy complaint (R10): a request to the node's own station while both answer slots are occupied. -/
def State.busyFor (s : State) (f : Frame) : Bool :=
  f.dest == destStation s.own && f.isRequest && s.freeSlot?.isNone

/-- The node takes frame `f` (R9 to R11): as a LISTENING station that drives no break, when the frame is well formed and
draws no busy complaint; or as the sender, when `f` is its own frame on the line. A frame that is taken is never one that
was broken, for that one is voided at every station (R3): after a break it is a later frame, which began on an idle line
(R5), and with its window the node decodes again (entry 22). -/
def State.takes (s : State) (f : Frame) : Bool :=
  (s.tif.link == .listening && s.tif.breakLeft == 0 && !f.malformed && !s.busyFor f)
    || (s.tif.link == .sending && !s.tif.mismatchTest && s.lineFrame? == some f)

/-- The entry on the line leaves the queue (R12, R14, R24). -/
def dropOnLine (s : State) : State :=
  { s with tif := { s.tif with queue := s.tif.queue.filter fun x => !x.onLine } }

/-- The node's attempt ends with its frame taken (R12): the frame leaves the halt-owed set or the queue, and its
producer is told (R145, R170, R176), unless it has withdrawn the frame (R24). -/
def attemptTaken (s : State) : State :=
  match s.onLineHalt? with
  | some k => { s with tif := { s.tif with owed := s.tif.owed.set k none } }
  | none =>
    match s.onLineEntry? with
    | none => s
    | some e =>
      let s := dropOnLine s
      if e.withdrawn then s else
      match e.frame with
      | .ready _ _ _ _ => s
      | .mark u _ => releaseHeld u s
      | .answer i _ _ => freeSlot i s
      | .notice _ carried _ => noticeTaken carried s

/-- The end of a frame's window on the trunk, from which the idle count starts (R4, R12): the link is LISTENING,
the node drives nothing and decodes the next frame, its window bits stand as given. -/
def windowEnds (a b : TrunkBit) (s : State) : State :=
  { s with tif := { s.tif with
    link := .listening, txd := recessive, idleCount := 0, reception := .awaits, windowA := a, windowB := b } }

/-- TIF's part in the taking of a frame (R11, R12). -/
def taken (s : State) : State :=
  if s.tif.link = .sending then attemptTaken (windowEnds recessive recessive s) else windowEnds recessive recessive s

end Sys2Proof.Machine
end

