-- ==== Sys2Proof/Machine/Profile.lean ====
section
/-! DEFINITION. The Profile Generator's own operations: speeds held as squares, the choice of the next speed,
the start of a segment, stops, and the pulse lines (chapter 6, and R122 for a SEEK). -/

namespace Sys2Proof.Machine

/-! ### Speeds -/

/-- FL squared. -/
def Profile.flSq (p : Profile) : Nat := p.fl * p.fl

/-- FH squared. -/
def Profile.fhSq (p : Profile) : Nat := p.fh * p.fh

/-- What one acceleration step adds to the speed squared: 2 × accel, the field being in 10 steps/s² (R109). -/
def Profile.accelSq (p : Profile) : Nat := 2 * (10 * p.accel)

/-- What one deceleration step takes from the speed squared (R109). -/
def Profile.decelSq (p : Profile) : Nat := 2 * (10 * p.decel)

/-- One acceleration step above `v`, held at FH (R109). -/
def Profile.accelStep (p : Profile) (v : Nat) : Nat := min (v + p.accelSq) p.fhSq

/-- One deceleration step below `v`, held at FL (R109). -/
def Profile.decelStep (p : Profile) (v : Nat) : Nat := max (v - p.decelSq) p.flSq

/-- The ramp-down distance from `v`: (v² − FL²) / (2 × decel), rounded up (R109). -/
def Profile.rampDown (p : Profile) (v : Nat) : Nat := (v - p.flSq + (p.decelSq - 1)) / p.decelSq

/-- The speed of an interval that begins from rest (R106, R110, R111). -/
def Profile.startSq (p : Profile) : Nat :=
  match p.cls with
  | .flatLow => p.flSq
  | .flatHigh => p.fhSq
  | .ramp => p.flSq

/-- The name of the speed `v` of an interval that follows one at `previous` (R110, R111). -/
def Profile.nameOf (p : Profile) (previous v : Nat) : Phase :=
  if previous < v then .accel
  else if v < previous then .decel
  else if p.flSq < v then .cruise
  else .creep

/-- The speed of a RAMP interval with `toGo` steps still to go, itself included (R111): accelerate, hold or
decelerate, whichever applies first. -/
def Profile.rampNext (p : Profile) (v toGo : Nat) : Nat :=
  if v < p.fhSq ∧ p.rampDown (p.accelStep v) ≤ toGo - 1 then p.accelStep v
  else if p.rampDown v ≤ toGo - 1 then v
  else p.decelStep v

/-- The speed of a RAMP interval without an end point (R111, R122): accelerate up to FH, then hold. -/
def Profile.rampFree (p : Profile) (v : Nat) : Nat := if v < p.fhSq then p.accelStep v else v

/-- The largest r with r² at most n, found bit by bit from weight 2^(bits−1) down. -/
def isqrtFrom (n : Nat) : Nat → Nat → Nat
  | 0, r => r
  | bits + 1, r => isqrtFrom n bits (if (r + 2 ^ bits) * (r + 2 ^ bits) ≤ n then r + 2 ^ bits else r)

/-- The whole part of the square root. -/
def isqrt (n : Nat) : Nat := isqrtFrom n (n.log2 / 2 + 1) 0

/-- The current speed, whole steps/s (R109, R120). -/
def Pg.speed (pg : Pg) : Nat := isqrt pg.speedSq

/-- The length of the interval in progress in whole nanoseconds (R106): the reciprocal of its speed, and at
least 5 µs when it begins from rest; 0 when no interval is in progress. No rule makes the node act on it. -/
def Pg.intervalNanos (pg : Pg) : Nat :=
  if pg.speedSq = 0 then 0
  else
    let n := isqrt (1000000000000000000 / pg.speedSq)
    if pg.fromRest then max n Config.fromRestFloor else n

/-- Table 1-1: the bit time in microseconds. -/
def Straps.bitTimeUs (s : Straps) : Nat := 2 ^ (3 - s.rate.toNat)

/-! ### Kinds of segment -/

/-- The profile of every kind but DWELL (Table 4-1). -/
def SegKind.profile? : SegKind → Option Profile
  | .move _ p => some p
  | .moveTo _ p => some p
  | .span _ _ p => some p
  | .run _ _ p => some p
  | .dwell _ => none
  | .seek _ p => some p

/-- The kind is SEEK. -/
def SegKind.isSeek : SegKind → Bool
  | .seek _ _ => true
  | _ => false

/-- The kind counts steps remaining: MOVE, TO or SPAN (Table 6-1). -/
def SegKind.counts : SegKind → Bool
  | .move _ _ => true
  | .moveTo _ _ => true
  | .span _ _ _ => true
  | _ => false

/-- The distance fixed at the start, with the command counter as it stands (R106, R66). -/
def SegKind.distance (k : SegKind) (command : Int) : Int :=
  match k with
  | .move d _ => d
  | .moveTo t _ => t - command
  | .span d _ _ => d
  | .run _ _ _ => 0
  | .dwell _ => 0
  | .seek _ _ => 0

/-- The direction of a distance, none for 0 (R106). -/
def dirOfDistance (d : Int) : Option Dir := if 0 < d then some .plus else if d < 0 then some .minus else none

/-- The direction fixed at the start (R106, R122). -/
def SegKind.startDir (k : SegKind) (command : Int) : Option Dir :=
  match k with
  | .run d _ _ => some d
  | .seek spec _ => some spec.dir
  | .dwell _ => none
  | k => dirOfDistance (k.distance command)

/-- The opposite direction. -/
def Dir.opposite : Dir → Dir
  | .plus => .minus
  | .minus => .plus

/-- +1 for PLUS, −1 for MINUS (R132). -/
def Dir.step : Dir → Int
  | .plus => 1
  | .minus => -1

/-! ### Inputs under their polarities -/

/-- A level is the active one: high if the setting says active high. -/
def isActive (level : Level) (activeHigh : Bool) : Bool := (level == .high) == activeHigh

/-- LIMP is active (R155). -/
def State.limpActive (s : State) : Bool := isActive s.pins.limp s.ss.settings.limpHigh

/-- LIMN is active (R155). -/
def State.limnActive (s : State) : Bool := isActive s.pins.limn s.ss.settings.limnHigh

/-- DFLT is active (R157). -/
def State.dfltActive (s : State) : Bool := isActive s.pins.dflt s.ss.settings.dfltHigh

/-- REF stands at the level its active edge leads to (R123, Table 2-14). -/
def State.refActive (s : State) : Bool := isActive s.pins.ref s.ss.settings.refRising

/-! ### Lines, start and stop -/

/-- The direction level in STEP_DIR: high for PLUS, low for MINUS (R119). -/
def Dir.level : Dir → Level
  | .plus => .high
  | .minus => .low

/-- DIR/CCW set to a direction's level, in output form STEP_DIR only (R106, R119). -/
def setDirLevel (d : Option Dir) (s : State) : State :=
  match d, s.ss.settings.form with
  | some d, .stepDir => { s with pg := { s.pg with dirCcw := d.level } }
  | _, _ => s

/-- The pulse line rises (R107, R119). -/
def raisePulse (d : Dir) (s : State) : State :=
  match s.ss.settings.form, d with
  | .cwCcw, .minus => { s with pg := { s.pg with dirCcw := .high } }
  | _, _ => { s with pg := { s.pg with stepCw := .high } }

/-- The pulse line returns low; the level on DIR/CCW stands in STEP_DIR (R119). -/
def lowerPulse (s : State) : State :=
  match s.ss.settings.form with
  | .stepDir => { s with pg := { s.pg with stepCw := .low } }
  | .cwCcw => { s with pg := { s.pg with stepCw := .low, dirCcw := .low } }

/-- No interval in progress, phase IDLE; the counts keep their values (R108, R112, R117). PG's report that the head's
work is over is this phase, with a head RUNNING or ENDING; the head leaves the queue at that instant, and with it the
seek state is discarded (R122). -/
def pgIdle (s : State) : State :=
  { s with pg := { s.pg with phase := .idle, speedSq := 0, stop := none, fromRest := false, speedName := .idle, seek := none } }

/-- The seek state at the start and after a reversal (R122, R127). -/
def seekStart (reversed : Bool) (s : State) : Seek :=
  { stage := some .search, reversed, qualified := !s.refActive, counted := 0, latched := none }

/-- A SEEK enters ENDING (R129): the stage, the index count and the latched values are discarded; reversed and REF
qualified stand until the segment leaves (R122). -/
def Seek.abandon (x : Seek) : Seek := { x with stage := none, counted := 0, latched := none }

/-- A first interval from rest, at the profile class's starting speed (R106, R110, R111). A SEEK shows SEARCH in it, as
R130 says, where the example of section 7.9 shows CREEP (DESIGN CHOICE, entry 26). -/
def firstInterval (p : Profile) (isSeek : Bool) (s : State) : State :=
  let v := p.startSq
  { s with pg := { s.pg with
    phase := if isSeek then .search else p.nameOf v v
    speedSq := v, stop := none, fromRest := true, speedName := p.nameOf v v } }

/-- PG starts a segment (R106, R122): distance and direction, counts, direction level, first interval. A TO
with distance 0 is over at once, which phase IDLE shows. -/
def pgStart (h : Segment) (s : State) : State :=
  let dist := h.kind.distance s.pb.command
  let dir := h.kind.startDir s.pb.command
  let pg := { s.pg with
    dir := dir
    remaining := if h.kind.counts then dist.natAbs else 0
    seek := if h.kind.isSeek then some (seekStart false s) else none }
  let s := setDirLevel dir { s with pg := pg }
  match h.kind with
  | .dwell ms =>
    { s with pg := { s.pg with phase := .dwell, speedSq := 0, dwellLeft := ms, stop := none, fromRest := false, speedName := .dwell } }
  | .moveTo _ p => if dist = 0 then pgIdle s else firstInterval p false s
  | .span _ n p => firstInterval p false { s with pg := { s.pg with progress := 0, acc := n / 2 } }
  | .move _ p => firstInterval p false s
  | .run _ _ p => firstInterval p false s
  | .seek _ p => firstInterval p true s

/-- PG receives a stop for the segment of this kind (R116, R117, R118, R129): ABRUPT, a DWELL, and SMOOTH at FL
end at once; SMOOTH above FL decelerates from the interval in progress on. A SEEK's interval in progress keeps
the name of its speed (R130, entry 16). In the last interval of a RAMP ramp-down, at FL, R118 says both that the stop is
at once and that every step is emitted; it is at once (DESIGN CHOICE, entry 28). -/
def pgStop (k : SegKind) (m : Mode) (s : State) : State :=
  match m, k.profile? with
  | .smooth, some p =>
    if s.pg.speedSq ≤ p.flSq then pgIdle s
    else { s with pg := { s.pg with
      stop := some .smooth, phase := if k.isSeek then s.pg.speedName else .decel
      seek := s.pg.seek.map Seek.abandon } }
  | _, _ => pgIdle s

/-- The end point is reached: steps remaining 0, for SPAN span progress at the span (R112, R113). -/
def endReached (k : SegKind) (pg : Pg) : Bool :=
  match k with
  | .move _ _ => pg.remaining == 0
  | .moveTo _ _ => pg.remaining == 0
  | .span _ n _ => decide (n ≤ pg.progress)
  | _ => false

/-- The speed of the next interval of a RUNNING segment after one at `v` (R110, R111, R114, R122, R126). -/
def nextSpeed (k : SegKind) (p : Profile) (v : Nat) (pg : Pg) : Nat :=
  match p.cls with
  | .flatLow => p.flSq
  | .flatHigh => p.fhSq
  | .ramp =>
    match k with
    | .move _ _ => p.rampNext v pg.remaining
    | .moveTo _ _ => p.rampNext v pg.remaining
    | .span _ n _ => p.rampNext v (n - pg.progress)
    | _ => if pg.seek.any fun x => x.stage == some .count then p.decelStep v else p.rampFree v

/-- The next interval at speed `next`, after one at `v`: its name, and for a SEEK in SEARCH or COUNT the stage's
phase (R111, R126, R130). -/
def beginInterval (p : Profile) (v next : Nat) (s : State) : State :=
  let name := p.nameOf v next
  let phase := match s.pg.seek with
    | some x => match x.stage with
      | some .search => .search
      | some .count => .count
      | some .settle => .decel
      | none => name
    | none => name
  { s with pg := { s.pg with phase := phase, speedSq := next, fromRest := false, speedName := name } }

/-- The next interval of a stop or of SETTLE: one deceleration step lower, phase DECEL (R118, R124). -/
def beginDecel (p : Profile) (v : Nat) (s : State) : State :=
  { s with pg := { s.pg with phase := .decel, speedSq := p.decelStep v, fromRest := false, speedName := .decel } }

end Sys2Proof.Machine
end

