-- ==== Sys2Proof/Machine/Segments.lean ====
section
/-! DEFINITION. The Segment Queue's shared operations: references, the evaluation of the head, its start, its
end, and claims that send it to ENDING (chapter 4). -/

namespace Sys2Proof.Machine

/-- DEN driven to the level R168 gives for the node state, the guard state and the link. -/
def driveDen (s : State) : State :=
  { s with gd := { s.gd with
    den := if s.ss.node = .run ∧ s.gd.state ≠ .stopped ∧ s.tif.link ≠ .silent then .high else .low } }

/-! ### References and the heard-mark list -/

/-- The segment refers to a pair (R76). -/
def Segment.refersTo (m : MarkRef) (h : Segment) : Bool :=
  (h.start == .mark m && (h.state == .queued || h.state == .waiting))
    || (match h.kind with
        | .run _ (some e) _ => e == m
        | _ => false)

/-- The pair is referenced by a segment in the queue (R76). -/
def State.referenced (s : State) (m : MarkRef) : Bool := s.queue.any fun h => h.refersTo m

/-- Entries whose pair has lost its last reference leave the heard-mark list (R148). -/
def pruneHeard (s : State) : State :=
  { s with pb := { s.pb with heard := s.pb.heard.filter fun e => s.referenced e.ref } }

/-- The list holds an entry for a pair (R64, R115). -/
def State.heardHas (s : State) (m : MarkRef) : Bool := s.pb.heard.any fun e => e.ref == m

/-- One unit of a pair's count is consumed; an entry that reaches 0 leaves the list (R148). -/
def consumeHeard (m : MarkRef) : List Heard → List Heard
  | [] => []
  | e :: rest =>
    if e.ref = m then (if e.count ≤ 1 then rest else { e with count := e.count - 1 } :: rest)
    else e :: consumeHeard m rest

/-- One unit of a pair's count is consumed (R148). -/
def consume (m : MarkRef) (s : State) : State :=
  { s with pb := { s.pb with heard := consumeHeard m s.pb.heard } }

/-! ### The head -/

/-- Change the head's state. -/
def setHeadState (x : SegState) (s : State) : State :=
  match s.queue with
  | [] => s
  | h :: t => { s with queue := { h with state := x } :: t }

/-- The oldest remaining segment becomes head in state WAITING (R75, R78). -/
def promote : List Segment → List Segment
  | [] => []
  | h :: t => { h with state := .waiting } :: t

/-- The head is in ANNOUNCING or ANNOUNCED. -/
def SegState.isAnnounce : SegState → Bool
  | .announcing => true
  | .announced => true
  | _ => false

/-- The segment is RUNNING or ENDING. -/
def SegState.isMoving : SegState → Bool
  | .running => true
  | .ending _ _ => true
  | _ => false

/-- The head's slot is HALTED (R62). -/
def State.slotHalted (s : State) (k : Fin 8) : Bool :=
  (s.group? k).any fun g => match g.state with
    | .halted _ _ => true
    | _ => false

/-- The head is blocked (R62): the guard is not NORMAL, or its slot is HALTED. Nothing starts outside RUN (R107). -/
def State.blocked (s : State) (h : Segment) : Bool :=
  s.ss.node != .run || s.gd.state != .normal || h.slot.any fun k => s.slotHalted k

/-- A RUNNING RUN looks for its end mark (R74, R115): a unit is consumed and it enters ENDING with outcome DONE
and mode SMOOTH. -/
def lookEndMark (s : State) : State :=
  match s.queue with
  | [] => s
  | h :: _ =>
    match h.state, h.kind with
    | .running, .run _ (some m) _ =>
      if s.heardHas m then pgStop h.kind .smooth (setHeadState (.ending .done .smooth) (consume m s)) else s
    | _, _ => s

/-- The head becomes RUNNING and PG starts it (R66, R106); its start mark stops counting as a reference (R76),
and a RUN looks for its end mark (R115). -/
def startHead (s : State) : State :=
  match s.queue with
  | [] => s
  | h :: _ => lookEndMark (pgStart h (pruneHeard (setHeadState .running s)))

/-- The head announces for slot k (R65, R84): READY admitted, slot ARMED, timer started unless the timeout is
0, head ANNOUNCING. -/
def announce (k : Fin 8) (g : Group) (tag : Byte) (s : State) : State :=
  let s := enqueue (.ready k g.address g.sequence tag) s
  let s := s.setSlot k (.live { g with state := .armed })
  let s := { s with ru := { s.ru with timer := if s.ss.settings.timeout = 0 then none else some s.ss.settings.timeout } }
  setHeadState .announcing s

/-- One evaluation of the head (R61 to R65). -/
def evalHead (s : State) : State :=
  match s.queue with
  | [] => s
  | h :: _ =>
    if h.state ≠ .waiting ∨ s.blocked h then s
    else
      match h.start with
      | .immediate => startHead s
      | .mark m => if s.heardHas m then startHead (consume m s) else s
      | .rendezvous =>
        match h.slot with
        | none => s
        | some k =>
          match s.group? k with
          | some g => if g.state = .opened then announce k g h.tag s else s
          | none => s

/-- The outcome PG's report gives the head when its work is over (R73): it is RUNNING or ENDING with PG IDLE. -/
def State.headOver? (s : State) : Option SegOutcome :=
  match s.queue with
  | [] => none
  | h :: _ =>
    if s.pg.phase ≠ .idle then none
    else match h.state with
      | .running => some .done
      | .ending o _ => some o
      | _ => none

/-- The steps not emitted of a segment PG has executed (R75). -/
def Segment.notEmitted (h : Segment) (pg : Pg) : Nat := if h.kind.counts then pg.remaining else 0

/-- The DONE notice (R75, Table 2-16). -/
def doneNotice (tag : Byte) (o : SegOutcome) (left : Nat) (s : State) : State :=
  produce .done ([tag, o.byte] ++ s.commandBytes ++ steps3 left) s

/-- A guard that is STOPPING becomes STOPPED when the segment is removed, and DEN falls (R152, R168). -/
def guardStops (s : State) : State :=
  if s.gd.state = .stopping then driveDen { s with gd := { s.gd with state := .stopped } } else s

/-- Steps 2 to 4 of R75 after the removal, without the evaluation of the next head: references, DONE, the next
head WAITING or EMPTY. -/
def afterRemoval (tag : Byte) (o : SegOutcome) (left : Nat) (s : State) : State :=
  let s := doneNotice tag o left (pruneHeard s)
  match s.queue with
  | [] => produce .empty s.commandBytes s
  | _ :: _ => { s with queue := promote s.queue }

/-- SQ ends the head (R75) with an outcome, without the evaluation of the next head. -/
def finishHead (o : SegOutcome) (s : State) : State :=
  match s.queue with
  | [] => s
  | h :: t => afterRemoval h.tag o (h.notEmitted s.pg) (guardStops { s with queue := t })

/-- A head whose work is over is ended; the next head is not evaluated yet. -/
def finishIfOver (s : State) : State :=
  match s.headOver? with
  | some o => finishHead o s
  | none => s

/-- A head whose work is over is ended and the next head evaluated (R75), as often as heads end at this one
instant; the first argument bounds the heads that can end. -/
def settleFrom : Nat → State → State
  | 0, s => s
  | n + 1, s =>
    match s.headOver? with
    | some o => settleFrom n (evalHead (finishHead o s))
    | none => s

/-- `settleFrom` with the whole queue as the bound: each round removes a segment. -/
def settle (s : State) : State := settleFrom s.queue.length s

/-- One event's evaluation of the head (R61), with everything that ends at that instant. -/
def evaluate (s : State) : State := settle (evalHead s)

/-! ### Claims on a moving head -/

/-- A claim with an outcome and a mode (R60, R70, R71, R79): a RUNNING head enters ENDING with them; an ENDING
head keeps its outcome, and ABRUPT makes its stop abrupt. -/
def claim (o : SegOutcome) (m : Mode) (s : State) : State :=
  match s.queue with
  | [] => s
  | h :: _ =>
    match h.state with
    | .running => pgStop h.kind m (setHeadState (.ending o m) s)
    | .ending o' _ => if m = .abrupt then pgIdle (setHeadState (.ending o' .abrupt) s) else s
    | _ => s

end Sys2Proof.Machine
end

