-- ==== Sys2Proof/Machine/Halts.lean ====
section
/-! DEFINITION. Halting and clearing a group slot (chapter 5), and the Guard's taking and clearing of causes
(chapter 9). -/

namespace Sys2Proof.Machine

/-! ### Halting a slot -/

/-- The head, if it belongs to slot k. -/
def State.headOfSlot? (s : State) (k : Fin 8) : Option Segment := s.queue.head?.filter fun h => h.slot == some k

/-- The segment is ANNOUNCING, ANNOUNCED, RUNNING or ENDING. -/
def SegState.isUnderWay (x : SegState) : Bool := x.isAnnounce || x.isMoving

/-- The tag of a halt-owed entry (R93): the head's, if it belongs to slot k and is under way, else 0. -/
def State.haltTag (s : State) (k : Fin 8) : Byte :=
  match s.headOfSlot? k with
  | some h => if h.state.isUnderWay then h.tag else 0
  | none => 0

/-- Slot k joins the halt-owed set (R25, R93), unless the link is SILENT; a member keeps its entry. -/
def oweHalt (k : Fin 8) (c : Cause) (m : Mode) (tag : Byte) (s : State) : State :=
  if s.tif.link = .silent ∨ (s.tif.owed[k]).isSome then s
  else { s with tif := { s.tif with
    owed := s.tif.owed.set k (some { cause := c, mode := m, tag, attempts := 0, onLine := false }) } }

/-- The rendezvous timer stops (R89). -/
def stopTimer (s : State) : State := { s with ru := { s.ru with timer := none } }

/-- An ANNOUNCING or ANNOUNCED head of slot k returns to WAITING and its READY is withdrawn (R69, R92, R99). -/
def returnHead (k : Fin 8) (s : State) : State :=
  match s.headOfSlot? k with
  | some h => if h.state.isAnnounce then withdrawReady (setHeadState .waiting s) else s
  | none => s

/-- The head of slot k under a halt with mode m (R92): RUNNING or ENDING it meets the claim HALTED, but for a
RUNNING head under a halt from the Guard, which fixes FAULTED itself (R94). -/
def haltHead (k : Fin 8) (m : Mode) (byGuard : Bool) (s : State) : State :=
  match s.headOfSlot? k with
  | some h =>
    match h.state with
    | .running => if byGuard then s else claim .halted m s
    | .ending _ _ => claim .halted m s
    | _ => returnHead k s
  | none => s

/-- The HALT notice (R92, Table 2-16). -/
def haltNotice (k : Fin 8) (a : GroupAddr) (c : Cause) (o : StationId) (s : State) : State :=
  produce .halt [BitVec.ofNat 8 k.val, a.setWidth 8, c.byte, o.setWidth 8] s

/-- Slot k is halted with cause c, originator o and mode m (R92). A slot already HALTED keeps its record, and
only an ENDING head of it is hastened. An empty slot is untouched. A head whose work is over by this is not yet
ended. -/
def haltSlot (k : Fin 8) (c : Cause) (o : StationId) (m : Mode) (byGuard : Bool) (s : State) : State :=
  match s.group? k with
  | none => s
  | some g =>
    match g.state with
    | .halted _ _ => if (s.headOfSlot? k).any (fun h => h.state.isMoving) then claim .halted m s else s
    | x =>
      let s := s.setSlot k (.live { g with state := .halted c o, ready := 0 })
      let s := if x = .armed then stopTimer s else s
      haltHead k m byGuard (haltNotice k g.address c o s)

/-- A local halt of slot k (R92, R93): originator the node, and slot k joins the halt-owed set. -/
def localHalt (k : Fin 8) (c : Cause) (m : Mode) (byGuard : Bool) (s : State) : State :=
  haltSlot k c s.own m byGuard (oweHalt k c m (s.haltTag k) s)

/-- A CLEAR with sequence number n acts on slot k (R99), without the evaluation of the head. An empty slot is
untouched. -/
def clearSlot (k : Fin 8) (n : Byte) (s : State) : State :=
  match s.group? k with
  | none => s
  | some g =>
    let s := if g.state = .armed then stopTimer s else s
    let s := s.setSlot k (.live { g with state := .opened, ready := 0, sequence := n })
    returnHead k { s with tif := { s.tif with owed := s.tif.owed.set k none } }

/-! ### The Guard -/

/-- The head is RUNNING or ENDING. -/
def State.headMoving (s : State) : Bool := s.head?.any fun h => h.state.isMoving

/-- The tag of a RUNNING or ENDING head, else 0 (R151). -/
def State.movingTag (s : State) : Byte :=
  match s.head? with
  | some h => if h.state.isMoving then h.tag else 0
  | none => 0

/-- Step 1 of R151: the record at a departure from NORMAL, with DEN (R168). -/
def guardRecord (c : Cause) (m : Mode) (s : State) : State :=
  driveDen { s with gd := { s.gd with
    state := if s.headMoving then .stopping else .stopped
    first := some c, causes := c.bit, stopMode := some m } }

/-- Step 2 of R151: the slot of an ANNOUNCING, ANNOUNCED or RUNNING head is halted locally (R94). -/
def guardHaltsGroup (c : Cause) (m : Mode) (s : State) : State :=
  match s.head? with
  | some h =>
    match h.slot with
    | some k => if h.state.isAnnounce || h.state == .running then localHalt k c m true s else s
    | none => s
  | none => s

/-- Step 3 of R151: the FAULT notice. -/
def faultNotice (c : Cause) (m : Mode) (s : State) : State :=
  produce .fault ([c.byte, m.byte, s.movingTag] ++ s.commandBytes) s

/-- The Guard leaves NORMAL in node state RUN (R151). -/
def guardLeave (c : Cause) (m : Mode) (s : State) : State :=
  finishIfOver (claim .faulted m (faultNotice c m (guardHaltsGroup c m (guardRecord c m s))))

/-- Hasten an ENDING head (R60, R153). -/
def hastenEnding (s : State) : State :=
  match s.head? with
  | some h =>
    match h.state with
    | .ending o _ => claim o .abrupt s
    | _ => s
  | none => s

/-- The Guard adds a cause while STOPPING or STOPPED (R153). -/
def guardAdd (c : Cause) (m : Mode) (s : State) : State :=
  let s := { s with gd := { s.gd with causes := s.gd.causes ||| c.bit } }
  finishIfOver (if m = .abrupt then
    hastenEnding { s with gd := { s.gd with stopMode := some .abrupt } } else s)

/-- The Guard notes a cause in SETUP, and in SILENT (R154): it joins the set, and the first becomes the first
cause. -/
def guardNote (c : Cause) (s : State) : State :=
  { s with gd := { s.gd with causes := s.gd.causes ||| c.bit, first := s.gd.first.or (some c) } }

/-- The Guard takes a cause with a mode (R151, R153, R154). In HELD it takes none. The head that follows an
ended one is blocked, so its evaluation changes nothing. -/
def guardTake (c : Cause) (m : Mode) (s : State) : State :=
  match s.ss.node with
  | .held => s
  | .setup => guardNote c s
  | .silent => guardNote c s
  | .run => if s.gd.state = .normal then guardLeave c m s else guardAdd c m s

/-- The Guard returns to NORMAL with an empty record (R163, R166), and DEN follows (R168). -/
def guardEmpty (s : State) : State :=
  driveDen { s with gd := { s.gd with state := .normal, first := none, causes := 0, originator := none, stopMode := none } }

/-- The Guard's part of a CLEAR(ALL) (R163). -/
def guardRemovePeer (s : State) : State :=
  if hasCause s.gd.causes .peerAllHalt then
    let left := s.gd.causes &&& ~~~Cause.peerAllHalt.bit
    if left = 0 then guardEmpty s
    else { s with gd := { s.gd with
      causes := left, originator := none
      first := if s.gd.first = some .peerAllHalt then lowestCause left else s.gd.first } }
  else s

/-- The Guard's part of a HALT(ALL) from station o (R162): PEER_ALL_HALT is latched, and the originator is set
unless the cause was held already. -/
def guardLatchPeer (o : StationId) (m : Mode) (s : State) : State :=
  if hasCause s.gd.causes .peerAllHalt then guardTake .peerAllHalt m s
  else guardTake .peerAllHalt m { s with gd := { s.gd with originator := some o } }

end Sys2Proof.Machine
end

