-- ==== Sys2Proof/Machine/Position.lean ====
section
/-! DEFINITION. The Position Block: counters, the following test, the quadrature decoder, mark units, the pulse
check and the SEEK preset (chapter 8, R125, R155). -/

namespace Sys2Proof.Machine

/-! ### Deviation -/

/-- The deviation: command less feedback (R137). -/
def Pb.deviation (pb : Pb) : Int := pb.command - pb.feedback

/-- The deviation as reported: 0 while the encoder mode is OFF (R137). -/
def State.reportedDeviation (s : State) : Int := if s.ss.settings.encMode = .off then 0 else s.pb.deviation

/-- The following test fails, against the deviation before the change (R138). -/
def State.followFails (before : Int) (s : State) : Bool :=
  s.ss.node == .run && s.ss.settings.encMode != .off && s.ss.settings.following != 0
    && decide (s.ss.settings.following < s.pb.deviation.natAbs) && decide (before.natAbs < s.pb.deviation.natAbs)

/-- The following test (R138). -/
def followTest (before : Int) (s : State) : State :=
  if s.followFails before then guardTake .followingError .smooth s else s

/-! ### Mark units -/

/-- The events at which an ARMED unit judges its condition (R142); a step carries the value before it. -/
inductive CounterEvent where
  | step (o : Int)
  | arming
  | rewrite
  deriving DecidableEq, Repr

/-- The condition is met (Table 8-4), with threshold `t` and the counter at `n` after the event. -/
def MarkCond.meets (c : MarkCond) (e : CounterEvent) (t n : Int) : Bool :=
  match c, e with
  | .crossUp, .step o => decide (o < t ∧ t ≤ n)
  | .crossUp, .arming => false
  | .crossUp, .rewrite => false
  | .crossDown, .step o => decide (t < o ∧ n ≤ t)
  | .crossDown, .arming => false
  | .crossDown, .rewrite => false
  | .atOrAbove, _ => decide (t ≤ n)
  | .atOrBelow, _ => decide (n ≤ t)

/-- The way the threshold moves: upward +1, downward −1 (R143). -/
def MarkCond.way : MarkCond → Int
  | .crossUp => 1
  | .atOrAbove => 1
  | .crossDown => -1
  | .atOrBelow => -1

/-- How often a unit whose condition is met fires at one instant, with a period from 1 on (R143): as often as
the threshold, moved by the period each time, does not pass the counter. -/
def firingCount (t n : Int) (period : Nat) : Nat := (n - t).natAbs / period + 1

/-- A unit judged at an event (R142, R143): how often it fires, and its record after. -/
def MarkUnit.judge (x : MarkUnit) (e : CounterEvent) (n : Int) : Nat × MarkUnit :=
  if x.state ≠ .armed ∨ x.cond.meets e x.threshold n = false then (0, x)
  else if x.period = 0 then (1, { x with state := .fired })
  else
    let k := firingCount x.threshold n x.period
    let next := x.threshold + x.cond.way * (k * x.period : Nat)
    if inCounterRange next then (k, { x with threshold := next })
    else (k, { x with state := .fired, threshold := next - x.cond.way * (x.period : Nat) })

/-- One unit's evaluation at an event of its source counter (R142 to R144). In SILENT no unit is evaluated
(R149). -/
def evalUnit (src : MarkSource) (e : CounterEvent) (n : Int) (s : State) (u : Fin 4) : State :=
  let x := s.pb.units[u]
  if x.source ≠ src ∨ s.ss.node = .silent then s
  else
    let r := x.judge e n
    handFirings u r.1 n (s.setUnit u r.2)

/-- The evaluation of the units whose source counter has changed to n (R142), by ascending unit number: the spec gives
the units of one source no order (DESIGN CHOICE, entry 27). -/
def evalMarks (src : MarkSource) (e : CounterEvent) (n : Int) (s : State) : State :=
  allUnits.foldl (evalUnit src e n) s

/-! ### Counter changes -/

/-- One step of the command counter (R132): the change, the following test, the units with source COMMAND. -/
def stepCommand (d : Dir) (s : State) : State :=
  let o := s.pb.command
  let n := o + d.step
  let before := s.pb.deviation
  evalMarks .command (.step o) n (followTest before { s with pb := { s.pb with command := n } })

/-- One count of the feedback counter (R133, R136): held at a bound with ENCODER_ERROR, else the change, the
following test, and the units with source FEEDBACK. -/
def stepFeedback (count : Int) (s : State) : State :=
  let o := s.pb.feedback
  let n := o + count
  let before := s.pb.deviation
  if count = 0 then s
  else if !inCounterRange n then guardTake .encoderError .abrupt s
  else evalMarks .feedback (.step o) n (followTest before { s with pb := { s.pb with feedback := n } })

/-! ### The quadrature decoder -/

/-- The combination of QA and QB (R133). -/
def quadOf (qa qb : Level) : Quad :=
  match qa, qb with
  | .low, .low => .s0
  | .high, .low => .s1
  | .high, .high => .s2
  | .low, .high => .s3

/-- Both inputs differ between the combinations (R135). -/
def Quad.bothChange : Quad → Quad → Bool
  | .s0, .s2 => true
  | .s2, .s0 => true
  | .s1, .s3 => true
  | .s3, .s1 => true
  | _, _ => false

/-- Feedback counts per transition, encoder invert no (Table 8-2). -/
def quadCount : EncMode → Quad → Quad → Int
  | .off, _, _ => 0
  | .x1, .s0, .s1 => 1
  | .x1, .s1, .s0 => -1
  | .x1, _, _ => 0
  | .x2, .s0, .s1 => 1
  | .x2, .s2, .s3 => 1
  | .x2, .s1, .s0 => -1
  | .x2, .s3, .s2 => -1
  | .x2, _, _ => 0
  | .x4, .s0, .s1 => 1
  | .x4, .s1, .s2 => 1
  | .x4, .s2, .s3 => 1
  | .x4, .s3, .s0 => 1
  | .x4, .s1, .s0 => -1
  | .x4, .s2, .s1 => -1
  | .x4, .s3, .s2 => -1
  | .x4, .s0, .s3 => -1
  | .x4, _, _ => 0

/-- The count of a transition under the settings in force (R133). -/
def Settings.quadCount (x : Settings) (a b : Quad) : Int :=
  let c := Machine.quadCount x.encMode a b
  if x.encInvert then -c else c

/-! ### The pulse check -/

/-- The limit test refuses a pulse in this direction (R155). -/
def State.limitRefuses (d : Dir) (s : State) : Bool :=
  match d with
  | .plus => s.limpActive
  | .minus => s.limnActive

/-- The limit cause of a direction (R155). -/
def Dir.limitCause : Dir → Cause
  | .plus => .limitPlus
  | .minus => .limitMinus

/-- The soft-limit test refuses a pulse in this direction (R155). -/
def State.softRefuses (d : Dir) (s : State) : Bool :=
  s.ss.settings.softEnable &&
    match d with
    | .plus => decide (s.ss.settings.softMax < s.pb.command + 1)
    | .minus => decide (s.pb.command - 1 < s.ss.settings.softMin)

/-- The range test refuses a pulse in this direction (R132). -/
def State.rangeRefuses (d : Dir) (s : State) : Bool := !inCounterRange (s.pb.command + d.step)

/-- The causes of the failed tests of a pulse with their modes, in the order the Guard takes them (R155, R156);
the soft limits are not tested for a SEEK (R122). -/
def State.pulseCauses (k : SegKind) (d : Dir) (s : State) : List (Cause × Mode) :=
  (if s.limitRefuses d then [(d.limitCause, s.ss.settings.limitMode)] else [])
    ++ (if !k.isSeek && s.softRefuses d then [(.softLimit, .abrupt)] else [])
    ++ (if s.rangeRefuses d then [(.countRange, .abrupt)] else [])

/-- Causes taken one after the other (R155). -/
def guardTakeAll (cs : List (Cause × Mode)) (s : State) : State := cs.foldl (fun s c => guardTake c.1 c.2 s) s

/-! ### The preset of a SEEK -/

/-- The nearer bound of the counter range for a value outside it (R125). -/
def clampCounter (x : Int) : Int := max (-Config.counterMax) (min Config.counterMax x)

/-- The variant as the SEEK notice carries it (Table 2-16). -/
def SeekVariant.byte : SeekVariant → Byte
  | .edge => 0
  | .index _ => 1

/-- The SEEK notice (R125, Table 2-16). -/
def seekNotice (tag : Byte) (spec : SeekSpec) (latched : Int × Int) (s : State) : State :=
  produce .seek ([tag, spec.variant.byte] ++ signed4 latched.1 ++ signed4 latched.2 ++ signed4 spec.preset) s

/-- Steps 1 and 2 of R125: both counters rewritten, each mark unit judging the rewrite of its source; the
feedback counter stays while the encoder mode is OFF. The units with source COMMAND judge first (entry 27). -/
def rewriteCounters (preset : Int) (latched : Int × Int) (s : State) : State :=
  let c := clampCounter (preset + (s.pb.command - latched.1))
  let f := clampCounter (preset + (s.pb.feedback - latched.2))
  if s.ss.settings.encMode = .off then
    evalMarks .command .rewrite c { s with pb := { s.pb with command := c } }
  else
    evalMarks .feedback .rewrite f (evalMarks .command .rewrite c { s with pb := { s.pb with command := c, feedback := f } })

/-- A rewritten value lies outside the counter range (R125). -/
def State.rewriteOutside (preset : Int) (latched : Int × Int) (s : State) : Bool :=
  !inCounterRange (preset + (s.pb.command - latched.1))
    || (s.ss.settings.encMode != .off && !inCounterRange (preset + (s.pb.feedback - latched.2)))

/-- The preset instant of a SEEK that has latched (R125): the rewrite, the SEEK notice, completion with outcome
DONE, then COUNT_RANGE and FOLLOWING_ERROR if they arose, then the next head's evaluation (entry 8). -/
def applyPreset (s : State) : State :=
  match s.queue, s.pg.seek with
  | h :: _, some x =>
    match h.kind, x.latched with
    | .seek spec _, some latched =>
      let before := s.pb.deviation
      let outside := s.rewriteOutside spec.preset latched
      let s := seekNotice h.tag spec latched (rewriteCounters spec.preset latched s)
      let s := finishHead .done (pgIdle s)
      let s := if outside then guardTake .countRange .abrupt s else s
      evaluate (followTest before s)
    | _, _ => s
  | _, _ => s

end Sys2Proof.Machine
end

