-- ==== Sys2Proof/Machine/Axis.lean ====
section
/-! DEFINITION. The meanings of the commands of the axis: intervals and pulses, dwell time, and the inputs
LIMP, LIMN, REF, DFLT, QI, QA and QB. -/

namespace Sys2Proof.Machine

/-! ### Intervals -/

/-- The interval that ends carries a pulse: every one but a SPAN's whose accumulator stays below the span
(R107, R113). -/
def SegKind.carriesPulse (k : SegKind) (pg : Pg) : Bool :=
  match k with
  | .span d n _ => decide (n ≤ pg.acc + d.natAbs)
  | _ => true

/-- The progress step of a SPAN at the end of an interval (R113); other kinds have none. -/
def spanProgress (k : SegKind) (emitted : Bool) (s : State) : State :=
  match k with
  | .span d n _ =>
    let acc := s.pg.acc + d.natAbs
    { s with pg := { s.pg with progress := s.pg.progress + 1, acc := if emitted then acc - n else acc } }
  | _ => s

/-- PG's choice after the step of an interval (R111, R112, R118, R124): the segment or its stop is over, a
SETTLE that ends at FL applies the preset, or the next interval begins. With no interval in progress the
motion has ended at this step already. -/
def afterStep (s : State) : State :=
  match s.queue with
  | [] => s
  | h :: _ =>
    match h.kind.profile? with
    | none => s
    | some p =>
      let v := s.pg.speedSq
      if v = 0 then s
      else if endReached h.kind s.pg then settle (pgIdle s)
      else
        match h.state with
        | .ending _ _ => if v ≤ p.flSq then settle (pgIdle s) else beginDecel p v s
        | _ =>
          if s.pg.seek.any fun x => x.stage == some .settle then
            if v ≤ p.flSq then applyPreset s else beginDecel p v s
          else beginInterval p v (nextSpeed h.kind p v s.pg) s

/-- A pulse that passed the check is emitted (R107): the line rises, steps remaining falls by 1, and the
Position Block steps the command counter. -/
def emitPulse (k : SegKind) (d : Dir) (s : State) : State :=
  let s := raisePulse d (spanProgress k true s)
  stepCommand d { s with pg := { s.pg with remaining := if k.counts then s.pg.remaining - 1 else s.pg.remaining } }

/-- The one reversal of a SEEK (R127). -/
def reverseSeek (d : Dir) (p : Profile) (s : State) : State :=
  let s := setDirLevel (some d.opposite) { s with pg := { s.pg with dir := some d.opposite, seek := some (seekStart true s) } }
  firstInterval p true s

/-- A SEEK fails at a limit (R128): the segment leaves the queue, its OPEN slot is halted locally, the Guard takes
the limit cause, and steps 2 to 4 of R75 follow. -/
def failSeek (h : Segment) (d : Dir) (s : State) : State :=
  let s := { pgIdle s with queue := s.queue.tail }
  let s := match h.slot with
    | some k =>
      if (s.group? k).any fun g => g.state == .opened then
        haltSlot k .seekFailed s.own .abrupt false (oweHalt k .seekFailed .abrupt h.tag s)
      else s
    | none => s
  settle (evalHead (afterRemoval h.tag .seekFailed 0 (guardTake d.limitCause s.ss.settings.limitMode s)))

/-- A refused pulse (R108, R127, R155): a RUNNING SEEK in SEARCH or COUNT that only the limit test stopped turns
or fails; otherwise the motion ends and the Guard takes every cause. -/
def refusePulse (h : Segment) (d : Dir) (causes : List (Cause × Mode)) (s : State) : State :=
  match h.kind, h.state, s.pg.seek with
  | .seek spec p, .running, some x =>
    if x.stage ≠ some .settle ∧ !s.rangeRefuses d then
      if spec.reverse && !x.reversed then reverseSeek d p s else failSeek h d s
    else guardTakeAll causes (pgIdle s)
  | _, _, _ => guardTakeAll causes (pgIdle s)

/-- An interval is in progress that can end (R107): the head is RUNNING or ENDING with a speed, in RUN, with the
guard not STOPPED and the link not SILENT. -/
def State.intervalRuns (s : State) : Bool :=
  s.headMoving && s.pg.speedSq != 0 && s.ss.node == .run && s.gd.state != .stopped && s.tif.link != .silent

/-- INTERVAL_END: the interval in progress ends (R107, R108, R111 to R113, R118, R124, R127, R155). -/
def execIntervalEnd (s : State) : Host.Outcome State Fault Refusal :=
  .next (
    match s.queue with
    | [] => s
    | h :: _ =>
      if !s.intervalRuns then s
      else if !h.kind.carriesPulse s.pg then afterStep (spanProgress h.kind false s)
      else
        match s.pg.dir with
        | none => s
        | some d =>
          let causes := s.pulseCauses h.kind d
          if causes = [] then afterStep (emitPulse h.kind d s) else refusePulse h d causes s)

/-- PULSE_HIGH_END: the pulse line returns low after its 2 µs (R119). -/
def execPulseHighEnd (s : State) : Host.Outcome State Fault Refusal := .next (lowerPulse s)

/-- DWELL_END: the dwell time of a RUNNING DWELL has passed, and the segment completes (R116). -/
def execDwellEnd (s : State) : Host.Outcome State Fault Refusal :=
  .next (
    if s.head?.any (fun h => h.state == .running) && s.pg.phase == .dwell then
      settle (pgIdle { s with pg := { s.pg with dwellLeft := 0 } })
    else s)

/-! ### Inputs -/

/-- DRIVE_FAULT_CHANGE: DFLT changes; to its active level the Guard takes DRIVE_FAULT (R154, R157). -/
def execDriveFaultChange (level : Level) (s : State) : Host.Outcome State Fault Refusal :=
  .next (
    if s.pins.dflt = level then s
    else
      let s := { s with pins := { s.pins with dflt := level } }
      if s.dfltActive then guardTake .driveFault .abrupt s else s)

/-- LIMIT_INPUT_CHANGE: the level stands; it acts at the pulse check alone (R155). -/
def execLimitInputChange (input : LimitInput) (level : Level) (s : State) : Host.Outcome State Fault Refusal :=
  .next (
    match input with
    | .limp => { s with pins := { s.pins with limp := level } }
    | .limn => { s with pins := { s.pins with limn := level } })

/-- The head's SEEK part and profile, if it is a RUNNING SEEK. -/
def State.runningSeek? (s : State) : Option (SeekSpec × Profile) :=
  match s.queue with
  | [] => none
  | h :: _ =>
    match h.state, h.kind with
    | .running, .seek spec p => some (spec, p)
    | _, _ => none

/-- Both counters as they stand (R123, R126). -/
def State.counters (s : State) : Int × Int := (s.pb.command, s.pb.feedback)

/-- The reference edge (R123, R124): EDGE latches and stops at once, or at FL; INDEX begins to count. -/
def referenceEdge (spec : SeekSpec) (p : Profile) (x : Seek) (s : State) : State :=
  match spec.variant with
  | .edge =>
    let s := { s with pg := { s.pg with seek := some { x with stage := some .settle, latched := some s.counters } } }
    if p.cls ≠ .ramp ∨ s.pg.speedSq ≤ p.flSq then applyPreset s
    else { s with pg := { s.pg with phase := .decel } }
  | .index _ => { s with pg := { s.pg with phase := .count, seek := some { x with stage := some .count, counted := 0 } } }

/-- REF_CHANGE: REF changes; in SEARCH it qualifies, or is the reference edge (R123). -/
def execRefChange (level : Level) (s : State) : Host.Outcome State Fault Refusal :=
  .next (
    if s.pins.ref = level then s
    else
      let s := { s with pins := { s.pins with ref := level } }
      match s.runningSeek?, s.pg.seek with
      | some (spec, p), some x =>
        if x.stage ≠ some .search then s
        else if !s.refActive then { s with pg := { s.pg with seek := some { x with qualified := true } } }
        else if x.qualified then referenceEdge spec p x s
        else s
      | _, _ => s)

/-- QI_RISE: in stage COUNT an index pulse is counted, and at the index count the preset is applied (R126). -/
def execQiRise (s : State) : Host.Outcome State Fault Refusal :=
  .next (
    let s := { s with pins := { s.pins with qi := .high } }
    match s.runningSeek?, s.pg.seek with
    | some (spec, _), some x =>
      match x.stage, spec.variant with
      | some .count, .index n =>
        let x := { x with counted := x.counted + 1 }
        if n ≤ x.counted then applyPreset { s with pg := { s.pg with seek := some { x with latched := some s.counters } } }
        else { s with pg := { s.pg with seek := some x } }
      | _, _ => s
    | _, _ => s)

/-- QUADRATURE_TRANSITION: the decoder follows; outside mode OFF an illegal transition is reported, and a valid
one counts (R133 to R136). -/
def execQuadratureTransition (qa qb : Level) (s : State) : Host.Outcome State Fault Refusal :=
  .next (
    let old := s.pb.decoder
    let new := quadOf qa qb
    let s := { s with pb := { s.pb with decoder := new } }
    if s.ss.settings.encMode ≠ .off ∧ old.bothChange new then guardTake .encoderError .abrupt s
    else stepFeedback (s.ss.settings.quadCount old new) s)

end Sys2Proof.Machine
end

