-- ==== Sys2Proof/Machine/Trunk.lean ====
section
/-! DEFINITION. The meanings of the commands of reset and of the trunk: reset, joining, attempts and their ends,
breaks, the stuck line, and the taken frames that act on the Trunk Interface alone (chapters 1 and 3). -/

namespace Sys2Proof.Machine

/-! ### Reset -/

/-- Every block takes its reset values (R42). The levels on the inputs stand, the decoder goes on naming the
combination of QA and QB (Table 8-1), and the commands that wait still wait. -/
def resetNode (straps : Straps) (cause : ResetCause) (s : State) : State :=
  { State.reset with
    pins := s.pins
    pb := { State.reset.pb with decoder := s.pb.decoder }
    ss := { State.reset.ss with straps, lastReset := cause }
    pending := s.pending }

/-- The end of a reset (R41, R43): with a station number of 1 to 62 the node enters SETUP and the link JOINING,
otherwise both stay HELD. -/
def endReset (s : State) : State :=
  if stationOk s.own then
    { s with ss := { s.ss with node := .setup }, tif := { s.tif with link := .joining } }
  else s

/-- NRESET_ASSERTED: nRESET goes low (R42, R53), and the straps are followed (R40). -/
def execNresetAsserted (straps : Straps) (s : State) : Host.Outcome State Fault Refusal :=
  .next (
    let s := resetNode straps .pin s
    { s with pins := { s.pins with nreset := .low } })

/-- NRESET_RELEASED: nRESET goes high after a reset, the straps standing are kept, and reset ends (R40, R43). -/
def execNresetReleased (straps : Straps) (s : State) : Host.Outcome State Fault Refusal :=
  .next (
    if s.pins.nreset = .low ∧ s.ss.node = .held then
      endReset { s with pins := { s.pins with nreset := .high }, ss := { s.ss with straps } }
    else s)

/-! ### Taking a frame that is a command -/

/-- The frame a command stands for is taken, and what it does follows; otherwise the command does not arise
(entry 4). -/
def takeFrame (i : Instr) (act : State → State) (s : State) : State :=
  match frameOf s.own i with
  | some f => if s.takes f then act (taken s) else s
  | none => s

/-- RESTART_TAKEN: with RSTEN sampled high the node resets, samples the straps and leaves reset (R44). -/
def execRestartTaken (source : StationId) (straps : Straps) (s : State) : Host.Outcome State Fault Refusal :=
  .next (takeFrame (.restartTaken source straps)
    (fun s => if s.ss.straps.rsten = .high then endReset (resetNode straps .restart s) else s) s)

/-! ### Joining, attempts -/

/-- JOINING_IDLE_REACHED: the link enters LISTENING with the line idle (R18); the stuck count starts anew (R19). -/
def execJoiningIdleReached (s : State) : Host.Outcome State Fault Refusal :=
  .next (
    if s.tif.link = .joining then
      { s with tif := { s.tif with
        link := .listening, idleCount := Config.idleLength, reception := .awaits, stuckCount := 0 } }
    else s)

/-- The frame is TIMED: a READY or a MARK (R23). -/
def TxFrame.isTimed : TxFrame → Bool
  | .ready _ _ _ _ => true
  | .mark _ _ => true
  | .answer _ _ _ => false
  | .notice _ _ _ => false

/-- The oldest entry that a test picks and that is not withdrawn goes on the line; none if there is none (R23). -/
def putOnLine (p : TxFrame → Bool) : List TxEntry → Option (List TxEntry)
  | [] => none
  | e :: rest =>
    if p e.frame && !e.withdrawn then some ({ e with onLine := true } :: rest)
    else (putOnLine p rest).map (e :: ·)

/-- The lowest slot that owes a HALT (R23). -/
def State.firstOwed? (s : State) : Option (Fin 8) := allSlots.find? fun k => (s.tif.owed[k]).isSome

/-- The choice of R23 put on the line: owed HALTs, then TIMED frames, then ROUTINE frames; none if there is no
frame to send. -/
def chooseFrame (s : State) : Option State :=
  match s.firstOwed? with
  | some k =>
    some { s with tif := { s.tif with owed := s.tif.owed.set k ((s.tif.owed[k]).map fun e => { e with onLine := true }) } }
  | none =>
    match putOnLine TxFrame.isTimed s.tif.queue with
    | some q => some { s with tif := { s.tif with queue := q } }
    | none =>
      (putOnLine (fun f => !f.isTimed) s.tif.queue).map fun q => { s with tif := { s.tif with queue := q } }

/-- The node drives the start bit of the frame that it has put on the line, and enters SENDING (R5). -/
def startSending (s : State) : State :=
  { s with tif := { s.tif with
    link := .sending, txd := dominant, idleCount := 0, reception := .awaits, mismatchTest := false
    windowA := recessive, windowB := recessive } }

/-- ATTEMPT_START: the node has read these bits since the last row of the line. If the line is idle after them (R4), it
drives the start bit of the frame it chooses and enters SENDING (R5, R23). On a line that is not idle, as one on which
another station's start bit has been read, no attempt starts. -/
def execAttemptStart (s : State) (bits : List TrunkBit := []) : Host.Outcome State Fault Refusal :=
  .next (
    if s.tif.link = .listening ∧ s.tif.breakLeft = 0 then
      let s := readLine bits s
      if s.lineIdle = true then
        match chooseFrame s with
        | some t => startSending t
        | none => s
      else s
    else s)

/-- The node's attempt has ended without its frame taken or abandoned: the frame waits again (R8, R13), a
withdrawn one is removed (R24), and the producer is told (R145, R176). -/
def attemptWaits (s : State) : State :=
  match s.onLineHalt? with
  | some k =>
    { s with tif := { s.tif with owed := s.tif.owed.set k ((s.tif.owed[k]).map fun e => { e with onLine := false }) } }
  | none =>
    match s.onLineEntry? with
    | none => s
    | some e =>
      if e.withdrawn then dropOnLine s
      else
        let s := { s with tif := { s.tif with queue := s.tif.queue.map fun x => { x with onLine := false } } }
        match e.frame with
        | .ready _ _ _ _ => s
        | .mark u _ => foldHeld u s
        | .answer _ _ _ => s
        | .notice _ _ _ => noticeWaits s

/-- The node drives nothing and is a LISTENING station again (R8, R13). The frame on the line is to it from then on as
given. -/
def leaveSending (r : Reception) (s : State) : State :=
  { s with tif := { s.tif with
    link := .listening, txd := recessive, idleCount := 0, reception := r, mismatchTest := false } }

/-- ARBITRATION_LOST: the node stops driving and receives the frame on the line; the attempt does not count (R8). -/
def execArbitrationLost (s : State) : Host.Outcome State Fault Refusal :=
  .next (if s.tif.link = .sending ∧ s.tif.mismatchTest = false then attemptWaits (leaveSending .reads s) else s)

/-! ### Voided attempts and abandonment -/

/-- The LINK notice (R36). -/
def linkNotice (reason detail : Byte) (s : State) : State := produce .link [reason, detail] s

/-- The producer of an abandoned frame is told (R14, R91, R145, R171, R176). -/
def abandoned (f : TxFrame) (s : State) : State :=
  match f with
  | .ready k _ _ _ =>
    if (s.group? k).any fun g => g.state == .armed then
      linkNotice reasonReadyAbandoned (BitVec.ofNat 8 k.val) (localHalt k .sendFailed .abrupt false s)
    else s
  | .mark u _ => releaseHeld u (linkNotice reasonMarkAbandoned (BitVec.ofNat 8 u.val) s)
  | .answer i _ _ => freeSlot i s
  | .notice _ _ _ => noticeAbandoned s

/-- One more voided attempt of the entry on the line. -/
def countVoid (s : State) : State :=
  { s with tif := { s.tif with
    queue := s.tif.queue.map fun x => if x.onLine then { x with attempts := x.attempts + 1 } else x } }

/-- The node's attempt is voided (R13, R14): the count rises, and at the retry limit in force the frame is
abandoned. A withdrawn frame is removed without either (R24). An abandoned HALT is SEND_FAILED (R161). -/
def attemptVoid (s : State) : State :=
  let limit := s.ss.settings.retryLimit
  match s.onLineHalt? with
  | some k =>
    match s.tif.owed[k] with
    | none => s
    | some e =>
      if limit ≤ e.attempts + 1 then
        guardTake .sendFailed .abrupt { s with tif := { s.tif with owed := s.tif.owed.set k none } }
      else { s with tif := { s.tif with
        owed := s.tif.owed.set k (some { e with attempts := e.attempts + 1, onLine := false }) } }
  | none =>
    match s.onLineEntry? with
    | none => s
    | some e =>
      if e.withdrawn then dropOnLine s
      else if limit ≤ e.attempts + 1 then abandoned e.frame (dropOnLine s)
      else attemptWaits (countVoid s)

/-- What the command carries voids the attempt: a dominant window bit, or a break (R13). -/
def State.voids (s : State) (how : VoidHow) : Bool :=
  match how with
  | .complaint a b => (a == dominant || b == dominant) && !s.tif.mismatchTest
  | .broken => true

/-- A voided attempt ends with its window, or with a break after which the node waits for the line to become idle (R13,
R15). -/
def receptionAfter : VoidHow → Reception
  | .complaint _ _ => .awaits
  | .broken => .skips

/-- ATTEMPT_VOIDED: the node's own attempt draws a complaint or a break (R13). -/
def execAttemptVoided (how : VoidHow) (s : State) : Host.Outcome State Fault Refusal :=
  .next (if s.tif.link = .sending ∧ s.voids how = true then attemptVoid (leaveSending (receptionAfter how) s) else s)

/-! ### Mismatch and SILENT -/

/-- MISMATCH: the node stops driving and reads on (R15). -/
def execMismatch (s : State) : Host.Outcome State Fault Refusal :=
  .next (
    if s.tif.link = .sending then { s with tif := { s.tif with mismatchTest := true, txd := recessive } } else s)

/-- What SILENT's entry does before the Guard acts (R16, R45, R149, R177): the link and the node are SILENT, the
queue and the halt-owed set are emptied with no producer told, the answer slots are free, no MARK and no held
firings remain, and both pulse lines are low (R52, entry 19). -/
def silence (s : State) : State :=
  { s with
    ss := { s.ss with node := .silent }
    tif := { s.tif with
      link := .silent, txd := recessive, mismatchTest := false, queue := [], owed := Vector.replicate 8 none }
    fh := { slots := Vector.replicate 2 none }
    nb := { s.nb with lateOverflow := false }
    pb := { s.pb with units := s.pb.units.map fun x => { x with held := none } }
    pg := { s.pg with stepCw := .low, dirCcw := .low } }

/-- The link enters SILENT (R16): the Guard takes DUPLICATE_STATION, as in RUN if the node was in RUN (R160) and
noted otherwise (R154), and the rendezvous timer is stopped (R104). -/
def enterSilent (s : State) : State :=
  let t := silence s
  let t := if s.ss.node = .run then
      (if s.gd.state = .normal then guardLeave .duplicateStation .abrupt t
       else guardAdd .duplicateStation .abrupt t)
    else guardNote .duplicateStation t
  driveDen (stopTimer t)

/-- MISMATCH_TEST_END: the mismatched bit and the 7 that follow were dominant, a break, or another station has
the node's number (R15, R16). -/
def execMismatchTestEnd (levels : Vector TrunkBit 7) (s : State) : Host.Outcome State Fault Refusal :=
  .next (
    if s.tif.link = .sending ∧ s.tif.mismatchTest = true then
      if levels.toList.all (· == dominant) then attemptVoid (leaveSending .skips s) else enterSilent s
    else s)

/-! ### Breaks -/

/-- CODING_ERROR: a receiver finds an error that draws a break, drives the line dominant, and decodes no further bit
until the line is idle, so that it breaks a frame once (R3). -/
def execCodingError (bits : List TrunkBit) (s : State) : Host.Outcome State Fault Refusal :=
  .next (
    if s.tif.link = .listening ∧ s.tif.breakLeft = 0 ∧ (s.decodes bits).any breaksAtLast = true then
      { s with tif := { s.tif with
        breakLeft := Config.breakLength, txd := dominant, idleCount := 0, reception := .skips } }
    else s)

/-- BREAK_END: the node's own break runs out, and the idle count starts; the node goes on waiting for the line to become
idle (R3, R4). -/
def execBreakEnd (s : State) : Host.Outcome State Fault Refusal :=
  .next (
    if s.tif.breakLeft = 0 then s
    else { s with tif := { s.tif with breakLeft := 0, txd := recessive, idleCount := 0 } })

/-- The node drives window bit A: a check error or a malformed frame (R9). -/
def complainsA (f : Frame) (checks : Bool) : Bool := !checks || f.malformed

/-- The node drives window bit B (R10). -/
def State.complainsB (s : State) (f : Frame) (checks : Bool) : Bool := checks && !f.malformed && s.busyFor f

/-- The level of a window bit the node drives or not (R9). -/
def windowBit (complains : Bool) : TrunkBit := if complains then dominant else recessive

/-- FRAME_VOIDED: a received frame draws a dominant window bit, from this node or another, and acts nowhere (R9
to R11). After a break the node takes part in no window until the line is idle (R3). -/
def execFrameVoided (bits : List TrunkBit) (othersA othersB : TrunkBit) (s : State) : Host.Outcome State Fault Refusal :=
  .next (
    if s.tif.link = .listening ∧ s.tif.breakLeft = 0 then
      match (s.decodes bits).bind receivedFrame with
      | none => s
      | some (f, checks) =>
        let a := windowBit (complainsA f checks)
        let b := windowBit (s.complainsB f checks)
        if (a && othersA && b && othersB) = recessive then s else windowEnds a b s
    else s)

/-! ### The stuck line -/

/-- LINK_STUCK: the 48th dominant bit time in a row (R19, R159). A SENDING node has left SENDING before (entry 7). -/
def execLinkStuck (s : State) : Host.Outcome State Fault Refusal :=
  .next (
    if s.tif.link = .listening then
      guardTake .trunkStuck .abrupt { s with tif := { s.tif with
        link := .stuck, txd := recessive, idleCount := 0, stuckCount := Config.stuckLength, recoveryCount := 0
        breakLeft := 0 } }
    else s)

/-- STUCK_RECOVERY: the 24th recessive bit time in a row, with a LINK notice (R20). -/
def execStuckRecovery (s : State) : Host.Outcome State Fault Refusal :=
  .next (
    if s.tif.link = .stuck then
      linkNotice reasonStuckRecovered 0 { s with tif := { s.tif with
        link := .listening, idleCount := Config.recoveryLength, reception := .awaits, stuckCount := 0
        recoveryCount := Config.recoveryLength } }
    else s)

/-! ### Taken frames without an effect of their own -/

/-- A taken frame that has no effect at the node (R37): for another station, an ANSWER or NOTICE, or a group
frame for an address no slot holds. -/
def State.noEffect (s : State) (f : Frame) : Bool :=
  match commandOf s.own s.ss.straps s.pins.qi f with
  | some (.frameTakenNoEffect _) => true
  | some (.haltGroupTaken _ g _ _ _) => (s.slotOfAddress? g).isNone
  | some (.clearGroupTaken _ g _) => (s.slotOfAddress? g).isNone
  | some (.readyTaken _ g _ _) => (s.slotOfAddress? g).isNone
  | _ => false

/-- FRAME_TAKEN_NO_EFFECT (R11, R37). -/
def execFrameTakenNoEffect (f : Frame) (s : State) : Host.Outcome State Fault Refusal :=
  .next (if s.noEffect f then takeFrame (.frameTakenNoEffect f) id s else s)

/-- The node's frame on the line is a test's kind of queue entry, and its attempt can end taken. -/
def State.sends (s : State) (p : TxFrame → Bool) : Bool :=
  s.tif.link == .sending && !s.tif.mismatchTest && s.onLineHalt?.isNone && s.onLineEntry?.any fun e => p e.frame

/-- OWN_ANSWER_TAKEN: the ANSWER leaves the queue and frees its answer slot (R12, R170). -/
def execOwnAnswerTaken (s : State) : Host.Outcome State Fault Refusal :=
  .next (if s.sends TxFrame.isAnswer then taken s else s)

/-- OWN_NOTICE_TAKEN: the NOTICE leaves the queue, the overflow flag is cleared or kept, and the next NOTICE is
composed (R12, R176). -/
def execOwnNoticeTaken (s : State) : Host.Outcome State Fault Refusal :=
  .next (if s.sends TxFrame.isNotice then taken s else s)

end Sys2Proof.Machine
end

