-- ==== Sys2Proof/Machine/Groups.lean ====
section
/-! DEFINITION. The meanings of the taken coordination frames and of the rendezvous timer: HALT, CLEAR to a group
or to ALL, READY, MARK, and the timer's expiry (chapter 5, R147, R162, R163). -/

namespace Sys2Proof.Machine

/-- A coordination frame acts in node state RUN alone (R39). -/
def inRun (act : State → State) (s : State) : State := if s.ss.node = .run then act s else s

/-- A group frame acts on the slot that holds its address, if one does (R37). -/
def onGroup (a : GroupAddr) (act : Fin 8 → State → State) (s : State) : State :=
  match s.slotOfAddress? a with
  | some k => act k s
  | none => s

/-- HALT_GROUP_TAKEN: the slot of the group is halted (R95); a head whose stop is complete is ended and the next
evaluated. -/
def execHaltGroupTaken (source : StationId) (group : GroupAddr) (cause mode tag : Byte) (s : State) :
    Host.Outcome State Fault Refusal :=
  .next (takeFrame (.haltGroupTaken source group cause mode tag)
    (inRun (onGroup group fun k s =>
      match causeOf cause, modeOf mode with
      | some c, some m => settle (haltSlot k c source m false s)
      | _, _ => s)) s)

/-- An ungrouped RUNNING or ENDING head meets the claim of a HALT(ALL) (R97, R70). -/
def haltUngrouped (m : Mode) (s : State) : State :=
  match s.head? with
  | some h => if h.slot = none then claim .halted m s else s
  | none => s

/-- HALT_ALL_TAKEN: every live slot in ascending order, an ungrouped head, then the Guard's latch (R97, R162); a
head whose stop is complete is ended after the latch (entry 9). -/
def execHaltAllTaken (source : StationId) (cause mode tag : Byte) (s : State) : Host.Outcome State Fault Refusal :=
  .next (takeFrame (.haltAllTaken source cause mode tag)
    (inRun fun s =>
      match causeOf cause, modeOf mode with
      | some c, some m =>
        guardLatchPeer source m (haltUngrouped m (allSlots.foldl (fun s k => haltSlot k c source m false s) s))
      | _, _ => s) s)

/-- CLEAR_GROUP_TAKEN: the slot of the group is cleared, and its head evaluated (R99). -/
def execClearGroupTaken (source : StationId) (group : GroupAddr) (sequence : Byte) (s : State) :
    Host.Outcome State Fault Refusal :=
  .next (takeFrame (.clearGroupTaken source group sequence)
    (inRun (onGroup group fun k s =>
      let s := clearSlot k sequence s
      if (s.headOfSlot? k).isSome then evaluate s else s)) s)

/-- CLEAR_ALL_TAKEN: every live slot is cleared, the Guard drops PEER_ALL_HALT, and the head is evaluated once
(R101, R163). -/
def execClearAllTaken (source : StationId) (sequence : Byte) (s : State) : Host.Outcome State Fault Refusal :=
  .next (takeFrame (.clearAllTaken source sequence)
    (inRun fun s => evaluate (guardRemovePeer (allSlots.foldl (fun s k => clearSlot k sequence s) s))) s)

/-- The head of slot k is in ANNOUNCED. -/
def State.headAnnounced (s : State) (k : Fin 8) : Bool := (s.headOfSlot? k).any fun h => h.state == .announced

/-- The node's own READY has been taken: an ANNOUNCING head becomes ANNOUNCED (R67, R87). -/
def announced (k : Fin 8) (s : State) : State :=
  if (s.headOfSlot? k).any fun h => h.state == .announcing then setHeadState .announced s else s

/-- Slot k fires (R88): the ready set empties, the sequence number advances, the timer stops, the slot is OPEN, and
the head starts (R68). -/
def fire (k : Fin 8) (g : Group) (s : State) : State :=
  let s := s.setSlot k (.live { g with ready := 0, sequence := g.sequence + 1, state := .opened })
  settle (startHead (stopTimer s))

/-- A READY that passed R86 is recorded, and fires the slot if it completes the set (R87, R88). -/
def recordReady (k : Fin 8) (g : Group) (source : StationId) (s : State) : State :=
  let g := { g with ready := addStation g.ready source }
  let s := s.setSlot k (.live g)
  let s := if source = s.own ∧ g.state = .armed then announced k s else s
  if g.ready = g.roster ∧ g.state = .armed ∧ s.headAnnounced k then fire k g s else s

/-- RU takes a READY for slot k (R85 to R88): ignored if HALTED, a local halt if a check fails, else recorded. -/
def takeReady (k : Fin 8) (source : StationId) (sequence : Byte) (s : State) : State :=
  match s.group? k with
  | none => s
  | some g =>
    if s.slotHalted k then s
    else if !hasStation g.roster source then settle (localHalt k .rosterMismatch .abrupt false s)
    else if sequence ≠ g.sequence then settle (localHalt k .sequenceFault .abrupt false s)
    else recordReady k g source s

/-- READY_TAKEN (R85 to R88). -/
def execReadyTaken (source : StationId) (group : GroupAddr) (sequence tag : Byte) (s : State) :
    Host.Outcome State Fault Refusal :=
  .next (takeFrame (.readyTaken source group sequence tag)
    (inRun (onGroup group fun k s => takeReady k source sequence s)) s)

/-- The slot that is ARMED (R82). -/
def State.armedSlot? (s : State) : Option (Fin 8) :=
  allSlots.find? fun k => (s.group? k).any fun g => g.state == .armed

/-- RENDEZVOUS_TIMEOUT: the timer, running, expires, and the ARMED slot is halted locally (R90). -/
def execRendezvousTimeout (s : State) : Host.Outcome State Fault Refusal :=
  .next (
    if s.ru.timer.isSome then
      match s.armedSlot? with
      | some k => localHalt k .rendezvousTimeout .abrupt false s
      | none => s
    else s)

/-- The count of a MARK (R30). -/
def markCount (packed : Byte) : Nat := (packed.extractLsb' 0 4).toNat

/-- `c` firings of a pair added to its entry, at most 15 (R147). -/
def addHeard (m : MarkRef) (c : Nat) (s : State) : State :=
  { s with pb := { s.pb with heard := s.pb.heard.map fun e =>
      if e.ref = m then { e with count := min Config.markCountMax (e.count + c) } else e } }

/-- A MARK reaches the Position Block (R147): recorded if its pair is referenced and there is room, after which a
RUN looks for its end mark and a WAITING head is evaluated. -/
def hearMark (m : MarkRef) (c : Nat) (s : State) : State :=
  if !s.referenced m then s
  else if s.heardHas m then evaluate (lookEndMark (addHeard m c s))
  else if s.pb.heard.length < Config.heardCapacity then
    evaluate (lookEndMark { s with pb := { s.pb with heard := s.pb.heard ++ [{ ref := m, count := c }] } })
  else linkNotice reasonMarksFull m.byte s

/-- MARK_TAKEN (R145, R147). -/
def execMarkTaken (source : StationId) (unit packed : Byte) (position : BitVec 32) (s : State) :
    Host.Outcome State Fault Refusal :=
  .next (takeFrame (.markTaken source unit packed position)
    (inRun fun s =>
      match unitOf unit with
      | some u => hearMark { station := source, unit := u } (markCount packed) s
      | none => s) s)

end Sys2Proof.Machine
end

