-- ==== Sys2Proof/Machine/Requests.lean ====
section
/-! DEFINITION. The meanings of the requests to the node that queue, drop and stop work, set mark units and clear
the Guard, with the handling of every request by the Frame Handler (R37, R38, R170, R171). -/

namespace Sys2Proof.Machine

/-- What the owner of a request makes of it: the state it leaves, the result, and the contents of Table 2-13. -/
structure Reply where
  state : State
  result : Result
  contents : List Byte
  deriving DecidableEq, Repr

/-- A refusal, with nothing changed. -/
def refuse (r : Result) (s : State) : Reply := { state := s, result := r, contents := [] }

/-- Acceptance without contents. -/
def accept (s : State) : Reply := { state := s, result := .accepted, contents := [] }

/-- A request that acts in RUN; otherwise STATE (R38). -/
def runOnly (act : State → Reply) (s : State) : Reply := if s.ss.node = .run then act s else refuse .state s

/-- A request that acts in SETUP; otherwise LOCKED (R38, R51). -/
def setupOnly (act : State → Reply) (s : State) : Reply := if s.ss.node = .setup then act s else refuse .locked s

/-- An answer slot is occupied by a request (R170). -/
def occupySlot (i : Fin 2) (station : StationId) (reference : Byte) (kind : BitVec 4) (s : State) : State :=
  { s with fh := { s.fh with slots := s.fh.slots.set i (some { station, reference, kind }) } }

/-- The ANSWER of a reply is composed and admitted (R34, R171). -/
def answerWith (i : Fin 2) (station : StationId) (reference : Byte) (kind : BitVec 4) (r : Reply) : State :=
  enqueue (.answer i station ([reference, kind.setWidth 8, r.result.byte] ++ r.contents)) r.state

/-- The Frame Handler serves a taken request: an answer slot is occupied, the owner acts, and the ANSWER is
admitted (R37, R170, R171). -/
def serve (i : Instr) (station : StationId) (reference : Byte) (kind : BitVec 4) (act : State → Reply) (s : State) : State :=
  takeFrame i (fun s =>
    match s.freeSlot? with
    | some j => answerWith j station reference kind (act (occupySlot j station reference kind s))
    | none => s) s

/-! ### LOAD -/

/-- A segment is appended (R58): QUEUED behind others, or head in WAITING and evaluated. -/
def append (h : Segment) (s : State) : State :=
  match s.queue with
  | [] => evaluate { s with queue := [{ h with state := .waiting }] }
  | _ :: _ => { s with queue := s.queue ++ [{ h with state := .queued }] }

/-- The group slot a segment names is undefined (R57). -/
def State.slotUndefined (s : State) (h : Segment) : Bool := h.slot.any fun k => (s.group? k).isNone

/-- The checks of R57 in their order, then R58. -/
def loadSegment (r : LoadRecord) (s : State) : Reply :=
  if Config.queueCapacity ≤ s.queue.length then refuse .full s
  else
    match segmentOf r with
    | none => refuse .range s
    | some h =>
      if s.slotUndefined h then refuse .slotUndefined s
      else if s.queue.any fun x => x.tag == h.tag then refuse .duplicateTag s
      else accept (append h s)

/-- LOAD (R57, R58). -/
def execLoad (source : StationId) (reference : Byte) (record : LoadRecord) (s : State) : Host.Outcome State Fault Refusal :=
  .next (serve (.load source reference record) source reference kindLoad (runOnly (loadSegment record)) s)

/-! ### FLUSH -/

/-- The segment is kept by FLUSH (R77): ANNOUNCED, RUNNING or ENDING. -/
def SegState.keptByFlush : SegState → Bool
  | .announced => true
  | .running => true
  | .ending _ _ => true
  | _ => false

/-- The steps not emitted of a FLUSHED segment (R78). -/
def SegKind.flushedSteps : SegKind → Nat
  | .move d _ => d.natAbs
  | .span d _ _ => d.natAbs
  | _ => 0

/-- An ANNOUNCING head that FLUSH removes leaves its slot OPEN, its READY withdrawn and the timer stopped (R102). -/
def flushAnnouncing (removed : List Segment) (s : State) : State :=
  match removed.find? fun h => h.state == .announcing with
  | none => s
  | some h =>
    match h.slot with
    | none => s
    | some k =>
      match s.group? k with
      | none => s
      | some g => stopTimer ((withdrawReady s).setSlot k (.live { g with state := .opened }))

/-- What FLUSH kept, as its ANSWER says it: none 0, ANNOUNCED 1, RUNNING or ENDING 2, and the tag (Table 2-13). -/
def keptBytes (kept : Option Segment) : List Byte :=
  match kept with
  | none => [0, 0]
  | some h => [if h.state = .announced then 1 else 2, h.tag]

/-- After a FLUSH (R78, step 3): with the head removed the oldest remaining segment becomes head and is
evaluated; an empty queue gives EMPTY. -/
def afterFlush (headRemoved : Bool) (s : State) : State :=
  match s.queue with
  | [] => produce .empty s.commandBytes s
  | _ :: _ => if headRemoved then evaluate { s with queue := promote s.queue } else s

/-- The segment is removed by a FLUSH that matches with `p` (R77). -/
def flushes (p : Segment → Bool) (h : Segment) : Bool := p h && !h.state.keptByFlush

/-- FLUSH of the segments a test matches (R77, R78, R102). -/
def flushMatching (p : Segment → Bool) (s : State) : Reply :=
  if !s.queue.any p then refuse .notFound s
  else
    let removed := s.queue.filter (flushes p)
    let kept := s.queue.find? fun h => p h && h.state.keptByFlush
    let headRemoved := s.head?.any (flushes p)
    let s := flushAnnouncing removed { s with queue := s.queue.filter fun h => !flushes p h }
    let s := removed.foldl (fun s h => doneNotice h.tag .flushed h.kind.flushedSteps s) (pruneHeard s)
    { state := afterFlush headRemoved s, result := .accepted,
      contents := BitVec.ofNat 8 removed.length :: keptBytes kept }

/-- FLUSH ALL: the value must be 0 (R32, R77). -/
def execFlushAll (source : StationId) (reference value : Byte) (s : State) : Host.Outcome State Fault Refusal :=
  .next (serve (.flushAll source reference value) source reference kindFlush
    (runOnly fun s => if value = 0 then flushMatching (fun _ => true) s else refuse .range s) s)

/-- FLUSH TAG: the value is a tag, 1 to 255 (R32, R77). -/
def execFlushTag (source : StationId) (reference value : Byte) (s : State) : Host.Outcome State Fault Refusal :=
  .next (serve (.flushTag source reference value) source reference kindFlush
    (runOnly fun s => if value = 0 then refuse .range s else flushMatching (fun h => h.tag == value) s) s)

/-- FLUSH SLOT: the value is a group slot, 0 to 7 (R32, R77). -/
def execFlushSlot (source : StationId) (reference value : Byte) (s : State) : Host.Outcome State Fault Refusal :=
  .next (serve (.flushSlot source reference value) source reference kindFlush
    (runOnly fun s =>
      match slotIndexOf value with
      | none => refuse .range s
      | some k => flushMatching (fun h => h.slot == some k) s) s)

/-! ### STOP -/

/-- The checks of R79 in their order, then the claim STOPPED. -/
def stopSegment (mode tag : Byte) (s : State) : Reply :=
  match modeOf mode with
  | none => refuse .range s
  | some m =>
    match s.head? with
    | none => refuse .notFound s
    | some h =>
      if !h.state.isMoving ∨ (tag ≠ 0 ∧ tag ≠ h.tag) then refuse .notFound s
      else if h.slot ≠ none then refuse .state s
      else accept (settle (claim .stopped m s))

/-- STOP (R79). -/
def execStop (source : StationId) (reference mode tag : Byte) (s : State) : Host.Outcome State Fault Refusal :=
  .next (serve (.stop source reference mode tag) source reference kindStop (runOnly (stopSegment mode tag)) s)

/-! ### MARKSET -/

/-- The source counter of a mark unit (Table 8-3). -/
def State.sourceCounter (s : State) (x : MarkSource) : Int :=
  match x with
  | .command => s.pb.command
  | .feedback => s.pb.feedback

/-- A unit is armed and its condition evaluated once (R140). -/
def armUnit (u : Fin 4) (src : MarkSource) (cond : MarkCond) (threshold : Int) (period : Nat) (s : State) : State :=
  let x := s.pb.units[u]
  let s := s.setUnit u { x with state := .armed, source := src, cond, threshold, period }
  evalUnit src .arming (s.sourceCounter src) s u

/-- MARKSET ARM: the checks in their order, then the arming (R140). -/
def execMarksetArm (source : StationId) (reference unit sourceCond : Byte) (threshold : BitVec 32) (period : BitVec 24)
    (s : State) : Host.Outcome State Fault Refusal :=
  .next (serve (.marksetArm source reference unit sourceCond threshold period) source reference kindMarkset
    (runOnly fun s =>
      match unitOf unit with
      | none => refuse .range s
      | some u =>
        if sourceCond &&& 0xEC ≠ 0 then refuse .range s
        else
          match positionOf threshold with
          | none => refuse .range s
          | some t => accept (armUnit u (markSourceOf sourceCond) (markCondOf sourceCond) t period.toNat s)) s)

/-- A unit is disarmed and its MARK withdrawn (R141). -/
def disarmUnit (u : Fin 4) (s : State) : State :=
  let x := s.pb.units[u]
  withdraw (TxFrame.isMark u) (s.setUnit u { x with state := .disarmed })

/-- MARKSET DISARM: the unit's range is the only check (R140, R141). -/
def execMarksetDisarm (source : StationId) (reference unit : Byte) (unused : BitVec 64) (s : State) :
    Host.Outcome State Fault Refusal :=
  .next (serve (.marksetDisarm source reference unit unused) source reference kindMarkset
    (runOnly fun s =>
      match unitOf unit with
      | none => refuse .range s
      | some u => accept (disarmUnit u s)) s)

/-! ### CLEAR(STATION) -/

/-- The causes whose condition a CLEAR(STATION) finds present (R165). -/
def State.presentCauses (s : State) : BitVec 16 :=
  causeSet (
    (if s.limpActive && hasCause s.gd.causes .limitPlus then [.limitPlus] else [])
    ++ (if s.limnActive && hasCause s.gd.causes .limitMinus then [.limitMinus] else [])
    ++ (if s.dfltActive then [.driveFault] else [])
    ++ (if hasCause s.gd.causes .peerAllHalt && s.gd.causes != Cause.peerAllHalt.bit then [.peerAllHalt] else []))

/-- The Guard's answer to a CLEAR(STATION) by its state (R165, R166). -/
def clearGuard (s : State) : Reply :=
  match s.gd.state with
  | .normal => { state := s, result := .accepted, contents := [0, 0, 0] }
  | .stopping => refuse .state s
  | .stopped =>
    if s.presentCauses ≠ 0 then
      { state := s, result := .stillActive, contents := causeByte s.gd.first :: bytes2 s.presentCauses }
    else
      { state := evaluate (guardEmpty s), result := .accepted,
        contents := causeByte s.gd.first :: bytes2 s.gd.causes }

/-- CLEAR_STATION_TAKEN (R165, R166). -/
def execClearStationTaken (source : StationId) (reference : Byte) (s : State) : Host.Outcome State Fault Refusal :=
  .next (serve (.clearStationTaken source reference) source reference kindClear (runOnly clearGuard) s)

end Sys2Proof.Machine
end

