-- ==== Sys2Proof/Machine/Queries.lean ====
section
/-! DEFINITION. The meanings of the six QUERY rows: the contents of Tables 2-14 and 2-15 (R35, R120, R130, R172). -/

namespace Sys2Proof.Machine

/-- The contents of an accepted QUERY: subject and item, then the subject's own (R35). -/
def queryReply (subject item : Byte) (contents : List Byte) (s : State) : Reply :=
  { state := s, result := .accepted, contents := [subject, item] ++ contents }

/-- The head's state code, 0 for no segment (R35). -/
def State.headStateByte (s : State) : Byte :=
  match s.head? with
  | some h => h.state.byte
  | none => 0

/-- The head's tag, 0 for no segment (Table 2-14). -/
def State.headTagByte (s : State) : Byte :=
  match s.head? with
  | some h => h.tag
  | none => 0

/-- The halt-owed set as a slot set (R26). -/
def State.owedByte (s : State) : Byte :=
  allSlots.foldl (fun b k => if (s.tif.owed[k]).isSome then b ||| (1#8 <<< k.val) else b) 0

/-- The input bits of STATUS (Table 2-14). -/
def State.inputsByte (s : State) : Byte :=
  0#3 ++ BitVec.ofBool (s.pins.qi == .high) ++ BitVec.ofBool s.dfltActive ++ BitVec.ofBool s.refActive
    ++ BitVec.ofBool s.limnActive ++ BitVec.ofBool s.limpActive

/-- STATUS contents, bytes 5 to 19 (Table 2-14). -/
def State.statusBytes (s : State) : List Byte :=
  [s.ss.node.byte, s.tif.link.byte, s.gd.state.byte, causeByte s.gd.first] ++ bytes2 s.gd.causes
    ++ [stationByte s.gd.originator, BitVec.ofNat 8 s.queue.length, s.headTagByte, s.headStateByte, s.owedByte,
        BitVec.ofBool s.nb.overflow ++ 0#3 ++ BitVec.ofNat 4 s.nb.list.length,
        BitVec.ofNat 8 s.slotsInUse, s.ss.lastReset.byte, s.inputsByte]

/-- QUERY STATUS, with the QI level that stands (R172, entry 12). -/
def execQueryStatus (source : StationId) (reference item : Byte) (qi : Level) (s : State) : Host.Outcome State Fault Refusal :=
  .next (serve (.queryStatus source reference item qi) source reference kindQuery
    (fun s =>
      let s := { s with pins := { s.pins with qi := qi } }
      if item = 0 then queryReply 0 item s.statusBytes s else refuse .range s) s)

/-- The steps remaining as reported: those of a MOVE, TO or SPAN that is RUNNING or ENDING, else 0 (R120). -/
def State.reportedRemaining (s : State) : Nat :=
  match s.head? with
  | some h => if h.state.isMoving && h.kind.counts then s.pg.remaining else 0
  | none => 0

/-- POSITION contents, bytes 5 to 23 (Table 2-14, R120, R137). -/
def State.positionBytes (s : State) : List Byte :=
  signed4 s.pb.command ++ signed4 s.pb.feedback ++ signed4 s.reportedDeviation
    ++ bytes3 (BitVec.ofNat 24 s.pg.speed) ++ [s.pg.phase.byte] ++ steps3 s.reportedRemaining

/-- QUERY POSITION (R120, R130, R172). -/
def execQueryPosition (source : StationId) (reference item : Byte) (s : State) : Host.Outcome State Fault Refusal :=
  .next (serve (.queryPosition source reference item) source reference kindQuery
    (fun s => if item = 0 then queryReply 1 item s.positionBytes s else refuse .range s) s)

/-- QUEUE contents, bytes 5 on (Table 2-14). -/
def State.queueBytes (s : State) : List Byte :=
  [BitVec.ofNat 8 s.queue.length, s.headStateByte] ++ s.queue.map Segment.tag

/-- QUERY QUEUE (R172). -/
def execQueryQueue (source : StationId) (reference item : Byte) (s : State) : Host.Outcome State Fault Refusal :=
  .next (serve (.queryQueue source reference item) source reference kindQuery
    (fun s => if item = 0 then queryReply 2 item s.queueBytes s else refuse .range s) s)

/-- The halt cause and originator of a group, 0 unless HALTED (Table 2-14). -/
def GroupState.haltBytes : GroupState → List Byte
  | .halted c o => [c.byte, o.setWidth 8]
  | _ => [0, 0]

/-- GROUP contents, bytes 5 to 27 (Table 2-14, R35, R89, R172). -/
def State.groupBytes (s : State) (k : Fin 8) : List Byte :=
  match s.ru.slots[k] with
  | .empty => [0] ++ bytes8 0 ++ [0] ++ bytes8 0 ++ [3, 0, 0, 0, 0]
  | .defined d => [d.address.setWidth 8] ++ bytes8 d.roster ++ [0] ++ bytes8 0 ++ [3, 0, 0, 0, 0]
  | .live g =>
    [g.address.setWidth 8] ++ bytes8 g.roster ++ [g.sequence] ++ bytes8 g.ready ++ [g.state.byte] ++ g.state.haltBytes
      ++ bytes2 (if g.state = .armed then BitVec.ofNat 16 (s.ru.timer.getD 0) else 0)

/-- QUERY GROUP: the item is a group slot, 0 to 7 (R32, R172). -/
def execQueryGroup (source : StationId) (reference item : Byte) (s : State) : Host.Outcome State Fault Refusal :=
  .next (serve (.queryGroup source reference item) source reference kindQuery
    (fun s =>
      match slotIndexOf item with
      | none => refuse .range s
      | some k => queryReply 3 item (s.groupBytes k) s) s)

/-- The pending byte of a mark unit: bit 7 pending, bit 6 saturated, bits 3 to 0 count (Table 2-15). -/
def State.pendingByte (s : State) (u : Fin 4) : Byte :=
  match s.markEntry? u with
  | some e =>
    match e.frame with
    | .mark _ f => 1#1 ++ BitVec.ofBool f.saturated ++ 0#2 ++ BitVec.ofNat 4 f.count
    | _ => 0
  | none => 0

/-- MARKS contents of a unit, bytes 5 to 13 (Table 2-15). -/
def State.unitBytes (s : State) (u : Fin 4) : List Byte :=
  let x := s.pb.units[u]
  [0#3 ++ x.source.code ++ x.cond.code ++ x.state.code] ++ signed4 x.threshold ++ bytes3 (BitVec.ofNat 24 x.period)
    ++ [s.pendingByte u]

/-- MARKS contents of the heard-mark list, bytes 5 on (Table 2-15). -/
def State.heardBytes (s : State) : List Byte :=
  BitVec.ofNat 8 s.pb.heard.length :: s.pb.heard.flatMap fun e => [e.ref.byte, BitVec.ofNat 8 e.count]

/-- QUERY MARKS: the item is a unit, 0 to 3, or 4 for the heard-mark list (R32, R172). -/
def execQueryMarks (source : StationId) (reference item : Byte) (s : State) : Host.Outcome State Fault Refusal :=
  .next (serve (.queryMarks source reference item) source reference kindQuery
    (fun s =>
      match unitOf item with
      | some u => queryReply 4 item (s.unitBytes u) s
      | none => if item = 4 then queryReply 4 item s.heardBytes s else refuse .range s) s)

/-- QUERY SETUP: the nineteen setting bytes in force (R33, R172). -/
def execQuerySetup (source : StationId) (reference item : Byte) (s : State) : Host.Outcome State Fault Refusal :=
  .next (serve (.querySetup source reference item) source reference kindQuery
    (fun s => if item = 0 then queryReply 5 item (fieldsOf s.ss.settings).bytes s else refuse .range s) s)

end Sys2Proof.Machine
end

