-- ==== Sys2Proof/Machine/Setup.lean ====
section
/-! DEFINITION. The meanings of SETUP, DEFINE and COMMIT (chapter 3). -/

namespace Sys2Proof.Machine

/-- The settings replaced whole (R46); encoder mode OFF sets the feedback counter to 0 (R47). -/
def applySettings (x : Settings) (s : State) : State :=
  { s with
    ss := { s.ss with settings := x }
    pb := { s.pb with feedback := if x.encMode = .off then 0 else s.pb.feedback } }

/-- SETUP (R46, R47). -/
def execSetup (source : StationId) (reference : Byte) (fields : SetupFields) (s : State) : Host.Outcome State Fault Refusal :=
  .next (serve (.setup source reference fields) source reference kindSetup
    (setupOnly fun s =>
      match settingsOf fields with
      | none => refuse .range s
      | some x => accept (applySettings x s)) s)

/-- DEFINE (R48). -/
def execDefine (source : StationId) (reference slot address : Byte) (roster : StationSet) (s : State) :
    Host.Outcome State Fault Refusal :=
  .next (serve (.define source reference slot address roster) source reference kindDefine
    (setupOnly fun s =>
      match slotIndexOf slot with
      | none => refuse .range s
      | some k =>
        match definitionOf s.own address roster with
        | none => refuse .range s
        | some none => accept (s.setSlot k .empty)
        | some (some d) => accept (s.setSlot k (.defined d))) s)

/-- The address a slot holds in SETUP. -/
def Slot.address? : Slot → Option GroupAddr
  | .empty => none
  | .defined d => some d.address
  | .live g => some g.address

/-- The group addresses that slots hold, in slot order. -/
def State.addresses (s : State) : List GroupAddr := allSlots.filterMap fun k => (s.ru.slots[k]).address?

/-- Two or more slots hold the same group address (R49, check 1). -/
def State.duplicateAddress (s : State) : Bool := !decide s.addresses.Nodup

/-- The soft limits are out of order (R49, check 2). -/
def State.softLimitsWrong (s : State) : Bool :=
  s.ss.settings.softEnable && decide (s.ss.settings.softMax ≤ s.ss.settings.softMin)

/-- A defined slot becomes a live group (R50). -/
def Slot.commit : Slot → Slot
  | .empty => .empty
  | .defined d => .live { address := d.address, roster := d.roster, sequence := 0, ready := 0, state := .opened }
  | .live g => .live g

/-- The entry into RUN (R50): live groups, timer stopped, the Guard NORMAL with an empty record, the lock; then
DRIVE_FAULT if DFLT is active (R157). -/
def enterRun (s : State) : State :=
  let s := { s with ss := { s.ss with node := .run, locked := true }
                    ru := { slots := s.ru.slots.map Slot.commit, timer := none } }
  let s := guardEmpty s
  if s.dfltActive then guardTake .driveFault .abrupt s else s

/-- The checks of R49 in their order, then R50. -/
def commitSetup (s : State) : Reply :=
  if s.duplicateAddress then { state := s, result := .setupInvalid, contents := [1] }
  else if s.softLimitsWrong then { state := s, result := .setupInvalid, contents := [2] }
  else accept (enterRun s)

/-- COMMIT (R49 to R51). -/
def execCommit (source : StationId) (reference : Byte) (s : State) : Host.Outcome State Fault Refusal :=
  .next (serve (.commit source reference) source reference kindCommit (setupOnly commitSetup) s)

end Sys2Proof.Machine
end

