-- ==== Sys2Proof/Machine/Dispatch.lean ====
section
/-! DEFINITION. The dispatch of a command to its meaning, one arm per row of the table. -/

namespace Sys2Proof.Machine

/-- The effect of a command on everything but the queue of commands that wait. -/
def exec (i : Instr) (s : State) : Host.Outcome State Fault Refusal :=
  match i with
  | .nresetAsserted straps => Sys2Proof.Machine.execNresetAsserted straps s
  | .nresetReleased straps => Sys2Proof.Machine.execNresetReleased straps s
  | .restartTaken source straps => Sys2Proof.Machine.execRestartTaken source straps s
  | .joiningIdleReached => Sys2Proof.Machine.execJoiningIdleReached s
  | .attemptStart bits => Sys2Proof.Machine.execAttemptStart s bits
  | .arbitrationLost => Sys2Proof.Machine.execArbitrationLost s
  | .mismatchTestEnd levels => Sys2Proof.Machine.execMismatchTestEnd levels s
  | .codingError bits => Sys2Proof.Machine.execCodingError bits s
  | .frameVoided bits othersA othersB => Sys2Proof.Machine.execFrameVoided bits othersA othersB s
  | .attemptVoided how => Sys2Proof.Machine.execAttemptVoided how s
  | .linkStuck => Sys2Proof.Machine.execLinkStuck s
  | .stuckRecovery => Sys2Proof.Machine.execStuckRecovery s
  | .frameTakenNoEffect frame => Sys2Proof.Machine.execFrameTakenNoEffect frame s
  | .ownAnswerTaken => Sys2Proof.Machine.execOwnAnswerTaken s
  | .ownNoticeTaken => Sys2Proof.Machine.execOwnNoticeTaken s
  | .haltGroupTaken source group cause mode tag => Sys2Proof.Machine.execHaltGroupTaken source group cause mode tag s
  | .haltAllTaken source cause mode tag => Sys2Proof.Machine.execHaltAllTaken source cause mode tag s
  | .clearGroupTaken source group sequence => Sys2Proof.Machine.execClearGroupTaken source group sequence s
  | .clearAllTaken source sequence => Sys2Proof.Machine.execClearAllTaken source sequence s
  | .clearStationTaken source reference => Sys2Proof.Machine.execClearStationTaken source reference s
  | .readyTaken source group sequence tag => Sys2Proof.Machine.execReadyTaken source group sequence tag s
  | .markTaken source unit packed position => Sys2Proof.Machine.execMarkTaken source unit packed position s
  | .load source reference record => Sys2Proof.Machine.execLoad source reference record s
  | .flushAll source reference value => Sys2Proof.Machine.execFlushAll source reference value s
  | .flushTag source reference value => Sys2Proof.Machine.execFlushTag source reference value s
  | .flushSlot source reference value => Sys2Proof.Machine.execFlushSlot source reference value s
  | .stop source reference mode tag => Sys2Proof.Machine.execStop source reference mode tag s
  | .marksetArm source reference unit sourceCond threshold period => Sys2Proof.Machine.execMarksetArm source reference unit sourceCond threshold period s
  | .marksetDisarm source reference unit unused => Sys2Proof.Machine.execMarksetDisarm source reference unit unused s
  | .queryStatus source reference item qi => Sys2Proof.Machine.execQueryStatus source reference item qi s
  | .queryPosition source reference item => Sys2Proof.Machine.execQueryPosition source reference item s
  | .queryQueue source reference item => Sys2Proof.Machine.execQueryQueue source reference item s
  | .queryGroup source reference item => Sys2Proof.Machine.execQueryGroup source reference item s
  | .queryMarks source reference item => Sys2Proof.Machine.execQueryMarks source reference item s
  | .querySetup source reference item => Sys2Proof.Machine.execQuerySetup source reference item s
  | .setup source reference fields => Sys2Proof.Machine.execSetup source reference fields s
  | .define source reference slot address roster => Sys2Proof.Machine.execDefine source reference slot address roster s
  | .commit source reference => Sys2Proof.Machine.execCommit source reference s
  | .rendezvousTimeout => Sys2Proof.Machine.execRendezvousTimeout s
  | .intervalEnd => Sys2Proof.Machine.execIntervalEnd s
  | .pulseHighEnd => Sys2Proof.Machine.execPulseHighEnd s
  | .dwellEnd => Sys2Proof.Machine.execDwellEnd s
  | .driveFaultChange level => Sys2Proof.Machine.execDriveFaultChange level s
  | .limitInputChange input level => Sys2Proof.Machine.execLimitInputChange input level s
  | .refChange level => Sys2Proof.Machine.execRefChange level s
  | .qiRise => Sys2Proof.Machine.execQiRise s
  | .quadratureTransition qa qb => Sys2Proof.Machine.execQuadratureTransition qa qb s
  | .mismatch => Sys2Proof.Machine.execMismatch s
  | .breakEnd => Sys2Proof.Machine.execBreakEnd s

end Sys2Proof.Machine
end

