-- ==== Sys2Proof/Machine/Time.lean ====
section
/-! DEFINITION. The passing of a millisecond in which no command comes (entries 3 and 29). -/

namespace Sys2Proof.Machine

/-- A count of milliseconds that has one millisecond less to run, held at 1 until the command that ends it. -/
def tickDown (n : Nat) : Nat := if 1 < n then n - 1 else n

/-- The line over a millisecond (entry 29): at 125 bit times or more (Table 1-1), the other stations' breaks and an idle
line after them lie in it, so that a node which drives no break itself decodes again (R3). -/
def lineTick (t : Tif) : Tif :=
  if t.link = .listening ∧ t.breakLeft = 0 ∧ t.reception = .skips then { t with reception := .awaits } else t

/-- One millisecond passes (entry 3): a broken frame is over, and the rendezvous timer (R89) and the dwell time of a DWELL
in progress (R116) have one millisecond less to run, held at 1 until RENDEZVOUS_TIMEOUT or DWELL_END. -/
def tick (s : State) : State :=
  { s with
    tif := lineTick s.tif
    ru := { s.ru with timer := s.ru.timer.map tickDown }
    pg := { s.pg with dwellLeft := if s.pg.phase = .dwell then tickDown s.pg.dwellLeft else s.pg.dwellLeft } }

end Sys2Proof.Machine
end

