-- ==== Sys2Proof/WellFormed.lean ====
section
/-! DEFINITION. Which commands can reach a node at all: the frames every station lets through (R9, R27, R28), and
the line events whose bits show what they say. -/

namespace Sys2Proof

/-- The command can reach the node with station number `own`: a frame that is a command is not malformed (R9), a
voided attempt has a dominant window bit (R13), a coding error stands at the last bit (R3), and a voided frame has
been read whole (R11). -/
def Instr.wellFormed (own : StationId) (i : Instr) : Bool :=
  match frameOf own i with
  | some f => !f.malformed
  | none =>
    match i with
    | .attemptVoided (.complaint a b) => a == dominant || b == dominant
    | .attemptVoided .broken => true
    | .codingError bits => breaksAtLast bits
    | .frameVoided bits _ _ => (receivedFrame bits).isSome
    | .frameTakenNoEffect f => !f.malformed
    | .nresetAsserted _ | .nresetReleased _ | .joiningIdleReached | .attemptStart _ | .arbitrationLost
    | .mismatchTestEnd _ | .linkStuck | .stuckRecovery | .ownAnswerTaken | .ownNoticeTaken | .rendezvousTimeout
    | .intervalEnd | .pulseHighEnd | .dwellEnd | .driveFaultChange _ | .limitInputChange _ _ | .refChange _ | .qiRise
    | .quadratureTransition _ _ | .mismatch | .breakEnd => true
    | .restartTaken _ _ | .haltGroupTaken _ _ _ _ _ | .haltAllTaken _ _ _ _ | .clearGroupTaken _ _ _
    | .clearAllTaken _ _ | .clearStationTaken _ _ | .readyTaken _ _ _ _ | .markTaken _ _ _ _ | .load _ _ _
    | .flushAll _ _ _ | .flushTag _ _ _ | .flushSlot _ _ _ | .stop _ _ _ _ | .marksetArm _ _ _ _ _ _
    | .marksetDisarm _ _ _ _ | .queryStatus _ _ _ _ | .queryPosition _ _ _ | .queryQueue _ _ _ | .queryGroup _ _ _
    | .queryMarks _ _ _ | .querySetup _ _ _ | .setup _ _ _ | .define _ _ _ _ _ | .commit _ _ => false

end Sys2Proof
end

