-- ==== Sys2Proof/Safety.lean ====
section
/-! DEFINITION. The terms in which claims about runs are made: what a command leaves untouched, and the laws that
every step keeps. -/

namespace Sys2Proof.Machine

/-! ### What a command leaves untouched -/

/-- The part of the state that no work of the Segment Queue, the Rendezvous Unit, the Guard, the mark units or the
Notice Backlog touches: the inputs, the Setup Store, the answer slots and the ANSWERs that wait, the waiting
commands, the counters and the decoder, and the line as the Trunk Interface drives and counts it. -/
structure Outside where
  pins : Pins
  ss : Ss
  fh : Fh
  answers : List TxEntry
  pending : List Instr
  command : Int
  feedback : Int
  decoder : Quad
  link : Link
  txd : TrunkBit
  counts : Nat × Nat × Nat
  breakLeft : Nat
  reception : Reception
  mismatchTest : Bool
  window : TrunkBit × TrunkBit
  deriving DecidableEq, Repr

/-- The ANSWERs of the transmit queue, oldest first. -/
def State.answers (s : State) : List TxEntry := s.tif.queue.filter fun e => e.frame.isAnswer

/-- The outside of a state. -/
def State.outside (s : State) : Outside where
  pins := s.pins
  ss := s.ss
  fh := s.fh
  answers := s.answers
  pending := s.pending
  command := s.pb.command
  feedback := s.pb.feedback
  decoder := s.pb.decoder
  link := s.tif.link
  txd := s.tif.txd
  counts := (s.tif.idleCount, s.tif.stuckCount, s.tif.recoveryCount)
  breakLeft := s.tif.breakLeft
  reception := s.tif.reception
  mismatchTest := s.tif.mismatchTest
  window := (s.tif.windowA, s.tif.windowB)

/-! ### Laws of the state -/

/-- DEN is asserted exactly when the node is in RUN, the guard is not STOPPED and the link is not SILENT (R168). -/
def State.denRight (s : State) : Bool :=
  decide (s.gd.den = .high ↔ s.ss.node = .run ∧ s.gd.state ≠ .stopped ∧ s.tif.link ≠ .silent)

/-- Both counters stand within the counter range (R131). -/
def State.countersInRange (s : State) : Bool := inCounterRange s.pb.command && inCounterRange s.pb.feedback

/-- The segment queue holds at most 16 segments (R58), the heard-mark list at most 8 entries (R146), the notice list
at most 8 notices (R174). -/
def State.listsBounded (s : State) : Bool :=
  decide (s.queue.length ≤ Config.queueCapacity) && decide (s.pb.heard.length ≤ Config.heardCapacity)
    && decide (s.nb.list.length ≤ Config.backlogCapacity)

/-- The frames of the transmit queue that count against the limit of a frame (R21). -/
def State.alike (s : State) (f : TxFrame) : Nat := s.tif.queue.countP fun e => sameLimit f e.frame

/-- The transmit queue keeps the limits of R21: at most 1 READY, 1 MARK of each unit, 2 ANSWERs and 1 NOTICE. -/
def State.limitsKept (s : State) : Prop := ∀ f : TxFrame, s.alike f ≤ txLimit f

/-- The ANSWERs in the transmit queue of answer slot i. -/
def State.answersOf (s : State) (i : Fin 2) : Nat :=
  s.tif.queue.countP fun e => match e.frame with
    | .answer j _ _ => j == i
    | _ => false

/-- Each ANSWER in the transmit queue holds an occupied slot, and each occupied slot has its one ANSWER there
(R170, R171). -/
def State.answersHeld (s : State) : Bool :=
  (s.answersOf 0 == if s.fh.slots[0].isSome then 1 else 0) && (s.answersOf 1 == if s.fh.slots[1].isSome then 1 else 0)

/-- Outside node state RUN both pulse lines are low (R52). -/
def State.linesLow (s : State) : Bool := s.ss.node == .run || (s.pg.stepCw == .low && s.pg.dirCcw == .low)

/-- A head whose work PG has reported over has been ended: no RUNNING or ENDING head with PG IDLE (R73, R75). -/
def State.nothingOver (s : State) : Bool := s.pg.phase != .idle || s.queue.head?.all fun h => !h.state.isMoving

/-- Before RUN the segment queue is empty and no slot is live (R39, R80, R81). -/
def State.quietBeforeRun (s : State) : Bool :=
  !(s.ss.node == .held || s.ss.node == .setup) || (s.queue.isEmpty && allSlots.all fun k => (s.group? k).isNone)

/-- In node state RUN the guard is NORMAL exactly when its cause set is empty, and exactly when it has no first cause
(R150). -/
def State.recordRight (s : State) : Bool :=
  s.ss.node != .run || ((s.gd.state == .normal) == (s.gd.causes == 0) && (s.gd.causes == 0) == s.gd.first.isNone)

/-- A slot is ARMED exactly when the head belongs to it and is ANNOUNCING or ANNOUNCED (R82). -/
def State.armedRight (s : State) : Bool :=
  allSlots.all fun k =>
    ((s.group? k).any fun g => g.state == .armed) == ((s.headOfSlot? k).any fun h => h.state.isAnnounce)

/-- Only the head is in a state other than QUEUED (R59). -/
def State.onlyHeadMoves (s : State) : Bool := s.queue.tail.all fun h => h.state == .queued

/-- No two segments in the queue carry the same tag (R58). -/
def State.tagsDistinct (s : State) : Bool := decide (s.queue.map Segment.tag).Nodup

/-- A ready set is empty whenever its slot is HALTED (R87, R92), and always a subset of the roster. -/
def State.readySetsRight (s : State) : Bool :=
  allSlots.all fun k => (s.group? k).all fun g =>
    g.ready &&& g.roster == g.ready && (!s.slotHalted k || g.ready == 0)

/-- The node's frames on the line, of the transmit queue and of the halt-owed set (R21). -/
def State.framesOnLine (s : State) : Nat :=
  s.tif.queue.countP (fun e => e.onLine) + s.tif.owed.toList.countP (fun e => e.any fun x => x.onLine)

/-- One frame of the node is on the line while the link is SENDING, and none otherwise (R21, R24). -/
def State.lineRight (s : State) : Bool := s.framesOnLine == if s.tif.link = .sending then 1 else 0

/-! ### Taking a command -/

/-- The node is LISTENING and drives no break (R3, R11). -/
def State.hears (s : State) : Bool := s.tif.link == .listening && s.tif.breakLeft == 0

/-- The line is idle at the end of these bits (R4): the last 9 of them are recessive, or all of them are and with the
bit times counted before them they come to 9. -/
def State.idleEnds (s : State) (bits : List TrunkBit) : Prop :=
  (∃ pre, bits = pre ++ List.replicate 9 recessive)
    ∨ ∃ n, bits = List.replicate n recessive ∧ 9 ≤ s.tif.idleCount + n

/-- The line is idle at some instant in these bits (R4). -/
def State.everIdle (s : State) (bits : List TrunkBit) : Prop := ∃ pre post, bits = pre ++ post ∧ s.idleEnds pre

/-- The command is a frame and the node takes it (R9 to R11): it hears, and the frame is well formed and no request to
the node while both answer slots are occupied; or it sends that very frame. -/
def State.takesCommand (s : State) (c : Instr) : Bool :=
  (frameOf s.own c).any fun f =>
    (s.hears && !f.malformed
        && !(f.dest == destStation s.own && f.isRequest && s.fh.slots[0].isSome && s.fh.slots[1].isSome))
      || (s.tif.link == .sending && !s.tif.mismatchTest && s.lineFrame? == some f)

/-- The node after the window of a frame that another station sent (R4, R11). -/
def State.heard (s : State) : State := windowEnds recessive recessive s

/-- The node serves request `c` in answer slot `i`: it hears, the request is well formed, the slot is free, and the
ANSWERs that wait hold their slots (R10, R170). -/
def State.canServe (s : State) (c : Instr) (i : Fin 2) : Prop :=
  s.hears = true ∧ c.wellFormed s.own = true ∧ s.freeSlot? = some i ∧ s.answersHeld = true

/-- The node after the window of a request that occupies answer slot `i` (R170). -/
def State.served (s : State) (i : Fin 2) (station : StationId) (reference : Byte) (kind : BitVec 4) : State :=
  occupySlot i station reference kind s.heard

/-- The ANSWER to a request, as it joins the transmit queue (R21, R34). -/
def answerEntry (i : Fin 2) (station : StationId) (reference : Byte) (kind : BitVec 4) (r : Result) (contents : List Byte) :
    TxEntry :=
  { frame := .answer i station ([reference, kind.setWidth 8, r.byte] ++ contents), attempts := 0, onLine := false
    withdrawn := false }

/-- The state with an ANSWER at the end of the transmit queue. -/
def State.withAnswer (s : State) (i : Fin 2) (station : StationId) (reference : Byte) (kind : BitVec 4) (r : Result)
    (contents : List Byte) : State :=
  { s with tif := { s.tif with queue := s.tif.queue ++ [answerEntry i station reference kind r contents] } }

/-- The node decodes from the end of these bits on (R3, R4): it waits for no idle line and they are none; or it waits after a break, and
they are the rest of the other stations' breaks and an idle line after them. -/
def State.receives (s : State) (gap : List TrunkBit) : Prop :=
  s.hears = true ∧ s.tif.reception ≠ .skips ∧ gap = []
    ∨ s.hears = true ∧ s.tif.reception = .skips ∧ s.tif.idleCount < 9
      ∧ ∃ d n, gap = List.replicate d dominant ++ List.replicate n recessive ∧ 9 ≤ n

/-! ### Attempts -/

/-- The node is sending entry `e` of its transmit queue, between these entries; nothing else of it is on the line
(R21). -/
structure State.sendsEntry (s : State) (pre : List TxEntry) (e : TxEntry) (post : List TxEntry) : Prop where
  sending : s.tif.link = .sending
  queue : s.tif.queue = pre ++ e :: post
  onLine : e.onLine = true
  others : ∀ x ∈ pre ++ post, x.onLine = false
  owed : ∀ k : Fin 8, (s.tif.owed[k]).any (fun x => x.onLine) = false

/-- The node is sending the HALT that slot k owes; nothing else of it is on the line (R21, R25). -/
structure State.sendsHalt (s : State) (k : Fin 8) (e : HaltEntry) : Prop where
  sending : s.tif.link = .sending
  entry : s.tif.owed[k] = some e
  onLine : e.onLine = true
  others : ∀ j : Fin 8, j ≠ k → (s.tif.owed[j]).any (fun x => x.onLine) = false
  queue : ∀ x ∈ s.tif.queue, x.onLine = false

/-- The node after its attempt has ended, LISTENING and driving nothing, with this transmit queue (R8, R12, R13), and
with the frame on the line as it is to the node from then on. -/
def State.ended (s : State) (r : Reception) (q : List TxEntry) : State :=
  { s with tif := { s.tif with
    link := .listening, txd := recessive, idleCount := 0, reception := r, mismatchTest := false, queue := q } }

/-- The node with slot k's entry of the halt-owed set replaced (R25). -/
def State.setOwed (s : State) (k : Fin 8) (x : Option HaltEntry) : State :=
  { s with tif := { s.tif with owed := s.tif.owed.set k x } }

/-- A frame that waits again after an attempt, with `n` more attempts counted (R8, R13). -/
def TxEntry.waitsAgain (e : TxEntry) (n : Nat) : TxEntry := { e with onLine := false, attempts := e.attempts + n }

/-- An attempt has ended with entry `e` neither taken nor abandoned, and with `n` more attempts counted (R8, R13): a
withdrawn frame is removed (R24), a MARK takes its unit's held firings in and keeps its own position (R145), and a NOTICE whose late-overflow
marker is set carries the overflow flag (R176). -/
def State.triesAgain (s : State) (r : Reception) (pre : List TxEntry) (e : TxEntry) (post : List TxEntry) (n : Nat) : State :=
  if e.withdrawn then s.ended r (pre ++ post)
  else
    match e.frame with
    | .ready _ _ _ _ => s.ended r (pre ++ e.waitsAgain n :: post)
    | .answer _ _ _ => s.ended r (pre ++ e.waitsAgain n :: post)
    | .mark u f =>
      match s.pb.units[u].held with
      | none => s.ended r (pre ++ e.waitsAgain n :: post)
      | some h =>
        let folded : Firings :=
          { count := min 15 (f.count + h.count), saturated := f.saturated || h.saturated || decide (15 < f.count + h.count)
            position := f.position }
        (s.ended r (pre ++ { e.waitsAgain n with frame := .mark u folded } :: post)).setUnit u
          { s.pb.units[u] with held := none }
    | .notice d o m =>
      if s.nb.lateOverflow then
        { s.ended r (pre ++ { e.waitsAgain n with frame := .notice d true m } :: post) with
          nb := { s.nb with lateOverflow := false } }
      else s.ended r (pre ++ { e.waitsAgain n with frame := .notice d o m } :: post)

/-! ### Heads, notices and slots -/

/-- The head that is not blocked and waits (R62): in RUN, with the guard NORMAL and its slot not HALTED. -/
def State.mayProgress (s : State) (h : Segment) : Prop :=
  h.state = .waiting ∧ s.ss.node = .run ∧ s.gd.state = .normal ∧ ∀ k, h.slot = some k → s.slotHalted k = false

/-- The name of the speed of a first interval (R110, R111): CRUISE for FLAT_HIGH above FL, else CREEP. -/
def Profile.firstName (p : Profile) : Phase := if p.cls = .flatHigh ∧ p.fl * p.fl < p.fh * p.fh then .cruise else .creep

/-- A generator that has started a motion (R106): direction, steps remaining, phase, the speed of the first interval, FH
for FLAT_HIGH and FL for FLAT_LOW and RAMP (R110, R111), and the level that a fixed direction gives DIR/CCW in output
form STEP_DIR (R119). -/
def Pg.started (pg : Pg) (form : OutputForm) (dir : Option Dir) (remaining : Nat) (phase : Phase) (p : Profile) : Pg :=
  { pg with
    phase := phase
    speedSq := match p.cls with
      | .flatLow => p.fl * p.fl
      | .flatHigh => p.fh * p.fh
      | .ramp => p.fl * p.fl
    dir := dir, remaining := remaining, stop := none, fromRest := true, speedName := p.firstName, seek := none
    dirCcw := match form, dir with
      | .stepDir, some .plus => .high
      | .stepDir, some .minus => .low
      | _, _ => pg.dirCcw }

/-- The direction of a distance (R106): none for 0. -/
def wayOf (d : Int) : Option Dir := if d = 0 then none else if 0 < d then some .plus else some .minus

/-- A generator at rest (R108, R112, R117): the counts, the direction and the lines keep their values. -/
def Pg.resting (pg : Pg) : Pg :=
  { pg with phase := .idle, speedSq := 0, stop := none, fromRest := false, speedName := .idle, seek := none }

/-- A stop with this mode ends a segment of this kind at once (R116, R117, R118): ABRUPT, a DWELL, and SMOOTH at FL, the
last interval of a RAMP ramp-down included (DESIGN CHOICE, entry 28). -/
def Pg.stopsAtOnce (pg : Pg) (k : SegKind) (m : Mode) : Bool :=
  m == .abrupt || k.profile?.all fun p => decide (pg.speedSq ≤ p.fl * p.fl)

/-- A generator in a SMOOTH stop that has begun above FL (R118): the interval in progress runs on, in DECEL, for a SEEK
under the name of its speed (entry 16). A SEEK keeps reversed and REF qualified alone (R122, R129). -/
def Pg.decelerating (pg : Pg) (k : SegKind) : Pg :=
  { pg with
    stop := some .smooth
    phase := if k.isSeek then pg.speedName else .decel
    seek := pg.seek.map fun x => { x with stage := none, counted := 0, latched := none } }

/-- The generator after it has received a stop with this mode for a segment of this kind (R116 to R118, R129). -/
def Pg.stopping (pg : Pg) (k : SegKind) (m : Mode) : Pg := if pg.stopsAtOnce k m then pg.resting else pg.decelerating k

/-- The head is ENDING. -/
def State.headEnding (s : State) : Bool := s.head?.any fun h => h.state.isMoving && h.state != .running

/-- The frames of the transmit queue that are not the node's READY. -/
def State.otherFrames (s : State) : List TxEntry := s.tif.queue.filter fun e => !e.frame.isReady

/-- The Notice Backlog, and the frames that the node has to send but for its READY: where a produced notice goes. -/
def State.notices (s : State) : Nb × List TxEntry := (s.nb, s.otherFrames)

/-- The Notice Backlog and the transmit queue: all that a produced notice changes. -/
def State.outgoing (s : State) : Nb × List TxEntry := (s.nb, s.tif.queue)

/-- The Position Block after a removal that leaves these segments: heard marks that none of them refers to are gone
(R75, R148). -/
def Pb.referredBy (pb : Pb) (left : List Segment) : Pb :=
  { pb with heard := pb.heard.filter fun e => left.any fun x => x.refersTo e.ref }

/-- The HALT notice of a slot that is live and not HALTED (R92, Table 2-16). -/
def State.tellsOfHalt (s : State) (k : Fin 8) (c : Cause) (o : StationId) : State :=
  match s.group? k with
  | none => s
  | some g =>
    if s.slotHalted k then s
    else produce .halt [BitVec.ofNat 8 k.val, g.address.setWidth 8, c.byte, o.setWidth 8] s

/-- The FAULT notice (R151, Table 2-16): cause, stop mode, the tag of a RUNNING or ENDING head or 0, and the command
counter. -/
def State.tellsOfFault (s : State) (c : Cause) (m : Mode) (tag : Byte) : State :=
  produce .fault ([c.byte, if m = .smooth then 0 else 1, tag] ++ signed4 s.pb.command) s

/-- The notices of a departure of the Guard from NORMAL, before its head ends (R94, R151): a HALT notice if the slot of
an ANNOUNCING, ANNOUNCED or RUNNING head is halted, then the FAULT notice. -/
def State.tellsOfDeparture (s : State) (c : Cause) (m : Mode) : State :=
  match s.queue with
  | [] => s.tellsOfFault c m 0
  | h :: _ =>
    let halted : State :=
      match h.slot with
      | none => s
      | some k => if h.state.isAnnounce = true ∨ h.state = .running then s.tellsOfHalt k c s.own else s
    halted.tellsOfFault c m (if h.state.isMoving then h.tag else 0)

/-- The notices of the end of head h with outcome o (R75, Table 2-16): DONE with the steps not emitted, and EMPTY if no
segment remains. -/
def State.tellsOfEnd (s : State) (h : Segment) (o : SegOutcome) (rest : List Segment) : State :=
  let left := if h.kind.counts then min s.pg.remaining 16777215 else 0
  let told := produce .done ([h.tag, o.byte] ++ signed4 s.pb.command ++ bytes3 (BitVec.ofNat 24 left)) s
  if rest.isEmpty then produce .empty (signed4 s.pb.command) told else told

/-- No READY waits that a withdrawal could remove (R24): each is on the line with its withdrawal recorded. -/
def State.readyWithdrawn (s : State) : Prop := ∀ e ∈ s.tif.queue, e.frame.isReady = true → e.onLine = true ∧ e.withdrawn = true

/-! ### Mark units -/

/-- Held firings stand only beside a MARK of their unit on the line (Table 8-3). -/
def State.heldRight (s : State) : Bool :=
  allUnits.all fun u => (s.pb.units[u]).held.isNone || (s.markEntry? u).any fun e => e.onLine

/-- Withdrawn entries are READYs on the line (R24, R141). -/
def State.withdrawnRight (s : State) : Bool := s.tif.queue.all fun e => !e.withdrawn || (e.onLine && e.frame.isReady)

/-- The node and its link are HELD together (R17, R41). -/
def State.heldTogether (s : State) : Bool := (s.ss.node == .held) == (s.tif.link == .held)

/-- The receiver (R3 to R5, R8): the node drives a break only while LISTENING to a frame that it no longer decodes; no
frame of another station is on the line while it sends, nor on an idle line. -/
def State.receiverRight (s : State) : Bool :=
  (s.tif.breakLeft == 0 || (s.tif.link == .listening && s.tif.reception == .skips))
    && (s.tif.reception == .awaits || (s.tif.link != .sending && decide (s.tif.idleCount < 9)))

/-- A unit fires once and its period decides (R143): FIRED with period 0, or when the moved threshold would leave the
counter range; otherwise it stays ARMED with its threshold moved, upward for CROSS_UP and AT_OR_ABOVE, downward for
CROSS_DOWN and AT_OR_BELOW. -/
def MarkUnit.fireOnce (x : MarkUnit) : MarkUnit :=
  let moved : Int :=
    match x.cond with
    | .crossUp => x.threshold + x.period
    | .atOrAbove => x.threshold + x.period
    | .crossDown => x.threshold - x.period
    | .atOrBelow => x.threshold - x.period
  if x.period = 0 ∨ 1073741823 < moved.natAbs then { x with state := .fired } else { x with threshold := moved }

/-- A unit judged again and again at one event (R143), at most `fuel` times: how often it fires, and its record after. -/
def MarkUnit.fireWhileMet (e : CounterEvent) (n : Int) : Nat → MarkUnit → Nat × MarkUnit
  | 0, x => (0, x)
  | fuel + 1, x =>
    if x.state = .armed ∧ x.cond.meets e x.threshold n = true then
      let r := MarkUnit.fireWhileMet e n fuel x.fireOnce
      (r.1 + 1, r.2)
    else (0, x)

/-- The pulses and the state after k progress steps of a segment whose offered pulses all pass (R113). -/
def State.afterProgress (s : State) (kind : SegKind) : Nat → Nat × State
  | 0 => (0, s)
  | k + 1 =>
    let r := s.afterProgress kind k
    if kind.carriesPulse r.2.pg then (r.1 + 1, spanProgress kind true r.2) else (r.1, spanProgress kind false r.2)

end Sys2Proof.Machine
end

