-- ==== Sys2Proof/Certificates/Slice0/Obligations.lean ====
section
/-! DEFINITION. The statements about the AN20: what each command does, and the laws that every step keeps. -/

open Sys2Proof Sys2Proof.Machine

/-! ### The step -/

/-- The front command of the queue is executed on the state with the rest of the queue. -/
def Obligations.StepRunsTheFrontCommand : Prop :=
  ∀ (c : Instr) (rest : List Instr) (s : State),
    step { s with pending := c :: rest } = exec c { s with pending := rest }

/-- A step with no command waiting is the passing of a millisecond (entry 3, the model's choice): the rendezvous timer
(R89) and the dwell time of a DWELL in progress (R116) fall by one, and hold at 1 until the command that ends them. A
broken frame is over after it for a LISTENING node that drives no break (R3; entry 29, DEDUCED). -/
def Obligations.IdleStepPassesAMillisecond : Prop :=
  ∀ s : State, s.pending = [] →
    ∃ t, step s = .next t
      ∧ t = { s with
          tif := { s.tif with reception := t.tif.reception }
          ru := { s.ru with timer := t.ru.timer }
          pg := { s.pg with dwellLeft := t.pg.dwellLeft } }
      ∧ (s.hears = true → s.tif.reception = .skips → t.tif.reception = .awaits)
      ∧ (s.hears = false ∨ s.tif.reception ≠ .skips → t.tif = s.tif)
      ∧ (s.ru.timer = none → t.ru.timer = none)
      ∧ (∀ n, s.ru.timer = some n → t.ru.timer = some (if n ≤ 1 then n else n - 1))
      ∧ (s.pg.phase ≠ .dwell → t.pg.dwellLeft = s.pg.dwellLeft)
      ∧ (s.pg.phase = .dwell → t.pg.dwellLeft = if s.pg.dwellLeft ≤ 1 then s.pg.dwellLeft else s.pg.dwellLeft - 1)

/-- Every command completes, whatever the state, and leaves the commands that wait behind it alone: the spec names
nothing that stops the node. That a command whose premise the state does not meet completes too, and changes nothing, is
the model's choice (entry 4). -/
def Obligations.EveryCommandAnswersNext : Prop :=
  ∀ (c : Instr) (s : State), ∃ t, exec c s = .next t ∧ t.pending = s.pending

/-! ### Reset -/

/-- nRESET going low takes every block to its reset values (R42, R53, R150, R177), with the levels on the inputs, the
decoder (Table 8-1) and the waiting commands kept. -/
def Obligations.NresetAssertedResetsEveryBlock : Prop :=
  ∀ (straps : Straps) (s : State),
    exec (.nresetAsserted straps) s = .next { s with
      pins := { s.pins with nreset := .low }
      ss := { node := .held, straps, settings := .reset, locked := false, lastReset := .pin }
      tif := { link := .held, txd := recessive, idleCount := 0, stuckCount := 0, recoveryCount := 0, breakLeft := 0
               reception := .awaits, mismatchTest := false, windowA := recessive, windowB := recessive, queue := []
               owed := Vector.replicate 8 none }
      fh := { slots := Vector.replicate 2 none }
      queue := []
      ru := { slots := Vector.replicate 8 .empty, timer := none }
      pg := { phase := .idle, speedSq := 0, dir := none, remaining := 0, progress := 0, acc := 0, dwellLeft := 0
              stop := none, fromRest := false, speedName := .idle, seek := none, stepCw := .low, dirCcw := .low }
      pb := { s.pb with
        command := 0, feedback := 0, heard := []
        units := Vector.replicate 4
          { state := .disarmed, source := .command, cond := .crossUp, threshold := 0, period := 0, held := none } }
      gd := { state := .normal, first := none, causes := 0, originator := none, stopMode := none, den := .low }
      nb := { list := [], overflow := false, lateOverflow := false } }

/-- nRESET going high after a reset keeps the straps that stand (R40), and with a station number of 1 to 62 the node
enters SETUP and the link JOINING (R43); otherwise both stay HELD (R41). -/
def Obligations.NresetReleasedEndsReset : Prop :=
  ∀ (straps : Straps) (s : State), s.pins.nreset = .low → s.ss.node = .held →
    exec (.nresetReleased straps) s = .next { s with
      pins := { s.pins with nreset := .high }
      ss := { s.ss with straps, node := if 1 ≤ straps.stn.toNat ∧ straps.stn.toNat ≤ 62 then .setup else .held }
      tif := { s.tif with link := if 1 ≤ straps.stn.toNat ∧ straps.stn.toNat ≤ 62 then .joining else s.tif.link } }

/-- A RESTART taken with RSTEN sampled high resets the node, samples the straps and ends the reset at that instant
(R44); with RSTEN sampled low it is taken with no effect. -/
def Obligations.RestartTakenResets : Prop :=
  ∀ (source : StationId) (straps : Straps) (s : State), s.hears = true → stationOk source = true →
    (s.ss.straps.rsten = .low → exec (.restartTaken source straps) s = .next s.heard)
    ∧ (s.ss.straps.rsten = .high → stationOk straps.stn = true →
        exec (.restartTaken source straps) s = .next { State.reset with
          pins := s.pins
          ss := { State.reset.ss with node := .setup, straps, lastReset := .restart }
          tif := { State.reset.tif with link := .joining }
          pb := { State.reset.pb with decoder := s.pb.decoder }
          pending := s.pending })
    ∧ (s.ss.straps.rsten = .high → stationOk straps.stn = false →
        exec (.restartTaken source straps) s = .next { State.reset with
          pins := s.pins
          ss := { State.reset.ss with straps, lastReset := .restart }
          pb := { State.reset.pb with decoder := s.pb.decoder }
          pending := s.pending })

/-! ### The trunk -/

/-- The choice at the start of an attempt (R23): the lowest slot that owes a HALT; else the oldest TIMED frame; else
the oldest ROUTINE frame; a withdrawn frame is not eligible, and with no frame to send nothing starts. The node drives
the start bit and enters SENDING on an idle line, and on no other (R5). That the row carries the levels read since the last
row of the line, and that it moves the idle count and the reception over them where no attempt starts too, is the model's
choice (entry 5): the line is idle once 9 recessive ones in a row have been read, a dominant one sets the count back (R4),
and after a start bit that it did not drive the node receives that frame, until the line is idle again (R5). -/
def Obligations.AttemptStartChoosesByRank : Prop :=
  ∀ (bits : List TrunkBit) (s : State), s.hears = true →
    let line (n : Nat) (r : Reception) : State := { s with tif := { s.tif with idleCount := n, reception := r } }
    let sending : State := { s with tif := { s.tif with
      link := .sending, txd := dominant, idleCount := 0, reception := .awaits, mismatchTest := false
      windowA := recessive, windowB := recessive } }
    (¬ s.idleEnds bits →
        (∀ n, bits = List.replicate n recessive →
          exec (.attemptStart bits) s = .next (line (s.tif.idleCount + n) s.tif.reception))
        ∧ (∀ pre n, bits = pre ++ dominant :: List.replicate n recessive →
            (s.everIdle pre → exec (.attemptStart bits) s = .next (line n .reads))
            ∧ (¬ s.everIdle pre → exec (.attemptStart bits) s = .next (line n s.tif.reception))))
    ∧ (s.idleEnds bits →
        (∀ (k : Fin 8) (e : HaltEntry), s.tif.owed[k] = some e → (∀ j : Fin 8, j < k → s.tif.owed[j] = none) →
          exec (.attemptStart bits) s = .next (sending.setOwed k (some { e with onLine := true })))
        ∧ ((∀ k : Fin 8, s.tif.owed[k] = none) →
            (∀ (pre : List TxEntry) (e : TxEntry) (post : List TxEntry), s.tif.queue = pre ++ e :: post →
              e.withdrawn = false →
              (e.frame.isTimed = true ∧ (∀ x ∈ pre, x.withdrawn = true ∨ x.frame.isTimed = false)
                ∨ e.frame.isTimed = false ∧ (∀ x ∈ pre, x.withdrawn = true)
                  ∧ (∀ x ∈ post, x.withdrawn = true ∨ x.frame.isTimed = false)) →
              exec (.attemptStart bits) s = .next { sending with tif := { sending.tif with
                queue := pre ++ { e with onLine := true } :: post } })
            ∧ ((∀ x ∈ s.tif.queue, x.withdrawn = true) →
                ∃ n, 9 ≤ n ∧ exec (.attemptStart bits) s = .next (line n .awaits))))

/-- A lost arbitration ends the attempt without counting it (R8): the HALT or the frame keeps its place and its count,
and its producer is told as R24, R145 and R176 say. The
node goes on to receive the frame on the line. -/
def Obligations.ArbitrationLostKeepsTheFrame : Prop :=
  ∀ s : State, s.tif.mismatchTest = false → s.limitsKept →
    (∀ (k : Fin 8) (e : HaltEntry), s.sendsHalt k e →
      exec .arbitrationLost s = .next ((s.ended .reads s.tif.queue).setOwed k (some { e with onLine := false })))
    ∧ (∀ (pre : List TxEntry) (e : TxEntry) (post : List TxEntry), s.sendsEntry pre e post →
      exec .arbitrationLost s = .next (s.triesAgain .reads pre e post 0))

/-- A voided attempt, by a dominant window bit or a break, below the retry limit counts one more and waits again (R13); a
frame withdrawn on the line is removed without a count (R24). After a break the node decodes nothing until the line is
idle (R15). -/
def Obligations.AttemptVoidedCountsAndRetries : Prop :=
  ∀ (how : VoidHow) (s : State), s.limitsKept →
    (how = .broken ∨ s.tif.mismatchTest = false ∧ ∃ a b, how = .complaint a b ∧ (a = dominant ∨ b = dominant)) →
    let r : Reception := if how = .broken then .skips else .awaits
    (∀ (k : Fin 8) (e : HaltEntry), s.sendsHalt k e → e.attempts + 1 < s.ss.settings.retryLimit →
      exec (.attemptVoided how) s
        = .next ((s.ended r s.tif.queue).setOwed k (some { e with onLine := false, attempts := e.attempts + 1 })))
    ∧ (∀ (pre : List TxEntry) (e : TxEntry) (post : List TxEntry), s.sendsEntry pre e post →
      (e.withdrawn = true ∨ e.attempts + 1 < s.ss.settings.retryLimit) →
      exec (.attemptVoided how) s = .next (s.triesAgain r pre e post 1))

/-- The void that reaches the retry limit abandons the frame (R13, R14): an owed HALT leaves its set and the Guard
takes SEND_FAILED, ABRUPT (R161); a READY halts its ARMED slot with SEND_FAILED (R93: HaltedSlotRecordsAndStopsItsHead
unfolds that local halt) and is reported (R91); a MARK is reported, and the held firings join the queue in a new one
(R145); an ANSWER frees its slot (R171); the next NOTICE is composed, with the overflow flag as it stands (R176). -/
def Obligations.AttemptVoidedAbandonsAtTheLimit : Prop :=
  ∀ (how : VoidHow) (s : State),
    (how = .broken ∨ s.tif.mismatchTest = false ∧ ∃ a b, how = .complaint a b ∧ (a = dominant ∨ b = dominant)) →
    let r : Reception := if how = .broken then .skips else .awaits
    (∀ (k : Fin 8) (e : HaltEntry), s.sendsHalt k e → s.ss.settings.retryLimit ≤ e.attempts + 1 →
      exec (.attemptVoided how) s = .next (guardTake .sendFailed .abrupt ((s.ended r s.tif.queue).setOwed k none)))
    ∧ (∀ (pre : List TxEntry) (e : TxEntry) (post : List TxEntry), s.sendsEntry pre e post →
      e.withdrawn = false → s.ss.settings.retryLimit ≤ e.attempts + 1 →
      let t := s.ended r (pre ++ post)
      (∀ k g n tag, e.frame = .ready k g n tag →
        exec (.attemptVoided how) s = .next (
          if (s.group? k).any fun x => x.state == .armed then
            produce .link [1, BitVec.ofNat 8 k.val] (localHalt k .sendFailed .abrupt false t)
          else t))
      ∧ (∀ u f, e.frame = .mark u f →
        let told := produce .link [0, BitVec.ofNat 8 u.val] t
        (s.pb.units[u].held = none → exec (.attemptVoided how) s = .next told)
        ∧ (∀ h, s.pb.units[u].held = some h → s.limitsKept →
            exec (.attemptVoided how) s = .next { told.setUnit u { s.pb.units[u] with held := none } with
              tif := { told.tif with queue := told.tif.queue
                ++ [{ frame := .mark u h, attempts := 0, onLine := false, withdrawn := false }] } }))
      ∧ (∀ i st p, e.frame = .answer i st p →
        exec (.attemptVoided how) s = .next { t with fh := { slots := s.fh.slots.set i none } })
      ∧ (∀ d o m, e.frame = .notice d o m → s.ss.node ≠ .silent → s.limitsKept →
        let gone : State := { t with nb := { s.nb with lateOverflow := false } }
        (s.nb.list = [] → exec (.attemptVoided how) s = .next gone)
        ∧ (∀ n rest, s.nb.list = n :: rest → s.ss.settings.report = .nobody →
            exec (.attemptVoided how) s = .next { gone with nb := { list := [], overflow := true, lateOverflow := false } })
        ∧ (∀ n rest dest, s.nb.list = n :: rest → ReportTo.dest s.ss.settings.report = some dest →
            exec (.attemptVoided how) s = .next { gone with
              nb := { gone.nb with list := rest }
              tif := { gone.tif with queue := pre ++ post
                ++ [{ frame := .notice dest s.nb.overflow n, attempts := 0, onLine := false, withdrawn := false }] } })))

/-- A mismatch stops the driving and starts the test of R15. All 8 bit times dominant were a break, which voids the
attempt (R13), after which the node decodes nothing, and so starts no break of its own, until the line is idle. That the
frame stays on the line and the link SENDING through the test is the model's reading of R21 (entry 6, DEDUCED). -/
def Obligations.MismatchTestsForABreak : Prop :=
  ∀ s : State, s.tif.link = .sending →
    exec .mismatch s = .next { s with tif := { s.tif with mismatchTest := true, txd := recessive } }
    ∧ (s.tif.mismatchTest = true →
        exec (.mismatchTestEnd (Vector.replicate 7 dominant)) s = exec (.attemptVoided .broken) s
        ∧ ∃ t, exec (.mismatchTestEnd (Vector.replicate 7 dominant)) s = .next t
            ∧ t.tif.link = .listening ∧ t.tif.reception = .skips
            ∧ ∀ bits, ¬ t.everIdle bits → exec (.codingError bits) t = .next t)

/-- A recessive level after a mismatch is another station with the node's number: the link and the node enter SILENT
(R15, R16, R45). The transmit queue, the halt-owed set, the answer slots and the held firings are empty, the timer is
stopped (R104), DEN and both pulse lines are low (R52); counters, settings, straps and the lock stand. In SETUP
DUPLICATE_STATION is noted (R154). In RUN with the guard NORMAL the Guard leaves NORMAL for STOPPED with it (R151, R160):
a RUNNING head leaves with FAULTED, an ENDING one with its outcome, and the generator is at rest (R80); an announcing
head waits again; the slot of an announcing or RUNNING head is HALTED with an empty ready set, and owes nothing (R94).
With the guard STOPPING or STOPPED the cause joins the set with mode ABRUPT, an ENDING head leaves, and the guard is
STOPPED (R152, R153). The HALT, FAULT and DONE notices stay in the backlog. -/
def Obligations.MismatchTestEndEntersSilent : Prop :=
  ∀ (levels : Vector TrunkBit 7) (s : State), s.tif.link = .sending → s.tif.mismatchTest = true →
    (levels.toList.any fun b => b == recessive) = true →
    ∃ t, exec (.mismatchTestEnd levels) s = .next t
      ∧ t.ss = { s.ss with node := .silent }
      ∧ t.tif = { s.tif with
          link := .silent, txd := recessive, mismatchTest := false, queue := [], owed := Vector.replicate 8 none }
      ∧ t.fh.slots = Vector.replicate 2 none
      ∧ (∀ u : Fin 4, t.pb.units[u] = { s.pb.units[u] with held := none })
      ∧ t.pb.command = s.pb.command ∧ t.pb.feedback = s.pb.feedback ∧ t.pb.decoder = s.pb.decoder
      ∧ t.ru.timer = none ∧ t.gd.den = .low
      ∧ t.pg.stepCw = .low ∧ t.pg.dirCcw = .low
      ∧ hasCause t.gd.causes .duplicateStation = true
      ∧ t.pins = s.pins ∧ t.pending = s.pending
      ∧ (s.ss.node = .setup → t.gd.state = s.gd.state ∧ t.gd.first = s.gd.first.or (some .duplicateStation)
          ∧ t.queue = s.queue ∧ t.ru.slots = s.ru.slots ∧ t.pb.heard = s.pb.heard
          ∧ t.nb = { s.nb with lateOverflow := false })
      ∧ (s.ss.node = .run →
          let quiet : State := { s with ss := t.ss, tif := t.tif, nb := { s.nb with lateOverflow := false } }
          let gone (rest : List Segment) : Prop := t.queue = promote rest
            ∧ t.pg = { s.pg.resting with stepCw := .low, dirCcw := .low }
            ∧ t.pb.heard = s.pb.heard.filter fun e => rest.any fun x => x.refersTo e.ref
          let stays (q : List Segment) : Prop := t.queue = q ∧ t.pg = { s.pg with stepCw := .low, dirCcw := .low }
            ∧ t.pb.heard = s.pb.heard
          (s.gd.state = .normal →
            let told := quiet.tellsOfDeparture .duplicateStation .abrupt
            t.gd = { s.gd with
              state := .stopped, first := some .duplicateStation, causes := Cause.duplicateStation.bit
              stopMode := some .abrupt, den := .low }
            ∧ (s.queue = [] → stays [] ∧ t.ru.slots = s.ru.slots ∧ t.nb = told.nb)
            ∧ (∀ h rest, s.queue = h :: rest →
                (h.state = .waiting ∨ h.state = .queued → stays s.queue ∧ t.ru.slots = s.ru.slots ∧ t.nb = told.nb)
                ∧ (∀ o m, h.state = .ending o m →
                    gone rest ∧ t.ru.slots = s.ru.slots ∧ t.nb = (told.tellsOfEnd h o rest).nb)
                ∧ (h.state = .running → (∀ k, h.slot = some k → s.slotHalted k = false) →
                    gone rest ∧ t.nb = (told.tellsOfEnd h .faulted rest).nb)
                ∧ (h.state = .running → h.slot = none → t.ru.slots = s.ru.slots)
                ∧ (∀ k g, h.state.isAnnounce = true ∨ h.state = .running → h.slot = some k → s.group? k = some g →
                    s.slotHalted k = false →
                    t.ru.slots = s.ru.slots.set k (.live { g with state := .halted .duplicateStation s.own, ready := 0 })
                    ∧ (h.state.isAnnounce = true → stays ({ h with state := .waiting } :: rest) ∧ t.nb = told.nb))))
          ∧ (s.gd.state ≠ .normal → t.ru.slots = s.ru.slots
            ∧ (s.gd.state = .stopped ∨ s.headEnding = true → t.gd = { s.gd with
                state := .stopped, causes := s.gd.causes ||| Cause.duplicateStation.bit, stopMode := some .abrupt
                den := .low })
            ∧ (∀ h rest o m, s.queue = h :: rest → h.state = .ending o m →
                gone rest ∧ t.nb = (quiet.tellsOfEnd h o rest).nb)
            ∧ (s.headMoving = false → stays s.queue ∧ t.nb = quiet.nb)))

/-- A receiver that finds a coding error, or a length of 29 to 31, drives a break of 16 bit times, and the end of the
break starts the idle count (R3, R4). From the error on it decodes nothing until the line is idle: it starts no second break
and takes part in no window; the next frame after an idle line it decodes again (R3). It takes no frame while it drives the
break, and a frame taken after it is a later one, with which it decodes again (entry 22, DEDUCED). It finds an error at
the eighth equal bit of a frame that it still reads (R2, R3), and at the last bit of a length field, data bit 26 from the
start bit on, that holds 29 to 31; and nowhere else. -/
def Obligations.CodingErrorDrivesABreak : Prop :=
  (∀ (gap bits : List TrunkBit) (s : State), s.receives gap → breaksAtLast bits = true →
    let breaking : State := { s with tif := { s.tif with
      breakLeft := 16, txd := dominant, idleCount := 0, reception := .skips } }
    exec (.codingError (gap ++ bits)) s = .next breaking)
  ∧ (∀ t : State, t.tif.breakLeft ≠ 0 →
      exec .breakEnd t = .next { t with tif := { t.tif with breakLeft := 0, txd := recessive, idleCount := 0 } })
  ∧ (∀ (bits : List TrunkBit) (s : State), s.tif.link = .listening → s.tif.reception = .skips →
      (s.tif.breakLeft ≠ 0 ∨ ¬ s.everIdle bits) →
      exec (.codingError bits) s = .next s ∧ (∀ a b, exec (.frameVoided bits a b) s = .next s)
      ∧ (s.tif.breakLeft ≠ 0 → ∀ f, s.takes f = false))
  ∧ (∀ s : State, s.hears = true → (taken s).tif.reception = .awaits)
  ∧ (∀ (bits : List TrunkBit) (b : TrunkBit), (dominant ∈ bits ∨ b = dominant) →
      (∃ data last run, receive (bits ++ List.replicate 7 b) = .reading data last run) →
      breaksAtLast (bits ++ List.replicate 8 b) = true)
  ∧ (∀ (idle : Nat) (header : List TrunkBit) (b : TrunkBit), header.length = 25 → header.head? = some dominant →
      (breaksAtLast (List.replicate idle recessive ++ stuff header ++ [b]) = true
        ↔ 29 ≤ natOfBits ((header ++ [b]).drop 21)))
  ∧ (∀ bits : List TrunkBit, breaksAtLast bits = true →
      (∃ (pre : List TrunkBit) (b : TrunkBit), bits = pre ++ List.replicate 8 b)
      ∨ ∃ (idle : Nat) (header : List TrunkBit) (b : TrunkBit), header.length = 25 ∧ header.head? = some dominant
          ∧ bits = List.replicate idle recessive ++ stuff header ++ [b])

/-- A received frame that draws a complaint acts nowhere (R11). The node drives bit A for a check error or a malformed
frame (R9), and bit B for a request to it while both answer slots are occupied (R10); a complaint of another station
voids the frame too. A node that has broken a frame takes part in no window until the line has been idle (R3). -/
def Obligations.FrameVoidedActsNowhere : Prop :=
  ∀ (gap bits : List TrunkBit) (othersA othersB : TrunkBit) (f : Frame) (checks : Bool) (s : State), s.receives gap →
    receivedFrame bits = some (f, checks) →
    let a := !checks || f.malformed
    let b := checks && !f.malformed && f.dest == destStation s.own && f.isRequest
      && s.fh.slots[0].isSome && s.fh.slots[1].isSome
    (a = true ∨ b = true ∨ othersA = dominant ∨ othersB = dominant) →
    exec (.frameVoided (gap ++ bits) othersA othersB) s = .next { s with tif := { s.tif with
      link := .listening, txd := recessive, idleCount := 0, reception := .awaits, windowA := !a, windowB := !b } }

/-- The ninth recessive bit time in JOINING takes the link to LISTENING with the line idle (R18) and the stuck count
anew (R19). The 48th dominant bit time takes the link to STUCK, its queues kept, and the Guard takes TRUNK_STUCK, ABRUPT (R19,
R159). The 24th recessive bit time there takes it back to LISTENING with the line idle and a LINK notice (R20). -/
def Obligations.JoiningStuckAndRecovery : Prop :=
  (∀ s : State, s.tif.link = .joining →
    exec .joiningIdleReached s = .next { s with tif := { s.tif with
      link := .listening, idleCount := 9, reception := .awaits, stuckCount := 0 } })
  ∧ (∀ s : State, s.tif.link = .listening →
    exec .linkStuck s = .next (guardTake .trunkStuck .abrupt { s with tif := { s.tif with
      link := .stuck, txd := recessive, idleCount := 0, stuckCount := 48, recoveryCount := 0, breakLeft := 0 } }))
  ∧ (∀ s : State, s.tif.link = .stuck →
    exec .stuckRecovery s = .next (produce .link [3, 0] { s with tif := { s.tif with
      link := .listening, idleCount := 24, reception := .awaits, stuckCount := 0, recoveryCount := 24 } }))

/-- A taken frame for another station, an ANSWER or a NOTICE for the node, a NOTICE to ALL, and a group frame whose
address no slot holds end their window and change nothing else (R37). A group address finds the slot whose live group
has it. -/
def Obligations.FrameTakenNoEffectChangesNothing : Prop :=
  (∀ (s : State) (a : GroupAddr),
    (s.slotOfAddress? a = none ↔ ∀ k g, s.group? k = some g → g.address ≠ a)
    ∧ ∀ k, s.slotOfAddress? a = some k → ∃ g, s.group? k = some g ∧ g.address = a)
  ∧ ∀ (f : Frame) (s : State), s.hears = true → f.malformed = false →
    (destType f.dest = 0 ∧ destNumber f.dest ≠ s.own
      ∨ destType f.dest = 0 ∧ (f.kind = kindAnswer ∨ f.kind = kindNotice)
      ∨ destType f.dest = 2 ∧ f.kind = kindNotice
      ∨ destType f.dest = 1 ∧ s.slotOfAddress? (destNumber f.dest) = none) →
    exec (.frameTakenNoEffect f) s = .next { s with tif := { s.tif with
      link := .listening, txd := recessive, idleCount := 0, reception := .awaits, windowA := recessive
      windowB := recessive } }

/-- The node's own ANSWER, taken, leaves the transmit queue and frees its answer slot (R12, R170). Its own NOTICE,
taken, leaves too; a carried overflow flag is cleared unless the late-overflow marker is set, and the next NOTICE is
composed (R175, R176). -/
def Obligations.OwnReportsTaken : Prop :=
  ∀ (s : State) (pre : List TxEntry) (e : TxEntry) (post : List TxEntry), s.tif.mismatchTest = false →
    s.sendsEntry pre e post → e.withdrawn = false →
    let left : State := { s.ended .awaits (pre ++ post) with
      tif := { (s.ended .awaits (pre ++ post)).tif with windowA := recessive, windowB := recessive } }
    (∀ i st payload, e.frame = .answer i st payload →
      exec .ownAnswerTaken s = .next { left with fh := { slots := s.fh.slots.set i none } })
    ∧ (∀ d carried n, e.frame = .notice d carried n → s.ss.node ≠ .silent → s.limitsKept →
        let overflow := s.nb.overflow && (!carried || s.nb.lateOverflow)
        let gone : State := { left with nb := { s.nb with overflow := overflow, lateOverflow := false } }
        (s.nb.list = [] → exec .ownNoticeTaken s = .next gone)
        ∧ (∀ m rest, s.nb.list = m :: rest → s.ss.settings.report = .nobody →
            exec .ownNoticeTaken s = .next { gone with nb := { list := [], overflow := true, lateOverflow := false } })
        ∧ (∀ m rest dest, s.nb.list = m :: rest → ReportTo.dest s.ss.settings.report = some dest →
            exec .ownNoticeTaken s = .next { gone with
              nb := { gone.nb with list := rest }
              tif := { gone.tif with queue := pre ++ post
                ++ [{ frame := .notice dest overflow m, attempts := 0, onLine := false, withdrawn := false }] } }))

/-- TIF's part when the node takes a frame (R11, R12): another station's frame only ends its window; the node's own
HALT leaves the halt-owed set, its READY or MARK the transmit queue, and after a MARK the held firings go out in a new
one (R145); a withdrawn frame's producer is told nothing (R24). The frame that the node sends is the one its entry
gives: HALT with the slot's address, cause, mode and tag (R25, R29), READY, MARK (R30), ANSWER (R34) and NOTICE (R36). -/
def Obligations.TakenFrameLeavesItsQueue : Prop :=
  (∀ s : State, s.tif.link = .listening → taken s = s.heard)
  ∧ (∀ (s : State) (k : Fin 8) (e : HaltEntry), s.tif.mismatchTest = false → s.sendsHalt k e →
      taken s = (s.heard).setOwed k none
      ∧ ∀ g, s.group? k = some g → s.lineFrame? = some
          { cls := clsUrgent, kind := kindHalt, source := s.own, dest := destGroup g.address
            payload := [e.cause.byte, if e.mode = .smooth then 0 else 1, e.tag] })
  ∧ (∀ (s : State) (pre : List TxEntry) (e : TxEntry) (post : List TxEntry), s.tif.mismatchTest = false →
      s.sendsEntry pre e post →
      let gone : State := { s.heard with tif := { s.heard.tif with queue := pre ++ post } }
      s.lineFrame? = some (match e.frame with
        | .ready _ g n tag =>
          { cls := clsTimed, kind := kindReady, source := s.own, dest := destGroup g, payload := [n, tag] }
        | .mark u f =>
          { cls := clsTimed, kind := kindMark, source := s.own, dest := destAll
            payload := [BitVec.ofNat 8 u.val, (if f.saturated then 0x80 else 0) + BitVec.ofNat 8 (f.count % 16)]
              ++ signed4 f.position }
        | .answer _ st payload =>
          { cls := clsRoutine, kind := kindAnswer, source := s.own, dest := destStation st, payload }
        | .notice dest overflow n =>
          { cls := clsRoutine, kind := kindNotice, source := s.own, dest
            payload := [n.type.byte, if overflow then 0x80 else 0] ++ n.contents })
      ∧ (e.withdrawn = true → taken s = gone)
      ∧ (∀ k g n tag, e.frame = .ready k g n tag → taken s = gone)
      ∧ (∀ u f, e.frame = .mark u f → e.withdrawn = false → s.pb.units[u].held = none → taken s = gone)
      ∧ (∀ u f h, e.frame = .mark u f → e.withdrawn = false → s.pb.units[u].held = some h → s.limitsKept →
          taken s = { gone.setUnit u { s.pb.units[u] with held := none } with
            tif := { gone.tif with queue := pre ++ post
              ++ [{ frame := .mark u h, attempts := 0, onLine := false, withdrawn := false }] } }))

/-! ### Notices, heads and the Guard -/

/-- A produced notice (R173, R174, R175): masked it leaves no trace; with nothing before it, it leaves at once in a
NOTICE to the report station that carries the overflow flag; behind a pending NOTICE, or in SILENT, it joins the list;
with the list full it is discarded, and the overflow flag reaches the pending NOTICE in place or as a late-overflow
marker. The type codes are those of Table 2-16, and the destination is the report station or ALL (R36, R27). -/
def Obligations.ProducedNoticeIsSentHeldOrDiscarded : Prop :=
  [NoticeType.done, .halt, .fault, .empty, .seek, .link].map NoticeType.byte = [0, 1, 2, 3, 4, 5]
  ∧ ReportTo.dest .nobody = none ∧ ReportTo.dest .everyone = some 0x80
  ∧ (∀ n : StationId, ReportTo.dest (.station n) = some (n.setWidth 8))
  ∧ ∀ (type : NoticeType) (contents : List Byte) (s : State),
    let n : Notice := { type, contents }
    (s.ss.settings.report = .nobody ∨ s.ss.settings.mask.getLsbD type.byte.toNat = false →
      produce type contents s = s)
    ∧ (∀ dest, ReportTo.dest s.ss.settings.report = some dest → s.ss.settings.mask.getLsbD type.byte.toNat = true →
        (s.ss.node ≠ .silent → s.noticePending = false → s.nb.list = [] →
          produce type contents s = { s with
            nb := { s.nb with lateOverflow := false }
            tif := { s.tif with queue := s.tif.queue
              ++ [{ frame := .notice dest s.nb.overflow n, attempts := 0, onLine := false, withdrawn := false }] } })
        ∧ (s.ss.node = .silent ∨ s.noticePending = true → s.nb.list.length < 8 →
            produce type contents s = { s with nb := { s.nb with list := s.nb.list ++ [n] } })
        ∧ (8 ≤ s.nb.list.length →
            (∀ pre e post d o m, s.tif.queue = pre ++ e :: post → e.frame = .notice d o m → s.limitsKept →
              produce type contents s =
                if e.onLine then { s with nb := { s.nb with overflow := true, lateOverflow := true } }
                else { s with
                  nb := { s.nb with overflow := true }
                  tif := { s.tif with queue := pre ++ { e with frame := .notice d true m } :: post } })
            ∧ (s.noticePending = false → produce type contents s = { s with nb := { s.nb with overflow := true } })))

/-- The evaluation of the head (R61 to R65, R84): a blocked head, or one not WAITING, stays; IMMEDIATE starts; MARK
starts on a heard mark, of which it consumes one unit (R148); RENDEZVOUS announces: READY admitted, slot ARMED, timer
started unless its setting is 0. -/
def Obligations.HeadEvaluationStartsOrAnnounces : Prop :=
  ∀ (s : State) (h : Segment) (rest : List Segment), s.queue = h :: rest →
    (h.state ≠ .waiting ∨ s.ss.node ≠ .run ∨ s.gd.state ≠ .normal ∨ (∃ k, h.slot = some k ∧ s.slotHalted k = true) →
      evalHead s = s)
    ∧ (s.mayProgress h →
        (h.start = .immediate → evalHead s = startHead s)
        ∧ (∀ m, h.start = .mark m →
            ((∀ e ∈ s.pb.heard, e.ref ≠ m) → evalHead s = s)
            ∧ (∀ pre e post, s.pb.heard = pre ++ e :: post → e.ref = m → (∀ x ∈ pre, x.ref ≠ m) →
                evalHead s = startHead { s with pb := { s.pb with
                  heard := pre ++ (if e.count ≤ 1 then [] else [{ e with count := e.count - 1 }]) ++ post } }))
        ∧ (∀ k g, h.start = .rendezvous → h.slot = some k → s.group? k = some g → g.state = .opened →
            (∀ e ∈ s.tif.queue, e.frame.isReady = false) →
            evalHead s = { s with
              queue := { h with state := .announcing } :: rest
              ru := { slots := s.ru.slots.set k (.live { g with state := .armed })
                      timer := if s.ss.settings.timeout = 0 then none else some s.ss.settings.timeout }
              tif := { s.tif with queue := s.tif.queue
                ++ [{ frame := .ready k g.address g.sequence h.tag, attempts := 0, onLine := false
                      withdrawn := false }] } }))

/-- The start of a segment (R66, R106, R116, R122): the generator takes distance, direction and counts, the first
interval begins from rest at the profile class's speed, FH for FLAT_HIGH and FL for FLAT_LOW and RAMP (R110, R111), and
the head is RUNNING. A TO with nothing to travel is over at
once, a DWELL has no interval, a SEEK begins in SEARCH (entry 26). Everything else stands, but for heard marks that have
lost their last reference. A RUN whose end mark has been heard consumes one unit of it and enters ENDING with DONE and
SMOOTH at that instant, which at FL is the end of its motion (R74, R115). -/
def Obligations.StartedHeadSetsTheGenerator : Prop :=
  ∀ (s : State) (h : Segment) (rest : List Segment), s.queue = h :: rest →
    let references (e : Heard) : Bool := ({ h with state := .running } :: rest).any fun x => x.refersTo e.ref
    ((∀ d m p, h.kind = .run d (some m) p → s.heardHas m = false) →
    let t := startHead s
    t = { s with
      queue := { h with state := .running } :: rest
      pg := t.pg
      pb := { s.pb with heard := s.pb.heard.filter references } }
    ∧ (∀ d p, h.kind = .move d p →
        t.pg = s.pg.started s.ss.settings.form (wayOf d) d.natAbs p.firstName p)
    ∧ (∀ x p, h.kind = .moveTo x p → x ≠ s.pb.command →
        t.pg = s.pg.started s.ss.settings.form (wayOf (x - s.pb.command)) (x - s.pb.command).natAbs
          p.firstName p)
    ∧ (∀ x p, h.kind = .moveTo x p → x = s.pb.command →
        t.pg = { s.pg with dir := none, remaining := 0 }.resting)
    ∧ (∀ d n p, h.kind = .span d n p →
        t.pg = { s.pg with progress := 0, acc := n / 2 }.started s.ss.settings.form (wayOf d) d.natAbs
          p.firstName p)
    ∧ (∀ d e p, h.kind = .run d e p →
        t.pg = s.pg.started s.ss.settings.form (some d) 0 p.firstName p)
    ∧ (∀ ms, h.kind = .dwell ms →
        t.pg = { s.pg with
          phase := .dwell, speedSq := 0, dir := none, remaining := 0, dwellLeft := ms, stop := none, fromRest := false
          speedName := .dwell, seek := none })
    ∧ (∀ spec p, h.kind = .seek spec p →
        t.pg = { s.pg.started s.ss.settings.form (some spec.dir) 0 .search p with
          seek := some { stage := some .search, reversed := false, qualified := !s.refActive, counted := 0
                         latched := none } }))
    ∧ (∀ d m p pre e post, h.kind = .run d (some m) p → s.pb.heard = pre ++ e :: post → e.ref = m →
        (∀ x ∈ pre, x.ref ≠ m) →
        startHead s = { s with
          queue := { h with state := .ending .done .smooth } :: rest
          pg := (s.pg.started s.ss.settings.form (some d) 0 p.firstName p).stopping
            h.kind .smooth
          pb := { s.pb with heard := pre.filter references
            ++ (if e.count ≤ 1 then [] else [{ e with count := e.count - 1 }]) ++ post.filter references } })

/-- The end of the head (R75, R152): with its work over it leaves the queue, a STOPPING guard becomes STOPPED with DEN
low, marks that lost their last reference leave the heard list, a DONE notice tells of it, the oldest remaining segment
becomes head in WAITING and is evaluated, and an empty queue gives an EMPTY notice. No head whose work is over
remains. The same removal with a given outcome, without the evaluation of the next head, is how a Guard cause, a failing
SEEK and a preset end their head. A segment refers to its start mark while it is QUEUED or WAITING, and a RUN to its end mark (R76). -/
def Obligations.EndedHeadLeavesTheQueue : Prop :=
  ∀ s : State,
    evaluate s = settle (evalHead s)
    ∧ (∀ m, s.referenced m = true ↔ ∃ h ∈ s.queue, h.refersTo m = true)
    ∧ (∀ (h : Segment) (m : MarkRef), h.refersTo m = true ↔
        h.start = .mark m ∧ (h.state = .queued ∨ h.state = .waiting) ∨ ∃ d p, h.kind = .run d (some m) p)
    ∧ promote [] = [] ∧ (∀ (x : Segment) (more : List Segment), promote (x :: more) = { x with state := .waiting } :: more)
    ∧ [SegOutcome.done, .stopped, .halted, .faulted, .seekFailed, .flushed].map SegOutcome.byte = [0, 1, 2, 3, 4, 5]
    ∧ (settle s).nothingOver = true
    ∧ (s.nothingOver = true → settle s = s)
    ∧ (∀ o, s.queue = [] → finishHead o s = s)
    ∧ (∀ (h : Segment) (rest : List Segment) (o : SegOutcome), s.queue = h :: rest →
        let left := if h.kind.counts then min s.pg.remaining 16777215 else 0
        let gone : State := { s with
          queue := rest
          gd := if s.gd.state = .stopping then { s.gd with state := .stopped, den := .low } else s.gd
          pb := { s.pb with heard := s.pb.heard.filter fun e => rest.any fun x => x.refersTo e.ref } }
        let told := produce .done ([h.tag, o.byte] ++ signed4 s.pb.command ++ bytes3 (BitVec.ofNat 24 left)) gone
        finishHead o s = (match rest with
          | [] => produce .empty (signed4 s.pb.command) told
          | x :: more => { told with queue := { x with state := .waiting } :: more })
        ∧ (s.pg.phase = .idle → (h.state = .running ∧ o = .done ∨ ∃ m, h.state = .ending o m) →
            (rest = [] → settle s = produce .empty (signed4 s.pb.command) told)
            ∧ (∀ x more, rest = x :: more →
                settle s = settle (evalHead { told with queue := { x with state := .waiting } :: more }))))

/-- A cause taken in RUN with the guard NORMAL (R151, R168): the record; the slot of an announcing or running head is
halted with a HALT owed (R94), and no other slot is; with nothing moving the guard is STOPPED and DEN low, a WAITING head
stays (R71), and the generator and the Position Block stand; a RUNNING or ENDING head whose stop
is complete at once leaves, and the guard is STOPPED; that is every stop with ABRUPT, and with SMOOTH the RUNNING head
at FL or in a DWELL (R116 to R118). A SMOOTH cause sends a head above FL to ENDING with FAULTED, leaves an ENDING head
its stop, and the guard is STOPPING. The notices are, in this order, HALT for a halted slot, FAULT with cause, mode, the
tag of a moving head or 0, and the command counter (Table 2-16), and DONE and EMPTY for a head that leaves, with which
the heard marks of a last reference go (R75, R148). A later cause
joins the set and produces no FAULT; with ABRUPT it ends an ENDING head, which DONE tells, and a STOPPING guard becomes
STOPPED (R153, R152). In SETUP and SILENT a cause is noted (R154, entry 18). The phase of a SEEK that decelerates is
entry 16 (DEDUCED from R130). That a SMOOTH stop is at once in the last interval of a RAMP ramp-down too is entry 28
(DESIGN CHOICE). -/
def Obligations.GuardTakesACause : Prop :=
  ∀ (c : Cause) (m : Mode) (s : State),
    let t := guardTake c m s
    t.outside = s.outside
    ∧ (s.ss.node = .held → t = s)
    ∧ (s.ss.node = .setup ∨ s.ss.node = .silent →
        t = { s with gd := { s.gd with causes := s.gd.causes ||| c.bit, first := s.gd.first.or (some c) } })
    ∧ (s.ss.node = .run → s.gd.state ≠ .normal →
        let joined : Gd := { s.gd with
          causes := s.gd.causes ||| c.bit, stopMode := if m = .abrupt then some .abrupt else s.gd.stopMode }
        (s.nothingOver = true → (m = .smooth ∨ s.headEnding = false) → t = { s with gd := joined })
        ∧ (m = .abrupt → s.headEnding = true →
            t.gd = (if s.gd.state = .stopping then { joined with state := .stopped, den := .low } else joined)
            ∧ t.pg = s.pg.resting ∧ t.queue = promote s.queue.tail ∧ t.ru = s.ru ∧ t.tif.owed = s.tif.owed
            ∧ t.pb = s.pb.referredBy s.queue.tail)
        ∧ (m = .abrupt → ∀ h rest o m', s.queue = h :: rest → h.state = .ending o m' →
            t.outgoing = (s.tellsOfEnd h o rest).outgoing))
    ∧ (s.ss.node = .run → s.gd.state = .normal →
        let told := s.tellsOfDeparture c m
        t.gd.first = some c ∧ t.gd.causes = c.bit ∧ t.gd.stopMode = some m ∧ t.gd.originator = s.gd.originator
        ∧ (s.headMoving = false →
            t.gd.state = .stopped ∧ t.gd.den = .low ∧ t.pg = s.pg ∧ t.pb = s.pb ∧ t.notices = told.notices)
        ∧ (s.queue.head?.all (fun h => h.state == .waiting || h.state == .queued) = true →
            t.queue = s.queue ∧ t.ru = s.ru ∧ t.tif.owed = s.tif.owed ∧ t.outgoing = told.outgoing)
        ∧ (s.headMoving = true → m = .abrupt →
            t.gd.state = .stopped ∧ t.gd.den = .low ∧ t.pg = s.pg.resting ∧ t.queue = promote s.queue.tail
            ∧ t.pb = s.pb.referredBy s.queue.tail)
        ∧ (m = .abrupt → ∀ h rest o m', s.queue = h :: rest → h.state = .ending o m' →
            t.ru = s.ru ∧ t.tif.owed = s.tif.owed ∧ t.outgoing = (told.tellsOfEnd h o rest).outgoing)
        ∧ (∀ h rest, s.queue = h :: rest → h.slot = none → h.state.isMoving = true →
            t.ru = s.ru ∧ t.tif.owed = s.tif.owed)
        ∧ (∀ h rest, s.queue = h :: rest → h.state = .running → (∀ k, h.slot = some k → s.slotHalted k = false) →
            (m = .abrupt → t.outgoing = (told.tellsOfEnd h .faulted rest).outgoing)
            ∧ (m = .smooth → s.pg.stopsAtOnce h.kind .smooth = true →
              t.gd.state = .stopped ∧ t.gd.den = .low ∧ t.pg = s.pg.resting ∧ t.queue = promote rest
              ∧ t.pb = s.pb.referredBy rest ∧ t.outgoing = (told.tellsOfEnd h .faulted rest).outgoing)
            ∧ (m = .smooth → s.pg.stopsAtOnce h.kind .smooth = false → (h.kind.isSeek = true → s.pg.speedName ≠ .idle) →
              t.gd.state = .stopping ∧ t.gd.den = (if s.tif.link = .silent then .low else .high)
              ∧ t.queue = { h with state := .ending .faulted .smooth } :: rest ∧ t.pg = s.pg.decelerating h.kind
              ∧ t.pb = s.pb ∧ t.outgoing = told.outgoing))
        ∧ (s.headEnding = true → m = .smooth → s.nothingOver = true →
            t.gd.state = .stopping ∧ t.gd.den = (if s.tif.link = .silent then .low else .high)
            ∧ t.queue = s.queue ∧ t.pg = s.pg ∧ t.pb = s.pb ∧ t.ru = s.ru ∧ t.tif.owed = s.tif.owed
            ∧ t.outgoing = told.outgoing)
        ∧ (∀ h rest k g, s.queue = h :: rest → (h.state.isAnnounce = true ∨ h.state = .running) → h.slot = some k →
            s.group? k = some g → s.slotHalted k = false →
            t.group? k = some { g with state := .halted c s.own, ready := 0 }
            ∧ t.ru = { slots := s.ru.slots.set k (.live { g with state := .halted c s.own, ready := 0 })
                       timer := if g.state = .armed then none else s.ru.timer }
            ∧ t.tif.owed = (if s.tif.link = .silent ∨ (s.tif.owed[k]).isSome then s.tif.owed
                else s.tif.owed.set k (some { cause := c, mode := m, tag := h.tag, attempts := 0, onLine := false }))
            ∧ (h.state.isAnnounce = true → t.queue = { h with state := .waiting } :: rest ∧ t.readyWithdrawn)))

/-! ### Groups -/

/-- Slot k halted with cause c, originator o and mode m (R92): OPEN or ARMED it is HALTED with them, its ready set
emptied, an ARMED slot's timer stopped, and a HALT notice produced; its head goes back to WAITING with its READY
withdrawn, or enters ENDING with HALTED and stops with the mode (R116 to R118), or is hastened, or waits on. A slot already HALTED keeps its record and produces nothing.
Other slots, other heads, the counters and the Guard's record stand. HALT(GROUP), taken in RUN, does
this to the slot that holds its address, with its sender as originator, and owes no HALT for it (R95). A local halt does
it with the node as originator, and the slot joins the halt-owed set with the cause, the mode and the tag of a head of
the slot that is under way, else 0, unless it is a member already or the link is SILENT (R93, R25). The phase of a
SEEK that decelerates is entry 16 (DEDUCED from R130). That a SMOOTH stop is at once in the last interval of a RAMP
ramp-down too is entry 28 (DESIGN CHOICE). -/
def Obligations.HaltedSlotRecordsAndStopsItsHead : Prop :=
  (∀ (source : StationId) (group : GroupAddr) (cause mode tag : Byte) (c : Cause) (m : Mode) (k : Fin 8) (s : State),
    s.takesCommand (.haltGroupTaken source group cause mode tag) = true → s.ss.node = .run →
    causeOf cause = some c → modeOf mode = some m → s.slotOfAddress? group = some k →
    exec (.haltGroupTaken source group cause mode tag) s = .next (settle (haltSlot k c source m false (taken s))))
  ∧ (∀ (k : Fin 8) (c : Cause) (m : Mode) (byGuard : Bool) (s : State),
    let tag : Byte :=
      match s.queue with
      | [] => 0
      | h :: _ => if h.slot = some k ∧ (h.state.isAnnounce = true ∨ h.state.isMoving = true) then h.tag else 0
    localHalt k c m byGuard s = haltSlot k c s.own m byGuard
      (if s.tif.link = .silent ∨ (s.tif.owed[k]).isSome then s
        else s.setOwed k (some { cause := c, mode := m, tag, attempts := 0, onLine := false })))
  ∧ ∀ (k : Fin 8) (c : Cause) (o : StationId) (m : Mode) (byGuard : Bool) (s : State) (g : Group), s.group? k = some g →
    let t := haltSlot k c o m byGuard s
    let ofSlot := s.headOfSlot? k
    t.outside = s.outside ∧ t.gd = s.gd ∧ t.pb = s.pb ∧ t.tif.owed = s.tif.owed
    ∧ (∀ j : Fin 8, j ≠ k → t.ru.slots[j] = s.ru.slots[j])
    ∧ (s.slotHalted k = true → t.ru = s.ru ∧ t.nb = s.nb ∧ t.tif = s.tif
        ∧ (ofSlot.all (fun h => !h.state.isMoving) = true → t = s))
    ∧ (s.slotHalted k = false →
        let told := produce .halt [BitVec.ofNat 8 k.val, g.address.setWidth 8, c.byte, o.setWidth 8] s
        t.group? k = some { g with state := .halted c o, ready := 0 }
        ∧ t.ru.timer = (if g.state = .armed then none else s.ru.timer)
        ∧ t.nb = told.nb ∧ t.otherFrames = told.otherFrames
        ∧ (ofSlot = none → t.queue = s.queue ∧ t.pg = s.pg)
        ∧ (∀ h, ofSlot = some h → h.state.isAnnounce = true →
            t.queue = { h with state := .waiting } :: s.queue.tail ∧ t.pg = s.pg ∧ t.readyWithdrawn)
        ∧ (∀ h, ofSlot = some h → h.state = .running →
            t.queue = (if byGuard then s.queue else { h with state := .ending .halted m } :: s.queue.tail)
            ∧ t.pg = (if byGuard then s.pg else s.pg.stopping h.kind m))
        ∧ (∀ h, ofSlot = some h → (h.state = .waiting ∨ h.state = .queued) →
            t.queue = s.queue ∧ t.pg = s.pg ∧ t.tif.queue = told.tif.queue)
        ∧ (ofSlot.any (fun h => h.state.isAnnounce) = false → t.tif.queue = told.tif.queue))
    ∧ (∀ h o' m', ofSlot = some h → h.state = .ending o' m' →
        t.queue = { h with state := .ending o' (if m = .abrupt then .abrupt else m') } :: s.queue.tail
        ∧ t.pg = (if m = .abrupt then s.pg.resting else s.pg))

/-- HALT(ALL), taken in RUN, halts every live slot that is not HALTED, with its sender as originator, and stops an ARMED
slot's timer (R97), and the Guard latches PEER_ALL_HALT with that sender, unless it holds the cause already (R162). No
HALT is owed for it, and the counters stand. The notices are, in this order, HALT for each slot so halted, ascending,
FAULT with cause 16, the mode and the tag of a RUNNING or ENDING head if the guard was NORMAL, and DONE and EMPTY for a
head that leaves, with which the heard marks of a last reference go (R75, R148). A head that waits waits on; an ANNOUNCING or ANNOUNCED one is back in
WAITING with its READY withdrawn; a RUNNING one, grouped or not, enters ENDING with outcome HALTED and the mode, and an
ENDING one is hastened by ABRUPT (R70); a stop that is complete at once ends the head, and the next one waits, blocked by
the latch that came before its turn (entry 9, DEDUCED from R162). The Guard is STOPPING while a head is ENDING, and
STOPPED otherwise. The phase of a SEEK that decelerates is entry 16 (DEDUCED from R130). That a SMOOTH stop is at once in
the last interval of a RAMP ramp-down too is entry 28 (DESIGN CHOICE). -/
def Obligations.HaltAllTakenHaltsEverySlot : Prop :=
  ∀ (source : StationId) (cause mode tag : Byte) (c : Cause) (m : Mode) (s : State),
    s.takesCommand (.haltAllTaken source cause mode tag) = true → s.ss.node = .run →
    causeOf cause = some c → modeOf mode = some m →
    ∃ t, exec (.haltAllTaken source cause mode tag) s = .next t
      ∧ t.outside = (taken s).outside
      ∧ (∀ k g, (taken s).group? k = some g →
          t.group? k = some (if (taken s).slotHalted k then g else { g with state := .halted c source, ready := 0 }))
      ∧ (∀ k, (taken s).group? k = none → t.ru.slots[k] = (taken s).ru.slots[k])
      ∧ t.ru.timer = (if (List.finRange 8).any fun k => (s.group? k).any fun g => g.state == .armed then none
          else s.ru.timer)
      ∧ hasCause t.gd.causes .peerAllHalt = true
      ∧ (hasCause s.gd.causes .peerAllHalt = true → t.gd.originator = s.gd.originator)
      ∧ (hasCause s.gd.causes .peerAllHalt = false → t.gd.originator = some source)
      ∧ t.gd.state ≠ .normal
      ∧ (s.gd.state = .normal → t.gd.first = some .peerAllHalt ∧ t.gd.causes = Cause.peerAllHalt.bit
          ∧ t.gd.stopMode = some m ∧ t.gd.state = if t.headEnding then .stopping else .stopped)
      ∧ (s.armedRight = true → (∀ h rest k, s.queue = h :: rest → h.slot = some k → s.group? k ≠ none) →
          let halts := (List.finRange 8).foldl (fun u k => u.tellsOfHalt k c source) (taken s)
          let tells (tag : Byte) : State :=
            if s.gd.state = .normal then halts.tellsOfFault .peerAllHalt m tag else halts
          t.tif.owed = (taken s).tif.owed
          ∧ (s.queue = [] → t.queue = [] ∧ t.pg = s.pg ∧ t.pb = (taken s).pb ∧ t.outgoing = (tells 0).outgoing)
          ∧ (∀ h rest, s.queue = h :: rest →
              (h.state = .waiting ∨ h.state = .queued →
                t.queue = s.queue ∧ t.pg = s.pg ∧ t.pb = (taken s).pb ∧ t.outgoing = (tells 0).outgoing)
              ∧ (h.state.isAnnounce = true → h.slot ≠ none →
                  t.queue = { h with state := .waiting } :: rest ∧ t.pg = s.pg ∧ t.readyWithdrawn
                  ∧ t.pb = (taken s).pb ∧ t.notices = (tells 0).notices)
              ∧ (h.state = .running → s.pg.stopsAtOnce h.kind m = true →
                  t.queue = promote rest ∧ t.pg = s.pg.resting
                  ∧ t.pb = (taken s).pb.referredBy rest
                  ∧ t.outgoing = ((tells h.tag).tellsOfEnd h .halted rest).outgoing)
              ∧ (h.state = .running → s.pg.stopsAtOnce h.kind m = false →
                  (h.kind.isSeek = true → s.pg.speedName ≠ .idle) →
                  t.queue = { h with state := .ending .halted m } :: rest ∧ t.pg = s.pg.decelerating h.kind
                  ∧ t.pb = (taken s).pb ∧ t.outgoing = (tells h.tag).outgoing)
              ∧ (∀ o m', h.state = .ending o m' →
                  (m = .abrupt → t.queue = promote rest ∧ t.pg = s.pg.resting
                    ∧ t.pb = (taken s).pb.referredBy rest
                    ∧ t.outgoing = ((tells h.tag).tellsOfEnd h o rest).outgoing)
                  ∧ (m = .smooth → s.nothingOver = true → t.queue = s.queue ∧ t.pg = s.pg
                    ∧ t.pb = (taken s).pb ∧ t.outgoing = (tells h.tag).outgoing))))

/-- CLEAR(GROUP), taken in RUN, opens the slot that holds its address with the frame's sequence number, an empty ready
set and no halt record, stops an ARMED slot's timer, drops its owed HALT, and returns an announcing head to WAITING
with its READY withdrawn; a head of the slot is then evaluated (R99). That a head of another slot, or of none, is not
evaluated is the model's reading (entry 25, DEDUCED from R61 and R99). -/
def Obligations.ClearGroupTakenOpensTheSlot : Prop :=
  ∀ (source : StationId) (group : GroupAddr) (n : Byte) (k : Fin 8) (g : Group) (s : State),
    s.takesCommand (.clearGroupTaken source group n) = true → s.ss.node = .run →
    s.slotOfAddress? group = some k → s.group? k = some g →
    ∃ u : State, exec (.clearGroupTaken source group n) s
        = .next (if (s.headOfSlot? k).isSome then evaluate u else u)
      ∧ u.outside = (taken s).outside ∧ u.gd = (taken s).gd ∧ u.pb = (taken s).pb ∧ u.pg = (taken s).pg
      ∧ u.nb = (taken s).nb
      ∧ u.ru = { slots := s.ru.slots.set k (.live { g with state := .opened, ready := 0, sequence := n })
                 timer := if g.state = .armed then none else s.ru.timer }
      ∧ u.tif.owed = (taken s).tif.owed.set k none
      ∧ u.otherFrames = (taken s).otherFrames
      ∧ (∀ h rest, s.queue = h :: rest → h.slot = some k → h.state.isAnnounce = true →
          u.queue = { h with state := .waiting } :: rest ∧ u.readyWithdrawn)
      ∧ ((s.headOfSlot? k).any (fun h => h.state.isAnnounce) = false →
          u.queue = s.queue ∧ u.tif.queue = (taken s).tif.queue)

/-- CLEAR(ALL), taken in RUN, clears every live slot and their owed HALTs; an ARMED slot's timer stops, and its
announcing head is back in WAITING with its READY withdrawn, but otherwise the timer, the queue and the transmit queue
stand (R99); the Guard drops PEER_ALL_HALT and with an empty set returns to NORMAL with DEN high, or else takes the
lowest-coded cause that remains for a first cause that has left; and the head is evaluated once after that (R101, R163). -/
def Obligations.ClearAllTakenClearsEverySlot : Prop :=
  (∀ (set : BitVec 16) (c : Cause), lowestCause set = some c ↔
    hasCause set c = true ∧ ∀ d : Cause, hasCause set d = true → c.byte.toNat ≤ d.byte.toNat)
  ∧ ∀ (source : StationId) (n : Byte) (s : State),
    s.takesCommand (.clearAllTaken source n) = true → s.ss.node = .run →
    ∃ u : State, exec (.clearAllTaken source n) s = .next (evaluate u)
      ∧ u.outside = (taken s).outside ∧ u.pb = (taken s).pb ∧ u.pg = (taken s).pg ∧ u.nb = (taken s).nb
      ∧ (∀ k g, s.group? k = some g →
          u.group? k = some { g with state := .opened, ready := 0, sequence := n } ∧ u.tif.owed[k] = none)
      ∧ (∀ k, s.group? k = none → u.ru.slots[k] = s.ru.slots[k] ∧ u.tif.owed[k] = (taken s).tif.owed[k])
      ∧ u.ru.timer = (if (List.finRange 8).any fun k => (s.group? k).any fun g => g.state == .armed then none
          else s.ru.timer)
      ∧ u.otherFrames = (taken s).otherFrames
      ∧ (∀ h rest k, s.queue = h :: rest → h.state.isAnnounce = true → h.slot = some k → s.group? k ≠ none →
          u.queue = { h with state := .waiting } :: rest ∧ u.readyWithdrawn)
      ∧ (s.queue.head?.any (fun h => h.state.isAnnounce) = false →
          u.queue = s.queue ∧ u.tif.queue = (taken s).tif.queue)
      ∧ (hasCause s.gd.causes .peerAllHalt = false → u.gd = s.gd)
      ∧ (s.gd.causes = Cause.peerAllHalt.bit →
          u.gd = { state := .normal, first := none, causes := 0, originator := none, stopMode := none, den := .high })
      ∧ (hasCause s.gd.causes .peerAllHalt = true → s.gd.causes ≠ Cause.peerAllHalt.bit →
          u.gd = { s.gd with
            causes := s.gd.causes &&& ~~~Cause.peerAllHalt.bit
            originator := none
            first := if s.gd.first = some .peerAllHalt then lowestCause (s.gd.causes &&& ~~~Cause.peerAllHalt.bit)
              else s.gd.first })

/-- A READY taken in RUN for a slot (R85 to R87): ignored while the slot is HALTED; from a station outside the roster
a local halt with ROSTER_MISMATCH, with another sequence number one with SEQUENCE_FAULT, after which the slot is HALTED by
the node with an empty ready set and owes a HALT with that cause, mode ABRUPT, and the tag of a head of the slot that was
announcing or moving, else 0, unless it owed one already (R93); otherwise recorded once, and
the node's own makes an ANNOUNCING head of an ARMED slot ANNOUNCED. Short of the roster nothing else happens; the READY that completes the roster of an ARMED slot fires
it at that instant (R88): ready set empty, sequence number one up modulo 256, timer stopped, slot OPEN, and the
ANNOUNCED head starts (R68). -/
def Obligations.ReadyTakenIsRecordedOrFires : Prop :=
  ∀ (source : StationId) (group : GroupAddr) (n tag : Byte) (k : Fin 8) (g : Group) (s : State),
    s.takesCommand (.readyTaken source group n tag) = true → s.ss.node = .run →
    s.slotOfAddress? group = some k → s.group? k = some g →
    (s.slotHalted k = true → exec (.readyTaken source group n tag) s = .next (taken s))
    ∧ (s.slotHalted k = false → hasStation g.roster source = false →
        exec (.readyTaken source group n tag) s
          = .next (settle (localHalt k .rosterMismatch .abrupt false (taken s))))
    ∧ (s.slotHalted k = false → hasStation g.roster source = true → n ≠ g.sequence →
        exec (.readyTaken source group n tag) s
          = .next (settle (localHalt k .sequenceFault .abrupt false (taken s))))
    ∧ (∀ c : Cause, s.slotHalted k = false →
        (c = .rosterMismatch ∧ hasStation g.roster source = false
          ∨ c = .sequenceFault ∧ hasStation g.roster source = true ∧ n ≠ g.sequence) →
        ∃ t, exec (.readyTaken source group n tag) s = .next t
          ∧ t.group? k = some { g with state := .halted c s.own, ready := 0 }
          ∧ t.tif.owed = if ((taken s).tif.owed[k]).isSome then (taken s).tif.owed
            else (taken s).tif.owed.set k (some
              { cause := c, mode := .abrupt, attempts := 0, onLine := false
                tag := match s.queue with
                  | [] => 0
                  | h :: _ =>
                    if h.slot = some k ∧ (h.state.isAnnounce = true ∨ h.state.isMoving = true) then h.tag else 0 }))
    ∧ (s.slotHalted k = false → hasStation g.roster source = true → n = g.sequence →
        (g.ready ||| 1#64 <<< source.toNat ≠ g.roster ∨ g.state ≠ .armed) →
        exec (.readyTaken source group n tag) s = .next { taken s with
          ru := { s.ru with slots := s.ru.slots.set k (.live { g with ready := g.ready ||| 1#64 <<< source.toNat }) }
          queue := match s.queue with
            | [] => []
            | h :: rest =>
              if source = s.own ∧ g.state = .armed ∧ h.slot = some k ∧ h.state = .announcing then
                { h with state := .announced } :: rest
              else h :: rest })
    ∧ (∀ h rest, g.state = .armed → hasStation g.roster source = true → n = g.sequence →
        g.ready ||| 1#64 <<< source.toNat = g.roster → s.queue = h :: rest → h.slot = some k →
        (h.state = .announced ∨ source = s.own ∧ h.state = .announcing) →
        exec (.readyTaken source group n tag) s = .next (settle (startHead { taken s with
          ru := { slots := s.ru.slots.set k (.live { g with ready := 0, sequence := g.sequence + 1, state := .opened })
                  timer := none }
          queue := { h with state := .announced } :: rest })))

/-- The rendezvous timer's expiry is a local halt of the ARMED slot with RENDEZVOUS_TIMEOUT (R90, R93): the slot is
HALTED with the node as originator, a HALT is owed with the head's tag, the timer is stopped, the head is back in
WAITING with its READY withdrawn, and a HALT notice is produced (R92). A timer that does not run cannot expire. -/
def Obligations.RendezvousTimeoutHaltsTheSlot : Prop :=
  ∀ s : State,
    (s.ru.timer = none → exec .rendezvousTimeout s = .next s)
    ∧ (∀ left k g h rest, s.ru.timer = some left → s.group? k = some g → g.state = .armed →
        (∀ j x, s.group? j = some x → x.state = .armed → j = k) → s.queue = h :: rest → h.slot = some k →
        h.state.isAnnounce = true →
        let told := produce .halt [BitVec.ofNat 8 k.val, g.address.setWidth 8, 12, s.own.setWidth 8] s
        ∃ t, exec .rendezvousTimeout s = .next t
          ∧ t = localHalt k .rendezvousTimeout .abrupt false s
          ∧ t.outside = s.outside ∧ t.gd = s.gd ∧ t.pb = s.pb ∧ t.pg = s.pg
          ∧ t.ru = { slots := s.ru.slots.set k (.live { g with
                       state := .halted .rendezvousTimeout s.own, ready := 0 })
                     timer := none }
          ∧ t.queue = { h with state := .waiting } :: rest
          ∧ t.readyWithdrawn
          ∧ t.nb = told.nb ∧ t.otherFrames = told.otherFrames
          ∧ t.tif.owed = (if s.tif.link = .silent ∨ (s.tif.owed[k]).isSome then s.tif.owed
              else s.tif.owed.set k (some
                { cause := .rendezvousTimeout, mode := .abrupt, tag := h.tag, attempts := 0, onLine := false })))

/-- A MARK taken in RUN (R147): for a pair that no queued segment refers to it is not recorded; it adds to the pair's
entry, at most 15; it joins the list while that holds fewer than 8 entries, and a full list gives a LINK notice
MARKS_FULL. After a recording a RUN looks for its end mark and a WAITING head is evaluated: a RUNNING RUN whose end mark
is heard consumes one unit of it and enters ENDING with outcome DONE and mode SMOOTH, at once at rest at FL, else
decelerating (R74, R115, R118); any other head does not look. -/
def Obligations.MarkTakenIsHeard : Prop :=
  (∀ (source : StationId) (unit packed : Byte) (position : BitVec 32) (u : Fin 4) (s : State),
    s.takesCommand (.markTaken source unit packed position) = true → s.ss.node = .run → unitOf unit = some u →
    let m : MarkRef := { station := source, unit := u }
    let c := (packed.extractLsb' 0 4).toNat
    (s.referenced m = false → exec (.markTaken source unit packed position) s = .next (taken s))
    ∧ (s.referenced m = true → ∀ pre e post, s.pb.heard = pre ++ e :: post → e.ref = m →
        (∀ x ∈ pre ++ post, x.ref ≠ m) →
        exec (.markTaken source unit packed position) s = .next (evaluate (lookEndMark { taken s with
          pb := { (taken s).pb with heard := pre ++ { e with count := min 15 (e.count + c) } :: post } })))
    ∧ (s.referenced m = true → s.heardHas m = false → s.pb.heard.length < 8 →
        exec (.markTaken source unit packed position) s = .next (evaluate (lookEndMark { taken s with
          pb := { (taken s).pb with heard := s.pb.heard ++ [{ ref := m, count := c }] } })))
    ∧ (s.referenced m = true → s.heardHas m = false → 8 ≤ s.pb.heard.length →
        exec (.markTaken source unit packed position) s
          = .next (produce .link [2, m.station ++ BitVec.ofNat 2 u.val] (taken s))))
  ∧ ∀ (s : State) (h : Segment) (rest : List Segment), s.queue = h :: rest →
      ((h.state ≠ .running ∨ ∀ d m p, h.kind = .run d (some m) p → s.heardHas m = false) → lookEndMark s = s)
      ∧ (∀ d m p pre e post, h.state = .running → h.kind = .run d (some m) p → s.pb.heard = pre ++ e :: post →
          e.ref = m → (∀ x ∈ pre, x.ref ≠ m) →
          lookEndMark s = { s with
            queue := { h with state := .ending .done .smooth } :: rest
            pg := if s.pg.speedSq ≤ p.fl * p.fl then s.pg.resting else s.pg.decelerating h.kind
            pb := { s.pb with heard := pre ++ (if e.count ≤ 1 then [] else [{ e with count := e.count - 1 }]) ++ post } })

/-- Frames in a node state in which they do not act: a HALT, CLEAR, READY or MARK outside RUN is taken without effect
(R39); LOAD, FLUSH, STOP, MARKSET and CLEAR(STATION) outside RUN draw STATE, and SETUP, DEFINE and COMMIT outside
SETUP draw LOCKED (R38, R51), with nothing changed but the answer slot and the ANSWER. -/
def Obligations.FramesOutsideTheirNodeStateDoNothing : Prop :=
  ∀ s : State,
    (s.ss.node ≠ .run → ∀ c : Instr, s.takesCommand c = true →
      (match c with
        | .haltGroupTaken _ _ _ _ _ | .haltAllTaken _ _ _ _ | .clearGroupTaken _ _ _ | .clearAllTaken _ _
        | .readyTaken _ _ _ _ | .markTaken _ _ _ _ => true
        | _ => false) = true →
      exec c s = .next (taken s))
    ∧ (∀ (c : Instr) (i : Fin 2) (source : StationId) (reference : Byte) (kind : BitVec 4), s.canServe c i →
        (s.ss.node ≠ .run →
          ((∃ r, c = .load source reference r ∧ kind = kindLoad)
            ∨ (∃ v, c = .flushAll source reference v ∧ kind = kindFlush)
            ∨ (∃ v, c = .flushTag source reference v ∧ kind = kindFlush)
            ∨ (∃ v, c = .flushSlot source reference v ∧ kind = kindFlush)
            ∨ (∃ m t, c = .stop source reference m t ∧ kind = kindStop)
            ∨ (∃ u b t p, c = .marksetArm source reference u b t p ∧ kind = kindMarkset)
            ∨ (∃ u r, c = .marksetDisarm source reference u r ∧ kind = kindMarkset)
            ∨ (c = .clearStationTaken source reference ∧ kind = kindClear)) →
          exec c s = .next ((s.served i source reference kind).withAnswer i source reference kind .state []))
        ∧ (s.ss.node ≠ .setup →
          ((∃ f, c = .setup source reference f ∧ kind = kindSetup)
            ∨ (∃ k a r, c = .define source reference k a r ∧ kind = kindDefine)
            ∨ (c = .commit source reference ∧ kind = kindCommit)) →
          exec c s = .next ((s.served i source reference kind).withAnswer i source reference kind .locked [])))

/-! ### Requests -/

/-- LOAD in RUN (R57, R58): the first failing check of FULL, RANGE, SLOT_UNDEFINED and DUPLICATE_TAG is the answer,
with nothing changed; otherwise the segment joins the end QUEUED, or into an empty queue as head in WAITING, evaluated
at once. RANGE is a broken constraint of R55 or R56, and a record within them is the segment that its fields give
(Tables 2-5 to 2-7, 4-1). -/
def Obligations.LoadIsCheckedAndAppended : Prop :=
  (∀ (source : StationId) (reference : Byte) (r : LoadRecord) (i : Fin 2) (s : State),
    s.canServe (.load source reference r) i → s.ss.node = .run →
    let t := s.served i source reference kindLoad
    let answers (u : State) (x : Result) : Prop :=
      exec (.load source reference r) s = .next (u.withAnswer i source reference kindLoad x [])
    (16 ≤ s.queue.length → answers t .full)
    ∧ (s.queue.length < 16 → segmentOf r = none → answers t .range)
    ∧ (∀ h, s.queue.length < 16 → segmentOf r = some h →
        ((∃ k, h.slot = some k ∧ s.group? k = none) → answers t .slotUndefined)
        ∧ ((∀ k, h.slot = some k → s.group? k ≠ none) →
            ((∃ x ∈ s.queue, x.tag = h.tag) → answers t .duplicateTag)
            ∧ ((∀ x ∈ s.queue, x.tag ≠ h.tag) →
                (s.queue ≠ [] → answers { t with queue := s.queue ++ [{ h with state := .queued }] } .accepted)
                ∧ (s.queue = [] → answers (evaluate { t with queue := [{ h with state := .waiting }] }) .accepted)))))
  ∧ ∀ r : LoadRecord,
      let profileOk (p : RawProfile) : Prop := p.cls.toNat ≤ 2 ∧ 10 ≤ p.fl.toNat ∧ p.fl.toNat ≤ 100000
        ∧ p.fl.toNat ≤ p.fh.toNat ∧ p.fh.toNat ≤ 250000 ∧ 1 ≤ p.accel.toNat ∧ p.accel.toNat ≤ 1000000
        ∧ 1 ≤ p.decel.toNat ∧ p.decel.toNat ≤ 1000000
      let markOk (b : Byte) : Prop := 1 ≤ b.toNat / 4 ∧ b.toNat / 4 ≤ 62
      let commonOk : Prop := r.tag ≠ 0 ∧ (r.slot.toNat ≤ 7 ∨ r.slot = 0xFF)
        ∧ (r.start = 0 ∧ r.startMark = 0 ∨ r.start = 1 ∧ r.startMark = 0 ∧ r.slot ≠ 0xFF
          ∨ r.start = 2 ∧ markOk r.startMark)
      let kindOk : Prop := match r.body with
        | .move d p => d.toInt ≠ 0 ∧ d.toInt.natAbs ≤ 16777215 ∧ profileOk p
        | .moveTo x p => x.toInt.natAbs ≤ 1073741823 ∧ profileOk p
        | .span d n p => r.slot ≠ 0xFF ∧ r.start = 1 ∧ d.toInt.natAbs ≤ 16777215 ∧ 1 ≤ n.toNat
          ∧ d.toInt.natAbs ≤ n.toNat ∧ profileOk p
        | .run dir e p => dir.toNat ≤ 1 ∧ (e = 0 ∨ markOk e) ∧ profileOk p
        | .dwell ms => 1 ≤ ms.toNat
        | .seek dir options count preset p => dir.toNat ≤ 1 ∧ options.toNat ≤ 3
          ∧ (options.getLsbD 0 = true → 1 ≤ count.toNat ∧ count.toNat ≤ 16) ∧ preset.toInt.natAbs ≤ 1073741823
          ∧ profileOk p
      let profile (p : RawProfile) : Profile :=
        { cls := if p.cls = 0 then .flatLow else if p.cls = 1 then .flatHigh else .ramp, fl := p.fl.toNat
          fh := p.fh.toNat, accel := p.accel.toNat, decel := p.decel.toNat }
      let mark (b : Byte) : MarkRef := { station := BitVec.ofNat 6 (b.toNat / 4), unit := Fin.ofNat 4 b.toNat }
      let dirOf (b : Byte) : Dir := if b = 0 then .plus else .minus
      (¬(commonOk ∧ kindOk) → segmentOf r = none)
      ∧ (commonOk ∧ kindOk → segmentOf r = some {
          tag := r.tag
          slot := if r.slot = 0xFF then none else some (Fin.ofNat 8 r.slot.toNat)
          start := if r.start = 0 then .immediate else if r.start = 1 then .rendezvous else .mark (mark r.startMark)
          state := .queued
          kind := match r.body with
            | .move d p => .move d.toInt (profile p)
            | .moveTo x p => .moveTo x.toInt (profile p)
            | .span d n p => .span d.toInt n.toNat (profile p)
            | .run dir e p => .run (dirOf dir) (if e = 0 then none else some (mark e)) (profile p)
            | .dwell ms => .dwell ms.toNat
            | .seek dir options count preset p => .seek
              { dir := dirOf dir, variant := if options.getLsbD 0 then .index count.toNat else .edge
                reverse := options.getLsbD 1, preset := preset.toInt } (profile p) })

/-- FLUSH in RUN (R77, R78, R102): a value out of range draws RANGE, no match NOT_FOUND. Otherwise the matching
segments leave, but for one ANNOUNCED, RUNNING or ENDING; an ANNOUNCING one gives its slot back OPEN with its READY
withdrawn and the timer stopped; a DONE notice tells of each removal; then the oldest remaining segment is evaluated if
the head was removed, or EMPTY told if none remains. The ANSWER counts the removed and names the kept segment. -/
def Obligations.FlushRemovesTheMatchingSegments : Prop :=
  ∀ (source : StationId) (reference value : Byte) (c : Instr) (i : Fin 2) (s : State), s.canServe c i →
    s.ss.node = .run →
    let t := s.served i source reference kindFlush
    let answers (u : State) (x : Result) (contents : List Byte) : Prop :=
      exec c s = .next (u.withAnswer i source reference kindFlush x contents)
    ((c = .flushAll source reference value ∧ value ≠ 0 ∨ c = .flushTag source reference value ∧ value = 0
        ∨ c = .flushSlot source reference value ∧ 7 < value.toNat) → answers t .range [])
    ∧ (∀ p : Segment → Bool,
        (c = .flushAll source reference value ∧ value = 0 ∧ p = (fun _ => true)
          ∨ c = .flushTag source reference value ∧ value ≠ 0 ∧ p = (fun h => h.tag == value)
          ∨ c = .flushSlot source reference value ∧ value.toNat < 8
            ∧ p = (fun h => h.slot.any fun k => k.val == value.toNat)) →
        let goes (h : Segment) : Bool := p h && (h.state == .queued || h.state == .waiting || h.state == .announcing)
        let stays := s.queue.filter fun h => !goes h
        let left : State := { t with queue := stays }
        let opened : State :=
          match (s.queue.filter goes).find? fun h => h.state == .announcing with
          | none => left
          | some h =>
            match h.slot with
            | none => left
            | some k =>
              match s.group? k with
              | none => left
              | some g => { left with
                  ru := { slots := s.ru.slots.set k (.live { g with state := .opened }), timer := none }
                  tif := { t.tif with queue := t.tif.queue.filterMap fun e =>
                    if e.frame.isReady = false then some e
                    else if e.onLine then some { e with withdrawn := true } else none } }
        let pruned : State := { opened with
          pb := { s.pb with heard := s.pb.heard.filter fun e => stays.any fun h => h.refersTo e.ref } }
        let told := (s.queue.filter goes).foldl (fun u h => produce .done ([h.tag, 5] ++ signed4 s.pb.command
          ++ bytes3 (BitVec.ofNat 24 (match h.kind with
            | .move d _ => min d.natAbs 16777215
            | .span d _ _ => min d.natAbs 16777215
            | _ => 0))) u) pruned
        let done :=
          match stays with
          | [] => produce .empty (signed4 s.pb.command) told
          | x :: more =>
            if s.queue.head?.any goes then evaluate { told with queue := { x with state := .waiting } :: more }
            else told
        (s.queue.any p = false → answers t .notFound [])
        ∧ (s.queue.any p = true → answers done .accepted
            (BitVec.ofNat 8 (s.queue.filter goes).length ::
              match s.queue.find? (fun h => p h && !goes h) with
              | none => [0, 0]
              | some h => [if h.state = .announced then 1 else 2, h.tag])))

/-- STOP in RUN (R79): the first failing check of RANGE, NOT_FOUND and STATE is the answer; otherwise a RUNNING head
enters ENDING with outcome STOPPED and the mode, an ENDING head keeps its outcome and is hastened by ABRUPT, and a stop
that is complete at once ends the head (R116 to R118). A SEEK that decelerates keeps reversed and REF qualified of its
seek state (R122, R129), and its phase takes the name of its speed (entry 16, DEDUCED from R130). That a SMOOTH stop
is at once in the last interval of a RAMP ramp-down too is entry 28 (DESIGN CHOICE). -/
def Obligations.StopClaimsTheMovingHead : Prop :=
  ∀ (source : StationId) (reference mode tag : Byte) (i : Fin 2) (s : State),
    s.canServe (.stop source reference mode tag) i → s.ss.node = .run →
    let t := s.served i source reference kindStop
    let answers (u : State) (x : Result) : Prop :=
      exec (.stop source reference mode tag) s = .next (u.withAnswer i source reference kindStop x [])
    (1 < mode.toNat → answers t .range)
    ∧ (mode.toNat ≤ 1 →
        (s.headMoving = false → answers t .notFound)
        ∧ (∀ h rest, s.queue = h :: rest → h.state.isMoving = true →
            (tag ≠ 0 → tag ≠ h.tag → answers t .notFound)
            ∧ ((tag = 0 ∨ tag = h.tag) → h.slot ≠ none → answers t .state)
            ∧ ((tag = 0 ∨ tag = h.tag) → h.slot = none →
                let m : Mode := if mode = 0 then .smooth else .abrupt
                let stopped (o : SegOutcome) : State := { t with
                  queue := { h with state := .ending o .abrupt } :: rest, pg := s.pg.resting }
                (∀ o m', h.state = .ending o m' →
                  answers (settle (if m = .abrupt then stopped o else t)) .accepted)
                ∧ (h.state = .running → m = .abrupt → answers (settle (stopped .stopped)) .accepted)
                ∧ (h.state = .running → m = .smooth → ∀ p, h.kind.profile? = some p →
                    (s.pg.speedSq ≤ p.fl * p.fl → answers (settle { t with
                      queue := { h with state := .ending .stopped .smooth } :: rest, pg := s.pg.resting }) .accepted)
                    ∧ (p.fl * p.fl < s.pg.speedSq → answers (settle { t with
                        queue := { h with state := .ending .stopped .smooth } :: rest
                        pg := { s.pg with
                          stop := some .smooth, phase := if h.kind.isSeek then s.pg.speedName else .decel
                          seek := s.pg.seek.map fun x => { x with stage := none, counted := 0, latched := none } } })
                        .accepted))
                ∧ (h.state = .running → m = .smooth → h.kind.profile? = none → answers (settle { t with
                    queue := { h with state := .ending .stopped .smooth } :: rest, pg := s.pg.resting }) .accepted))))

/-- MARKSET ARM in RUN (R140): a unit above 3, an unassigned bit of byte 3 or a threshold outside the counter range
draws RANGE with nothing changed; otherwise the unit takes source, condition, threshold and period, is ARMED, and its
condition is judged once against its source counter; the firings go to its MARK. -/
def Obligations.MarksetArmArmsAndJudges : Prop :=
  ∀ (source : StationId) (reference unit b : Byte) (threshold : BitVec 32) (period : BitVec 24) (i : Fin 2)
    (s : State),
    s.canServe (.marksetArm source reference unit b threshold period) i → s.ss.node = .run →
    let t := s.served i source reference kindMarkset
    let answers (u : State) (x : Result) : Prop :=
      exec (.marksetArm source reference unit b threshold period) s
        = .next (u.withAnswer i source reference kindMarkset x [])
    ((3 < unit.toNat ∨ b &&& 0xEC ≠ 0 ∨ 1073741823 < threshold.toInt.natAbs) → answers t .range)
    ∧ (∀ u : Fin 4, unit.toNat = u.val → b &&& 0xEC = 0 → threshold.toInt.natAbs ≤ 1073741823 →
        let n := if b.getLsbD 4 then s.pb.feedback else s.pb.command
        let armed : MarkUnit := { s.pb.units[u] with
          state := .armed, threshold := threshold.toInt, period := period.toNat
          source := if b.getLsbD 4 then .feedback else .command
          cond := if b.getLsbD 1 then (if b.getLsbD 0 then .atOrBelow else .atOrAbove)
            else (if b.getLsbD 0 then .crossDown else .crossUp) }
        let r := armed.judge .arming n
        answers (handFirings u r.1 n (t.setUnit u r.2)) .accepted)

/-- MARKSET DISARM in RUN (R140, R141): a unit above 3 draws RANGE with nothing changed; bytes 3 to 10 are not examined;
otherwise the unit is DISARMED with its source, condition, threshold and period kept, its MARK leaves the transmit queue
at once, and it has no held firings. -/
def Obligations.MarksetDisarmWithdrawsTheMark : Prop :=
  ∀ (source : StationId) (reference unit : Byte) (unused : BitVec 64) (i : Fin 2) (s : State),
    s.canServe (.marksetDisarm source reference unit unused) i → s.ss.node = .run →
    let t := s.served i source reference kindMarkset
    (3 < unit.toNat → exec (.marksetDisarm source reference unit unused) s
      = .next (t.withAnswer i source reference kindMarkset .range []))
    ∧ (∀ u : Fin 4, unit.toNat = u.val → s.lineRight = true → s.heldRight = true →
        exec (.marksetDisarm source reference unit unused) s = .next (({ t with
            pb := { s.pb with units := s.pb.units.set u { s.pb.units[u] with state := .disarmed, held := none } }
            tif := { t.tif with queue := s.tif.queue.filter fun e => !e.frame.isMark u } } : State).withAnswer
          i source reference kindMarkset .accepted []))

/-- CLEAR(STATION) in RUN (R165, R166): NORMAL answers ACCEPTED with cause 0 and an empty set; STOPPING answers STATE;
STOPPED answers STILL_ACTIVE with the first cause and the causes still present, or else ACCEPTED with the record as it
stood, and the Guard is NORMAL with an empty record, DEN is high, and the head is evaluated. -/
def Obligations.ClearStationReleasesTheGuard : Prop :=
  ∀ (source : StationId) (reference : Byte) (i : Fin 2) (s : State),
    s.canServe (.clearStationTaken source reference) i → s.ss.node = .run →
    let t := s.served i source reference kindClear
    let answers (u : State) (x : Result) (contents : List Byte) : Prop :=
      exec (.clearStationTaken source reference) s = .next (u.withAnswer i source reference kindClear x contents)
    let present (c : Cause) : Bool :=
      match c with
      | .driveFault => s.dfltActive
      | .limitPlus => hasCause s.gd.causes .limitPlus && s.limpActive
      | .limitMinus => hasCause s.gd.causes .limitMinus && s.limnActive
      | .peerAllHalt => hasCause s.gd.causes .peerAllHalt && s.gd.causes != Cause.peerAllHalt.bit
      | _ => false
    (s.gd.state = .normal → answers t .accepted [0, 0, 0])
    ∧ (s.gd.state = .stopping → answers t .state [])
    ∧ (s.gd.state = .stopped → (∃ c, present c = true) →
        ∃ set : BitVec 16, (∀ c, hasCause set c = present c)
          ∧ answers t .stillActive (causeByte s.gd.first :: bytes2 set))
    ∧ (s.gd.state = .stopped → (∀ c, present c = false) →
        answers (evaluate { t with
          gd := { state := .normal, first := none, causes := 0, originator := none, stopMode := none, den := .high } })
          .accepted (causeByte s.gd.first :: bytes2 s.gd.causes))

/-- QUERY in SETUP and in RUN (R172): an item outside the range of its subject (R32) draws RANGE; otherwise the ANSWER
carries the subject, the item and the contents of Tables 2-14 and 2-15 as they stand. Nothing else changes, but the
level on QI that a QUERY STATUS brings with it (entry 12). The codes are those of R35 and Tables 2-4 and 2-12, and
numbers of several bytes stand most significant byte first (R26). -/
def Obligations.QueriesReportTheState : Prop :=
  (∀ (source : StationId) (reference item : Byte) (c : Instr) (i : Fin 2) (s : State), s.canServe c i →
    let t := s.served i source reference kindQuery
    let answers (u : State) (subject : Byte) (contents : List Byte) : Prop :=
      exec c s = .next (u.withAnswer i source reference kindQuery .accepted ([subject, item] ++ contents))
    let active (level : Level) (activeHigh : Bool) (weight : Byte) : Byte :=
      if (level = .high ↔ activeHigh = true) then weight else 0
    let headState : Byte :=
      match s.queue with
      | [] => 0
      | h :: _ =>
        match h.state with
        | .queued => 1
        | .waiting => 2
        | .announcing => 3
        | .announced => 4
        | .running => 5
        | .ending _ _ => 6
    ((∃ qi, c = .queryStatus source reference item qi ∧ item ≠ 0 ∧ qi = s.pins.qi)
        ∨ c = .queryPosition source reference item ∧ item ≠ 0 ∨ c = .queryQueue source reference item ∧ item ≠ 0
        ∨ c = .queryGroup source reference item ∧ 7 < item.toNat
        ∨ c = .queryMarks source reference item ∧ 4 < item.toNat
        ∨ c = .querySetup source reference item ∧ item ≠ 0 →
      exec c s = .next (t.withAnswer i source reference kindQuery .range []))
    ∧ (∀ qi, c = .queryStatus source reference item qi → item = 0 →
        let u : State := { t with pins := { s.pins with qi := qi } }
        ∃ owed : Byte, (∀ k : Fin 8, owed.getLsbD k.val = (s.tif.owed[k]).isSome)
          ∧ answers u 0 ([s.ss.node.byte, 2, s.gd.state.byte, causeByte s.gd.first] ++ bytes2 s.gd.causes
            ++ [match s.gd.originator with
                  | none => 0
                  | some o => o.setWidth 8,
                BitVec.ofNat 8 s.queue.length,
                match s.queue with
                  | [] => 0
                  | h :: _ => h.tag,
                headState, owed,
                (if s.nb.overflow then 0x80 else 0) + BitVec.ofNat 8 (s.nb.list.length % 16),
                1 + (if s.fh.slots[0].isSome || s.fh.slots[1].isSome then 1 else 0), s.ss.lastReset.byte,
                active s.pins.limp s.ss.settings.limpHigh 1 + active s.pins.limn s.ss.settings.limnHigh 2
                  + active s.pins.ref s.ss.settings.refRising 4 + active s.pins.dflt s.ss.settings.dfltHigh 8
                  + active qi true 16]))
    ∧ (c = .queryPosition source reference item → item = 0 →
        let left :=
          match s.queue with
          | [] => 0
          | h :: _ =>
            if (h.state = .running ∨ s.headEnding = true) ∧ h.kind.counts = true then min s.pg.remaining 16777215 else 0
        answers t 1 (signed4 s.pb.command ++ signed4 s.pb.feedback
          ++ signed4 (if s.ss.settings.encMode = .off then 0 else s.pb.command - s.pb.feedback)
          ++ bytes3 (BitVec.ofNat 24 s.pg.speed) ++ [s.pg.phase.byte] ++ bytes3 (BitVec.ofNat 24 left)))
    ∧ (c = .queryQueue source reference item → item = 0 →
        answers t 2 ([BitVec.ofNat 8 s.queue.length, headState] ++ s.queue.map Segment.tag))
    ∧ (∀ k : Fin 8, c = .queryGroup source reference item → item.toNat = k.val →
        answers t 3 (match s.ru.slots[k] with
          | .empty => List.replicate 18 0 ++ [3, 0, 0, 0, 0]
          | .defined d => d.address.setWidth 8 :: (bytes8 d.roster ++ List.replicate 9 0 ++ [3, 0, 0, 0, 0])
          | .live g => g.address.setWidth 8 :: (bytes8 g.roster ++ [g.sequence] ++ bytes8 g.ready
              ++ (match g.state with
                | .opened => [0, 0, 0]
                | .armed => [1, 0, 0]
                | .halted cause o => [2, cause.byte, o.setWidth 8])
              ++ bytes2 (BitVec.ofNat 16 (if g.state = .armed then s.ru.timer.getD 0 else 0)))))
    ∧ (∀ u : Fin 4, c = .queryMarks source reference item → item.toNat = u.val →
        let x := s.pb.units[u]
        let source : Nat :=
          match x.source with
          | .command => 0
          | .feedback => 1
        let cond : Nat :=
          match x.cond with
          | .crossUp => 0
          | .crossDown => 1
          | .atOrAbove => 2
          | .atOrBelow => 3
        let state : Nat :=
          match x.state with
          | .disarmed => 0
          | .armed => 1
          | .fired => 2
        answers t 4 (BitVec.ofNat 8 (16 * source + 4 * cond + state) ::
          (signed4 x.threshold ++ bytes3 (BitVec.ofNat 24 x.period)
            ++ [match s.tif.queue.findSome? fun e => match e.frame with
                  | .mark v f => if v = u then some f else none
                  | _ => none with
                | none => 0
                | some f => BitVec.ofNat 8 (128 + (if f.saturated then 64 else 0) + f.count % 16)])))
    ∧ (c = .queryMarks source reference item → item = 4 →
        answers t 4 (BitVec.ofNat 8 s.pb.heard.length
          :: s.pb.heard.flatMap fun e => [e.ref.station ++ BitVec.ofNat 2 e.ref.unit.val, BitVec.ofNat 8 e.count]))
    ∧ (c = .querySetup source reference item → item = 0 →
        let f := fieldsOf s.ss.settings
        answers t 5 ([f.report, f.mask, f.retry] ++ bytes2 f.timeout ++ bytes2 f.following ++ [f.softEnable]
          ++ bytes4 f.softMin ++ bytes4 f.softMax ++ [f.stopOutput, f.encoder, f.polarity])))
  ∧ [NodeState.held, .setup, .run, .silent].map NodeState.byte = [0, 1, 2, 3]
  ∧ [GuardState.normal, .stopping, .stopped].map GuardState.byte = [0, 1, 2]
  ∧ [Phase.idle, .accel, .cruise, .decel, .creep, .dwell, .search, .count].map Phase.byte = [0, 1, 2, 3, 4, 5, 6, 7]
  ∧ ResetCause.pin.byte = 0 ∧ ResetCause.restart.byte = 1
  ∧ [Result.accepted, .state, .full, .duplicateTag, .range, .slotUndefined, .notFound, .locked, .setupInvalid,
      .stillActive].map Result.byte = [0, 1, 2, 3, 4, 5, 6, 7, 8, 9]
  ∧ [Cause.limitPlus, .limitMinus, .softLimit, .countRange, .driveFault, .followingError, .encoderError, .trunkStuck,
      .sendFailed, .duplicateStation, .operator, .rendezvousTimeout, .rosterMismatch, .sequenceFault, .seekFailed,
      .peerAllHalt].map Cause.byte = [1, 2, 3, 4, 5, 6, 7, 8, 9, 10, 11, 12, 13, 14, 15, 16]
  ∧ causeByte none = 0
  ∧ (∀ c : Cause, causeByte (some c) = c.byte ∧ c.bit = 1#16 <<< (c.byte.toNat - 1)
      ∧ (∀ set : BitVec 16, hasCause set c = set.getLsbD (c.byte.toNat - 1))
      ∧ ∀ b : Byte, causeOf b = some c ↔ b = c.byte)
  ∧ (∀ b : Byte, modeOf b = if b = 0 then some .smooth else if b = 1 then some .abrupt else none)
  ∧ (let value (bytes : List Byte) : Nat := bytes.foldl (fun n b => 256 * n + b.toNat) 0
    (∀ x, (bytes2 x).length = 2 ∧ value (bytes2 x) = x.toNat) ∧ (∀ x, (bytes3 x).length = 3 ∧ value (bytes3 x) = x.toNat)
    ∧ (∀ x, (bytes4 x).length = 4 ∧ value (bytes4 x) = x.toNat) ∧ (∀ x, (bytes8 x).length = 8 ∧ value (bytes8 x) = x.toNat)
    ∧ ∀ n : Int, signed4 n = bytes4 (BitVec.ofInt 32 n))

/-- SETUP in node state SETUP (R46, R47): a field out of its range draws RANGE with every setting kept; otherwise all
settings are those of the frame, field by field and bit by bit as Table 2-9 gives them, and encoder mode OFF sets the feedback counter to 0. The settings accepted read back
as the bytes that set them (R33). That a polarity they change is no change of the input is entry 17 (DEDUCED). -/
def Obligations.SetupReplacesTheSettings : Prop :=
  ∀ (source : StationId) (reference : Byte) (f : SetupFields) (i : Fin 2) (s : State),
    s.canServe (.setup source reference f) i → s.ss.node = .setup →
    let t := s.served i source reference kindSetup
    let valid : Prop := f.report.toNat ≤ 63 ∧ f.mask.toNat < 64 ∧ 1 ≤ f.retry.toNat ∧ f.retry.toNat ≤ 15
      ∧ f.timeout.toNat ≤ 60000 ∧ f.softEnable.toNat ≤ 1 ∧ f.softMin.toInt.natAbs ≤ 1073741823
      ∧ f.softMax.toInt.natAbs ≤ 1073741823 ∧ f.stopOutput.toNat < 4 ∧ f.encoder &&& 0x7C = 0 ∧ f.polarity.toNat < 16
    let x : Settings := {
      report := if f.report = 0 then .nobody else if f.report = 63 then .everyone else .station (f.report.setWidth 6)
      mask := f.mask, retryLimit := f.retry.toNat, timeout := f.timeout.toNat, following := f.following.toNat
      softEnable := f.softEnable == 1, softMin := f.softMin.toInt, softMax := f.softMax.toInt
      limitMode := if f.stopOutput.getLsbD 0 then .abrupt else .smooth
      form := if f.stopOutput.getLsbD 1 then .cwCcw else .stepDir
      encMode := match f.encoder.toNat % 4 with
        | 0 => .off
        | 1 => .x1
        | 2 => .x2
        | _ => .x4
      encInvert := f.encoder.getLsbD 7, limpHigh := f.polarity.getLsbD 0, limnHigh := f.polarity.getLsbD 1
      dfltHigh := f.polarity.getLsbD 2, refRising := f.polarity.getLsbD 3 }
    (¬valid → exec (.setup source reference f) s = .next (t.withAnswer i source reference kindSetup .range []))
    ∧ (valid → fieldsOf x = f ∧ exec (.setup source reference f) s = .next (({ t with
        ss := { s.ss with settings := x }
        pb := { s.pb with feedback := if x.encMode = .off then 0 else s.pb.feedback } } : State).withAnswer
      i source reference kindSetup .accepted []))

/-- DEFINE in node state SETUP (R48): the first failing check draws RANGE with the slot unchanged; otherwise address 0
empties the slot with the roster not examined, and an address of 1 to 31 puts address and roster there; the addresses
of the other slots are not compared. -/
def Obligations.DefineChecksAndSetsTheSlot : Prop :=
  ∀ (source : StationId) (reference slot address : Byte) (roster : StationSet) (i : Fin 2) (s : State),
    s.canServe (.define source reference slot address roster) i → s.ss.node = .setup →
    let t := s.served i source reference kindDefine
    let members := ((List.range 64).filter fun n => roster.getLsbD n).length
    let answers (u : State) (x : Result) : Prop :=
      exec (.define source reference slot address roster) s = .next (u.withAnswer i source reference kindDefine x [])
    ((7 < slot.toNat ∨ 31 < address.toNat
        ∨ address ≠ 0 ∧ (roster.getLsbD 0 = true ∨ roster.getLsbD 63 = true ∨ roster.getLsbD s.own.toNat = false
          ∨ members < 2 ∨ 16 < members)) → answers t .range)
    ∧ (∀ k : Fin 8, slot.toNat = k.val →
        (address = 0 → answers { t with ru := { s.ru with slots := s.ru.slots.set k .empty } } .accepted)
        ∧ (1 ≤ address.toNat → address.toNat ≤ 31 → roster.getLsbD 0 = false → roster.getLsbD 63 = false →
            roster.getLsbD s.own.toNat = true → 2 ≤ members → members ≤ 16 →
            answers { t with ru := { s.ru with
              slots := s.ru.slots.set k (.defined { address := address.setWidth 6, roster }) } } .accepted))

/-- COMMIT in node state SETUP (R49, R50, R51): two slots with one address draw SETUP_INVALID with check 1, then soft
limits out of order with check 2, with nothing changed; otherwise the node is in RUN and locked, defined slots are
live, OPEN, at sequence number 0, the timer is stopped, the Guard is NORMAL with an empty record and DEN high, or has
taken DRIVE_FAULT if DFLT is active. -/
def Obligations.CommitChecksAndEntersRun : Prop :=
  ∀ (source : StationId) (reference : Byte) (i : Fin 2) (s : State),
    s.canServe (.commit source reference) i → s.ss.node = .setup → s.quietBeforeRun = true →
    let t := s.served i source reference kindCommit
    let answers (u : State) (x : Result) (contents : List Byte) : Prop :=
      exec (.commit source reference) s = .next (u.withAnswer i source reference kindCommit x contents)
    let twice : Prop := ∃ j k : Fin 8, j ≠ k ∧ ∃ a b : GroupDef, s.ru.slots[j] = .defined a ∧ s.ru.slots[k] = .defined b
      ∧ a.address = b.address
    let unordered : Prop := s.ss.settings.softEnable = true ∧ s.ss.settings.softMax ≤ s.ss.settings.softMin
    (twice → answers t .setupInvalid [1])
    ∧ (¬twice → unordered → answers t .setupInvalid [2])
    ∧ (¬twice → ¬unordered → ∃ u : State,
        answers (if s.dfltActive then guardTake .driveFault .abrupt u else u) .accepted []
        ∧ u = { t with
            ss := { s.ss with node := .run, locked := true }
            ru := u.ru
            gd := { state := .normal, first := none, causes := 0, originator := none, stopMode := none, den := .high } }
        ∧ u.ru.timer = none
        ∧ ∀ k : Fin 8, u.ru.slots[k] = match s.ru.slots[k] with
          | .defined d => .live { address := d.address, roster := d.roster, sequence := 0, ready := 0, state := .opened }
          | x => x)

/-! ### The axis -/

/-- The end of an interval (R107, R113, R119, R132, R155): a SPAN interval whose accumulator stays below the span
carries no pulse; a pulse that passes the limit, soft-limit and range tests raises its line, takes one from the steps
remaining, and steps the command counter, which the following test and the mark units then see, before PG looks
for the end point: that order inside the instant is entry 10 (DEDUCED). With no interval in progress, with the guard
STOPPED or outside RUN there is no pulse, and the event does not arise (entry 4). Which units judge is what
JudgedUnitFiresWhileItsConditionIsMet says, and the following test what QuadratureCountsTheFeedback says. -/
def Obligations.IntervalEndEmitsAPassedPulse : Prop :=
  ∀ s : State,
    (s.intervalRuns = true ↔ s.headMoving = true ∧ s.pg.speedSq ≠ 0 ∧ s.ss.node = .run ∧ s.gd.state ≠ .stopped
      ∧ s.tif.link ≠ .silent)
    ∧ (s.intervalRuns = false → exec .intervalEnd s = .next s)
    ∧ (∀ h rest, s.queue = h :: rest → s.intervalRuns = true →
        (∀ d n p, h.kind = .span d n p → s.pg.acc + d.natAbs < n →
          exec .intervalEnd s = .next (afterStep { s with
            pg := { s.pg with progress := s.pg.progress + 1, acc := s.pg.acc + d.natAbs } }))
        ∧ (∀ dir : Dir, s.pg.dir = some dir → (∀ d n p, h.kind = .span d n p → n ≤ s.pg.acc + d.natAbs) →
            let n := s.pb.command + (if dir = .plus then 1 else -1)
            (dir = .plus → s.limpActive = false) → (dir = .minus → s.limnActive = false) →
            (h.kind.isSeek = false → s.ss.settings.softEnable = true →
              if dir = .plus then n ≤ s.ss.settings.softMax else s.ss.settings.softMin ≤ n) →
            n.natAbs ≤ 1073741823 →
            let pg := { s.pg with
              stepCw := if s.ss.settings.form = .stepDir ∨ dir = .plus then .high else s.pg.stepCw
              dirCcw := if s.ss.settings.form = .cwCcw ∧ dir = .minus then .high else s.pg.dirCcw
              remaining := if h.kind.counts then s.pg.remaining - 1 else s.pg.remaining
              progress := if h.kind.isSpan then s.pg.progress + 1 else s.pg.progress
              acc := match h.kind with
                | .span d n _ => s.pg.acc + d.natAbs - n
                | _ => s.pg.acc }
            exec .intervalEnd s = .next (afterStep (evalMarks .command (.step s.pb.command) n
              (followTest (s.pb.command - s.pb.feedback) { s with pg := pg, pb := { s.pb with command := n } })))))

/-- PG's choice after a step (R110 to R114, R118, R124, R126): at the end point the motion is over; a stop, and SETTLE,
go on one deceleration step lower until an interval at FL has ended; FLAT classes keep their speed; RAMP accelerates
if that leaves room to come down, else holds, else decelerates; without an end point it accelerates to FH, and in COUNT
it decelerates to FL. The phase names the new speed, or the stage of a SEEK. The choice is made at the end of the first
interval too, as the example of section 6.8 does, where R111 says every later interval (entry 14, DEDUCED). -/
def Obligations.NextIntervalIsChosen : Prop :=
  ∀ (s : State) (h : Segment) (rest : List Segment) (p : Profile), s.queue = h :: rest → h.kind.profile? = some p →
    s.pg.speedSq ≠ 0 →
    let v := s.pg.speedSq
    let rested : State := { s with pg := s.pg.resting }
    let slower : State := { s with pg := { s.pg with
      phase := .decel, speedSq := max (v - 2 * (10 * p.decel)) (p.fl * p.fl), fromRest := false, speedName := .decel } }
    let atEnd : Prop := match h.kind with
      | .move _ _ => s.pg.remaining = 0
      | .moveTo _ _ => s.pg.remaining = 0
      | .span _ n _ => n ≤ s.pg.progress
      | _ => False
    (atEnd → afterStep s = settle rested)
    ∧ (¬atEnd → ∀ o m, h.state = .ending o m →
        (v ≤ p.fl * p.fl → afterStep s = settle rested) ∧ (p.fl * p.fl < v → afterStep s = slower))
    ∧ (¬atEnd → h.state = .running →
        (∀ x, s.pg.seek = some x → x.stage = some .settle →
          (v ≤ p.fl * p.fl → afterStep s = applyPreset s) ∧ (p.fl * p.fl < v → afterStep s = slower))
        ∧ (∀ w, (s.pg.seek.all fun x => x.stage != some .settle) = true →
            (match p.cls with
              | .flatLow => w = p.fl * p.fl
              | .flatHigh => w = p.fh * p.fh
              | .ramp =>
                let u := min (v + 2 * (10 * p.accel)) (p.fh * p.fh)
                let ranked (toGo : Nat) : Prop :=
                  w = if v < p.fh * p.fh ∧ p.rampDown u ≤ toGo - 1 then u
                    else if p.rampDown v ≤ toGo - 1 then v else max (v - 2 * (10 * p.decel)) (p.fl * p.fl)
                match h.kind with
                | .move _ _ => ranked s.pg.remaining
                | .moveTo _ _ => ranked s.pg.remaining
                | .span _ n _ => ranked (n - s.pg.progress)
                | _ =>
                  if (s.pg.seek.any fun x => x.stage == some .count) = true then
                    w = max (v - 2 * (10 * p.decel)) (p.fl * p.fl)
                  else w = if v < p.fh * p.fh then u else v) →
            let name : Phase := if v < w then .accel else if w < v then .decel else if p.fl * p.fl < w then .cruise else .creep
            afterStep s = { s with pg := { s.pg with
              speedSq := w, fromRest := false, speedName := name
              phase := match s.pg.seek with
                | some x => if x.stage = some .count then .count else if x.stage = some .search then .search else name
                | none => name } }))

/-- A pulse that the check refuses (R108, R127, R128, R155): the motion ends without it and the Guard takes every cause
whose test failed, limit, soft limit, range in that order; but a RUNNING SEEK in SEARCH or COUNT that only its limit
stopped turns round, once, if its record says so, and otherwise fails: it leaves with SEEK_FAILED, its OPEN slot is
halted with a HALT owed, the guard is STOPPED with the limit cause, and the notices are HALT, FAULT, DONE and, with no
segment left, EMPTY, in this order; heard marks of a last reference go (R148). A refused pulse of a SPAN leaves progress and
accumulator as they were (entry 15, DEDUCED from R108). -/
def Obligations.RefusedPulseEndsOrTurnsTheMotion : Prop :=
  ∀ (s : State) (h : Segment) (rest : List Segment) (dir : Dir), s.queue = h :: rest → s.intervalRuns = true →
    s.pg.dir = some dir → (∀ d n p, h.kind = .span d n p → n ≤ s.pg.acc + d.natAbs) → s.onlyHeadMoves = true →
    let n := s.pb.command + (if dir = .plus then 1 else -1)
    let limit : Bool := if dir = .plus then s.limpActive else s.limnActive
    let soft : Bool := !h.kind.isSeek && s.ss.settings.softEnable
      && (if dir = .plus then decide (s.ss.settings.softMax < n) else decide (n < s.ss.settings.softMin))
    let range : Bool := decide (1073741823 < n.natAbs)
    let limitCause : Cause := if dir = .plus then .limitPlus else .limitMinus
    let causes := (if limit then [(limitCause, s.ss.settings.limitMode)] else [])
      ++ (if soft then [(Cause.softLimit, Mode.abrupt)] else []) ++ (if range then [(Cause.countRange, Mode.abrupt)] else [])
    let seeks : Bool := h.kind.isSeek && h.state == .running && s.pg.seek.any fun x => x.stage != some .settle
    (causes ≠ [] → (seeks = false ∨ range = true) →
      exec .intervalEnd s = .next (causes.foldl (fun u x => guardTake x.1 x.2 u) { s with pg := s.pg.resting }))
    ∧ (limit = true → range = false → seeks = true → ∀ spec p x, h.kind = .seek spec p → s.pg.seek = some x →
        (spec.reverse = true → x.reversed = false →
          let back : Dir := if dir = .plus then .minus else .plus
          exec .intervalEnd s = .next { s with pg := { s.pg.started s.ss.settings.form (some back) s.pg.remaining .search p with
            seek := some { stage := some .search, reversed := true, qualified := !s.refActive, counted := 0
                           latched := none } } })
        ∧ (spec.reverse = false ∨ x.reversed = true → s.gd.state = .normal →
            ∃ t, exec .intervalEnd s = .next t
              ∧ t.outside = s.outside ∧ t.pg = s.pg.resting ∧ t.queue = promote rest ∧ t.pb = s.pb.referredBy rest
              ∧ t.gd = { s.gd with
                  state := .stopped, first := some limitCause, causes := limitCause.bit
                  stopMode := some s.ss.settings.limitMode, den := .low }
              ∧ (h.slot = none → t.ru = s.ru ∧ t.tif.owed = s.tif.owed
                  ∧ t.outgoing = ((s.tellsOfFault limitCause s.ss.settings.limitMode 0).tellsOfEnd h .seekFailed rest).outgoing)
              ∧ (∀ k g, h.slot = some k → s.group? k = some g → g.state = .opened →
                  t.ru = { s.ru with slots := s.ru.slots.set k (.live { g with
                    state := .halted .seekFailed s.own, ready := 0 }) }
                  ∧ t.outgoing = (((s.tellsOfHalt k .seekFailed s.own).tellsOfFault limitCause s.ss.settings.limitMode
                      0).tellsOfEnd h .seekFailed rest).outgoing
                  ∧ (s.tif.owed[k] = none → t.tif.owed = s.tif.owed.set k (some
                      { cause := .seekFailed, mode := .abrupt, tag := h.tag, attempts := 0, onLine := false })))))

/-- The plain events of the axis. The pulse line returns low after its 2 µs, the direction level of STEP_DIR standing
(R119). A DWELL whose time has passed completes (R116, R73). DFLT: its change to the active level is DRIVE_FAULT,
ABRUPT, and its change to the inactive level no event (R157). LIMP and LIMN: their changes are levels that the pulse
check alone tests (R155). An input is active at the level that its polarity setting names. -/
def Obligations.PlainAxisEvents : Prop :=
  ∀ (level : Level) (s : State),
    (s.limpActive = true ↔ (s.pins.limp = .high ↔ s.ss.settings.limpHigh = true))
    ∧ (s.limnActive = true ↔ (s.pins.limn = .high ↔ s.ss.settings.limnHigh = true))
    ∧ (s.refActive = true ↔ (s.pins.ref = .high ↔ s.ss.settings.refRising = true))
    ∧ (s.dfltActive = true ↔ (s.pins.dflt = .high ↔ s.ss.settings.dfltHigh = true))
    ∧ exec .pulseHighEnd s = .next { s with pg := { s.pg with
      stepCw := .low, dirCcw := if s.ss.settings.form = .stepDir then s.pg.dirCcw else .low } }
    ∧ (∀ h rest, s.queue = h :: rest → h.state = .running → s.pg.phase = .dwell →
        exec .dwellEnd s = .next (settle { s with pg := { s.pg with dwellLeft := 0 }.resting }))
    ∧ (s.pins.dflt ≠ level →
      let t : State := { s with pins := { s.pins with dflt := level } }
      exec (.driveFaultChange level) s
        = .next (if (level = .high ↔ s.ss.settings.dfltHigh = true) then guardTake .driveFault .abrupt t else t))
    ∧ exec (.limitInputChange .limp level) s = .next { s with pins := { s.pins with limp := level } }
    ∧ exec (.limitInputChange .limn level) s = .next { s with pins := { s.pins with limn := level } }

/-- The preset of a SEEK that has latched (R125): both counters move by what takes the latched point to the preset,
held at the bounds of the counter range, the feedback counter only with an encoder; the SEEK notice; the segment leaves
with DONE; then COUNT_RANGE if a value was held, the following test once for both counters, and the next head's
evaluation: that the causes come before the evaluation is entry 8 (DEDUCED from R125 and R158). The units of COMMAND
judge before those of FEEDBACK (entry 27, the model's choice); which units of a source judge, and how, is what
JudgedUnitFiresWhileItsConditionIsMet says, and the following test what QuadratureCountsTheFeedback says. -/
def Obligations.PresetRewritesTheCounters : Prop :=
  ∀ (s : State) (h : Segment) (rest : List Segment) (spec : SeekSpec) (p : Profile) (x : Seek) (lc lf : Int),
    s.queue = h :: rest → h.kind = .seek spec p → s.pg.seek = some x → x.latched = some (lc, lf) →
    let c := spec.preset + (s.pb.command - lc)
    let f := if s.ss.settings.encMode = .off then s.pb.feedback else spec.preset + (s.pb.feedback - lf)
    let held (y : Int) : Int := max (-1073741823) (min 1073741823 y)
    let far : Bool := decide (1073741823 < c.natAbs) || (s.ss.settings.encMode != .off && decide (1073741823 < f.natAbs))
    let moved : State := { s with pb := { s.pb with
      command := held c, feedback := if s.ss.settings.encMode = .off then s.pb.feedback else held f } }
    let judged := evalMarks .command .rewrite (held c) moved
    let judged := if s.ss.settings.encMode = .off then judged else evalMarks .feedback .rewrite (held f) judged
    let told := produce .seek ([h.tag, if spec.variant = .edge then 0 else 1] ++ signed4 lc ++ signed4 lf
      ++ signed4 spec.preset) judged
    let ended := finishHead .done { told with pg := told.pg.resting }
    applyPreset s = evaluate (followTest (s.pb.command - s.pb.feedback)
      (if far then guardTake .countRange .abrupt ended else ended))

/-- REF and QI in a RUNNING SEEK (R123, R124, R126): in SEARCH the change of REF to its inactive level qualifies, and a
qualified change to its active level is the reference edge; for EDGE it latches both counters, at once for a flat class
or at FL, else at the end of SETTLE; for INDEX it begins COUNT, in which each rise of QI counts, and the last one
latches and stops at once. Otherwise the levels alone change. -/
def Obligations.ReferenceEdgeAndIndexPulses : Prop :=
  ∀ (level : Level) (s : State),
    let r : State := { s with pins := { s.pins with ref := level } }
    let q : State := { s with pins := { s.pins with qi := .high } }
    ((∀ h rest, s.queue = h :: rest → h.state = .running → h.kind.isSeek = false) →
      exec (.refChange level) s = .next r ∧ exec .qiRise s = .next q)
    ∧ (∀ h rest spec p x, s.queue = h :: rest → h.state = .running → h.kind = .seek spec p → s.pg.seek = some x →
        (s.pins.ref ≠ level → x.stage ≠ some .search → exec (.refChange level) s = .next r)
        ∧ (s.pins.ref ≠ level → x.stage = some .search → r.refActive = false →
            exec (.refChange level) s = .next { r with pg := { s.pg with seek := some { x with qualified := true } } })
        ∧ (s.pins.ref ≠ level → x.stage = some .search → r.refActive = true → x.qualified = true →
            (∀ n, spec.variant = .index n → exec (.refChange level) s = .next { r with pg := { s.pg with
              phase := .count, seek := some { x with stage := some .count, counted := 0 } } })
            ∧ (spec.variant = .edge →
                let latched : State := { r with pg := { s.pg with
                  seek := some { x with stage := some .settle, latched := some (s.pb.command, s.pb.feedback) } } }
                exec (.refChange level) s = .next (
                  if p.cls = .ramp ∧ p.fl * p.fl < s.pg.speedSq then
                    { latched with pg := { latched.pg with phase := .decel } }
                  else applyPreset latched)))
        ∧ (x.stage ≠ some .count → exec .qiRise s = .next q)
        ∧ (∀ n, x.stage = some .count → spec.variant = .index n →
            exec .qiRise s = .next (
              if x.counted + 1 < n then { q with pg := { s.pg with seek := some { x with counted := x.counted + 1 } } }
              else applyPreset { q with pg := { s.pg with seek := some { x with
                counted := x.counted + 1, latched := some (s.pb.command, s.pb.feedback) } } })))

/-- QA and QB (R133 to R136, R138): the decoder takes the new combination; with an encoder, both inputs changing is
ENCODER_ERROR with no count; a valid transition counts as Table 8-2 gives; a count beyond the counter range is not
applied and is ENCODER_ERROR; an applied count is followed by the following test and the units with source
FEEDBACK (JudgedUnitFiresWhileItsConditionIsMet says which judge). The following test, at each change of a counter, fails
in RUN, with an encoder and a limit, when the deviation passes the limit and has grown, with FOLLOWING_ERROR, SMOOTH. -/
def Obligations.QuadratureCountsTheFeedback : Prop :=
  (∀ (before : Int) (s : State), followTest before s =
    if s.ss.node = .run ∧ s.ss.settings.encMode ≠ .off ∧ s.ss.settings.following ≠ 0
        ∧ s.ss.settings.following < (s.pb.command - s.pb.feedback).natAbs
        ∧ before.natAbs < (s.pb.command - s.pb.feedback).natAbs then guardTake .followingError .smooth s
    else s)
  ∧ ∀ (qa qb : Level) (s : State),
    let new : Quad := if qa = .low then (if qb = .low then .s0 else .s3) else (if qb = .low then .s1 else .s2)
    let old := s.pb.decoder
    let forward : Bool := (old, new) ∈ [(Quad.s0, Quad.s1), (.s1, .s2), (.s2, .s3), (.s3, .s0)]
    let reverse : Bool := (new, old) ∈ [(Quad.s0, Quad.s1), (.s1, .s2), (.s2, .s3), (.s3, .s0)]
    let counted : Bool :=
      match s.ss.settings.encMode with
      | .off => false
      | .x1 => (old, new) ∈ [(Quad.s0, Quad.s1), (.s1, .s0)]
      | .x2 => (old, new) ∈ [(Quad.s0, Quad.s1), (.s1, .s0), (.s2, .s3), (.s3, .s2)]
      | .x4 => forward || reverse
    let n := s.pb.feedback + (if forward != s.ss.settings.encInvert then 1 else -1)
    let t : State := { s with pb := { s.pb with decoder := new } }
    (s.ss.settings.encMode ≠ .off → old ≠ new → forward = false → reverse = false →
      exec (.quadratureTransition qa qb) s = .next (guardTake .encoderError .abrupt t))
    ∧ ((s.ss.settings.encMode = .off ∨ old = new ∨ forward = true ∨ reverse = true) →
        (counted = false → exec (.quadratureTransition qa qb) s = .next t)
        ∧ (counted = true → 1073741823 < n.natAbs →
            exec (.quadratureTransition qa qb) s = .next (guardTake .encoderError .abrupt t))
        ∧ (counted = true → n.natAbs ≤ 1073741823 →
            let before := s.pb.command - s.pb.feedback
            let after := s.pb.command - n
            let u : State := { t with pb := { t.pb with feedback := n } }
            let fails : Prop := s.ss.node = .run ∧ s.ss.settings.following ≠ 0
              ∧ s.ss.settings.following < after.natAbs ∧ before.natAbs < after.natAbs
            exec (.quadratureTransition qa qb) s = .next (evalMarks .feedback (.step s.pb.feedback) n
              (if fails then guardTake .followingError .smooth u else u))))

/-! ### Mark units -/

/-- `k` firings of a unit at position n reach its MARK (R144): a new MARK joins the queue; a waiting one counts them in
place, at most 15 with the saturated flag beyond, and keeps its position; one on the line leaves them held. No firings
change nothing. -/
def Obligations.FiringsReachTheUnitsMark : Prop :=
  (∀ (u : Fin 4) (n : Int) (s : State), handFirings u 0 n s = s)
  ∧ ∀ (u : Fin 4) (k : Nat) (n : Int) (s : State), 1 ≤ k →
    let fresh : Firings := { count := min 15 k, saturated := decide (15 < k), position := n }
    let more (f : Firings) : Firings :=
      { f with count := min 15 (f.count + k), saturated := f.saturated || decide (15 < f.count + k) }
    ((∀ e ∈ s.tif.queue, e.frame.isMark u = false) →
      handFirings u k n s = { s with tif := { s.tif with queue := s.tif.queue
        ++ [{ frame := .mark u fresh, attempts := 0, onLine := false, withdrawn := false }] } })
    ∧ (∀ pre e post f, s.tif.queue = pre ++ e :: post → e.frame = .mark u f → s.limitsKept →
        (e.onLine = false → handFirings u k n s = { s with tif := { s.tif with
          queue := pre ++ { e with frame := .mark u (more f) } :: post } })
        ∧ (e.onLine = true → handFirings u k n s = s.setUnit u { s.pb.units[u] with
            held := some (match s.pb.units[u].held with
              | none => fresh
              | some f => more f) }))

/-- An ARMED unit judged at an event fires again and again, its threshold moved by the period each time, until its
condition is no longer met (Table 8-4), it has period 0, or its threshold would leave the counter range (R142, R143); a
unit that is not ARMED does not fire. The model's closed form is that iteration, for a counter and a threshold in the
counter range. A change of a counter makes the units whose source it is judge, outside SILENT (R149), and each one's
firings go to its MARK with the new position (R144); the other counter's units stand. That they do so by ascending unit
number is entry 27 (DESIGN CHOICE). -/
def Obligations.JudgedUnitFiresWhileItsConditionIsMet : Prop :=
  (∀ (x : MarkUnit) (e : CounterEvent) (n : Int), inCounterRange n = true → inCounterRange x.threshold = true →
    (∀ o, e = .step o → n - o = 1 ∨ o - n = 1) →
    x.judge e n = MarkUnit.fireWhileMet e n ((n - x.threshold).natAbs + 2) x)
  ∧ (∀ (x : MarkUnit) (e : CounterEvent) (n : Int), x.state ≠ .armed → x.judge e n = (0, x))
  ∧ (∀ (cond : MarkCond) (e : CounterEvent) (T n : Int), cond.meets e T n = true ↔
      match cond, e with
      | .crossUp, .step o => o < T ∧ T ≤ n
      | .crossDown, .step o => T < o ∧ n ≤ T
      | .atOrAbove, _ => T ≤ n
      | .atOrBelow, _ => n ≤ T
      | _, _ => False)
  ∧ ∀ (source : MarkSource) (e : CounterEvent) (n : Int) (s : State),
      evalMarks source e n s = if s.ss.node = .silent then s else
        (List.finRange 4).foldl (fun t u =>
          if t.pb.units[u].state = .armed ∧ t.pb.units[u].source = source then
            let r := t.pb.units[u].judge e n
            handFirings u r.1 n { t with pb := { t.pb with units := t.pb.units.set u r.2 } }
          else t) s

/-! ### Speeds and spans -/

/-- Acceleration and deceleration steps and the ramp-down distance (R109): a step adds 2 × accel, held at FH², or takes
2 × decel, held at FL²; the ramp-down distance is the number of deceleration steps down to FL, the quotient rounded
up, 0 at FL, and falls by exactly 1 at each step; the speed is the whole part of the root of its square, 0 with no
interval in progress. -/
def Obligations.RampDownDistanceCountsTheSteps : Prop :=
  ∀ (p : Profile) (v : Nat), 0 < p.decel → p.fl * p.fl ≤ v →
    p.accelStep v = min (v + 2 * (10 * p.accel)) (p.fh * p.fh)
    ∧ p.decelStep v = max (v - 2 * (10 * p.decel)) (p.fl * p.fl)
    ∧ p.rampDown v * (2 * (10 * p.decel)) < v - p.fl * p.fl + 2 * (10 * p.decel)
    ∧ v - p.fl * p.fl ≤ p.rampDown v * (2 * (10 * p.decel))
    ∧ (Nat.repeat p.decelStep (p.rampDown v) v = p.fl * p.fl)
    ∧ (∀ k, k < p.rampDown v → p.fl * p.fl < Nat.repeat p.decelStep k v)
    ∧ p.rampDown (p.fl * p.fl) = 0
    ∧ p.rampDown (p.decelStep v) = p.rampDown v - 1
    ∧ (∀ pg : Pg, pg.speed * pg.speed ≤ pg.speedSq ∧ pg.speedSq < (pg.speed + 1) * (pg.speed + 1)
        ∧ (pg.speedSq = 0 → pg.speed = 0))

/-- RAMP never runs past its end point (R111): the speed of the next interval lies from FL to FH, its ramp-down distance
is at most the steps still to go after it, and the interval that ends with the last step runs at FL. -/
def Obligations.RampLeavesRoomToComeDown : Prop :=
  ∀ (p : Profile) (v toGo : Nat), 0 < p.decel → p.fl * p.fl ≤ v → v ≤ p.fh * p.fh → 1 ≤ toGo → p.rampDown v ≤ toGo →
    let w := p.rampNext v toGo
    p.fl * p.fl ≤ w ∧ w ≤ p.fh * p.fh ∧ p.rampDown w ≤ toGo - 1 ∧ (toGo = 1 → w = p.fl * p.fl)

/-- The pulses of a SPAN (R113): after k progress steps they are (span ÷ 2 + k × |distance|) ÷ span, rounded down, so
that the whole span emits exactly |distance| pulses, and never strays from the common line by more than half a step;
the accumulator stays below the span. -/
def Obligations.SpanPulsesFollowTheCommonLine : Prop :=
  ∀ (d : Int) (n k : Nat) (p : Profile) (s : State), 1 ≤ n → d.natAbs ≤ n → s.pg.progress = 0 → s.pg.acc = n / 2 →
    let r := s.afterProgress (.span d n p)
    (r k).1 = (n / 2 + k * d.natAbs) / n
    ∧ (r k).2 = { s with pg := { s.pg with progress := k, acc := (r k).2.pg.acc } }
    ∧ (r k).2.pg.acc < n
    ∧ (r n).1 = d.natAbs
    ∧ 2 * ((r k).1 * n) ≤ 2 * (k * d.natAbs) + n
    ∧ 2 * (k * d.natAbs) ≤ 2 * ((r k).1 * n) + n

/-! ### Frames -/

/-- The coded bits of a frame, with its insert bits, read back as the frame with a check that agrees (R2, R6, R7): for
every field, and every payload of up to 28 bytes. -/
def Obligations.CodedFrameReadsBack : Prop :=
  ∀ f : Frame, f.payload.length ≤ 28 → receivedFrame f.codedBits = some (f, true)

/-- A command that is a taken frame, written as its frame and read again, is the same command (R27 to R33, R37): for
every field that the frame carries. -/
def Obligations.CommandsReadBackFromTheirFrames : Prop :=
  ∀ (own : StationId) (straps : Straps) (qi : Level) (c : Instr) (f : Frame), frameOf own c = some f →
    (∀ g, c ≠ .frameTakenNoEffect g) → (∀ source x, c = .restartTaken source x → x = straps) →
    (∀ source reference item x, c = .queryStatus source reference item x → x = qi) →
    commandOf own straps qi f = some c

/-! ### Laws that every step keeps -/

/-- The state right after reset keeps every law below. -/
def Obligations.ResetKeepsEveryLaw : Prop :=
  State.reset.denRight = true ∧ State.reset.limitsKept ∧ State.reset.lineRight = true ∧ State.reset.answersHeld = true
  ∧ State.reset.withdrawnRight = true ∧ State.reset.heldRight = true ∧ State.reset.heldTogether = true
  ∧ State.reset.receiverRight = true
  ∧ State.reset.onlyHeadMoves = true ∧ State.reset.armedRight = true ∧ State.reset.quietBeforeRun = true
  ∧ State.reset.tagsDistinct = true ∧ State.reset.listsBounded = true ∧ State.reset.countersInRange = true
  ∧ State.reset.readySetsRight = true ∧ State.reset.recordRight = true ∧ State.reset.linesLow = true

/-- DEN is asserted exactly when the node is in RUN, the guard is not STOPPED and the link is not SILENT (R168), after
every step from every state in which it is. -/
def Obligations.StepKeepsDen : Prop :=
  ∀ s t : State, s.denRight = true → step s = .next t → t.denRight = true

/-- The transmit queue and the line after every step (R21, R24, R144, R170, R171): the limits of each kind; one frame
of the node on the line while the link is SENDING, through the mismatch test too (entry 6), and none otherwise; withdrawn frames are READYs on the line; each
ANSWER holds an occupied slot and each occupied slot has its one ANSWER; held firings stand beside a MARK on the line. The node drives a
break only while LISTENING to a frame that it no longer decodes, and while it sends, or the line is idle, no frame of
another station is on the line (R3 to R5, R8). -/
def Obligations.StepKeepsTheTransmitQueue : Prop :=
  ∀ s t : State, s.limitsKept → s.lineRight = true → s.answersHeld = true → s.withdrawnRight = true →
    s.heldRight = true → s.heldTogether = true → s.receiverRight = true → step s = .next t →
    t.limitsKept ∧ t.lineRight = true ∧ t.answersHeld = true ∧ t.withdrawnRight = true ∧ t.heldRight = true
    ∧ t.heldTogether = true ∧ t.receiverRight = true

/-- Head and groups after every step (R39, R59, R82): only the head is in a state other than QUEUED; a slot is ARMED
exactly when the head belongs to it and is ANNOUNCING or ANNOUNCED; before RUN no segment is queued and no group
live. -/
def Obligations.StepKeepsTheHeadAndTheGroups : Prop :=
  ∀ s t : State, s.onlyHeadMoves = true → s.armedRight = true → s.quietBeforeRun = true → step s = .next t →
    t.onlyHeadMoves = true ∧ t.armedRight = true ∧ t.quietBeforeRun = true

/-- Bounds and records after every step: tags distinct and at most 16 segments (R58), 8 heard marks (R146) and 8
notices (R174); both counters in the counter range (R131); ready sets within their rosters and empty while HALTED
(R87); in RUN the Guard NORMAL exactly with an empty set and no first cause (R150); outside RUN both pulse lines low
(R52). -/
def Obligations.StepKeepsTheBoundsAndRecords : Prop :=
  ∀ s t : State, step s = .next t →
    (s.tagsDistinct = true → t.tagsDistinct = true) ∧ (s.listsBounded = true → t.listsBounded = true)
    ∧ (s.countersInRange = true → t.countersInRange = true) ∧ (s.readySetsRight = true → t.readySetsRight = true)
    ∧ (s.recordRight = true → t.recordRight = true) ∧ (s.linesLow = true → t.linesLow = true)
end

