-- ==== Sys2Proof/Laws/Outside.lean ====
section
/-! SUPPORT. What the shared operations leave untouched: one lemma per operation, saying that it keeps the outside
of the state. -/

namespace Sys2Proof.Machine

/-! ### Transmit queue, firings and notices -/

theorem enqueue_outside {f : TxFrame} (h : f.isAnswer = false) (s : State) : (enqueue f s).outside = s.outside := by
  unfold enqueue
  split <;> simp [State.outside, State.answers, h]

theorem filterMap_withdraw_answers (p : TxFrame → Bool) (hp : ∀ f, f.isAnswer = true → p f = false) (q : List TxEntry) :
    (q.filterMap fun e => if p e.frame then (if e.onLine then some { e with withdrawn := true } else none) else some e).filter
      (fun e => e.frame.isAnswer) = q.filter fun e => e.frame.isAnswer := by
  induction q with
  | nil => rfl
  | cons e q ih =>
    by_cases ha : e.frame.isAnswer = true
    · simp [hp _ ha, ha, ih]
    · by_cases hpe : p e.frame = true <;> by_cases ho : e.onLine = true <;> simp [ha, hpe, ho, ih]

theorem withdraw_outside {p : TxFrame → Bool} (hp : ∀ f, f.isAnswer = true → p f = false) (s : State) :
    (withdraw p s).outside = s.outside := by
  simp [withdraw, State.outside, State.answers, filterMap_withdraw_answers p hp]

@[simp] theorem withdrawReady_outside (s : State) : (withdrawReady s).outside = s.outside :=
  withdraw_outside (by intro f hf; cases f <;> simp_all [TxFrame.isAnswer, TxFrame.isReady]) s

@[simp] theorem withdrawMark_outside (u : Fin 4) (s : State) : (withdraw (TxFrame.isMark u) s).outside = s.outside :=
  withdraw_outside (by intro f hf; cases f <;> simp_all [TxFrame.isAnswer, TxFrame.isMark]) s

theorem map_change_answers (p : TxFrame → Bool) (g : TxFrame → TxFrame) (hp : ∀ f, f.isAnswer = true → p f = false)
    (hg : ∀ f, f.isAnswer = false → (g f).isAnswer = false) (q : List TxEntry) :
    (q.map fun e => if p e.frame && !e.onLine then { e with frame := g e.frame } else e).filter
      (fun e => e.frame.isAnswer) = q.filter fun e => e.frame.isAnswer := by
  induction q with
  | nil => rfl
  | cons e q ih =>
    rw [List.map_cons, List.filter_cons, List.filter_cons, ih]
    by_cases ha : e.frame.isAnswer = true
    · simp [hp _ ha, ha]
    · have hg' := hg e.frame (by simpa using ha)
      by_cases hpe : (p e.frame && !e.onLine) = true
      · simp only [hpe, if_true, hg', ha, if_false, Bool.false_eq_true]
      · simp only [hpe, if_false, ha, Bool.false_eq_true]

theorem changeWaiting_outside {p : TxFrame → Bool} {g : TxFrame → TxFrame} (hp : ∀ f, f.isAnswer = true → p f = false)
    (hg : ∀ f, f.isAnswer = false → (g f).isAnswer = false) (s : State) : (changeWaiting p g s).outside = s.outside := by
  simp only [changeWaiting, State.outside, State.answers, map_change_answers p g hp hg]

@[simp] theorem changeWaitingMark_outside (u : Fin 4) (g : Firings → Firings) (s : State) :
    (changeWaiting (TxFrame.isMark u) (TxFrame.mapFirings g) s).outside = s.outside :=
  changeWaiting_outside (by intro f hf; cases f <;> simp_all [TxFrame.isAnswer, TxFrame.isMark])
    (by intro f hf; cases f <;> simp_all [TxFrame.isAnswer, TxFrame.mapFirings]) s

@[simp] theorem changeWaitingNotice_outside (s : State) :
    (changeWaiting TxFrame.isNotice TxFrame.markOverflow s).outside = s.outside :=
  changeWaiting_outside (by intro f hf; cases f <;> simp_all [TxFrame.isAnswer, TxFrame.isNotice])
    (by intro f hf; cases f <;> simp_all [TxFrame.isAnswer, TxFrame.markOverflow]) s

@[simp] theorem setUnit_outside (u : Fin 4) (x : MarkUnit) (s : State) : (s.setUnit u x).outside = s.outside := rfl

@[simp] theorem handFirings_outside (u : Fin 4) (k : Nat) (n : Int) (s : State) :
    (handFirings u k n s).outside = s.outside := by
  unfold handFirings
  split
  · rfl
  · split
    · exact enqueue_outside rfl s
    · split <;> simp

@[simp] theorem releaseHeld_outside (u : Fin 4) (s : State) : (releaseHeld u s).outside = s.outside := by
  unfold releaseHeld
  dsimp only
  split
  · rfl
  · exact (enqueue_outside rfl _).trans (setUnit_outside u _ s)

@[simp] theorem foldHeld_outside (u : Fin 4) (s : State) : (foldHeld u s).outside = s.outside := by
  unfold foldHeld
  dsimp only
  split <;> simp

@[simp] theorem composeNotice_outside (s : State) : (composeNotice s).outside = s.outside := by
  unfold composeNotice
  split
  · rfl
  · split
    · rfl
    · split
      · rfl
      · exact (enqueue_outside rfl _).trans rfl

@[simp] theorem discardNotice_outside (s : State) : (discardNotice s).outside = s.outside := by
  unfold discardNotice
  dsimp only
  split
  · rfl
  · exact (changeWaitingNotice_outside _).trans rfl

@[simp] theorem produce_outside (t : NoticeType) (c : List Byte) (s : State) : (produce t c s).outside = s.outside := by
  unfold produce
  split
  · rfl
  · split
    · exact (composeNotice_outside _).trans rfl
    · simp

@[simp] theorem noticeTaken_outside (b : Bool) (s : State) : (noticeTaken b s).outside = s.outside :=
  (composeNotice_outside _).trans rfl

@[simp] theorem noticeWaits_outside (s : State) : (noticeWaits s).outside = s.outside := by
  unfold noticeWaits
  split
  · exact (changeWaitingNotice_outside _).trans rfl
  · rfl

@[simp] theorem noticeAbandoned_outside (s : State) : (noticeAbandoned s).outside = s.outside :=
  (composeNotice_outside _).trans rfl

/-! ### Profile Generator and Segment Queue -/

@[simp] theorem setDirLevel_outside (d : Option Dir) (s : State) : (setDirLevel d s).outside = s.outside := by
  unfold setDirLevel
  split <;> rfl

@[simp] theorem raisePulse_outside (d : Dir) (s : State) : (raisePulse d s).outside = s.outside := by
  unfold raisePulse
  split <;> rfl

@[simp] theorem lowerPulse_outside (s : State) : (lowerPulse s).outside = s.outside := by
  unfold lowerPulse
  split <;> rfl

@[simp] theorem pgIdle_outside (s : State) : (pgIdle s).outside = s.outside := rfl

@[simp] theorem firstInterval_outside (p : Profile) (b : Bool) (s : State) : (firstInterval p b s).outside = s.outside := rfl

@[simp] theorem pgStart_outside (h : Segment) (s : State) : (pgStart h s).outside = s.outside := by
  unfold pgStart
  dsimp only
  split
  · exact (setDirLevel_outside _ _).trans rfl
  · split
    · exact (pgIdle_outside _).trans ((setDirLevel_outside _ _).trans rfl)
    · exact (firstInterval_outside _ _ _).trans ((setDirLevel_outside _ _).trans rfl)
  · exact (firstInterval_outside _ _ _).trans ((setDirLevel_outside _ _).trans rfl)
  · exact (firstInterval_outside _ _ _).trans ((setDirLevel_outside _ _).trans rfl)
  · exact (firstInterval_outside _ _ _).trans ((setDirLevel_outside _ _).trans rfl)
  · exact (firstInterval_outside _ _ _).trans ((setDirLevel_outside _ _).trans rfl)

@[simp] theorem pgStop_outside (k : SegKind) (m : Mode) (s : State) : (pgStop k m s).outside = s.outside := by
  unfold pgStop
  split
  · split <;> rfl
  · rfl

@[simp] theorem beginInterval_outside (p : Profile) (v n : Nat) (s : State) :
    (beginInterval p v n s).outside = s.outside := rfl

@[simp] theorem beginDecel_outside (p : Profile) (v : Nat) (s : State) : (beginDecel p v s).outside = s.outside := rfl

@[simp] theorem driveDen_outside (s : State) : (driveDen s).outside = s.outside := rfl

@[simp] theorem pruneHeard_outside (s : State) : (pruneHeard s).outside = s.outside := rfl

@[simp] theorem consume_outside (m : MarkRef) (s : State) : (consume m s).outside = s.outside := rfl

@[simp] theorem setHeadState_outside (x : SegState) (s : State) : (setHeadState x s).outside = s.outside := by
  unfold setHeadState
  split <;> rfl

@[simp] theorem lookEndMark_outside (s : State) : (lookEndMark s).outside = s.outside := by
  unfold lookEndMark
  split
  · rfl
  · split
    · split <;> simp
    · rfl

@[simp] theorem startHead_outside (s : State) : (startHead s).outside = s.outside := by
  unfold startHead
  split <;> simp

@[simp] theorem setSlot_outside (k : Fin 8) (x : Slot) (s : State) : (s.setSlot k x).outside = s.outside := rfl

@[simp] theorem announce_outside (k : Fin 8) (g : Group) (tag : Byte) (s : State) :
    (announce k g tag s).outside = s.outside := by
  simp only [announce, setHeadState_outside]
  exact enqueue_outside rfl s

@[simp] theorem evalHead_outside (s : State) : (evalHead s).outside = s.outside := by
  unfold evalHead
  repeat' split
  all_goals simp

@[simp] theorem doneNotice_outside (t : Byte) (o : SegOutcome) (n : Nat) (s : State) :
    (doneNotice t o n s).outside = s.outside := produce_outside _ _ s

@[simp] theorem guardStops_outside (s : State) : (guardStops s).outside = s.outside := by
  unfold guardStops
  split <;> rfl

@[simp] theorem afterRemoval_outside (t : Byte) (o : SegOutcome) (n : Nat) (s : State) :
    (afterRemoval t o n s).outside = s.outside := by
  unfold afterRemoval
  dsimp only
  split
  · simp
  · exact (doneNotice_outside _ _ _ _).trans rfl

@[simp] theorem finishHead_outside (o : SegOutcome) (s : State) : (finishHead o s).outside = s.outside := by
  unfold finishHead
  split
  · rfl
  · simp only [afterRemoval_outside, guardStops_outside]
    rfl

@[simp] theorem finishIfOver_outside (s : State) : (finishIfOver s).outside = s.outside := by
  unfold finishIfOver
  split <;> simp

@[simp] theorem settleFrom_outside (n : Nat) (s : State) : (settleFrom n s).outside = s.outside := by
  induction n generalizing s with
  | zero => rfl
  | succ n ih =>
    unfold settleFrom
    split <;> simp [ih]

@[simp] theorem settle_outside (s : State) : (settle s).outside = s.outside := settleFrom_outside _ s

@[simp] theorem evaluate_outside (s : State) : (evaluate s).outside = s.outside := by simp [evaluate]

@[simp] theorem claim_outside (o : SegOutcome) (m : Mode) (s : State) : (claim o m s).outside = s.outside := by
  unfold claim
  repeat' split
  all_goals simp

/-! ### Groups and the Guard -/

@[simp] theorem oweHalt_outside (k : Fin 8) (c : Cause) (m : Mode) (t : Byte) (s : State) :
    (oweHalt k c m t s).outside = s.outside := by
  unfold oweHalt
  split <;> rfl

@[simp] theorem stopTimer_outside (s : State) : (stopTimer s).outside = s.outside := rfl

@[simp] theorem returnHead_outside (k : Fin 8) (s : State) : (returnHead k s).outside = s.outside := by
  unfold returnHead
  repeat' split
  all_goals simp

@[simp] theorem haltHead_outside (k : Fin 8) (m : Mode) (b : Bool) (s : State) :
    (haltHead k m b s).outside = s.outside := by
  unfold haltHead
  repeat' split
  all_goals simp

@[simp] theorem haltNotice_outside (k : Fin 8) (a : GroupAddr) (c : Cause) (o : StationId) (s : State) :
    (haltNotice k a c o s).outside = s.outside := produce_outside _ _ s

@[simp] theorem haltSlot_outside (k : Fin 8) (c : Cause) (o : StationId) (m : Mode) (b : Bool) (s : State) :
    (haltSlot k c o m b s).outside = s.outside := by
  unfold haltSlot
  split
  · rfl
  · split
    · split <;> simp
    · simp only [haltHead_outside, haltNotice_outside]
      split <;> simp

@[simp] theorem localHalt_outside (k : Fin 8) (c : Cause) (m : Mode) (b : Bool) (s : State) :
    (localHalt k c m b s).outside = s.outside := by simp [localHalt]

@[simp] theorem clearSlot_outside (k : Fin 8) (n : Byte) (s : State) : (clearSlot k n s).outside = s.outside := by
  unfold clearSlot
  split
  · rfl
  · rw [returnHead_outside]
    dsimp only
    split <;> rfl

@[simp] theorem guardRecord_outside (c : Cause) (m : Mode) (s : State) : (guardRecord c m s).outside = s.outside := rfl

@[simp] theorem guardHaltsGroup_outside (c : Cause) (m : Mode) (s : State) :
    (guardHaltsGroup c m s).outside = s.outside := by
  unfold guardHaltsGroup
  repeat' split
  all_goals simp

@[simp] theorem faultNotice_outside (c : Cause) (m : Mode) (s : State) : (faultNotice c m s).outside = s.outside :=
  produce_outside _ _ s

@[simp] theorem guardLeave_outside (c : Cause) (m : Mode) (s : State) : (guardLeave c m s).outside = s.outside := by
  simp [guardLeave]

@[simp] theorem hastenEnding_outside (s : State) : (hastenEnding s).outside = s.outside := by
  unfold hastenEnding
  repeat' split
  all_goals simp

@[simp] theorem guardAdd_outside (c : Cause) (m : Mode) (s : State) : (guardAdd c m s).outside = s.outside := by
  unfold guardAdd
  dsimp only
  rw [finishIfOver_outside]
  split
  · rw [hastenEnding_outside]
    rfl
  · rfl

@[simp] theorem guardNote_outside (c : Cause) (s : State) : (guardNote c s).outside = s.outside := rfl

@[simp] theorem guardTake_outside (c : Cause) (m : Mode) (s : State) : (guardTake c m s).outside = s.outside := by
  unfold guardTake
  repeat' split
  all_goals simp

@[simp] theorem guardTakeAll_outside (cs : List (Cause × Mode)) (s : State) : (guardTakeAll cs s).outside = s.outside := by
  unfold guardTakeAll
  induction cs generalizing s with
  | nil => rfl
  | cons c cs ih => simp [ih]

@[simp] theorem guardEmpty_outside (s : State) : (guardEmpty s).outside = s.outside := rfl

@[simp] theorem guardRemovePeer_outside (s : State) : (guardRemovePeer s).outside = s.outside := by
  unfold guardRemovePeer
  dsimp only
  repeat' split
  all_goals rfl

@[simp] theorem guardLatchPeer_outside (o : StationId) (m : Mode) (s : State) :
    (guardLatchPeer o m s).outside = s.outside := by
  unfold guardLatchPeer
  split
  · simp
  · exact (guardTake_outside _ _ _).trans rfl

@[simp] theorem haltUngrouped_outside (m : Mode) (s : State) : (haltUngrouped m s).outside = s.outside := by
  unfold haltUngrouped
  repeat' split
  all_goals simp

/-! ### Position Block -/

@[simp] theorem evalUnit_outside (src : MarkSource) (e : CounterEvent) (n : Int) (s : State) (u : Fin 4) :
    (evalUnit src e n s u).outside = s.outside := by
  unfold evalUnit
  dsimp only
  split <;> simp

@[simp] theorem evalMarks_outside (src : MarkSource) (e : CounterEvent) (n : Int) (s : State) :
    (evalMarks src e n s).outside = s.outside := by
  simp [evalMarks, allUnits]

@[simp] theorem followTest_outside (before : Int) (s : State) : (followTest before s).outside = s.outside := by
  unfold followTest
  split <;> simp

@[simp] theorem seekNotice_outside (t : Byte) (spec : SeekSpec) (l : Int × Int) (s : State) :
    (seekNotice t spec l s).outside = s.outside := produce_outside _ _ s

/-- A step of the command counter touches nothing outside but the counter. -/
theorem stepCommand_outside (d : Dir) (s : State) :
    (stepCommand d s).outside = { s.outside with command := s.pb.command + d.step } := by
  simp only [stepCommand, evalMarks_outside, followTest_outside]
  rfl

/-- A count of the feedback counter touches nothing outside but the counter, and leaves it within the range. -/
theorem stepFeedback_outside (c : Int) (s : State) :
    (stepFeedback c s).outside = s.outside ∨
      inCounterRange (s.pb.feedback + c) = true ∧
      (stepFeedback c s).outside = { s.outside with feedback := s.pb.feedback + c } := by
  unfold stepFeedback
  dsimp only
  split
  · exact .inl rfl
  · split
    · exact .inl (by simp)
    · refine .inr ⟨by simp_all, ?_⟩
      simp only [evalMarks_outside, followTest_outside]
      rfl

end Sys2Proof.Machine
end

