-- ==== Sys2Proof/Laws/State.lean ====
section
/-! SUPPORT. The fields that each named update of the state leaves as they were, and those it sets. -/

namespace Sys2Proof.Machine

/-! `setSlot` -/

@[simp] theorem setSlot_pins (k : Fin 8) (x : Slot) (s : State) : (s.setSlot k x).pins = s.pins := rfl
@[simp] theorem setSlot_ss (k : Fin 8) (x : Slot) (s : State) : (s.setSlot k x).ss = s.ss := rfl
@[simp] theorem setSlot_tif (k : Fin 8) (x : Slot) (s : State) : (s.setSlot k x).tif = s.tif := rfl
@[simp] theorem setSlot_fh (k : Fin 8) (x : Slot) (s : State) : (s.setSlot k x).fh = s.fh := rfl
@[simp] theorem setSlot_queue (k : Fin 8) (x : Slot) (s : State) : (s.setSlot k x).queue = s.queue := rfl
@[simp] theorem setSlot_pg (k : Fin 8) (x : Slot) (s : State) : (s.setSlot k x).pg = s.pg := rfl
@[simp] theorem setSlot_pb (k : Fin 8) (x : Slot) (s : State) : (s.setSlot k x).pb = s.pb := rfl
@[simp] theorem setSlot_gd (k : Fin 8) (x : Slot) (s : State) : (s.setSlot k x).gd = s.gd := rfl
@[simp] theorem setSlot_nb (k : Fin 8) (x : Slot) (s : State) : (s.setSlot k x).nb = s.nb := rfl
@[simp] theorem setSlot_pending (k : Fin 8) (x : Slot) (s : State) : (s.setSlot k x).pending = s.pending := rfl

/-! `setUnit` -/

@[simp] theorem setUnit_pins (u : Fin 4) (x : MarkUnit) (s : State) : (s.setUnit u x).pins = s.pins := rfl
@[simp] theorem setUnit_ss (u : Fin 4) (x : MarkUnit) (s : State) : (s.setUnit u x).ss = s.ss := rfl
@[simp] theorem setUnit_tif (u : Fin 4) (x : MarkUnit) (s : State) : (s.setUnit u x).tif = s.tif := rfl
@[simp] theorem setUnit_fh (u : Fin 4) (x : MarkUnit) (s : State) : (s.setUnit u x).fh = s.fh := rfl
@[simp] theorem setUnit_queue (u : Fin 4) (x : MarkUnit) (s : State) : (s.setUnit u x).queue = s.queue := rfl
@[simp] theorem setUnit_ru (u : Fin 4) (x : MarkUnit) (s : State) : (s.setUnit u x).ru = s.ru := rfl
@[simp] theorem setUnit_pg (u : Fin 4) (x : MarkUnit) (s : State) : (s.setUnit u x).pg = s.pg := rfl
@[simp] theorem setUnit_gd (u : Fin 4) (x : MarkUnit) (s : State) : (s.setUnit u x).gd = s.gd := rfl
@[simp] theorem setUnit_nb (u : Fin 4) (x : MarkUnit) (s : State) : (s.setUnit u x).nb = s.nb := rfl
@[simp] theorem setUnit_pending (u : Fin 4) (x : MarkUnit) (s : State) : (s.setUnit u x).pending = s.pending := rfl

/-! `stopTimer` -/

@[simp] theorem stopTimer_pins (s : State) : (stopTimer s).pins = s.pins := rfl
@[simp] theorem stopTimer_ss (s : State) : (stopTimer s).ss = s.ss := rfl
@[simp] theorem stopTimer_tif (s : State) : (stopTimer s).tif = s.tif := rfl
@[simp] theorem stopTimer_fh (s : State) : (stopTimer s).fh = s.fh := rfl
@[simp] theorem stopTimer_queue (s : State) : (stopTimer s).queue = s.queue := rfl
@[simp] theorem stopTimer_pg (s : State) : (stopTimer s).pg = s.pg := rfl
@[simp] theorem stopTimer_pb (s : State) : (stopTimer s).pb = s.pb := rfl
@[simp] theorem stopTimer_gd (s : State) : (stopTimer s).gd = s.gd := rfl
@[simp] theorem stopTimer_nb (s : State) : (stopTimer s).nb = s.nb := rfl
@[simp] theorem stopTimer_pending (s : State) : (stopTimer s).pending = s.pending := rfl

/-! `freeSlot` -/

@[simp] theorem freeSlot_pins (i : Fin 2) (s : State) : (freeSlot i s).pins = s.pins := rfl
@[simp] theorem freeSlot_ss (i : Fin 2) (s : State) : (freeSlot i s).ss = s.ss := rfl
@[simp] theorem freeSlot_tif (i : Fin 2) (s : State) : (freeSlot i s).tif = s.tif := rfl
@[simp] theorem freeSlot_queue (i : Fin 2) (s : State) : (freeSlot i s).queue = s.queue := rfl
@[simp] theorem freeSlot_ru (i : Fin 2) (s : State) : (freeSlot i s).ru = s.ru := rfl
@[simp] theorem freeSlot_pg (i : Fin 2) (s : State) : (freeSlot i s).pg = s.pg := rfl
@[simp] theorem freeSlot_pb (i : Fin 2) (s : State) : (freeSlot i s).pb = s.pb := rfl
@[simp] theorem freeSlot_gd (i : Fin 2) (s : State) : (freeSlot i s).gd = s.gd := rfl
@[simp] theorem freeSlot_nb (i : Fin 2) (s : State) : (freeSlot i s).nb = s.nb := rfl
@[simp] theorem freeSlot_pending (i : Fin 2) (s : State) : (freeSlot i s).pending = s.pending := rfl

/-! `occupySlot` -/

@[simp] theorem occupySlot_pins (i : Fin 2) (n : StationId) (r : Byte) (k : BitVec 4) (s : State) : (occupySlot i n r k s).pins = s.pins := rfl
@[simp] theorem occupySlot_ss (i : Fin 2) (n : StationId) (r : Byte) (k : BitVec 4) (s : State) : (occupySlot i n r k s).ss = s.ss := rfl
@[simp] theorem occupySlot_tif (i : Fin 2) (n : StationId) (r : Byte) (k : BitVec 4) (s : State) : (occupySlot i n r k s).tif = s.tif := rfl
@[simp] theorem occupySlot_queue (i : Fin 2) (n : StationId) (r : Byte) (k : BitVec 4) (s : State) : (occupySlot i n r k s).queue = s.queue := rfl
@[simp] theorem occupySlot_ru (i : Fin 2) (n : StationId) (r : Byte) (k : BitVec 4) (s : State) : (occupySlot i n r k s).ru = s.ru := rfl
@[simp] theorem occupySlot_pg (i : Fin 2) (n : StationId) (r : Byte) (k : BitVec 4) (s : State) : (occupySlot i n r k s).pg = s.pg := rfl
@[simp] theorem occupySlot_pb (i : Fin 2) (n : StationId) (r : Byte) (k : BitVec 4) (s : State) : (occupySlot i n r k s).pb = s.pb := rfl
@[simp] theorem occupySlot_gd (i : Fin 2) (n : StationId) (r : Byte) (k : BitVec 4) (s : State) : (occupySlot i n r k s).gd = s.gd := rfl
@[simp] theorem occupySlot_nb (i : Fin 2) (n : StationId) (r : Byte) (k : BitVec 4) (s : State) : (occupySlot i n r k s).nb = s.nb := rfl
@[simp] theorem occupySlot_pending (i : Fin 2) (n : StationId) (r : Byte) (k : BitVec 4) (s : State) : (occupySlot i n r k s).pending = s.pending := rfl

/-! `withdraw` -/

@[simp] theorem withdraw_pins (p : TxFrame → Bool) (s : State) : (withdraw p s).pins = s.pins := rfl
@[simp] theorem withdraw_ss (p : TxFrame → Bool) (s : State) : (withdraw p s).ss = s.ss := rfl
@[simp] theorem withdraw_fh (p : TxFrame → Bool) (s : State) : (withdraw p s).fh = s.fh := rfl
@[simp] theorem withdraw_queue (p : TxFrame → Bool) (s : State) : (withdraw p s).queue = s.queue := rfl
@[simp] theorem withdraw_ru (p : TxFrame → Bool) (s : State) : (withdraw p s).ru = s.ru := rfl
@[simp] theorem withdraw_pg (p : TxFrame → Bool) (s : State) : (withdraw p s).pg = s.pg := rfl
@[simp] theorem withdraw_pb (p : TxFrame → Bool) (s : State) : (withdraw p s).pb = s.pb := rfl
@[simp] theorem withdraw_gd (p : TxFrame → Bool) (s : State) : (withdraw p s).gd = s.gd := rfl
@[simp] theorem withdraw_nb (p : TxFrame → Bool) (s : State) : (withdraw p s).nb = s.nb := rfl
@[simp] theorem withdraw_pending (p : TxFrame → Bool) (s : State) : (withdraw p s).pending = s.pending := rfl

/-! `changeWaiting` -/

@[simp] theorem changeWaiting_pins (p : TxFrame → Bool) (g : TxFrame → TxFrame) (s : State) : (changeWaiting p g s).pins = s.pins := rfl
@[simp] theorem changeWaiting_ss (p : TxFrame → Bool) (g : TxFrame → TxFrame) (s : State) : (changeWaiting p g s).ss = s.ss := rfl
@[simp] theorem changeWaiting_fh (p : TxFrame → Bool) (g : TxFrame → TxFrame) (s : State) : (changeWaiting p g s).fh = s.fh := rfl
@[simp] theorem changeWaiting_queue (p : TxFrame → Bool) (g : TxFrame → TxFrame) (s : State) : (changeWaiting p g s).queue = s.queue := rfl
@[simp] theorem changeWaiting_ru (p : TxFrame → Bool) (g : TxFrame → TxFrame) (s : State) : (changeWaiting p g s).ru = s.ru := rfl
@[simp] theorem changeWaiting_pg (p : TxFrame → Bool) (g : TxFrame → TxFrame) (s : State) : (changeWaiting p g s).pg = s.pg := rfl
@[simp] theorem changeWaiting_pb (p : TxFrame → Bool) (g : TxFrame → TxFrame) (s : State) : (changeWaiting p g s).pb = s.pb := rfl
@[simp] theorem changeWaiting_gd (p : TxFrame → Bool) (g : TxFrame → TxFrame) (s : State) : (changeWaiting p g s).gd = s.gd := rfl
@[simp] theorem changeWaiting_nb (p : TxFrame → Bool) (g : TxFrame → TxFrame) (s : State) : (changeWaiting p g s).nb = s.nb := rfl
@[simp] theorem changeWaiting_pending (p : TxFrame → Bool) (g : TxFrame → TxFrame) (s : State) : (changeWaiting p g s).pending = s.pending := rfl

/-! `windowEnds` -/

@[simp] theorem windowEnds_pins (a b : TrunkBit) (s : State) : (windowEnds a b s).pins = s.pins := rfl
@[simp] theorem windowEnds_ss (a b : TrunkBit) (s : State) : (windowEnds a b s).ss = s.ss := rfl
@[simp] theorem windowEnds_fh (a b : TrunkBit) (s : State) : (windowEnds a b s).fh = s.fh := rfl
@[simp] theorem windowEnds_queue (a b : TrunkBit) (s : State) : (windowEnds a b s).queue = s.queue := rfl
@[simp] theorem windowEnds_ru (a b : TrunkBit) (s : State) : (windowEnds a b s).ru = s.ru := rfl
@[simp] theorem windowEnds_pg (a b : TrunkBit) (s : State) : (windowEnds a b s).pg = s.pg := rfl
@[simp] theorem windowEnds_pb (a b : TrunkBit) (s : State) : (windowEnds a b s).pb = s.pb := rfl
@[simp] theorem windowEnds_gd (a b : TrunkBit) (s : State) : (windowEnds a b s).gd = s.gd := rfl
@[simp] theorem windowEnds_nb (a b : TrunkBit) (s : State) : (windowEnds a b s).nb = s.nb := rfl
@[simp] theorem windowEnds_pending (a b : TrunkBit) (s : State) : (windowEnds a b s).pending = s.pending := rfl

/-! `leaveSending` -/

@[simp] theorem leaveSending_pins (r : Reception) (s : State) : (leaveSending r s).pins = s.pins := rfl
@[simp] theorem leaveSending_ss (r : Reception) (s : State) : (leaveSending r s).ss = s.ss := rfl
@[simp] theorem leaveSending_fh (r : Reception) (s : State) : (leaveSending r s).fh = s.fh := rfl
@[simp] theorem leaveSending_queue (r : Reception) (s : State) : (leaveSending r s).queue = s.queue := rfl
@[simp] theorem leaveSending_ru (r : Reception) (s : State) : (leaveSending r s).ru = s.ru := rfl
@[simp] theorem leaveSending_pg (r : Reception) (s : State) : (leaveSending r s).pg = s.pg := rfl
@[simp] theorem leaveSending_pb (r : Reception) (s : State) : (leaveSending r s).pb = s.pb := rfl
@[simp] theorem leaveSending_gd (r : Reception) (s : State) : (leaveSending r s).gd = s.gd := rfl
@[simp] theorem leaveSending_nb (r : Reception) (s : State) : (leaveSending r s).nb = s.nb := rfl
@[simp] theorem leaveSending_pending (r : Reception) (s : State) : (leaveSending r s).pending = s.pending := rfl

/-! `startSending` -/

@[simp] theorem startSending_pins (s : State) : (startSending s).pins = s.pins := rfl
@[simp] theorem startSending_ss (s : State) : (startSending s).ss = s.ss := rfl
@[simp] theorem startSending_fh (s : State) : (startSending s).fh = s.fh := rfl
@[simp] theorem startSending_queue (s : State) : (startSending s).queue = s.queue := rfl
@[simp] theorem startSending_ru (s : State) : (startSending s).ru = s.ru := rfl
@[simp] theorem startSending_pg (s : State) : (startSending s).pg = s.pg := rfl
@[simp] theorem startSending_pb (s : State) : (startSending s).pb = s.pb := rfl
@[simp] theorem startSending_gd (s : State) : (startSending s).gd = s.gd := rfl
@[simp] theorem startSending_nb (s : State) : (startSending s).nb = s.nb := rfl
@[simp] theorem startSending_pending (s : State) : (startSending s).pending = s.pending := rfl
@[simp] theorem startSending_queueTx (s : State) : (startSending s).tif.queue = s.tif.queue := rfl
@[simp] theorem startSending_owed (s : State) : (startSending s).tif.owed = s.tif.owed := rfl
@[simp] theorem startSending_link (s : State) : (startSending s).tif.link = .sending := rfl
@[simp] theorem startSending_reception (s : State) : (startSending s).tif.reception = .awaits := rfl

/-! `readLine` -/

@[simp] theorem readLine_pins (bits : List TrunkBit) (s : State) : (readLine bits s).pins = s.pins := rfl
@[simp] theorem readLine_ss (bits : List TrunkBit) (s : State) : (readLine bits s).ss = s.ss := rfl
@[simp] theorem readLine_fh (bits : List TrunkBit) (s : State) : (readLine bits s).fh = s.fh := rfl
@[simp] theorem readLine_queue (bits : List TrunkBit) (s : State) : (readLine bits s).queue = s.queue := rfl
@[simp] theorem readLine_ru (bits : List TrunkBit) (s : State) : (readLine bits s).ru = s.ru := rfl
@[simp] theorem readLine_pg (bits : List TrunkBit) (s : State) : (readLine bits s).pg = s.pg := rfl
@[simp] theorem readLine_pb (bits : List TrunkBit) (s : State) : (readLine bits s).pb = s.pb := rfl
@[simp] theorem readLine_gd (bits : List TrunkBit) (s : State) : (readLine bits s).gd = s.gd := rfl
@[simp] theorem readLine_nb (bits : List TrunkBit) (s : State) : (readLine bits s).nb = s.nb := rfl
@[simp] theorem readLine_pending (bits : List TrunkBit) (s : State) : (readLine bits s).pending = s.pending := rfl
@[simp] theorem readLine_link (bits : List TrunkBit) (s : State) : (readLine bits s).tif.link = s.tif.link := rfl
@[simp] theorem readLine_queueTx (bits : List TrunkBit) (s : State) : (readLine bits s).tif.queue = s.tif.queue := rfl
@[simp] theorem readLine_owed (bits : List TrunkBit) (s : State) : (readLine bits s).tif.owed = s.tif.owed := rfl
@[simp] theorem readLine_breakLeft (bits : List TrunkBit) (s : State) : (readLine bits s).tif.breakLeft = s.tif.breakLeft := rfl
@[simp] theorem readLine_txd (bits : List TrunkBit) (s : State) : (readLine bits s).tif.txd = s.tif.txd := rfl
@[simp] theorem readLine_mismatchTest (bits : List TrunkBit) (s : State) : (readLine bits s).tif.mismatchTest = s.tif.mismatchTest := rfl

/-! `tick` -/

@[simp] theorem tick_pins (s : State) : (tick s).pins = s.pins := rfl
@[simp] theorem tick_ss (s : State) : (tick s).ss = s.ss := rfl
@[simp] theorem tick_fh (s : State) : (tick s).fh = s.fh := rfl
@[simp] theorem tick_queue (s : State) : (tick s).queue = s.queue := rfl
@[simp] theorem tick_pb (s : State) : (tick s).pb = s.pb := rfl
@[simp] theorem tick_gd (s : State) : (tick s).gd = s.gd := rfl
@[simp] theorem tick_nb (s : State) : (tick s).nb = s.nb := rfl
@[simp] theorem tick_pending (s : State) : (tick s).pending = s.pending := rfl
@[simp] theorem tick_slots (s : State) : (tick s).ru.slots = s.ru.slots := rfl
@[simp] theorem tick_link (s : State) : (tick s).tif.link = s.tif.link := by simp only [tick, lineTick]; split <;> rfl
@[simp] theorem tick_queueTx (s : State) : (tick s).tif.queue = s.tif.queue := by simp only [tick, lineTick]; split <;> rfl
@[simp] theorem tick_owed (s : State) : (tick s).tif.owed = s.tif.owed := by simp only [tick, lineTick]; split <;> rfl
@[simp] theorem tick_breakLeft (s : State) : (tick s).tif.breakLeft = s.tif.breakLeft := by simp only [tick, lineTick]; split <;> rfl

/-! `dropOnLine` -/

@[simp] theorem dropOnLine_pins (s : State) : (dropOnLine s).pins = s.pins := rfl
@[simp] theorem dropOnLine_ss (s : State) : (dropOnLine s).ss = s.ss := rfl
@[simp] theorem dropOnLine_fh (s : State) : (dropOnLine s).fh = s.fh := rfl
@[simp] theorem dropOnLine_queue (s : State) : (dropOnLine s).queue = s.queue := rfl
@[simp] theorem dropOnLine_ru (s : State) : (dropOnLine s).ru = s.ru := rfl
@[simp] theorem dropOnLine_pg (s : State) : (dropOnLine s).pg = s.pg := rfl
@[simp] theorem dropOnLine_pb (s : State) : (dropOnLine s).pb = s.pb := rfl
@[simp] theorem dropOnLine_gd (s : State) : (dropOnLine s).gd = s.gd := rfl
@[simp] theorem dropOnLine_nb (s : State) : (dropOnLine s).nb = s.nb := rfl
@[simp] theorem dropOnLine_pending (s : State) : (dropOnLine s).pending = s.pending := rfl

/-! `countVoid` -/

@[simp] theorem countVoid_pins (s : State) : (countVoid s).pins = s.pins := rfl
@[simp] theorem countVoid_ss (s : State) : (countVoid s).ss = s.ss := rfl
@[simp] theorem countVoid_fh (s : State) : (countVoid s).fh = s.fh := rfl
@[simp] theorem countVoid_queue (s : State) : (countVoid s).queue = s.queue := rfl
@[simp] theorem countVoid_ru (s : State) : (countVoid s).ru = s.ru := rfl
@[simp] theorem countVoid_pg (s : State) : (countVoid s).pg = s.pg := rfl
@[simp] theorem countVoid_pb (s : State) : (countVoid s).pb = s.pb := rfl
@[simp] theorem countVoid_gd (s : State) : (countVoid s).gd = s.gd := rfl
@[simp] theorem countVoid_nb (s : State) : (countVoid s).nb = s.nb := rfl
@[simp] theorem countVoid_pending (s : State) : (countVoid s).pending = s.pending := rfl

/-! `pgIdle` -/

@[simp] theorem pgIdle_pins (s : State) : (pgIdle s).pins = s.pins := rfl
@[simp] theorem pgIdle_ss (s : State) : (pgIdle s).ss = s.ss := rfl
@[simp] theorem pgIdle_tif (s : State) : (pgIdle s).tif = s.tif := rfl
@[simp] theorem pgIdle_fh (s : State) : (pgIdle s).fh = s.fh := rfl
@[simp] theorem pgIdle_queue (s : State) : (pgIdle s).queue = s.queue := rfl
@[simp] theorem pgIdle_ru (s : State) : (pgIdle s).ru = s.ru := rfl
@[simp] theorem pgIdle_pb (s : State) : (pgIdle s).pb = s.pb := rfl
@[simp] theorem pgIdle_gd (s : State) : (pgIdle s).gd = s.gd := rfl
@[simp] theorem pgIdle_nb (s : State) : (pgIdle s).nb = s.nb := rfl
@[simp] theorem pgIdle_pending (s : State) : (pgIdle s).pending = s.pending := rfl

/-! `firstInterval` -/

@[simp] theorem firstInterval_pins (p : Profile) (b : Bool) (s : State) : (firstInterval p b s).pins = s.pins := rfl
@[simp] theorem firstInterval_ss (p : Profile) (b : Bool) (s : State) : (firstInterval p b s).ss = s.ss := rfl
@[simp] theorem firstInterval_tif (p : Profile) (b : Bool) (s : State) : (firstInterval p b s).tif = s.tif := rfl
@[simp] theorem firstInterval_fh (p : Profile) (b : Bool) (s : State) : (firstInterval p b s).fh = s.fh := rfl
@[simp] theorem firstInterval_queue (p : Profile) (b : Bool) (s : State) : (firstInterval p b s).queue = s.queue := rfl
@[simp] theorem firstInterval_ru (p : Profile) (b : Bool) (s : State) : (firstInterval p b s).ru = s.ru := rfl
@[simp] theorem firstInterval_pb (p : Profile) (b : Bool) (s : State) : (firstInterval p b s).pb = s.pb := rfl
@[simp] theorem firstInterval_gd (p : Profile) (b : Bool) (s : State) : (firstInterval p b s).gd = s.gd := rfl
@[simp] theorem firstInterval_nb (p : Profile) (b : Bool) (s : State) : (firstInterval p b s).nb = s.nb := rfl
@[simp] theorem firstInterval_pending (p : Profile) (b : Bool) (s : State) : (firstInterval p b s).pending = s.pending := rfl

/-! `beginInterval` -/

@[simp] theorem beginInterval_pins (p : Profile) (v n : Nat) (s : State) : (beginInterval p v n s).pins = s.pins := rfl
@[simp] theorem beginInterval_ss (p : Profile) (v n : Nat) (s : State) : (beginInterval p v n s).ss = s.ss := rfl
@[simp] theorem beginInterval_tif (p : Profile) (v n : Nat) (s : State) : (beginInterval p v n s).tif = s.tif := rfl
@[simp] theorem beginInterval_fh (p : Profile) (v n : Nat) (s : State) : (beginInterval p v n s).fh = s.fh := rfl
@[simp] theorem beginInterval_queue (p : Profile) (v n : Nat) (s : State) : (beginInterval p v n s).queue = s.queue := rfl
@[simp] theorem beginInterval_ru (p : Profile) (v n : Nat) (s : State) : (beginInterval p v n s).ru = s.ru := rfl
@[simp] theorem beginInterval_pb (p : Profile) (v n : Nat) (s : State) : (beginInterval p v n s).pb = s.pb := rfl
@[simp] theorem beginInterval_gd (p : Profile) (v n : Nat) (s : State) : (beginInterval p v n s).gd = s.gd := rfl
@[simp] theorem beginInterval_nb (p : Profile) (v n : Nat) (s : State) : (beginInterval p v n s).nb = s.nb := rfl
@[simp] theorem beginInterval_pending (p : Profile) (v n : Nat) (s : State) : (beginInterval p v n s).pending = s.pending := rfl

/-! `beginDecel` -/

@[simp] theorem beginDecel_pins (p : Profile) (v : Nat) (s : State) : (beginDecel p v s).pins = s.pins := rfl
@[simp] theorem beginDecel_ss (p : Profile) (v : Nat) (s : State) : (beginDecel p v s).ss = s.ss := rfl
@[simp] theorem beginDecel_tif (p : Profile) (v : Nat) (s : State) : (beginDecel p v s).tif = s.tif := rfl
@[simp] theorem beginDecel_fh (p : Profile) (v : Nat) (s : State) : (beginDecel p v s).fh = s.fh := rfl
@[simp] theorem beginDecel_queue (p : Profile) (v : Nat) (s : State) : (beginDecel p v s).queue = s.queue := rfl
@[simp] theorem beginDecel_ru (p : Profile) (v : Nat) (s : State) : (beginDecel p v s).ru = s.ru := rfl
@[simp] theorem beginDecel_pb (p : Profile) (v : Nat) (s : State) : (beginDecel p v s).pb = s.pb := rfl
@[simp] theorem beginDecel_gd (p : Profile) (v : Nat) (s : State) : (beginDecel p v s).gd = s.gd := rfl
@[simp] theorem beginDecel_nb (p : Profile) (v : Nat) (s : State) : (beginDecel p v s).nb = s.nb := rfl
@[simp] theorem beginDecel_pending (p : Profile) (v : Nat) (s : State) : (beginDecel p v s).pending = s.pending := rfl

/-! `driveDen` -/

@[simp] theorem driveDen_pins (s : State) : (driveDen s).pins = s.pins := rfl
@[simp] theorem driveDen_ss (s : State) : (driveDen s).ss = s.ss := rfl
@[simp] theorem driveDen_tif (s : State) : (driveDen s).tif = s.tif := rfl
@[simp] theorem driveDen_fh (s : State) : (driveDen s).fh = s.fh := rfl
@[simp] theorem driveDen_queue (s : State) : (driveDen s).queue = s.queue := rfl
@[simp] theorem driveDen_ru (s : State) : (driveDen s).ru = s.ru := rfl
@[simp] theorem driveDen_pg (s : State) : (driveDen s).pg = s.pg := rfl
@[simp] theorem driveDen_pb (s : State) : (driveDen s).pb = s.pb := rfl
@[simp] theorem driveDen_nb (s : State) : (driveDen s).nb = s.nb := rfl
@[simp] theorem driveDen_pending (s : State) : (driveDen s).pending = s.pending := rfl

/-! `guardRecord` -/

@[simp] theorem guardRecord_pins (c : Cause) (m : Mode) (s : State) : (guardRecord c m s).pins = s.pins := rfl
@[simp] theorem guardRecord_ss (c : Cause) (m : Mode) (s : State) : (guardRecord c m s).ss = s.ss := rfl
@[simp] theorem guardRecord_tif (c : Cause) (m : Mode) (s : State) : (guardRecord c m s).tif = s.tif := rfl
@[simp] theorem guardRecord_fh (c : Cause) (m : Mode) (s : State) : (guardRecord c m s).fh = s.fh := rfl
@[simp] theorem guardRecord_queue (c : Cause) (m : Mode) (s : State) : (guardRecord c m s).queue = s.queue := rfl
@[simp] theorem guardRecord_ru (c : Cause) (m : Mode) (s : State) : (guardRecord c m s).ru = s.ru := rfl
@[simp] theorem guardRecord_pg (c : Cause) (m : Mode) (s : State) : (guardRecord c m s).pg = s.pg := rfl
@[simp] theorem guardRecord_pb (c : Cause) (m : Mode) (s : State) : (guardRecord c m s).pb = s.pb := rfl
@[simp] theorem guardRecord_nb (c : Cause) (m : Mode) (s : State) : (guardRecord c m s).nb = s.nb := rfl
@[simp] theorem guardRecord_pending (c : Cause) (m : Mode) (s : State) : (guardRecord c m s).pending = s.pending := rfl

/-! `guardNote` -/

@[simp] theorem guardNote_pins (c : Cause) (s : State) : (guardNote c s).pins = s.pins := rfl
@[simp] theorem guardNote_ss (c : Cause) (s : State) : (guardNote c s).ss = s.ss := rfl
@[simp] theorem guardNote_tif (c : Cause) (s : State) : (guardNote c s).tif = s.tif := rfl
@[simp] theorem guardNote_fh (c : Cause) (s : State) : (guardNote c s).fh = s.fh := rfl
@[simp] theorem guardNote_queue (c : Cause) (s : State) : (guardNote c s).queue = s.queue := rfl
@[simp] theorem guardNote_ru (c : Cause) (s : State) : (guardNote c s).ru = s.ru := rfl
@[simp] theorem guardNote_pg (c : Cause) (s : State) : (guardNote c s).pg = s.pg := rfl
@[simp] theorem guardNote_pb (c : Cause) (s : State) : (guardNote c s).pb = s.pb := rfl
@[simp] theorem guardNote_nb (c : Cause) (s : State) : (guardNote c s).nb = s.nb := rfl
@[simp] theorem guardNote_pending (c : Cause) (s : State) : (guardNote c s).pending = s.pending := rfl

/-! `guardEmpty` -/

@[simp] theorem guardEmpty_pins (s : State) : (guardEmpty s).pins = s.pins := rfl
@[simp] theorem guardEmpty_ss (s : State) : (guardEmpty s).ss = s.ss := rfl
@[simp] theorem guardEmpty_tif (s : State) : (guardEmpty s).tif = s.tif := rfl
@[simp] theorem guardEmpty_fh (s : State) : (guardEmpty s).fh = s.fh := rfl
@[simp] theorem guardEmpty_queue (s : State) : (guardEmpty s).queue = s.queue := rfl
@[simp] theorem guardEmpty_ru (s : State) : (guardEmpty s).ru = s.ru := rfl
@[simp] theorem guardEmpty_pg (s : State) : (guardEmpty s).pg = s.pg := rfl
@[simp] theorem guardEmpty_pb (s : State) : (guardEmpty s).pb = s.pb := rfl
@[simp] theorem guardEmpty_nb (s : State) : (guardEmpty s).nb = s.nb := rfl
@[simp] theorem guardEmpty_pending (s : State) : (guardEmpty s).pending = s.pending := rfl

/-! `pruneHeard` -/

@[simp] theorem pruneHeard_pins (s : State) : (pruneHeard s).pins = s.pins := rfl
@[simp] theorem pruneHeard_ss (s : State) : (pruneHeard s).ss = s.ss := rfl
@[simp] theorem pruneHeard_tif (s : State) : (pruneHeard s).tif = s.tif := rfl
@[simp] theorem pruneHeard_fh (s : State) : (pruneHeard s).fh = s.fh := rfl
@[simp] theorem pruneHeard_queue (s : State) : (pruneHeard s).queue = s.queue := rfl
@[simp] theorem pruneHeard_ru (s : State) : (pruneHeard s).ru = s.ru := rfl
@[simp] theorem pruneHeard_pg (s : State) : (pruneHeard s).pg = s.pg := rfl
@[simp] theorem pruneHeard_gd (s : State) : (pruneHeard s).gd = s.gd := rfl
@[simp] theorem pruneHeard_nb (s : State) : (pruneHeard s).nb = s.nb := rfl
@[simp] theorem pruneHeard_pending (s : State) : (pruneHeard s).pending = s.pending := rfl

/-! `consume` -/

@[simp] theorem consume_pins (m : MarkRef) (s : State) : (consume m s).pins = s.pins := rfl
@[simp] theorem consume_ss (m : MarkRef) (s : State) : (consume m s).ss = s.ss := rfl
@[simp] theorem consume_tif (m : MarkRef) (s : State) : (consume m s).tif = s.tif := rfl
@[simp] theorem consume_fh (m : MarkRef) (s : State) : (consume m s).fh = s.fh := rfl
@[simp] theorem consume_queue (m : MarkRef) (s : State) : (consume m s).queue = s.queue := rfl
@[simp] theorem consume_ru (m : MarkRef) (s : State) : (consume m s).ru = s.ru := rfl
@[simp] theorem consume_pg (m : MarkRef) (s : State) : (consume m s).pg = s.pg := rfl
@[simp] theorem consume_gd (m : MarkRef) (s : State) : (consume m s).gd = s.gd := rfl
@[simp] theorem consume_nb (m : MarkRef) (s : State) : (consume m s).nb = s.nb := rfl
@[simp] theorem consume_pending (m : MarkRef) (s : State) : (consume m s).pending = s.pending := rfl

/-! `applySettings` -/

@[simp] theorem applySettings_pins (x : Settings) (s : State) : (applySettings x s).pins = s.pins := rfl
@[simp] theorem applySettings_tif (x : Settings) (s : State) : (applySettings x s).tif = s.tif := rfl
@[simp] theorem applySettings_fh (x : Settings) (s : State) : (applySettings x s).fh = s.fh := rfl
@[simp] theorem applySettings_queue (x : Settings) (s : State) : (applySettings x s).queue = s.queue := rfl
@[simp] theorem applySettings_ru (x : Settings) (s : State) : (applySettings x s).ru = s.ru := rfl
@[simp] theorem applySettings_pg (x : Settings) (s : State) : (applySettings x s).pg = s.pg := rfl
@[simp] theorem applySettings_gd (x : Settings) (s : State) : (applySettings x s).gd = s.gd := rfl
@[simp] theorem applySettings_nb (x : Settings) (s : State) : (applySettings x s).nb = s.nb := rfl
@[simp] theorem applySettings_pending (x : Settings) (s : State) : (applySettings x s).pending = s.pending := rfl

/-! Fields set -/

@[simp] theorem windowEnds_queueTx (a b : TrunkBit) (s : State) : (windowEnds a b s).tif.queue = s.tif.queue := rfl
@[simp] theorem windowEnds_owed (a b : TrunkBit) (s : State) : (windowEnds a b s).tif.owed = s.tif.owed := rfl
@[simp] theorem windowEnds_link (a b : TrunkBit) (s : State) : (windowEnds a b s).tif.link = .listening := rfl
@[simp] theorem windowEnds_reception (a b : TrunkBit) (s : State) : (windowEnds a b s).tif.reception = .awaits := rfl
@[simp] theorem leaveSending_queueTx (r : Reception) (s : State) : (leaveSending r s).tif.queue = s.tif.queue := rfl
@[simp] theorem leaveSending_owed (r : Reception) (s : State) : (leaveSending r s).tif.owed = s.tif.owed := rfl
@[simp] theorem leaveSending_link (r : Reception) (s : State) : (leaveSending r s).tif.link = .listening := rfl
@[simp] theorem leaveSending_reception (r : Reception) (s : State) : (leaveSending r s).tif.reception = r := rfl
@[simp] theorem dropOnLine_link (s : State) : (dropOnLine s).tif.link = s.tif.link := rfl
@[simp] theorem dropOnLine_owed (s : State) : (dropOnLine s).tif.owed = s.tif.owed := rfl
@[simp] theorem pgIdle_phase (s : State) : (pgIdle s).pg.phase = .idle := rfl
@[simp] theorem pgIdle_speedSq (s : State) : (pgIdle s).pg.speedSq = 0 := rfl
@[simp] theorem pgIdle_remaining (s : State) : (pgIdle s).pg.remaining = s.pg.remaining := rfl
@[simp] theorem pgIdle_seek (s : State) : (pgIdle s).pg.seek = none := rfl
@[simp] theorem pgIdle_stepCw (s : State) : (pgIdle s).pg.stepCw = s.pg.stepCw := rfl
@[simp] theorem pgIdle_dirCcw (s : State) : (pgIdle s).pg.dirCcw = s.pg.dirCcw := rfl
@[simp] theorem driveDen_state (s : State) : (driveDen s).gd.state = s.gd.state := rfl
@[simp] theorem driveDen_causes (s : State) : (driveDen s).gd.causes = s.gd.causes := rfl
@[simp] theorem driveDen_first (s : State) : (driveDen s).gd.first = s.gd.first := rfl
@[simp] theorem guardEmpty_state (s : State) : (guardEmpty s).gd.state = .normal := rfl
@[simp] theorem guardEmpty_causes (s : State) : (guardEmpty s).gd.causes = 0 := rfl
@[simp] theorem guardEmpty_first (s : State) : (guardEmpty s).gd.first = none := rfl
@[simp] theorem guardRecord_first (c : Cause) (m : Mode) (s : State) : (guardRecord c m s).gd.first = some c := rfl
@[simp] theorem guardRecord_causes (c : Cause) (m : Mode) (s : State) : (guardRecord c m s).gd.causes = c.bit := rfl
@[simp] theorem guardNote_state (c : Cause) (s : State) : (guardNote c s).gd.state = s.gd.state := rfl
@[simp] theorem stopTimer_slots (s : State) : (stopTimer s).ru.slots = s.ru.slots := rfl
@[simp] theorem stopTimer_timer (s : State) : (stopTimer s).ru.timer = none := rfl
@[simp] theorem setSlot_timer (k : Fin 8) (x : Slot) (s : State) : (s.setSlot k x).ru.timer = s.ru.timer := rfl
@[simp] theorem setSlot_slots (k : Fin 8) (x : Slot) (s : State) : (s.setSlot k x).ru.slots = s.ru.slots.set k x := rfl
@[simp] theorem setUnit_units (u : Fin 4) (x : MarkUnit) (s : State) : (s.setUnit u x).pb.units = s.pb.units.set u x := rfl
@[simp] theorem setUnit_heard (u : Fin 4) (x : MarkUnit) (s : State) : (s.setUnit u x).pb.heard = s.pb.heard := rfl
@[simp] theorem setUnit_command (u : Fin 4) (x : MarkUnit) (s : State) : (s.setUnit u x).pb.command = s.pb.command := rfl
@[simp] theorem setUnit_feedback (u : Fin 4) (x : MarkUnit) (s : State) : (s.setUnit u x).pb.feedback = s.pb.feedback := rfl


/-! `enqueue` -/

@[simp] theorem enqueue_pins (f : TxFrame) (s : State) : (enqueue f s).pins = s.pins := by
  unfold enqueue; split <;> rfl

@[simp] theorem enqueue_ss (f : TxFrame) (s : State) : (enqueue f s).ss = s.ss := by
  unfold enqueue; split <;> rfl

@[simp] theorem enqueue_fh (f : TxFrame) (s : State) : (enqueue f s).fh = s.fh := by
  unfold enqueue; split <;> rfl

@[simp] theorem enqueue_queue (f : TxFrame) (s : State) : (enqueue f s).queue = s.queue := by
  unfold enqueue; split <;> rfl

@[simp] theorem enqueue_ru (f : TxFrame) (s : State) : (enqueue f s).ru = s.ru := by
  unfold enqueue; split <;> rfl

@[simp] theorem enqueue_pg (f : TxFrame) (s : State) : (enqueue f s).pg = s.pg := by
  unfold enqueue; split <;> rfl

@[simp] theorem enqueue_pb (f : TxFrame) (s : State) : (enqueue f s).pb = s.pb := by
  unfold enqueue; split <;> rfl

@[simp] theorem enqueue_gd (f : TxFrame) (s : State) : (enqueue f s).gd = s.gd := by
  unfold enqueue; split <;> rfl

@[simp] theorem enqueue_nb (f : TxFrame) (s : State) : (enqueue f s).nb = s.nb := by
  unfold enqueue; split <;> rfl

@[simp] theorem enqueue_pending (f : TxFrame) (s : State) : (enqueue f s).pending = s.pending := by
  unfold enqueue; split <;> rfl


/-! `composeNotice` -/

@[simp] theorem composeNotice_pins (s : State) : (composeNotice s).pins = s.pins := by
  unfold composeNotice; repeat' split
  all_goals simp

@[simp] theorem composeNotice_ss (s : State) : (composeNotice s).ss = s.ss := by
  unfold composeNotice; repeat' split
  all_goals simp

@[simp] theorem composeNotice_fh (s : State) : (composeNotice s).fh = s.fh := by
  unfold composeNotice; repeat' split
  all_goals simp

@[simp] theorem composeNotice_queue (s : State) : (composeNotice s).queue = s.queue := by
  unfold composeNotice; repeat' split
  all_goals simp

@[simp] theorem composeNotice_ru (s : State) : (composeNotice s).ru = s.ru := by
  unfold composeNotice; repeat' split
  all_goals simp

@[simp] theorem composeNotice_pg (s : State) : (composeNotice s).pg = s.pg := by
  unfold composeNotice; repeat' split
  all_goals simp

@[simp] theorem composeNotice_pb (s : State) : (composeNotice s).pb = s.pb := by
  unfold composeNotice; repeat' split
  all_goals simp

@[simp] theorem composeNotice_gd (s : State) : (composeNotice s).gd = s.gd := by
  unfold composeNotice; repeat' split
  all_goals simp

@[simp] theorem composeNotice_pending (s : State) : (composeNotice s).pending = s.pending := by
  unfold composeNotice; repeat' split
  all_goals simp


/-! `discardNotice` -/

@[simp] theorem discardNotice_pins (s : State) : (discardNotice s).pins = s.pins := by
  unfold discardNotice; dsimp only; split <;> rfl

@[simp] theorem discardNotice_ss (s : State) : (discardNotice s).ss = s.ss := by
  unfold discardNotice; dsimp only; split <;> rfl

@[simp] theorem discardNotice_fh (s : State) : (discardNotice s).fh = s.fh := by
  unfold discardNotice; dsimp only; split <;> rfl

@[simp] theorem discardNotice_queue (s : State) : (discardNotice s).queue = s.queue := by
  unfold discardNotice; dsimp only; split <;> rfl

@[simp] theorem discardNotice_ru (s : State) : (discardNotice s).ru = s.ru := by
  unfold discardNotice; dsimp only; split <;> rfl

@[simp] theorem discardNotice_pg (s : State) : (discardNotice s).pg = s.pg := by
  unfold discardNotice; dsimp only; split <;> rfl

@[simp] theorem discardNotice_pb (s : State) : (discardNotice s).pb = s.pb := by
  unfold discardNotice; dsimp only; split <;> rfl

@[simp] theorem discardNotice_gd (s : State) : (discardNotice s).gd = s.gd := by
  unfold discardNotice; dsimp only; split <;> rfl

@[simp] theorem discardNotice_pending (s : State) : (discardNotice s).pending = s.pending := by
  unfold discardNotice; dsimp only; split <;> rfl


/-! `produce` -/

@[simp] theorem produce_pins (t : NoticeType) (c : List Byte) (s : State) : (produce t c s).pins = s.pins := by
  unfold produce; repeat' split
  all_goals simp

@[simp] theorem produce_ss (t : NoticeType) (c : List Byte) (s : State) : (produce t c s).ss = s.ss := by
  unfold produce; repeat' split
  all_goals simp

@[simp] theorem produce_fh (t : NoticeType) (c : List Byte) (s : State) : (produce t c s).fh = s.fh := by
  unfold produce; repeat' split
  all_goals simp

@[simp] theorem produce_queue (t : NoticeType) (c : List Byte) (s : State) : (produce t c s).queue = s.queue := by
  unfold produce; repeat' split
  all_goals simp

@[simp] theorem produce_ru (t : NoticeType) (c : List Byte) (s : State) : (produce t c s).ru = s.ru := by
  unfold produce; repeat' split
  all_goals simp

@[simp] theorem produce_pg (t : NoticeType) (c : List Byte) (s : State) : (produce t c s).pg = s.pg := by
  unfold produce; repeat' split
  all_goals simp

@[simp] theorem produce_pb (t : NoticeType) (c : List Byte) (s : State) : (produce t c s).pb = s.pb := by
  unfold produce; repeat' split
  all_goals simp

@[simp] theorem produce_gd (t : NoticeType) (c : List Byte) (s : State) : (produce t c s).gd = s.gd := by
  unfold produce; repeat' split
  all_goals simp

@[simp] theorem produce_pending (t : NoticeType) (c : List Byte) (s : State) : (produce t c s).pending = s.pending := by
  unfold produce; repeat' split
  all_goals simp


/-! `setHeadState` -/

@[simp] theorem setHeadState_pins (x : SegState) (s : State) : (setHeadState x s).pins = s.pins := by
  unfold setHeadState; split <;> rfl

@[simp] theorem setHeadState_ss (x : SegState) (s : State) : (setHeadState x s).ss = s.ss := by
  unfold setHeadState; split <;> rfl

@[simp] theorem setHeadState_tif (x : SegState) (s : State) : (setHeadState x s).tif = s.tif := by
  unfold setHeadState; split <;> rfl

@[simp] theorem setHeadState_fh (x : SegState) (s : State) : (setHeadState x s).fh = s.fh := by
  unfold setHeadState; split <;> rfl

@[simp] theorem setHeadState_ru (x : SegState) (s : State) : (setHeadState x s).ru = s.ru := by
  unfold setHeadState; split <;> rfl

@[simp] theorem setHeadState_pg (x : SegState) (s : State) : (setHeadState x s).pg = s.pg := by
  unfold setHeadState; split <;> rfl

@[simp] theorem setHeadState_pb (x : SegState) (s : State) : (setHeadState x s).pb = s.pb := by
  unfold setHeadState; split <;> rfl

@[simp] theorem setHeadState_gd (x : SegState) (s : State) : (setHeadState x s).gd = s.gd := by
  unfold setHeadState; split <;> rfl

@[simp] theorem setHeadState_nb (x : SegState) (s : State) : (setHeadState x s).nb = s.nb := by
  unfold setHeadState; split <;> rfl

@[simp] theorem setHeadState_pending (x : SegState) (s : State) : (setHeadState x s).pending = s.pending := by
  unfold setHeadState; split <;> rfl


/-! `setDirLevel` -/

@[simp] theorem setDirLevel_pins (d : Option Dir) (s : State) : (setDirLevel d s).pins = s.pins := by
  unfold setDirLevel; split <;> rfl

@[simp] theorem setDirLevel_ss (d : Option Dir) (s : State) : (setDirLevel d s).ss = s.ss := by
  unfold setDirLevel; split <;> rfl

@[simp] theorem setDirLevel_tif (d : Option Dir) (s : State) : (setDirLevel d s).tif = s.tif := by
  unfold setDirLevel; split <;> rfl

@[simp] theorem setDirLevel_fh (d : Option Dir) (s : State) : (setDirLevel d s).fh = s.fh := by
  unfold setDirLevel; split <;> rfl

@[simp] theorem setDirLevel_queue (d : Option Dir) (s : State) : (setDirLevel d s).queue = s.queue := by
  unfold setDirLevel; split <;> rfl

@[simp] theorem setDirLevel_ru (d : Option Dir) (s : State) : (setDirLevel d s).ru = s.ru := by
  unfold setDirLevel; split <;> rfl

@[simp] theorem setDirLevel_pb (d : Option Dir) (s : State) : (setDirLevel d s).pb = s.pb := by
  unfold setDirLevel; split <;> rfl

@[simp] theorem setDirLevel_gd (d : Option Dir) (s : State) : (setDirLevel d s).gd = s.gd := by
  unfold setDirLevel; split <;> rfl

@[simp] theorem setDirLevel_nb (d : Option Dir) (s : State) : (setDirLevel d s).nb = s.nb := by
  unfold setDirLevel; split <;> rfl

@[simp] theorem setDirLevel_pending (d : Option Dir) (s : State) : (setDirLevel d s).pending = s.pending := by
  unfold setDirLevel; split <;> rfl


/-! `raisePulse` -/

@[simp] theorem raisePulse_pins (d : Dir) (s : State) : (raisePulse d s).pins = s.pins := by
  unfold raisePulse; split <;> rfl

@[simp] theorem raisePulse_ss (d : Dir) (s : State) : (raisePulse d s).ss = s.ss := by
  unfold raisePulse; split <;> rfl

@[simp] theorem raisePulse_tif (d : Dir) (s : State) : (raisePulse d s).tif = s.tif := by
  unfold raisePulse; split <;> rfl

@[simp] theorem raisePulse_fh (d : Dir) (s : State) : (raisePulse d s).fh = s.fh := by
  unfold raisePulse; split <;> rfl

@[simp] theorem raisePulse_queue (d : Dir) (s : State) : (raisePulse d s).queue = s.queue := by
  unfold raisePulse; split <;> rfl

@[simp] theorem raisePulse_ru (d : Dir) (s : State) : (raisePulse d s).ru = s.ru := by
  unfold raisePulse; split <;> rfl

@[simp] theorem raisePulse_pb (d : Dir) (s : State) : (raisePulse d s).pb = s.pb := by
  unfold raisePulse; split <;> rfl

@[simp] theorem raisePulse_gd (d : Dir) (s : State) : (raisePulse d s).gd = s.gd := by
  unfold raisePulse; split <;> rfl

@[simp] theorem raisePulse_nb (d : Dir) (s : State) : (raisePulse d s).nb = s.nb := by
  unfold raisePulse; split <;> rfl

@[simp] theorem raisePulse_pending (d : Dir) (s : State) : (raisePulse d s).pending = s.pending := by
  unfold raisePulse; split <;> rfl


/-! `lowerPulse` -/

@[simp] theorem lowerPulse_pins (s : State) : (lowerPulse s).pins = s.pins := by
  unfold lowerPulse; split <;> rfl

@[simp] theorem lowerPulse_ss (s : State) : (lowerPulse s).ss = s.ss := by
  unfold lowerPulse; split <;> rfl

@[simp] theorem lowerPulse_tif (s : State) : (lowerPulse s).tif = s.tif := by
  unfold lowerPulse; split <;> rfl

@[simp] theorem lowerPulse_fh (s : State) : (lowerPulse s).fh = s.fh := by
  unfold lowerPulse; split <;> rfl

@[simp] theorem lowerPulse_queue (s : State) : (lowerPulse s).queue = s.queue := by
  unfold lowerPulse; split <;> rfl

@[simp] theorem lowerPulse_ru (s : State) : (lowerPulse s).ru = s.ru := by
  unfold lowerPulse; split <;> rfl

@[simp] theorem lowerPulse_pb (s : State) : (lowerPulse s).pb = s.pb := by
  unfold lowerPulse; split <;> rfl

@[simp] theorem lowerPulse_gd (s : State) : (lowerPulse s).gd = s.gd := by
  unfold lowerPulse; split <;> rfl

@[simp] theorem lowerPulse_nb (s : State) : (lowerPulse s).nb = s.nb := by
  unfold lowerPulse; split <;> rfl

@[simp] theorem lowerPulse_pending (s : State) : (lowerPulse s).pending = s.pending := by
  unfold lowerPulse; split <;> rfl


/-! `pgStart` -/

@[simp] theorem pgStart_pins (h : Segment) (s : State) : (pgStart h s).pins = s.pins := by
  unfold pgStart; dsimp only; repeat' split
  all_goals simp

@[simp] theorem pgStart_ss (h : Segment) (s : State) : (pgStart h s).ss = s.ss := by
  unfold pgStart; dsimp only; repeat' split
  all_goals simp

@[simp] theorem pgStart_tif (h : Segment) (s : State) : (pgStart h s).tif = s.tif := by
  unfold pgStart; dsimp only; repeat' split
  all_goals simp

@[simp] theorem pgStart_fh (h : Segment) (s : State) : (pgStart h s).fh = s.fh := by
  unfold pgStart; dsimp only; repeat' split
  all_goals simp

@[simp] theorem pgStart_queue (h : Segment) (s : State) : (pgStart h s).queue = s.queue := by
  unfold pgStart; dsimp only; repeat' split
  all_goals simp

@[simp] theorem pgStart_ru (h : Segment) (s : State) : (pgStart h s).ru = s.ru := by
  unfold pgStart; dsimp only; repeat' split
  all_goals simp

@[simp] theorem pgStart_pb (h : Segment) (s : State) : (pgStart h s).pb = s.pb := by
  unfold pgStart; dsimp only; repeat' split
  all_goals simp

@[simp] theorem pgStart_gd (h : Segment) (s : State) : (pgStart h s).gd = s.gd := by
  unfold pgStart; dsimp only; repeat' split
  all_goals simp

@[simp] theorem pgStart_nb (h : Segment) (s : State) : (pgStart h s).nb = s.nb := by
  unfold pgStart; dsimp only; repeat' split
  all_goals simp

@[simp] theorem pgStart_pending (h : Segment) (s : State) : (pgStart h s).pending = s.pending := by
  unfold pgStart; dsimp only; repeat' split
  all_goals simp


/-! `pgStop` -/

@[simp] theorem pgStop_pins (k : SegKind) (m : Mode) (s : State) : (pgStop k m s).pins = s.pins := by
  unfold pgStop; repeat' split
  all_goals rfl

@[simp] theorem pgStop_ss (k : SegKind) (m : Mode) (s : State) : (pgStop k m s).ss = s.ss := by
  unfold pgStop; repeat' split
  all_goals rfl

@[simp] theorem pgStop_tif (k : SegKind) (m : Mode) (s : State) : (pgStop k m s).tif = s.tif := by
  unfold pgStop; repeat' split
  all_goals rfl

@[simp] theorem pgStop_fh (k : SegKind) (m : Mode) (s : State) : (pgStop k m s).fh = s.fh := by
  unfold pgStop; repeat' split
  all_goals rfl

@[simp] theorem pgStop_queue (k : SegKind) (m : Mode) (s : State) : (pgStop k m s).queue = s.queue := by
  unfold pgStop; repeat' split
  all_goals rfl

@[simp] theorem pgStop_ru (k : SegKind) (m : Mode) (s : State) : (pgStop k m s).ru = s.ru := by
  unfold pgStop; repeat' split
  all_goals rfl

@[simp] theorem pgStop_pb (k : SegKind) (m : Mode) (s : State) : (pgStop k m s).pb = s.pb := by
  unfold pgStop; repeat' split
  all_goals rfl

@[simp] theorem pgStop_gd (k : SegKind) (m : Mode) (s : State) : (pgStop k m s).gd = s.gd := by
  unfold pgStop; repeat' split
  all_goals rfl

@[simp] theorem pgStop_nb (k : SegKind) (m : Mode) (s : State) : (pgStop k m s).nb = s.nb := by
  unfold pgStop; repeat' split
  all_goals rfl

@[simp] theorem pgStop_pending (k : SegKind) (m : Mode) (s : State) : (pgStop k m s).pending = s.pending := by
  unfold pgStop; repeat' split
  all_goals rfl


/-! `oweHalt` -/

@[simp] theorem oweHalt_pins (k : Fin 8) (c : Cause) (m : Mode) (t : Byte) (s : State) : (oweHalt k c m t s).pins = s.pins := by
  unfold oweHalt; split <;> rfl

@[simp] theorem oweHalt_ss (k : Fin 8) (c : Cause) (m : Mode) (t : Byte) (s : State) : (oweHalt k c m t s).ss = s.ss := by
  unfold oweHalt; split <;> rfl

@[simp] theorem oweHalt_fh (k : Fin 8) (c : Cause) (m : Mode) (t : Byte) (s : State) : (oweHalt k c m t s).fh = s.fh := by
  unfold oweHalt; split <;> rfl

@[simp] theorem oweHalt_queue (k : Fin 8) (c : Cause) (m : Mode) (t : Byte) (s : State) : (oweHalt k c m t s).queue = s.queue := by
  unfold oweHalt; split <;> rfl

@[simp] theorem oweHalt_ru (k : Fin 8) (c : Cause) (m : Mode) (t : Byte) (s : State) : (oweHalt k c m t s).ru = s.ru := by
  unfold oweHalt; split <;> rfl

@[simp] theorem oweHalt_pg (k : Fin 8) (c : Cause) (m : Mode) (t : Byte) (s : State) : (oweHalt k c m t s).pg = s.pg := by
  unfold oweHalt; split <;> rfl

@[simp] theorem oweHalt_pb (k : Fin 8) (c : Cause) (m : Mode) (t : Byte) (s : State) : (oweHalt k c m t s).pb = s.pb := by
  unfold oweHalt; split <;> rfl

@[simp] theorem oweHalt_gd (k : Fin 8) (c : Cause) (m : Mode) (t : Byte) (s : State) : (oweHalt k c m t s).gd = s.gd := by
  unfold oweHalt; split <;> rfl

@[simp] theorem oweHalt_nb (k : Fin 8) (c : Cause) (m : Mode) (t : Byte) (s : State) : (oweHalt k c m t s).nb = s.nb := by
  unfold oweHalt; split <;> rfl

@[simp] theorem oweHalt_pending (k : Fin 8) (c : Cause) (m : Mode) (t : Byte) (s : State) : (oweHalt k c m t s).pending = s.pending := by
  unfold oweHalt; split <;> rfl


/-! `handFirings` -/

@[simp] theorem handFirings_pins (u : Fin 4) (k : Nat) (n : Int) (s : State) : (handFirings u k n s).pins = s.pins := by
  unfold handFirings; repeat' split
  all_goals simp

@[simp] theorem handFirings_ss (u : Fin 4) (k : Nat) (n : Int) (s : State) : (handFirings u k n s).ss = s.ss := by
  unfold handFirings; repeat' split
  all_goals simp

@[simp] theorem handFirings_fh (u : Fin 4) (k : Nat) (n : Int) (s : State) : (handFirings u k n s).fh = s.fh := by
  unfold handFirings; repeat' split
  all_goals simp

@[simp] theorem handFirings_queue (u : Fin 4) (k : Nat) (n : Int) (s : State) : (handFirings u k n s).queue = s.queue := by
  unfold handFirings; repeat' split
  all_goals simp

@[simp] theorem handFirings_ru (u : Fin 4) (k : Nat) (n : Int) (s : State) : (handFirings u k n s).ru = s.ru := by
  unfold handFirings; repeat' split
  all_goals simp

@[simp] theorem handFirings_pg (u : Fin 4) (k : Nat) (n : Int) (s : State) : (handFirings u k n s).pg = s.pg := by
  unfold handFirings; repeat' split
  all_goals simp

@[simp] theorem handFirings_gd (u : Fin 4) (k : Nat) (n : Int) (s : State) : (handFirings u k n s).gd = s.gd := by
  unfold handFirings; repeat' split
  all_goals simp

@[simp] theorem handFirings_nb (u : Fin 4) (k : Nat) (n : Int) (s : State) : (handFirings u k n s).nb = s.nb := by
  unfold handFirings; repeat' split
  all_goals simp

@[simp] theorem handFirings_pending (u : Fin 4) (k : Nat) (n : Int) (s : State) : (handFirings u k n s).pending = s.pending := by
  unfold handFirings; repeat' split
  all_goals simp


/-! `releaseHeld` -/

@[simp] theorem releaseHeld_pins (u : Fin 4) (s : State) : (releaseHeld u s).pins = s.pins := by
  unfold releaseHeld; dsimp only; split <;> simp

@[simp] theorem releaseHeld_ss (u : Fin 4) (s : State) : (releaseHeld u s).ss = s.ss := by
  unfold releaseHeld; dsimp only; split <;> simp

@[simp] theorem releaseHeld_fh (u : Fin 4) (s : State) : (releaseHeld u s).fh = s.fh := by
  unfold releaseHeld; dsimp only; split <;> simp

@[simp] theorem releaseHeld_queue (u : Fin 4) (s : State) : (releaseHeld u s).queue = s.queue := by
  unfold releaseHeld; dsimp only; split <;> simp

@[simp] theorem releaseHeld_ru (u : Fin 4) (s : State) : (releaseHeld u s).ru = s.ru := by
  unfold releaseHeld; dsimp only; split <;> simp

@[simp] theorem releaseHeld_pg (u : Fin 4) (s : State) : (releaseHeld u s).pg = s.pg := by
  unfold releaseHeld; dsimp only; split <;> simp

@[simp] theorem releaseHeld_gd (u : Fin 4) (s : State) : (releaseHeld u s).gd = s.gd := by
  unfold releaseHeld; dsimp only; split <;> simp

@[simp] theorem releaseHeld_nb (u : Fin 4) (s : State) : (releaseHeld u s).nb = s.nb := by
  unfold releaseHeld; dsimp only; split <;> simp

@[simp] theorem releaseHeld_pending (u : Fin 4) (s : State) : (releaseHeld u s).pending = s.pending := by
  unfold releaseHeld; dsimp only; split <;> simp


/-! `foldHeld` -/

@[simp] theorem foldHeld_pins (u : Fin 4) (s : State) : (foldHeld u s).pins = s.pins := by
  unfold foldHeld; dsimp only; split <;> simp

@[simp] theorem foldHeld_ss (u : Fin 4) (s : State) : (foldHeld u s).ss = s.ss := by
  unfold foldHeld; dsimp only; split <;> simp

@[simp] theorem foldHeld_fh (u : Fin 4) (s : State) : (foldHeld u s).fh = s.fh := by
  unfold foldHeld; dsimp only; split <;> simp

@[simp] theorem foldHeld_queue (u : Fin 4) (s : State) : (foldHeld u s).queue = s.queue := by
  unfold foldHeld; dsimp only; split <;> simp

@[simp] theorem foldHeld_ru (u : Fin 4) (s : State) : (foldHeld u s).ru = s.ru := by
  unfold foldHeld; dsimp only; split <;> simp

@[simp] theorem foldHeld_pg (u : Fin 4) (s : State) : (foldHeld u s).pg = s.pg := by
  unfold foldHeld; dsimp only; split <;> simp

@[simp] theorem foldHeld_gd (u : Fin 4) (s : State) : (foldHeld u s).gd = s.gd := by
  unfold foldHeld; dsimp only; split <;> simp

@[simp] theorem foldHeld_nb (u : Fin 4) (s : State) : (foldHeld u s).nb = s.nb := by
  unfold foldHeld; dsimp only; split <;> simp

@[simp] theorem foldHeld_pending (u : Fin 4) (s : State) : (foldHeld u s).pending = s.pending := by
  unfold foldHeld; dsimp only; split <;> simp


/-! `haltNotice` -/

@[simp] theorem haltNotice_pins (k : Fin 8) (a : GroupAddr) (c : Cause) (o : StationId) (s : State) : (haltNotice k a c o s).pins = s.pins := by
  simp [haltNotice]

@[simp] theorem haltNotice_ss (k : Fin 8) (a : GroupAddr) (c : Cause) (o : StationId) (s : State) : (haltNotice k a c o s).ss = s.ss := by
  simp [haltNotice]

@[simp] theorem haltNotice_fh (k : Fin 8) (a : GroupAddr) (c : Cause) (o : StationId) (s : State) : (haltNotice k a c o s).fh = s.fh := by
  simp [haltNotice]

@[simp] theorem haltNotice_queue (k : Fin 8) (a : GroupAddr) (c : Cause) (o : StationId) (s : State) : (haltNotice k a c o s).queue = s.queue := by
  simp [haltNotice]

@[simp] theorem haltNotice_ru (k : Fin 8) (a : GroupAddr) (c : Cause) (o : StationId) (s : State) : (haltNotice k a c o s).ru = s.ru := by
  simp [haltNotice]

@[simp] theorem haltNotice_pg (k : Fin 8) (a : GroupAddr) (c : Cause) (o : StationId) (s : State) : (haltNotice k a c o s).pg = s.pg := by
  simp [haltNotice]

@[simp] theorem haltNotice_pb (k : Fin 8) (a : GroupAddr) (c : Cause) (o : StationId) (s : State) : (haltNotice k a c o s).pb = s.pb := by
  simp [haltNotice]

@[simp] theorem haltNotice_gd (k : Fin 8) (a : GroupAddr) (c : Cause) (o : StationId) (s : State) : (haltNotice k a c o s).gd = s.gd := by
  simp [haltNotice]

@[simp] theorem haltNotice_pending (k : Fin 8) (a : GroupAddr) (c : Cause) (o : StationId) (s : State) : (haltNotice k a c o s).pending = s.pending := by
  simp [haltNotice]


/-! `faultNotice` -/

@[simp] theorem faultNotice_pins (c : Cause) (m : Mode) (s : State) : (faultNotice c m s).pins = s.pins := by
  simp [faultNotice]

@[simp] theorem faultNotice_ss (c : Cause) (m : Mode) (s : State) : (faultNotice c m s).ss = s.ss := by
  simp [faultNotice]

@[simp] theorem faultNotice_fh (c : Cause) (m : Mode) (s : State) : (faultNotice c m s).fh = s.fh := by
  simp [faultNotice]

@[simp] theorem faultNotice_queue (c : Cause) (m : Mode) (s : State) : (faultNotice c m s).queue = s.queue := by
  simp [faultNotice]

@[simp] theorem faultNotice_ru (c : Cause) (m : Mode) (s : State) : (faultNotice c m s).ru = s.ru := by
  simp [faultNotice]

@[simp] theorem faultNotice_pg (c : Cause) (m : Mode) (s : State) : (faultNotice c m s).pg = s.pg := by
  simp [faultNotice]

@[simp] theorem faultNotice_pb (c : Cause) (m : Mode) (s : State) : (faultNotice c m s).pb = s.pb := by
  simp [faultNotice]

@[simp] theorem faultNotice_gd (c : Cause) (m : Mode) (s : State) : (faultNotice c m s).gd = s.gd := by
  simp [faultNotice]

@[simp] theorem faultNotice_pending (c : Cause) (m : Mode) (s : State) : (faultNotice c m s).pending = s.pending := by
  simp [faultNotice]


/-! `doneNotice` -/

@[simp] theorem doneNotice_pins (t : Byte) (o : SegOutcome) (n : Nat) (s : State) : (doneNotice t o n s).pins = s.pins := by
  simp [doneNotice]

@[simp] theorem doneNotice_ss (t : Byte) (o : SegOutcome) (n : Nat) (s : State) : (doneNotice t o n s).ss = s.ss := by
  simp [doneNotice]

@[simp] theorem doneNotice_fh (t : Byte) (o : SegOutcome) (n : Nat) (s : State) : (doneNotice t o n s).fh = s.fh := by
  simp [doneNotice]

@[simp] theorem doneNotice_queue (t : Byte) (o : SegOutcome) (n : Nat) (s : State) : (doneNotice t o n s).queue = s.queue := by
  simp [doneNotice]

@[simp] theorem doneNotice_ru (t : Byte) (o : SegOutcome) (n : Nat) (s : State) : (doneNotice t o n s).ru = s.ru := by
  simp [doneNotice]

@[simp] theorem doneNotice_pg (t : Byte) (o : SegOutcome) (n : Nat) (s : State) : (doneNotice t o n s).pg = s.pg := by
  simp [doneNotice]

@[simp] theorem doneNotice_pb (t : Byte) (o : SegOutcome) (n : Nat) (s : State) : (doneNotice t o n s).pb = s.pb := by
  simp [doneNotice]

@[simp] theorem doneNotice_gd (t : Byte) (o : SegOutcome) (n : Nat) (s : State) : (doneNotice t o n s).gd = s.gd := by
  simp [doneNotice]

@[simp] theorem doneNotice_pending (t : Byte) (o : SegOutcome) (n : Nat) (s : State) : (doneNotice t o n s).pending = s.pending := by
  simp [doneNotice]


/-! `linkNotice` -/

@[simp] theorem linkNotice_pins (r d : Byte) (s : State) : (linkNotice r d s).pins = s.pins := by
  simp [linkNotice]

@[simp] theorem linkNotice_ss (r d : Byte) (s : State) : (linkNotice r d s).ss = s.ss := by
  simp [linkNotice]

@[simp] theorem linkNotice_fh (r d : Byte) (s : State) : (linkNotice r d s).fh = s.fh := by
  simp [linkNotice]

@[simp] theorem linkNotice_queue (r d : Byte) (s : State) : (linkNotice r d s).queue = s.queue := by
  simp [linkNotice]

@[simp] theorem linkNotice_ru (r d : Byte) (s : State) : (linkNotice r d s).ru = s.ru := by
  simp [linkNotice]

@[simp] theorem linkNotice_pg (r d : Byte) (s : State) : (linkNotice r d s).pg = s.pg := by
  simp [linkNotice]

@[simp] theorem linkNotice_pb (r d : Byte) (s : State) : (linkNotice r d s).pb = s.pb := by
  simp [linkNotice]

@[simp] theorem linkNotice_gd (r d : Byte) (s : State) : (linkNotice r d s).gd = s.gd := by
  simp [linkNotice]

@[simp] theorem linkNotice_pending (r d : Byte) (s : State) : (linkNotice r d s).pending = s.pending := by
  simp [linkNotice]


/-! `seekNotice` -/

@[simp] theorem seekNotice_pins (t : Byte) (x : SeekSpec) (l : Int × Int) (s : State) : (seekNotice t x l s).pins = s.pins := by
  simp [seekNotice]

@[simp] theorem seekNotice_ss (t : Byte) (x : SeekSpec) (l : Int × Int) (s : State) : (seekNotice t x l s).ss = s.ss := by
  simp [seekNotice]

@[simp] theorem seekNotice_fh (t : Byte) (x : SeekSpec) (l : Int × Int) (s : State) : (seekNotice t x l s).fh = s.fh := by
  simp [seekNotice]

@[simp] theorem seekNotice_queue (t : Byte) (x : SeekSpec) (l : Int × Int) (s : State) : (seekNotice t x l s).queue = s.queue := by
  simp [seekNotice]

@[simp] theorem seekNotice_ru (t : Byte) (x : SeekSpec) (l : Int × Int) (s : State) : (seekNotice t x l s).ru = s.ru := by
  simp [seekNotice]

@[simp] theorem seekNotice_pg (t : Byte) (x : SeekSpec) (l : Int × Int) (s : State) : (seekNotice t x l s).pg = s.pg := by
  simp [seekNotice]

@[simp] theorem seekNotice_pb (t : Byte) (x : SeekSpec) (l : Int × Int) (s : State) : (seekNotice t x l s).pb = s.pb := by
  simp [seekNotice]

@[simp] theorem seekNotice_gd (t : Byte) (x : SeekSpec) (l : Int × Int) (s : State) : (seekNotice t x l s).gd = s.gd := by
  simp [seekNotice]

@[simp] theorem seekNotice_pending (t : Byte) (x : SeekSpec) (l : Int × Int) (s : State) : (seekNotice t x l s).pending = s.pending := by
  simp [seekNotice]


/-! `lookEndMark` -/

@[simp] theorem lookEndMark_pins (s : State) : (lookEndMark s).pins = s.pins := by
  unfold lookEndMark; repeat' split
  all_goals simp

@[simp] theorem lookEndMark_ss (s : State) : (lookEndMark s).ss = s.ss := by
  unfold lookEndMark; repeat' split
  all_goals simp

@[simp] theorem lookEndMark_tif (s : State) : (lookEndMark s).tif = s.tif := by
  unfold lookEndMark; repeat' split
  all_goals simp

@[simp] theorem lookEndMark_fh (s : State) : (lookEndMark s).fh = s.fh := by
  unfold lookEndMark; repeat' split
  all_goals simp

@[simp] theorem lookEndMark_ru (s : State) : (lookEndMark s).ru = s.ru := by
  unfold lookEndMark; repeat' split
  all_goals simp

@[simp] theorem lookEndMark_gd (s : State) : (lookEndMark s).gd = s.gd := by
  unfold lookEndMark; repeat' split
  all_goals simp

@[simp] theorem lookEndMark_nb (s : State) : (lookEndMark s).nb = s.nb := by
  unfold lookEndMark; repeat' split
  all_goals simp

@[simp] theorem lookEndMark_pending (s : State) : (lookEndMark s).pending = s.pending := by
  unfold lookEndMark; repeat' split
  all_goals simp


/-! `startHead` -/

@[simp] theorem startHead_pins (s : State) : (startHead s).pins = s.pins := by
  unfold startHead; split <;> simp

@[simp] theorem startHead_ss (s : State) : (startHead s).ss = s.ss := by
  unfold startHead; split <;> simp

@[simp] theorem startHead_tif (s : State) : (startHead s).tif = s.tif := by
  unfold startHead; split <;> simp

@[simp] theorem startHead_fh (s : State) : (startHead s).fh = s.fh := by
  unfold startHead; split <;> simp

@[simp] theorem startHead_ru (s : State) : (startHead s).ru = s.ru := by
  unfold startHead; split <;> simp

@[simp] theorem startHead_gd (s : State) : (startHead s).gd = s.gd := by
  unfold startHead; split <;> simp

@[simp] theorem startHead_nb (s : State) : (startHead s).nb = s.nb := by
  unfold startHead; split <;> simp

@[simp] theorem startHead_pending (s : State) : (startHead s).pending = s.pending := by
  unfold startHead; split <;> simp


/-! `announce` -/

@[simp] theorem announce_pins (k : Fin 8) (g : Group) (t : Byte) (s : State) : (announce k g t s).pins = s.pins := by
  simp [announce]

@[simp] theorem announce_ss (k : Fin 8) (g : Group) (t : Byte) (s : State) : (announce k g t s).ss = s.ss := by
  simp [announce]

@[simp] theorem announce_fh (k : Fin 8) (g : Group) (t : Byte) (s : State) : (announce k g t s).fh = s.fh := by
  simp [announce]

@[simp] theorem announce_pg (k : Fin 8) (g : Group) (t : Byte) (s : State) : (announce k g t s).pg = s.pg := by
  simp [announce]

@[simp] theorem announce_pb (k : Fin 8) (g : Group) (t : Byte) (s : State) : (announce k g t s).pb = s.pb := by
  simp [announce]

@[simp] theorem announce_gd (k : Fin 8) (g : Group) (t : Byte) (s : State) : (announce k g t s).gd = s.gd := by
  simp [announce]

@[simp] theorem announce_nb (k : Fin 8) (g : Group) (t : Byte) (s : State) : (announce k g t s).nb = s.nb := by
  simp [announce]

@[simp] theorem announce_pending (k : Fin 8) (g : Group) (t : Byte) (s : State) : (announce k g t s).pending = s.pending := by
  simp [announce]


/-! `evalHead` -/

@[simp] theorem evalHead_pins (s : State) : (evalHead s).pins = s.pins := by
  unfold evalHead; repeat' split
  all_goals simp

@[simp] theorem evalHead_ss (s : State) : (evalHead s).ss = s.ss := by
  unfold evalHead; repeat' split
  all_goals simp

@[simp] theorem evalHead_fh (s : State) : (evalHead s).fh = s.fh := by
  unfold evalHead; repeat' split
  all_goals simp

@[simp] theorem evalHead_gd (s : State) : (evalHead s).gd = s.gd := by
  unfold evalHead; repeat' split
  all_goals simp

@[simp] theorem evalHead_nb (s : State) : (evalHead s).nb = s.nb := by
  unfold evalHead; repeat' split
  all_goals simp

@[simp] theorem evalHead_pending (s : State) : (evalHead s).pending = s.pending := by
  unfold evalHead; repeat' split
  all_goals simp


/-! `claim` -/

@[simp] theorem claim_pins (o : SegOutcome) (m : Mode) (s : State) : (claim o m s).pins = s.pins := by
  unfold claim; repeat' split
  all_goals simp

@[simp] theorem claim_ss (o : SegOutcome) (m : Mode) (s : State) : (claim o m s).ss = s.ss := by
  unfold claim; repeat' split
  all_goals simp

@[simp] theorem claim_tif (o : SegOutcome) (m : Mode) (s : State) : (claim o m s).tif = s.tif := by
  unfold claim; repeat' split
  all_goals simp

@[simp] theorem claim_fh (o : SegOutcome) (m : Mode) (s : State) : (claim o m s).fh = s.fh := by
  unfold claim; repeat' split
  all_goals simp

@[simp] theorem claim_ru (o : SegOutcome) (m : Mode) (s : State) : (claim o m s).ru = s.ru := by
  unfold claim; repeat' split
  all_goals simp

@[simp] theorem claim_pb (o : SegOutcome) (m : Mode) (s : State) : (claim o m s).pb = s.pb := by
  unfold claim; repeat' split
  all_goals simp

@[simp] theorem claim_gd (o : SegOutcome) (m : Mode) (s : State) : (claim o m s).gd = s.gd := by
  unfold claim; repeat' split
  all_goals simp

@[simp] theorem claim_nb (o : SegOutcome) (m : Mode) (s : State) : (claim o m s).nb = s.nb := by
  unfold claim; repeat' split
  all_goals simp

@[simp] theorem claim_pending (o : SegOutcome) (m : Mode) (s : State) : (claim o m s).pending = s.pending := by
  unfold claim; repeat' split
  all_goals simp


/-! `guardStops` -/

@[simp] theorem guardStops_pins (s : State) : (guardStops s).pins = s.pins := by
  unfold guardStops; split <;> rfl

@[simp] theorem guardStops_ss (s : State) : (guardStops s).ss = s.ss := by
  unfold guardStops; split <;> rfl

@[simp] theorem guardStops_tif (s : State) : (guardStops s).tif = s.tif := by
  unfold guardStops; split <;> rfl

@[simp] theorem guardStops_fh (s : State) : (guardStops s).fh = s.fh := by
  unfold guardStops; split <;> rfl

@[simp] theorem guardStops_queue (s : State) : (guardStops s).queue = s.queue := by
  unfold guardStops; split <;> rfl

@[simp] theorem guardStops_ru (s : State) : (guardStops s).ru = s.ru := by
  unfold guardStops; split <;> rfl

@[simp] theorem guardStops_pg (s : State) : (guardStops s).pg = s.pg := by
  unfold guardStops; split <;> rfl

@[simp] theorem guardStops_pb (s : State) : (guardStops s).pb = s.pb := by
  unfold guardStops; split <;> rfl

@[simp] theorem guardStops_nb (s : State) : (guardStops s).nb = s.nb := by
  unfold guardStops; split <;> rfl

@[simp] theorem guardStops_pending (s : State) : (guardStops s).pending = s.pending := by
  unfold guardStops; split <;> rfl


/-! `returnHead` -/

@[simp] theorem returnHead_pins (k : Fin 8) (s : State) : (returnHead k s).pins = s.pins := by
  unfold returnHead; repeat' split
  all_goals simp [withdrawReady]

@[simp] theorem returnHead_ss (k : Fin 8) (s : State) : (returnHead k s).ss = s.ss := by
  unfold returnHead; repeat' split
  all_goals simp [withdrawReady]

@[simp] theorem returnHead_fh (k : Fin 8) (s : State) : (returnHead k s).fh = s.fh := by
  unfold returnHead; repeat' split
  all_goals simp [withdrawReady]

@[simp] theorem returnHead_ru (k : Fin 8) (s : State) : (returnHead k s).ru = s.ru := by
  unfold returnHead; repeat' split
  all_goals simp [withdrawReady]

@[simp] theorem returnHead_pg (k : Fin 8) (s : State) : (returnHead k s).pg = s.pg := by
  unfold returnHead; repeat' split
  all_goals simp [withdrawReady]

@[simp] theorem returnHead_pb (k : Fin 8) (s : State) : (returnHead k s).pb = s.pb := by
  unfold returnHead; repeat' split
  all_goals simp [withdrawReady]

@[simp] theorem returnHead_gd (k : Fin 8) (s : State) : (returnHead k s).gd = s.gd := by
  unfold returnHead; repeat' split
  all_goals simp [withdrawReady]

@[simp] theorem returnHead_nb (k : Fin 8) (s : State) : (returnHead k s).nb = s.nb := by
  unfold returnHead; repeat' split
  all_goals simp [withdrawReady]

@[simp] theorem returnHead_pending (k : Fin 8) (s : State) : (returnHead k s).pending = s.pending := by
  unfold returnHead; repeat' split
  all_goals simp [withdrawReady]


/-! `haltHead` -/

@[simp] theorem haltHead_pins (k : Fin 8) (m : Mode) (b : Bool) (s : State) : (haltHead k m b s).pins = s.pins := by
  unfold haltHead; repeat' split
  all_goals simp

@[simp] theorem haltHead_ss (k : Fin 8) (m : Mode) (b : Bool) (s : State) : (haltHead k m b s).ss = s.ss := by
  unfold haltHead; repeat' split
  all_goals simp

@[simp] theorem haltHead_fh (k : Fin 8) (m : Mode) (b : Bool) (s : State) : (haltHead k m b s).fh = s.fh := by
  unfold haltHead; repeat' split
  all_goals simp

@[simp] theorem haltHead_ru (k : Fin 8) (m : Mode) (b : Bool) (s : State) : (haltHead k m b s).ru = s.ru := by
  unfold haltHead; repeat' split
  all_goals simp

@[simp] theorem haltHead_pb (k : Fin 8) (m : Mode) (b : Bool) (s : State) : (haltHead k m b s).pb = s.pb := by
  unfold haltHead; repeat' split
  all_goals simp

@[simp] theorem haltHead_gd (k : Fin 8) (m : Mode) (b : Bool) (s : State) : (haltHead k m b s).gd = s.gd := by
  unfold haltHead; repeat' split
  all_goals simp

@[simp] theorem haltHead_nb (k : Fin 8) (m : Mode) (b : Bool) (s : State) : (haltHead k m b s).nb = s.nb := by
  unfold haltHead; repeat' split
  all_goals simp

@[simp] theorem haltHead_pending (k : Fin 8) (m : Mode) (b : Bool) (s : State) : (haltHead k m b s).pending = s.pending := by
  unfold haltHead; repeat' split
  all_goals simp


/-! `haltSlot` -/

@[simp] theorem haltSlot_pins (k : Fin 8) (c : Cause) (o : StationId) (m : Mode) (b : Bool) (s : State) : (haltSlot k c o m b s).pins = s.pins := by
  unfold haltSlot; repeat' split
  all_goals simp

@[simp] theorem haltSlot_ss (k : Fin 8) (c : Cause) (o : StationId) (m : Mode) (b : Bool) (s : State) : (haltSlot k c o m b s).ss = s.ss := by
  unfold haltSlot; repeat' split
  all_goals simp

@[simp] theorem haltSlot_fh (k : Fin 8) (c : Cause) (o : StationId) (m : Mode) (b : Bool) (s : State) : (haltSlot k c o m b s).fh = s.fh := by
  unfold haltSlot; repeat' split
  all_goals simp

@[simp] theorem haltSlot_pb (k : Fin 8) (c : Cause) (o : StationId) (m : Mode) (b : Bool) (s : State) : (haltSlot k c o m b s).pb = s.pb := by
  unfold haltSlot; repeat' split
  all_goals simp

@[simp] theorem haltSlot_gd (k : Fin 8) (c : Cause) (o : StationId) (m : Mode) (b : Bool) (s : State) : (haltSlot k c o m b s).gd = s.gd := by
  unfold haltSlot; repeat' split
  all_goals simp

@[simp] theorem haltSlot_pending (k : Fin 8) (c : Cause) (o : StationId) (m : Mode) (b : Bool) (s : State) : (haltSlot k c o m b s).pending = s.pending := by
  unfold haltSlot; repeat' split
  all_goals simp


/-! `localHalt` -/

@[simp] theorem localHalt_pins (k : Fin 8) (c : Cause) (m : Mode) (b : Bool) (s : State) : (localHalt k c m b s).pins = s.pins := by
  simp [localHalt]

@[simp] theorem localHalt_ss (k : Fin 8) (c : Cause) (m : Mode) (b : Bool) (s : State) : (localHalt k c m b s).ss = s.ss := by
  simp [localHalt]

@[simp] theorem localHalt_fh (k : Fin 8) (c : Cause) (m : Mode) (b : Bool) (s : State) : (localHalt k c m b s).fh = s.fh := by
  simp [localHalt]

@[simp] theorem localHalt_pb (k : Fin 8) (c : Cause) (m : Mode) (b : Bool) (s : State) : (localHalt k c m b s).pb = s.pb := by
  simp [localHalt]

@[simp] theorem localHalt_gd (k : Fin 8) (c : Cause) (m : Mode) (b : Bool) (s : State) : (localHalt k c m b s).gd = s.gd := by
  simp [localHalt]

@[simp] theorem localHalt_pending (k : Fin 8) (c : Cause) (m : Mode) (b : Bool) (s : State) : (localHalt k c m b s).pending = s.pending := by
  simp [localHalt]


/-! `clearSlot` -/

@[simp] theorem clearSlot_pins (k : Fin 8) (n : Byte) (s : State) : (clearSlot k n s).pins = s.pins := by
  unfold clearSlot; split
  · rfl
  · dsimp only; split <;> simp

@[simp] theorem clearSlot_ss (k : Fin 8) (n : Byte) (s : State) : (clearSlot k n s).ss = s.ss := by
  unfold clearSlot; split
  · rfl
  · dsimp only; split <;> simp

@[simp] theorem clearSlot_fh (k : Fin 8) (n : Byte) (s : State) : (clearSlot k n s).fh = s.fh := by
  unfold clearSlot; split
  · rfl
  · dsimp only; split <;> simp

@[simp] theorem clearSlot_pg (k : Fin 8) (n : Byte) (s : State) : (clearSlot k n s).pg = s.pg := by
  unfold clearSlot; split
  · rfl
  · dsimp only; split <;> simp

@[simp] theorem clearSlot_pb (k : Fin 8) (n : Byte) (s : State) : (clearSlot k n s).pb = s.pb := by
  unfold clearSlot; split
  · rfl
  · dsimp only; split <;> simp

@[simp] theorem clearSlot_gd (k : Fin 8) (n : Byte) (s : State) : (clearSlot k n s).gd = s.gd := by
  unfold clearSlot; split
  · rfl
  · dsimp only; split <;> simp

@[simp] theorem clearSlot_nb (k : Fin 8) (n : Byte) (s : State) : (clearSlot k n s).nb = s.nb := by
  unfold clearSlot; split
  · rfl
  · dsimp only; split <;> simp

@[simp] theorem clearSlot_pending (k : Fin 8) (n : Byte) (s : State) : (clearSlot k n s).pending = s.pending := by
  unfold clearSlot; split
  · rfl
  · dsimp only; split <;> simp


/-! `guardHaltsGroup` -/

@[simp] theorem guardHaltsGroup_pins (c : Cause) (m : Mode) (s : State) : (guardHaltsGroup c m s).pins = s.pins := by
  unfold guardHaltsGroup; repeat' split
  all_goals simp

@[simp] theorem guardHaltsGroup_ss (c : Cause) (m : Mode) (s : State) : (guardHaltsGroup c m s).ss = s.ss := by
  unfold guardHaltsGroup; repeat' split
  all_goals simp

@[simp] theorem guardHaltsGroup_fh (c : Cause) (m : Mode) (s : State) : (guardHaltsGroup c m s).fh = s.fh := by
  unfold guardHaltsGroup; repeat' split
  all_goals simp

@[simp] theorem guardHaltsGroup_pb (c : Cause) (m : Mode) (s : State) : (guardHaltsGroup c m s).pb = s.pb := by
  unfold guardHaltsGroup; repeat' split
  all_goals simp

@[simp] theorem guardHaltsGroup_gd (c : Cause) (m : Mode) (s : State) : (guardHaltsGroup c m s).gd = s.gd := by
  unfold guardHaltsGroup; repeat' split
  all_goals simp

@[simp] theorem guardHaltsGroup_pending (c : Cause) (m : Mode) (s : State) : (guardHaltsGroup c m s).pending = s.pending := by
  unfold guardHaltsGroup; repeat' split
  all_goals simp


/-! `hastenEnding` -/

@[simp] theorem hastenEnding_pins (s : State) : (hastenEnding s).pins = s.pins := by
  unfold hastenEnding; repeat' split
  all_goals simp

@[simp] theorem hastenEnding_ss (s : State) : (hastenEnding s).ss = s.ss := by
  unfold hastenEnding; repeat' split
  all_goals simp

@[simp] theorem hastenEnding_tif (s : State) : (hastenEnding s).tif = s.tif := by
  unfold hastenEnding; repeat' split
  all_goals simp

@[simp] theorem hastenEnding_fh (s : State) : (hastenEnding s).fh = s.fh := by
  unfold hastenEnding; repeat' split
  all_goals simp

@[simp] theorem hastenEnding_ru (s : State) : (hastenEnding s).ru = s.ru := by
  unfold hastenEnding; repeat' split
  all_goals simp

@[simp] theorem hastenEnding_pb (s : State) : (hastenEnding s).pb = s.pb := by
  unfold hastenEnding; repeat' split
  all_goals simp

@[simp] theorem hastenEnding_gd (s : State) : (hastenEnding s).gd = s.gd := by
  unfold hastenEnding; repeat' split
  all_goals simp

@[simp] theorem hastenEnding_nb (s : State) : (hastenEnding s).nb = s.nb := by
  unfold hastenEnding; repeat' split
  all_goals simp

@[simp] theorem hastenEnding_pending (s : State) : (hastenEnding s).pending = s.pending := by
  unfold hastenEnding; repeat' split
  all_goals simp


/-! `evalUnit` -/

@[simp] theorem evalUnit_pins (x : MarkSource) (e : CounterEvent) (n : Int) (s : State) (u : Fin 4) : (evalUnit x e n s u).pins = s.pins := by
  unfold evalUnit; dsimp only; split <;> simp

@[simp] theorem evalUnit_ss (x : MarkSource) (e : CounterEvent) (n : Int) (s : State) (u : Fin 4) : (evalUnit x e n s u).ss = s.ss := by
  unfold evalUnit; dsimp only; split <;> simp

@[simp] theorem evalUnit_fh (x : MarkSource) (e : CounterEvent) (n : Int) (s : State) (u : Fin 4) : (evalUnit x e n s u).fh = s.fh := by
  unfold evalUnit; dsimp only; split <;> simp

@[simp] theorem evalUnit_queue (x : MarkSource) (e : CounterEvent) (n : Int) (s : State) (u : Fin 4) : (evalUnit x e n s u).queue = s.queue := by
  unfold evalUnit; dsimp only; split <;> simp

@[simp] theorem evalUnit_ru (x : MarkSource) (e : CounterEvent) (n : Int) (s : State) (u : Fin 4) : (evalUnit x e n s u).ru = s.ru := by
  unfold evalUnit; dsimp only; split <;> simp

@[simp] theorem evalUnit_pg (x : MarkSource) (e : CounterEvent) (n : Int) (s : State) (u : Fin 4) : (evalUnit x e n s u).pg = s.pg := by
  unfold evalUnit; dsimp only; split <;> simp

@[simp] theorem evalUnit_gd (x : MarkSource) (e : CounterEvent) (n : Int) (s : State) (u : Fin 4) : (evalUnit x e n s u).gd = s.gd := by
  unfold evalUnit; dsimp only; split <;> simp

@[simp] theorem evalUnit_nb (x : MarkSource) (e : CounterEvent) (n : Int) (s : State) (u : Fin 4) : (evalUnit x e n s u).nb = s.nb := by
  unfold evalUnit; dsimp only; split <;> simp

@[simp] theorem evalUnit_pending (x : MarkSource) (e : CounterEvent) (n : Int) (s : State) (u : Fin 4) : (evalUnit x e n s u).pending = s.pending := by
  unfold evalUnit; dsimp only; split <;> simp


/-! `evalMarks` -/

@[simp] theorem evalMarks_pins (x : MarkSource) (e : CounterEvent) (n : Int) (s : State) : (evalMarks x e n s).pins = s.pins := by
  simp [evalMarks, allUnits]

@[simp] theorem evalMarks_ss (x : MarkSource) (e : CounterEvent) (n : Int) (s : State) : (evalMarks x e n s).ss = s.ss := by
  simp [evalMarks, allUnits]

@[simp] theorem evalMarks_fh (x : MarkSource) (e : CounterEvent) (n : Int) (s : State) : (evalMarks x e n s).fh = s.fh := by
  simp [evalMarks, allUnits]

@[simp] theorem evalMarks_queue (x : MarkSource) (e : CounterEvent) (n : Int) (s : State) : (evalMarks x e n s).queue = s.queue := by
  simp [evalMarks, allUnits]

@[simp] theorem evalMarks_ru (x : MarkSource) (e : CounterEvent) (n : Int) (s : State) : (evalMarks x e n s).ru = s.ru := by
  simp [evalMarks, allUnits]

@[simp] theorem evalMarks_pg (x : MarkSource) (e : CounterEvent) (n : Int) (s : State) : (evalMarks x e n s).pg = s.pg := by
  simp [evalMarks, allUnits]

@[simp] theorem evalMarks_gd (x : MarkSource) (e : CounterEvent) (n : Int) (s : State) : (evalMarks x e n s).gd = s.gd := by
  simp [evalMarks, allUnits]

@[simp] theorem evalMarks_nb (x : MarkSource) (e : CounterEvent) (n : Int) (s : State) : (evalMarks x e n s).nb = s.nb := by
  simp [evalMarks, allUnits]

@[simp] theorem evalMarks_pending (x : MarkSource) (e : CounterEvent) (n : Int) (s : State) : (evalMarks x e n s).pending = s.pending := by
  simp [evalMarks, allUnits]


end Sys2Proof.Machine
end

