-- ==== Sys2Proof/Laws/Den.lean ====
section
/-! SUPPORT. DEN stands as R168 says: which operations leave it so. -/

namespace Sys2Proof.Machine

/-- DEN and what decides it are the same in both states. -/
theorem denRight_congr {s t : State} (hg : t.gd = s.gd) (ho : t.outside = s.outside) : t.denRight = s.denRight := by
  have h1 : t.ss = s.ss := congrArg Outside.ss ho
  have h2 : t.tif.link = s.tif.link := congrArg Outside.link ho
  simp [State.denRight, hg, h1, h2]

@[simp] theorem driveDen_denRight (s : State) : (driveDen s).denRight = true := by
  unfold State.denRight driveDen
  by_cases h : s.ss.node = .run ∧ s.gd.state ≠ .stopped ∧ s.tif.link ≠ .silent <;> simp_all

@[simp] theorem guardRecord_denRight (c : Cause) (m : Mode) (s : State) : (guardRecord c m s).denRight = true :=
  driveDen_denRight _

@[simp] theorem guardEmpty_denRight (s : State) : (guardEmpty s).denRight = true := driveDen_denRight _

@[simp] theorem evalHead_denRight (s : State) : (evalHead s).denRight = s.denRight := denRight_congr (by simp) (by simp)

@[simp] theorem produce_denRight (t : NoticeType) (c : List Byte) (s : State) : (produce t c s).denRight = s.denRight :=
  denRight_congr (by simp) (by simp)

@[simp] theorem claim_denRight (o : SegOutcome) (m : Mode) (s : State) : (claim o m s).denRight = s.denRight :=
  denRight_congr (by simp) (by simp)

@[simp] theorem pgIdle_denRight (s : State) : (pgIdle s).denRight = s.denRight := rfl

theorem guardStops_denRight {s : State} (h : s.denRight = true) : (guardStops s).denRight = true := by
  unfold guardStops
  split
  · simp
  · exact h

theorem afterRemoval_denRight (t : Byte) (o : SegOutcome) (n : Nat) (s : State) :
    (afterRemoval t o n s).denRight = s.denRight := by
  refine denRight_congr ?_ (by simp)
  unfold afterRemoval
  dsimp only
  split <;> simp

theorem finishHead_denRight {o : SegOutcome} {s : State} (h : s.denRight = true) : (finishHead o s).denRight = true := by
  unfold finishHead
  split
  · exact h
  · rw [afterRemoval_denRight]
    exact guardStops_denRight h

theorem finishIfOver_denRight {s : State} (h : s.denRight = true) : (finishIfOver s).denRight = true := by
  unfold finishIfOver
  split
  · exact finishHead_denRight h
  · exact h

theorem settleFrom_denRight (n : Nat) {s : State} (h : s.denRight = true) : (settleFrom n s).denRight = true := by
  induction n generalizing s with
  | zero => exact h
  | succ n ih =>
    unfold settleFrom
    split
    · exact ih (by rw [evalHead_denRight]; exact finishHead_denRight h)
    · exact h

theorem settle_denRight {s : State} (h : s.denRight = true) : (settle s).denRight = true := settleFrom_denRight _ h

theorem evaluate_denRight {s : State} (h : s.denRight = true) : (evaluate s).denRight = true :=
  settle_denRight (by rw [evalHead_denRight]; exact h)

@[simp] theorem haltSlot_denRight (k : Fin 8) (c : Cause) (o : StationId) (m : Mode) (b : Bool) (s : State) :
    (haltSlot k c o m b s).denRight = s.denRight := denRight_congr (by simp) (by simp)

@[simp] theorem localHalt_denRight (k : Fin 8) (c : Cause) (m : Mode) (b : Bool) (s : State) :
    (localHalt k c m b s).denRight = s.denRight := denRight_congr (by simp) (by simp)

@[simp] theorem clearSlot_denRight (k : Fin 8) (n : Byte) (s : State) : (clearSlot k n s).denRight = s.denRight :=
  denRight_congr (by simp) (by simp)

theorem guardLeave_denRight (c : Cause) (m : Mode) (s : State) : (guardLeave c m s).denRight = true := by
  refine finishIfOver_denRight ?_
  rw [claim_denRight, faultNotice, produce_denRight, denRight_congr (guardHaltsGroup_gd c m _) (guardHaltsGroup_outside c m _)]
  exact guardRecord_denRight c m s

theorem guardAdd_denRight (c : Cause) (m : Mode) {s : State} (h : s.denRight = true) : (guardAdd c m s).denRight = true := by
  unfold guardAdd
  refine finishIfOver_denRight ?_
  dsimp only
  split
  · rw [denRight_congr (hastenEnding_gd _) (hastenEnding_outside _)]
    exact h
  · exact h

theorem guardTake_denRight (c : Cause) (m : Mode) {s : State} (h : s.denRight = true) : (guardTake c m s).denRight = true := by
  unfold guardTake
  split
  · exact h
  · exact h
  · exact h
  · split
    · exact guardLeave_denRight c m s
    · exact guardAdd_denRight c m h

theorem guardTakeAll_denRight (cs : List (Cause × Mode)) {s : State} (h : s.denRight = true) :
    (guardTakeAll cs s).denRight = true := by
  unfold guardTakeAll
  induction cs generalizing s with
  | nil => exact h
  | cons c cs ih => exact ih (guardTake_denRight c.1 c.2 h)

theorem guardRemovePeer_denRight {s : State} (h : s.denRight = true) : (guardRemovePeer s).denRight = true := by
  unfold guardRemovePeer
  dsimp only
  repeat' split
  all_goals first | simp | exact h

theorem guardLatchPeer_denRight (o : StationId) (m : Mode) {s : State} (h : s.denRight = true) :
    (guardLatchPeer o m s).denRight = true := by
  unfold guardLatchPeer
  split <;> exact guardTake_denRight _ m h

@[simp] theorem evalMarks_denRight (x : MarkSource) (e : CounterEvent) (n : Int) (s : State) :
    (evalMarks x e n s).denRight = s.denRight := denRight_congr (by simp) (by simp)

theorem followTest_denRight (b : Int) {s : State} (h : s.denRight = true) : (followTest b s).denRight = true := by
  unfold followTest
  split
  · exact guardTake_denRight _ _ h
  · exact h

theorem stepCommand_denRight (d : Dir) {s : State} (h : s.denRight = true) : (stepCommand d s).denRight = true := by
  simp only [stepCommand, evalMarks_denRight]
  exact followTest_denRight _ h

theorem stepFeedback_denRight (c : Int) {s : State} (h : s.denRight = true) : (stepFeedback c s).denRight = true := by
  unfold stepFeedback
  dsimp only
  split
  · exact h
  · split
    · exact guardTake_denRight _ _ h
    · rw [evalMarks_denRight]
      exact followTest_denRight _ h

theorem rewriteCounters_denRight (p : Int) (l : Int × Int) {s : State} (h : s.denRight = true) :
    (rewriteCounters p l s).denRight = true := by
  unfold rewriteCounters
  dsimp only
  split
  · rw [evalMarks_denRight]
    exact h
  · rw [evalMarks_denRight, evalMarks_denRight]
    exact h

theorem applyPreset_denRight {s : State} (h : s.denRight = true) : (applyPreset s).denRight = true := by
  unfold applyPreset
  repeat' split
  all_goals try exact h
  refine evaluate_denRight (followTest_denRight _ ?_)
  have hf : ∀ (x : State), x.denRight = true → (finishHead .done (pgIdle x)).denRight = true := fun x hx =>
    finishHead_denRight (by simpa using hx)
  split
  · exact guardTake_denRight _ _ (hf _ (by rw [seekNotice, produce_denRight]; exact rewriteCounters_denRight _ _ h))
  · exact hf _ (by rw [seekNotice, produce_denRight]; exact rewriteCounters_denRight _ _ h)

end Sys2Proof.Machine
end

