-- ==== Sys2Proof/Laws/Line.lean ====
section
/-! SUPPORT. The frame on the line: which entry it is, and what a change of the entries around it comes to; and the idle
line before a frame. -/

namespace Sys2Proof.Machine

/-- No owed HALT is on the line. -/
theorem onLineHalt_none {s : State} (h : ∀ k : Fin 8, (s.tif.owed[k]).any (fun x => x.onLine) = false) :
    s.onLineHalt? = none := by
  rw [State.onLineHalt?, List.find?_eq_none]
  intro k _ hk
  rw [h k] at hk
  exact Bool.noConfusion hk

theorem allSlots_find (k : Fin 8) : allSlots.find? (fun j => decide (j = k)) = some k := by
  revert k
  decide

/-- The slot whose HALT is on the line. -/
theorem State.sendsHalt.onLineHalt {s : State} {k : Fin 8} {e : HaltEntry} (h : s.sendsHalt k e) :
    s.onLineHalt? = some k := by
  have key : (fun j : Fin 8 => (s.tif.owed[j]).any (fun x => x.onLine)) = fun j => decide (j = k) := by
    funext j
    by_cases hj : j = k
    · rw [hj, h.entry, Option.any_some, h.onLine]
      simp
    · rw [h.others j hj]
      simp [hj]
  rw [State.onLineHalt?, key, allSlots_find]

theorem State.sendsEntry.onLineHalt {s : State} {pre : List TxEntry} {e : TxEntry} {post : List TxEntry}
    (h : s.sendsEntry pre e post) : s.onLineHalt? = none := onLineHalt_none h.owed

/-- The entry that is on the line. -/
theorem State.sendsEntry.onLineEntry {s : State} {pre : List TxEntry} {e : TxEntry} {post : List TxEntry}
    (h : s.sendsEntry pre e post) : s.onLineEntry? = some e := by
  have hp : pre.find? (fun x => x.onLine) = none := by
    rw [List.find?_eq_none]
    intro x hx
    simp [h.others x (by simp [hx])]
  rw [State.onLineEntry?, h.queue, List.find?_append, hp, List.find?_cons, h.onLine]
  rfl

/-- The entry on the line leaves. -/
theorem State.sendsEntry.drop {s : State} {pre : List TxEntry} {e : TxEntry} {post : List TxEntry}
    (h : s.sendsEntry pre e post) : s.tif.queue.filter (fun x => !x.onLine) = pre ++ post := by
  have hp : ∀ q : List TxEntry, (∀ x ∈ q, x.onLine = false) → q.filter (fun x => !x.onLine) = q := by
    intro q hq
    rw [List.filter_eq_self]
    intro x hx
    simp [hq x hx]
  rw [h.queue, List.filter_append, List.filter_cons, h.onLine, hp pre (fun x hx => h.others x (by simp [hx])),
    hp post (fun x hx => h.others x (by simp [hx]))]
  rfl

/-- A change made to the entry on the line alone. -/
theorem State.sendsEntry.map {s : State} {pre : List TxEntry} {e : TxEntry} {post : List TxEntry}
    (h : s.sendsEntry pre e post) (g : TxEntry → TxEntry) (hg : ∀ x : TxEntry, x.onLine = false → g x = x) :
    s.tif.queue.map g = pre ++ g e :: post := by
  have hp : ∀ q : List TxEntry, (∀ x ∈ q, x.onLine = false) → q.map g = q := by
    intro q hq
    conv_rhs => rw [← List.map_id q]
    exact List.map_congr_left fun x hx => hg x (hq x hx)
  rw [h.queue, List.map_append, List.map_cons, hp pre (fun x hx => h.others x (by simp [hx])),
    hp post (fun x hx => h.others x (by simp [hx]))]

theorem sameLimit_self (f : TxFrame) : sameLimit f f = true := by
  cases f <;> simp [sameLimit]

/-- Under the limits of R21 no other entry counts against the limit of a READY, a MARK or a NOTICE. -/
theorem no_alike {s : State} {pre : List TxEntry} {e : TxEntry} {post : List TxEntry}
    (hq : s.tif.queue = pre ++ e :: post) (hl : s.limitsKept) (h1 : txLimit e.frame = 1) :
    ∀ x ∈ pre ++ post, sameLimit e.frame x.frame = false := by
  have hc := hl e.frame
  rw [State.alike, hq, h1, List.countP_append, List.countP_cons, sameLimit_self, if_pos rfl] at hc
  have ha : pre.countP (fun x => sameLimit e.frame x.frame) = 0 := by omega
  have hb : post.countP (fun x => sameLimit e.frame x.frame) = 0 := by omega
  rw [List.countP_eq_zero] at ha hb
  intro x hx
  rcases List.mem_append.1 hx with hx | hx
  · simpa using ha x hx
  · simpa using hb x hx

/-- A change in place of the one waiting entry that a test picks. -/
theorem changeWaiting_one {p : TxFrame → Bool} {g : TxFrame → TxFrame} {pre : List TxEntry} {e : TxEntry}
    {post : List TxEntry} {s : State} (hq : s.tif.queue = pre ++ e :: post) (he : e.onLine = false)
    (hp : p e.frame = true) (hn : ∀ x ∈ pre ++ post, p x.frame = false) :
    changeWaiting p g s
      = { s with tif := { s.tif with queue := pre ++ { e with frame := g e.frame } :: post } } := by
  have hid : ∀ q : List TxEntry, (∀ x ∈ q, p x.frame = false) →
      q.map (fun e => if p e.frame && !e.onLine then { e with frame := g e.frame } else e) = q := by
    intro q h
    conv_rhs => rw [← List.map_id q]
    exact List.map_congr_left fun x hx => by simp [h x hx]
  unfold changeWaiting
  dsimp only
  rw [hq, List.map_append, List.map_cons, hid pre (fun x hx => hn x (by simp [hx])),
    hid post (fun x hx => hn x (by simp [hx])), hp, he]
  rfl

theorem sameLimit_mark {u : Fin 4} {f : Firings} {x : TxFrame} (h : sameLimit (.mark u f) x = false) :
    x.isMark u = false := by
  cases x <;> simp_all [sameLimit, TxFrame.isMark]

theorem sameLimit_notice {d : Byte} {o : Bool} {n : Notice} {x : TxFrame} (h : sameLimit (.notice d o n) x = false) :
    x.isNotice = false := by
  cases x <;> simp_all [sameLimit, TxFrame.isNotice]

/-- What an attempt that ends without its frame taken or abandoned comes to, when `n` attempts have been counted. -/
theorem attemptWaits_eq {s : State} {pre : List TxEntry} {e : TxEntry} {post : List TxEntry}
    (h : s.sendsEntry pre e post) (hl : s.limitsKept) {r : Reception} {n : Nat} {t : State}
    (ht : t = s.ended r (pre ++ { e with attempts := e.attempts + n } :: post)) :
    attemptWaits t = s.triesAgain r pre e post n := by
  have h1 : t.onLineHalt? = none := onLineHalt_none (by rw [ht]; exact h.owed)
  have hq : t.tif.queue = pre ++ { e with attempts := e.attempts + n } :: post := by rw [ht]; rfl
  have h2 : t.onLineEntry? = some { e with attempts := e.attempts + n } := by
    have hp : pre.find? (fun x => x.onLine) = none := by
      rw [List.find?_eq_none]
      intro x hx
      simp [h.others x (by simp [hx])]
    rw [State.onLineEntry?, hq, List.find?_append, hp, List.find?_cons]
    simp [h.onLine]
  have hoff : ∀ g : TxEntry → TxEntry, (∀ x : TxEntry, x.onLine = false → g x = x) → ∀ y,
      (pre ++ y :: post).map g = pre ++ g y :: post := by
    intro g hg y
    have hp : ∀ q : List TxEntry, (∀ x ∈ q, x.onLine = false) → q.map g = q := by
      intro q hq
      conv_rhs => rw [← List.map_id q]
      exact List.map_congr_left fun x hx => hg x (hq x hx)
    rw [List.map_append, List.map_cons, hp pre (fun x hx => h.others x (by simp [hx])),
      hp post (fun x hx => h.others x (by simp [hx]))]
  have hdrop : (pre ++ { e with attempts := e.attempts + n } :: post).filter (fun x => !x.onLine) = pre ++ post := by
    have hp : ∀ q : List TxEntry, (∀ x ∈ q, x.onLine = false) → q.filter (fun x => !x.onLine) = q := by
      intro q hq
      rw [List.filter_eq_self]
      intro x hx
      simp [hq x hx]
    rw [List.filter_append, List.filter_cons, hp pre (fun x hx => h.others x (by simp [hx])),
      hp post (fun x hx => h.others x (by simp [hx]))]
    simp [h.onLine]
  have hoff' := hoff (fun x => { x with onLine := false }) (by intro x hx; cases x; simp_all)
  have hna := no_alike h.queue hl
  unfold attemptWaits State.triesAgain
  rw [h1, h2]
  obtain ⟨fr, n0, ol, wd⟩ := e
  dsimp only at hdrop hoff' hna ht ⊢
  split
  · rw [dropOnLine, hq, hdrop, ht]
    rfl
  · rw [hq, hoff']
    cases fr with
    | ready k g m tag => subst ht; rfl
    | answer i st p => subst ht; rfl
    | mark u f =>
      subst ht
      have hn : ∀ x ∈ pre ++ post, x.frame.isMark u = false := fun x hx => sameLimit_mark (hna rfl x hx)
      show foldHeld u _ = (match s.pb.units[u].held with | none => _ | some _ => _)
      unfold foldHeld
      dsimp only
      show (match s.pb.units[u].held with | none => _ | some _ => _) = _
      split
      · rfl
      · rw [changeWaiting_one (pre := pre) (e := ⟨.mark u f, n0 + n, false, wd⟩) (post := post) rfl rfl
          (by simp [TxFrame.isMark]) hn]
        rfl
    | notice d o m =>
      subst ht
      have hn : ∀ x ∈ pre ++ post, x.frame.isNotice = false := fun x hx => sameLimit_notice (hna rfl x hx)
      show noticeWaits _ = if s.nb.lateOverflow then _ else _
      unfold noticeWaits
      show (if s.nb.lateOverflow then _ else _) = _
      split
      · rw [changeWaiting_one (pre := pre) (e := ⟨.notice d o m, n0 + n, false, wd⟩) (post := post) rfl rfl rfl hn]
        rfl
      · rfl

/-! ### The idle line -/

/-- Recessive bits before the start bit are no part of a frame (R2). -/
theorem receive_recessives (k : Nat) (bits : List TrunkBit) : receive (List.replicate k recessive ++ bits) = receive bits := by
  induction k with
  | zero => rfl
  | succ k ih => rw [List.replicate_succ, List.cons_append]; exact ih

/-- While the line is not idle, a dominant bit sets the count back and a recessive one adds to it (R4). -/
theorem fromIdle_recessives {n : Nat} (k : Nat) (bits : List TrunkBit) (hn : n ≤ Config.idleLength)
    (hk : Config.idleLength ≤ n + k) :
    fromIdle n (List.replicate k recessive ++ bits)
      = some (List.replicate (n + k - Config.idleLength) recessive ++ bits) := by
  induction k generalizing n with
  | zero =>
    have h : n = Config.idleLength := by omega
    subst h
    cases bits <;> simp [fromIdle]
  | succ k ih =>
    rw [List.replicate_succ, List.cons_append, fromIdle]
    split
    · have h : n = Config.idleLength := by omega
      subst h
      rw [show Config.idleLength + (k + 1) - Config.idleLength = k + 1 by omega, List.replicate_succ, List.cons_append]
    · rw [if_pos rfl, ih (by omega) (by omega)]
      congr 3
      omega

/-- The rest of other stations' breaks and an idle line after it: what follows is decoded (R3, R4). -/
theorem fromIdle_gap {n d k : Nat} (bits : List TrunkBit) (hn : n < Config.idleLength) (hk : Config.idleLength ≤ k) :
    ∃ m, fromIdle n (List.replicate d dominant ++ List.replicate k recessive ++ bits)
      = some (List.replicate m recessive ++ bits) := by
  induction d generalizing n with
  | zero => exact ⟨_, fromIdle_recessives k bits (by omega) (by omega)⟩
  | succ d ih =>
    rw [List.replicate_succ, List.cons_append, List.cons_append, fromIdle, if_neg (by omega)]
    exact ih (by show 0 < Config.idleLength; decide)

/-- Bits are recessive throughout, or they end with a dominant one and recessive ones after it. -/
theorem bits_cases (bits : List TrunkBit) :
    (∃ n, bits = List.replicate n recessive) ∨ ∃ pre n, bits = pre ++ dominant :: List.replicate n recessive := by
  induction bits with
  | nil => exact .inl ⟨0, rfl⟩
  | cons b rest ih =>
    obtain ⟨n, rfl⟩ | ⟨pre, n, rfl⟩ := ih
    · by_cases hb : b = recessive
      · exact .inl ⟨n + 1, by rw [hb, List.replicate_succ]⟩
      · exact .inr ⟨[], n, by rw [show b = dominant from Bool.eq_false_iff.2 hb, List.nil_append]⟩
    · exact .inr ⟨b :: pre, n, rfl⟩

/-- Recessive bit times add to the idle count (R4). -/
theorem idleCountAfter_recessives (n k : Nat) : idleCountAfter n (List.replicate k recessive) = n + k := by
  induction k generalizing n with
  | zero => rfl
  | succ k ih =>
    rw [List.replicate_succ]
    exact (ih (n + 1)).trans (by omega)

/-- A dominant bit time sets the idle count back, whatever stood before it (R4). -/
theorem idleCountAfter_dominant (n k : Nat) (pre : List TrunkBit) :
    idleCountAfter n (pre ++ dominant :: List.replicate k recessive) = k := by
  rw [idleCountAfter, List.foldl_append]
  exact (idleCountAfter_recessives 0 k).trans (Nat.zero_add k)

/-- The line is idle after bits that end with a dominant one and `k` recessive ones exactly if `k` is 9 or more (R4). -/
theorem idleEnds_dominant {s : State} {pre : List TrunkBit} {k : Nat} :
    s.idleEnds (pre ++ dominant :: List.replicate k recessive) ↔ 9 ≤ k := by
  constructor
  · rintro (⟨x, h⟩ | ⟨n, h, -⟩)
    · by_contra hk
      have hl : x.length + 9 = pre.length + (k + 1) := by simpa using (congrArg List.length h).symm
      have hi : (x ++ List.replicate 9 recessive)[pre.length]? = some dominant := by rw [← h]; simp
      rw [List.getElem?_append_right (by omega), List.getElem?_replicate] at hi
      split at hi <;> cases hi
    · have hm : dominant ∈ List.replicate n recessive := by rw [← h]; simp
      exact absurd (List.eq_of_mem_replicate hm) (by decide)
  · intro hk
    refine .inl ⟨pre ++ dominant :: List.replicate (k - 9) recessive, ?_⟩
    rw [List.append_assoc, List.cons_append, List.replicate_append_replicate, Nat.sub_add_cancel hk]

theorem idleEnds_recessives {s : State} {k : Nat} : s.idleEnds (List.replicate k recessive) ↔ 9 ≤ s.tif.idleCount + k := by
  constructor
  · rintro (⟨x, h⟩ | ⟨n, h, hn⟩)
    · have hl := congrArg List.length h
      simp at hl
      omega
    · have hl := congrArg List.length h
      simp at hl
      omega
  · exact fun h => .inr ⟨k, rfl, h⟩

/-- The count over the bits says whether the line is idle after them (R4). -/
theorem lineIdle_readLine (s : State) (bits : List TrunkBit) : (readLine bits s).lineIdle = true ↔ s.idleEnds bits := by
  show decide (Config.idleLength ≤ idleCountAfter s.tif.idleCount bits) = true ↔ _
  rw [decide_eq_true_iff]
  obtain ⟨n, rfl⟩ | ⟨pre, n, rfl⟩ := bits_cases bits
  · rw [idleCountAfter_recessives, idleEnds_recessives]; rfl
  · rw [idleCountAfter_dominant, idleEnds_dominant]; rfl

/-- No frame is decoded from bits in which the line does not become idle (R4). -/
theorem fromIdle_eq_none {n : Nat} {bits : List TrunkBit}
    (h : ∀ pre post, bits = pre ++ post → ¬ ((∃ x, pre = x ++ List.replicate 9 recessive)
      ∨ ∃ k, pre = List.replicate k recessive ∧ 9 ≤ n + k)) : fromIdle n bits = none := by
  induction bits generalizing n with
  | nil =>
    have h0 := h [] [] rfl
    rw [fromIdle, if_neg]
    exact fun hn => h0 (.inr ⟨0, rfl, hn⟩)
  | cons b rest ih =>
    have h0 := h [] (b :: rest) rfl
    rw [fromIdle, if_neg fun (hn : Config.idleLength ≤ n) => h0 (.inr ⟨0, rfl, hn⟩)]
    refine ih fun pre post hr => ?_
    rintro (⟨x, rfl⟩ | ⟨k, rfl, hk⟩)
    · exact h (b :: (x ++ List.replicate 9 recessive)) post (by simp [hr]) (.inl ⟨b :: x, rfl⟩)
    · by_cases hb : b = recessive
      · rw [if_pos hb] at hk
        exact h (b :: List.replicate k recessive) post (by simp [hr]) (.inr ⟨k + 1, by rw [hb, List.replicate_succ], by omega⟩)
      · rw [if_neg hb] at hk
        refine h (b :: List.replicate k recessive) post (by simp [hr]) (.inl ⟨b :: List.replicate (k - 9) recessive, ?_⟩)
        rw [List.cons_append, List.replicate_append_replicate, Nat.sub_add_cancel (by omega)]

theorem State.receives.hears {s : State} {gap : List TrunkBit} (h : s.receives gap) : s.hears = true := by
  obtain ⟨h, -⟩ | ⟨h, -⟩ := h <;> exact h

/-- What a receiver that receives from the end of `gap` on decodes: what follows, with recessive bits before it at most. -/
theorem State.receives.decodes {s : State} {gap : List TrunkBit} (h : s.receives gap) (bits : List TrunkBit) :
    ∃ m, s.decodes (gap ++ bits) = some (List.replicate m recessive ++ bits) := by
  obtain ⟨-, hs, rfl⟩ | ⟨-, hs, hn, d, n, rfl, h9⟩ := h
  · exact ⟨0, by simp [State.decodes, hs]⟩
  · rw [State.decodes, if_pos hs]
    exact fromIdle_gap bits hn h9

/-- A node that waits after a break decodes nothing while the line does not become idle (R3, R4). -/
theorem decodes_eq_none {s : State} {bits : List TrunkBit} (hs : s.tif.reception = .skips)
    (h : ¬ s.everIdle bits) : s.decodes bits = none := by
  rw [State.decodes, if_pos hs]
  exact fromIdle_eq_none fun pre post hb hi => h ⟨pre, post, hb, hi⟩

/-- What follows the first instant of an idle line is there exactly if the line becomes idle (R4). -/
theorem fromIdle_isSome (s : State) (bits : List TrunkBit) : (fromIdle s.tif.idleCount bits).isSome = true ↔ s.everIdle bits := by
  constructor
  · intro h
    by_contra hn
    rw [fromIdle_eq_none fun pre post hb hi => hn ⟨pre, post, hb, hi⟩] at h
    exact Bool.noConfusion h
  · rintro ⟨pre, post, rfl, hi⟩
    rw [← lineIdle_readLine] at hi
    suffices h : ∀ n, Config.idleLength ≤ idleCountAfter n pre → (fromIdle n (pre ++ post)).isSome = true from
      h _ (of_decide_eq_true hi)
    clear hi
    induction pre with
    | nil =>
      intro n (hn : Config.idleLength ≤ n)
      cases post <;> simp [fromIdle, hn]
    | cons b pre ih =>
      intro n hn
      rw [List.cons_append, fromIdle]
      split
      · rfl
      · exact ih _ hn

/-- What the node knows of the line after these bits (R4, R5): the count; that the line is idle; that another station's
frame began on it; or nothing new. -/
theorem readLine_eq (s : State) (bits : List TrunkBit) :
    (∀ n, bits = List.replicate n recessive → (readLine bits s).tif.idleCount = s.tif.idleCount + n)
    ∧ (∀ pre n, bits = pre ++ dominant :: List.replicate n recessive → (readLine bits s).tif.idleCount = n)
    ∧ (s.idleEnds bits → (readLine bits s).tif.reception = .awaits)
    ∧ (¬ s.idleEnds bits → s.everIdle bits → (readLine bits s).tif.reception = .reads)
    ∧ (¬ s.everIdle bits → (readLine bits s).tif.reception = s.tif.reception) := by
  have hd : (Config.idleLength ≤ idleCountAfter s.tif.idleCount bits) ↔ s.idleEnds bits := by
    rw [← lineIdle_readLine]
    exact decide_eq_true_iff.symm
  refine ⟨?_, ?_, fun h => ?_, fun h he => ?_, fun he => ?_⟩
  · rintro n rfl
    exact idleCountAfter_recessives _ n
  · rintro pre n rfl
    exact idleCountAfter_dominant _ n pre
  · simp only [readLine, if_pos (hd.2 h)]
  · simp only [readLine, if_neg (mt hd.1 h), if_pos ((fromIdle_isSome s bits).2 he)]
  · have h : ¬ s.idleEnds bits := fun h => he ⟨bits, [], by simp, h⟩
    simp only [readLine, if_neg (mt hd.1 h), if_neg (mt (fromIdle_isSome s bits).1 he)]

/-- Recessive bits before a frame change nothing in what a receiver finds at its last bit. -/
theorem breaksAtLast_recessives (m : Nat) {bits : List TrunkBit} (h : breaksAtLast bits = true) :
    breaksAtLast (List.replicate m recessive ++ bits) = true := by
  have hne : bits ≠ [] := by rintro rfl; exact absurd h (by decide)
  rw [breaksAtLast, receive_recessives, List.dropLast_append_of_ne_nil hne, receive_recessives]
  exact h

theorem receivedFrame_recessives (m : Nat) (bits : List TrunkBit) :
    receivedFrame (List.replicate m recessive ++ bits) = receivedFrame bits := by
  rw [receivedFrame, receive_recessives, receivedFrame]

end Sys2Proof.Machine
end

