-- ==== Sys2Proof/Laws/Requests.lean ====
section
/-! SUPPORT. What taking a frame and serving a request come to when the node hears a well-formed one. -/

namespace Sys2Proof.Machine

theorem countP_answers (q : List TxEntry) :
    (q.filter fun e => e.frame.isAnswer).length
      = (q.countP fun e => match e.frame with | .answer j _ _ => j == 0 | _ => false)
        + (q.countP fun e => match e.frame with | .answer j _ _ => j == 1 | _ => false) := by
  induction q with
  | nil => rfl
  | cons e q ih =>
    have key : (if e.frame.isAnswer then 1 else 0)
        = (if (match e.frame with | .answer j _ _ => j == 0 | _ => false) then 1 else 0)
          + (if (match e.frame with | .answer j _ _ => j == 1 | _ => false) then 1 else 0) := by
      cases e.frame with
      | answer j st p =>
        have hj : j = 0 ∨ j = 1 := by omega
        rcases hj with rfl | rfl <;> rfl
      | _ => rfl
    rw [List.countP_cons, List.countP_cons, List.filter_cons]
    split at key
    · rw [if_pos ‹_›, List.length_cons]
      omega
    · rw [if_neg ‹_›]
      omega

/-- The ANSWERs that wait, counted by their answer slots. -/
theorem answers_length (s : State) : s.answers.length = s.answersOf 0 + s.answersOf 1 := countP_answers s.tif.queue

theorem freeSlot_some {s : State} {i : Fin 2} (h : s.freeSlot? = some i) : s.fh.slots[i] = none := by
  unfold State.freeSlot? at h
  split at h
  · simp_all
    subst h
    simpa using ‹_›
  · split at h
    · simp_all
      subst h
      simpa using ‹_›
    · cases h

/-- With a free answer slot at most one ANSWER waits. -/
theorem answers_lt_two {s : State} {i : Fin 2} (h : s.freeSlot? = some i) (ha : s.answersHeld = true) :
    s.answers.length < 2 := by
  rw [answers_length]
  have hi := freeSlot_some h
  simp only [State.answersHeld, Bool.and_eq_true, beq_iff_eq] at ha
  have h0 : i = 0 ∨ i = 1 := by omega
  rcases h0 with rfl | rfl
  · have : s.fh.slots[0] = none := hi
    rw [this] at ha
    simp at ha
    split at ha <;> omega
  · have : s.fh.slots[1] = none := hi
    rw [this] at ha
    simp at ha
    split at ha <;> omega

/-- An ANSWER is admitted while fewer than two wait (R171). -/
theorem answerWith_eq (i : Fin 2) (st : StationId) (ref : Byte) (kind : BitVec 4) {r : Reply}
    (h : r.state.answers.length < 2) :
    answerWith i st ref kind r = r.state.withAnswer i st ref kind r.result r.contents := by
  have hc : (r.state.tif.queue.countP fun e => sameLimit (.answer i st ([ref, kind.setWidth 8, r.result.byte] ++ r.contents)) e.frame)
      = r.state.answers.length := by
    rw [State.answers, ← List.countP_eq_length_filter]
    congr 1
    funext e
    cases e.frame <;> rfl
  unfold answerWith enqueue
  rw [hc, if_pos (by simpa [txLimit] using h)]
  rfl

/-- The node takes the frame of a command it hears, if the frame is well formed and draws no busy complaint. -/
theorem takeFrame_heard {s : State} {c : Instr} {f : Frame} (act : State → State) (hh : s.hears = true)
    (hw : c.wellFormed s.own = true) (hf : frameOf s.own c = some f) (hb : s.busyFor f = false) :
    takeFrame c act s = act s.heard := by
  simp only [State.hears, Bool.and_eq_true, beq_iff_eq] at hh
  obtain ⟨hl, hbr⟩ := hh
  have hm : f.malformed = false := by
    unfold Instr.wellFormed at hw
    rw [hf] at hw
    simpa using hw
  have ht : taken s = s.heard := by simp [taken, hl, State.heard]
  simp [takeFrame, hf, State.takes, hl, hbr, hm, hb, ht]

theorem served_answers (s : State) (i : Fin 2) (st : StationId) (ref : Byte) (kind : BitVec 4) :
    (s.served i st ref kind).answers = s.answers := rfl

/-- What serving a request comes to: the owner acts on the state with the slot occupied, and the ANSWER joins the
queue (R170, R171). -/
theorem serve_eq {s : State} {c : Instr} {i : Fin 2} {f : Frame} (st : StationId) (ref : Byte) (kind : BitVec 4)
    (act : State → Reply) (hc : s.canServe c i) (hf : frameOf s.own c = some f)
    (ha : (act (s.served i st ref kind)).state.answers = s.answers) :
    serve c st ref kind act s
      = (act (s.served i st ref kind)).state.withAnswer i st ref kind (act (s.served i st ref kind)).result
          (act (s.served i st ref kind)).contents := by
  obtain ⟨hh, hw, hi, hheld⟩ := hc
  have hfree : s.heard.freeSlot? = some i := hi
  rw [serve, takeFrame_heard _ hh hw hf (by simp [State.busyFor, hi])]
  simp only [hfree]
  exact answerWith_eq _ _ _ _ (by rw [show s.heard = s.heard from rfl]; exact ha ▸ answers_lt_two hi hheld)

end Sys2Proof.Machine
end

