-- ==== Sys2Proof/Laws/Stops.lean ====
section
/-! SUPPORT. What a stop and a claim on a moving head come to, and what consuming a heard mark does. -/

namespace Sys2Proof.Machine

/-- A stop changes the generator alone (R116 to R118, R129). -/
theorem pgStop_eq (k : SegKind) (m : Mode) (s : State) : pgStop k m s = { s with pg := s.pg.stopping k m } := by
  cases m with
  | abrupt => rfl
  | smooth =>
    cases hk : k.profile? with
    | none => simp [pgStop, hk, Pg.stopping, Pg.stopsAtOnce, pgIdle, Pg.resting]
    | some p =>
      by_cases h : s.pg.speedSq ≤ p.fl * p.fl
        <;> simp [pgStop, hk, Pg.stopping, Pg.stopsAtOnce, Profile.flSq, h, pgIdle, Pg.resting, Pg.decelerating]
      rfl

/-- A claim on a RUNNING head (R60): ENDING with the outcome and the mode, and the generator stopping. -/
theorem claim_running {s : State} {h : Segment} {rest : List Segment} (hq : s.queue = h :: rest)
    (hs : h.state = .running) (o : SegOutcome) (m : Mode) :
    claim o m s = { s with queue := { h with state := .ending o m } :: rest, pg := s.pg.stopping h.kind m } := by
  simp [claim, hq, hs, setHeadState, pgStop_eq]

/-- A claim on an ENDING head (R60): the outcome stands, ABRUPT ends the stop, SMOOTH changes nothing. -/
theorem claim_ending {s : State} {h : Segment} {rest : List Segment} {o' : SegOutcome} {m' : Mode}
    (hq : s.queue = h :: rest) (hs : h.state = .ending o' m') (o : SegOutcome) (m : Mode) :
    claim o m s =
      if m = .abrupt then { s with queue := { h with state := .ending o' .abrupt } :: rest, pg := s.pg.resting } else s := by
  simp only [claim, hq, hs, setHeadState]
  rfl

/-- One unit of the first entry of a pair is consumed, and an entry that reaches 0 leaves the list (R148). -/
theorem consumeHeard_split {m : MarkRef} {pre : List Heard} {e : Heard} {post : List Heard} (he : e.ref = m)
    (hp : ∀ x ∈ pre, x.ref ≠ m) :
    consumeHeard m (pre ++ e :: post)
      = pre ++ (if e.count ≤ 1 then [] else [{ e with count := e.count - 1 }]) ++ post := by
  induction pre with
  | nil =>
    simp only [List.nil_append, consumeHeard, if_pos he]
    split <;> simp
  | cons x pre ih =>
    simp only [List.cons_append, consumeHeard, if_neg (hp x (by simp))]
    rw [ih fun y hy => hp y (by simp [hy])]

/-- A pair without an entry consumes nothing (R148). -/
theorem consumeHeard_none {m : MarkRef} {l : List Heard} (hl : ∀ x ∈ l, x.ref ≠ m) : consumeHeard m l = l := by
  induction l with
  | nil => rfl
  | cons x l ih =>
    simp only [consumeHeard, if_neg (hl x (by simp))]
    rw [ih fun y hy => hl y (by simp [hy])]

end Sys2Proof.Machine
end

