-- ==== Sys2Proof/Tests/Slice0.lean ====
section
/-! SUPPORT. Tests: ill-formed commands that the checks refuse, figures that the manual gives, and for each statement
with hypotheses a state and operands that meet them. -/

open Sys2Proof Sys2Proof.Machine

namespace Sys2Proof.Tests

/-! ### States to test on -/

/-- The straps of station 5 at 125 kbit/s with RSTEN high. -/
def straps : Straps := { stn := 5, rate := 0, rsten := .high }

/-- Station 5 in node state SETUP, listening. -/
def inSetup : State := { State.reset with
  pins := { State.reset.pins with nreset := .high }
  ss := { State.reset.ss with node := .setup, straps }
  tif := { State.reset.tif with link := .listening } }

/-- Station 5 in node state RUN, listening, with the guard NORMAL. -/
def inRun : State := { inSetup with
  ss := { inSetup.ss with node := .run, locked := true }
  gd := { inSetup.gd with den := .high } }

/-- The line is idle: 9 recessive bit times have been counted (R4). -/
def idle (s : State) : State := { s with tif := { s.tif with idleCount := 9 } }

/-- The node has lost arbitration, and receives the frame on the line (R8). -/
def lostTo (s : State) : State := { s with tif := { s.tif with reception := .reads } }

/-- The frame on the line was broken, and the node's own break has ended (R3). -/
def broke (s : State) : State := { s with tif := { s.tif with reception := .skips } }

/-- The node drives a break (R3). -/
def breaking (s : State) : State := { broke s with tif := { (broke s).tif with breakLeft := 16, txd := dominant } }

/-- Station 5 held in reset. -/
def inHeld : State := State.reset

/-- The profile of section 6.8: FL 100, FH 300, accel and decel 10,000 steps/s². -/
def ramp : Profile := { cls := .ramp, fl := 100, fh := 300, accel := 1000, decel := 1000 }

/-- The profile of section 6.8 in the class FLAT_LOW. -/
def flat : Profile := { ramp with cls := .flatLow }

/-- The profile of section 6.8 as a LOAD carries it. -/
def rawRamp : RawProfile := { cls := 2, fl := 100, fh := 300, accel := 1000, decel := 1000 }

/-- A segment of this kind with tag 9, ungrouped, IMMEDIATE. -/
def seg (kind : SegKind) (state : SegState) : Segment := { tag := 9, kind, slot := none, start := .immediate, state }

/-- A segment of group slot 2. -/
def grouped (state : SegState) : Segment :=
  { tag := 9, kind := .move 12 ramp, slot := some 2, start := .rendezvous, state }

/-- RUN with these segments. -/
def withQueue (q : List Segment) (s : State) : State := { s with queue := q }

/-- A generator in the middle of a motion at this speed squared. -/
def withPg (v remaining : Nat) (s : State) : State :=
  { s with pg := { s.pg with phase := .cruise, speedSq := v, dir := some .plus, remaining } }

/-- Group 3 of stations 5 and 6. -/
def group (state : GroupState) : Group :=
  { address := 3, roster := 0x60, sequence := 7, ready := 0, state }

/-- Slot 2 holds group 3 in this state. -/
def withGroup (state : GroupState) (s : State) : State := s.setSlot 2 (.live (group state))

/-- The node reports to station 30 every type of notice. -/
def reporting (s : State) : State :=
  { s with ss := { s.ss with settings := { s.ss.settings with report := .station 30, mask := 0x3F } } }

/-- An entry of the transmit queue. -/
def entry (frame : TxFrame) (onLine : Bool) : TxEntry := { frame, attempts := 0, onLine, withdrawn := false }

/-- Firings of a mark unit: 2 from position 100 on. -/
def firings : Firings := { count := 2, saturated := false, position := 100 }

def readyFrame : TxFrame := .ready 2 3 7 9
def markFrame : TxFrame := .mark 1 firings
def answerFrame : TxFrame := .answer 0 30 [1, 5, 0]
def noticeFrame (overflow : Bool) : TxFrame := .notice 0x1E overflow { type := .empty, contents := [0, 0, 0, 0] }

/-- The node sends this frame. -/
def sending (frame : TxFrame) (s : State) : State :=
  { s with tif := { s.tif with link := .sending, queue := [entry frame true] } }

/-- This frame waits. -/
def waiting (frame : TxFrame) (s : State) : State := { s with tif := { s.tif with queue := [entry frame false] } }

/-- The HALT that slot 2 owes. -/
def haltEntry (onLine : Bool) : HaltEntry :=
  { cause := .rendezvousTimeout, mode := .abrupt, tag := 9, attempts := 0, onLine }

/-- The node sends the HALT that slot 2 owes. -/
def sendingHalt (s : State) : State :=
  ({ s with tif := { s.tif with link := .sending } } : State).setOwed 2 (some (haltEntry true))

/-- The answer slots are in use: slot 0 waits for its ANSWER. -/
def oneAnswer (s : State) : State :=
  { waiting answerFrame s with fh := { slots := s.fh.slots.set 0 (some { station := 30, reference := 1, kind := 5 }) } }

/-- Mark unit 1 holds firings back. -/
def withHeld (s : State) : State := s.setUnit 1 { s.pb.units[1] with held := some firings }

/-- A list of notices behind the pending one. -/
def backlog (n : Nat) (s : State) : State :=
  { s with nb := { s.nb with list := List.replicate n { type := .empty, contents := [0, 0, 0, 0] } } }

/-- A retry limit of 1. -/
def oneTry (s : State) : State := { s with ss := { s.ss with settings := { s.ss.settings with retryLimit := 1 } } }

/-- The guard STOPPED with these causes. -/
def stoppedBy (first : Cause) (causes : BitVec 16) (s : State) : State :=
  { s with gd := { s.gd with state := .stopped, first := some first, causes, stopMode := some .abrupt, den := .low } }

/-- A SEEK toward PLUS with this variant. -/
def seekKind (variant : SeekVariant) (reverse : Bool) : SegKind := .seek { dir := .plus, variant, reverse, preset := 100 } ramp

/-- A seek state. -/
def seekAt (stage : SeekStage) (latched : Option (Int × Int)) : Seek :=
  { stage := some stage, reversed := false, qualified := true, counted := 0, latched }

/-- A RUNNING SEEK in this stage, at this speed squared. -/
def seeking (variant : SeekVariant) (reverse : Bool) (stage : SeekStage) (latched : Option (Int × Int)) (v : Nat)
    (s : State) : State :=
  let t := withPg v 0 (withQueue [seg (seekKind variant reverse) .running] s)
  { t with pg := { t.pg with seek := some (seekAt stage latched) } }

/-- LIMP is active. -/
def atLimit (s : State) : State := { s with pins := { s.pins with limp := .low } }

/-- A state with at most one frame waiting keeps the limits of R21. -/
theorem limitsKept_of_short {s : State} (h : s.tif.queue.length ≤ 1) : s.limitsKept := by
  intro f
  have hc : s.alike f ≤ s.tif.queue.length := List.countP_le_length
  have ht : 1 ≤ txLimit f := by cases f <;> simp [txLimit]
  omega

/-! ### Ill-formed commands -/

/-- R9: the source of a frame is a station, not 0. -/
theorem test_ill_formed_source : (Instr.commit 0 1).wellFormed 5 = false := by decide

/-- R29: a HALT on the trunk carries cause 1 to 15. -/
theorem test_ill_formed_halt_cause : (Instr.haltGroupTaken 6 3 16 1 0).wellFormed 5 = false := by decide

/-- R27: a group address is 1 to 31. -/
theorem test_ill_formed_group : (Instr.readyTaken 6 32 0 1).wellFormed 5 = false := by decide

/-- R30: the count of a MARK is not 0. -/
theorem test_ill_formed_mark : (Instr.markTaken 6 1 0 0).wellFormed 5 = false := by decide

/-- R27: the class is the kind's. -/
theorem test_ill_formed_class :
    (Instr.frameTakenNoEffect { cls := 0, kind := kindAnswer, source := 6, dest := 7, payload := [1, 5, 0] }).wellFormed 5
      = false := by decide

/-- R27: the length belongs to the kind. -/
theorem test_ill_formed_length :
    (Instr.frameTakenNoEffect { cls := 2, kind := kindStop, source := 6, dest := 7, payload := [1, 5] }).wellFormed 5
      = false := by decide

/-- R13: a complaint has a dominant bit. -/
theorem test_ill_formed_complaint : (Instr.attemptVoided (.complaint recessive recessive)).wellFormed 5 = false := by
  decide

/-- R3: 7 equal bits are no coding error; the eighth is. -/
theorem test_ill_formed_coding :
    (Instr.codingError (List.replicate 7 dominant)).wellFormed 5 = false
      ∧ (Instr.codingError (List.replicate 8 dominant)).wellFormed 5 = true := by decide

/-- R11: a voided frame has been read whole. -/
theorem test_ill_formed_voided : (Instr.frameVoided [dominant, recessive] dominant recessive).wellFormed 5 = false := by
  decide

/-- No word spells a command: the table gives no row any bits. -/
theorem test_no_word_decodes : decodeTableWord 8 0 = none ∧ inRun.withFetchWord 8 0 = inRun := by decide

/-! ### Figures of the manual -/

/-- Table 6-2: the reported speeds and the ramp-down distances of the example profile. -/
theorem test_table_6_2 :
    [10000, 30000, 50000, 70000, 90000].map (fun v => (Pg.speed { Pg.reset with speedSq := v }, ramp.rampDown v))
      = [(100, 0), (173, 1), (223, 2), (264, 3), (300, 4)] := by decide

/-- Section 6.8, the RAMP MOVE of 12 steps: the choices at the ends of intervals 1, 5, 8 and 11. -/
theorem test_ramp_of_12_steps :
    ramp.rampNext 10000 11 = 30000 ∧ ramp.rampNext 90000 7 = 90000 ∧ ramp.rampNext 90000 4 = 70000
      ∧ ramp.rampNext 30000 1 = 10000 := by decide

/-- Section 6.8, the triangular profile: after interval 3 the speed holds. -/
theorem test_triangle_of_6_steps : ramp.rampNext 50000 3 = 50000 ∧ ramp.rampNext 30000 4 = 50000 := by decide

/-- Section 6.8, station 8 of the shared SPAN: after 5 progress steps 4 pulses and accumulator 0. -/
theorem test_span_of_station_8 :
    let s : State := { inRun with pg := { inRun.pg with acc := 5 } }
    let r := s.afterProgress (.span (-7) 10 ramp) 5
    r.1 = 4 ∧ r.2.pg.acc = 0 := by decide

/-- R143's example: armed AT_OR_ABOVE at 100 with period 50 while the counter reads 260, a unit fires four times and
stays ARMED with threshold 300. -/
theorem test_unit_fires_four_times :
    let x : MarkUnit := { MarkUnit.reset with state := .armed, cond := .atOrAbove, threshold := 100, period := 50 }
    x.judge .arming 260 = (4, { x with threshold := 300 }) := by decide

/-- Table 8-2: forward from S0 to S1 counts in X1; from S1 to S2 it counts in X4 alone. -/
theorem test_table_8_2 :
    quadCount .x1 .s0 .s1 = 1 ∧ quadCount .x1 .s1 .s2 = 0 ∧ quadCount .x2 .s1 .s2 = 0 ∧ quadCount .x4 .s1 .s2 = 1
      ∧ quadCount .x4 .s0 .s3 = -1 := by decide

/-- Section 7.9, the EDGE seek: latched at 1,850 and 1,848, stopped at 1,854 and 1,853, with preset 100 the counters
read 104 and 105. -/
theorem test_edge_seek_preset :
    let s : State := { inRun with
      ss := { inRun.ss with settings := { inRun.ss.settings with encMode := .x4 } }
      pb := { inRun.pb with command := 1854, feedback := 1853 } }
    let t := rewriteCounters 100 (1850, 1848) s
    t.pb.command = 104 ∧ t.pb.feedback = 105 := by decide

/-- A SMOOTH STOP of a reversed SEEK above FL: the stage and the latch go, reversed and REF qualified stand (R122, R129). -/
theorem test_stopped_seek_keeps_reversed :
    let s := seeking .edge true .settle (some (3, 3)) 30000 inRun
    let turned : State := { s with pg := { s.pg with seek := s.pg.seek.map fun x => { x with reversed := true } } }
    (claim .stopped .smooth turned).pg.seek
      = some { stage := none, reversed := true, qualified := true, counted := 0, latched := none } := by decide

/-- As in the first row of section 9.9, a cause at a RUNNING grouped head gives HALT, which leaves in the NOTICE, and
behind it FAULT with the cause, the mode, the head's tag and the command counter. -/
theorem test_fault_notice_stands_behind_halt :
    let s := reporting (withGroup .opened (withPg 30000 5 (withQueue [grouped .running] inRun)))
    let t := guardTake .followingError .smooth s
    (t.tif.queue.map TxEntry.frame = [.notice 0x1E false { type := .halt, contents := [2, 3, 6, 5] }])
      ∧ t.nb.list = [{ type := .fault, contents := [6, 0, 9, 0, 0, 0, 0] }] := by decide

/-- Table 2-7: FL 9 is below its range. -/
theorem test_load_range_of_fl :
    segmentOf { tag := 1, slot := 0xFF, start := 0, startMark := 0, body := .move 1 { rawRamp with fl := 9 } } = none := by
  decide

/-- Section 2.9's example: station 20 sends station 5 a LOAD of a MOVE with tag 9 in slot 2, start RENDEZVOUS,
distance −1,200; its payload has 23 bytes, and it is the segment the manual names. -/
theorem test_load_of_the_manual :
    let raw : RawProfile := { cls := 2, fl := 500, fh := 20000, accel := 400, decel := 600 }
    let p : Profile := { cls := .ramp, fl := 500, fh := 20000, accel := 400, decel := 600 }
    let body : LoadBody := .move (BitVec.ofInt 32 (-1200)) raw
    let r : LoadRecord := { tag := 9, slot := 2, start := 1, startMark := 0, body }
    (r.payload 41).length = 23
      ∧ segmentOf r = some { tag := 9, slot := some 2, start := .rendezvous, state := .queued, kind := .move (-1200) p } := by
  decide

/-- A COMMIT without DEFINE or SETUP takes the node to RUN with DEN high (R49, R50). -/
theorem test_commit_enters_run :
    (match exec (.commit 30 1) inSetup with
      | .next t => (t.ss.node, t.ss.locked, t.gd.den)
      | _ => (.held, false, .low)) = (.run, true, .high) := by decide

/-- An IMMEDIATE MOVE loaded into an empty queue starts at once, at FL, in CREEP (R58, R111). -/
theorem test_load_starts_at_once :
    (match exec (.load 30 1 { tag := 1, slot := 0xFF, start := 0, startMark := 0, body := .move 12 rawRamp }) inRun with
      | .next t => (t.queue.map Segment.state, t.pg.speedSq, t.pg.phase, t.pg.remaining)
      | _ => ([], 0, .idle, 0)) = ([.running], 10000, .creep, 12) := by decide

/-- The first interval of that MOVE ends with a pulse: 11 steps remain, and the next runs at 30,000 (section 6.8). -/
theorem test_first_interval_ends :
    (match exec .intervalEnd (withPg 10000 12 (withQueue [seg (.move 12 ramp) .running] inRun)) with
      | .next t => (t.pb.command, t.pg.remaining, t.pg.speedSq, t.pg.phase, t.pg.stepCw)
      | _ => (0, 0, 0, .idle, .low)) = (1, 11, 30000, .accel, .high) := by decide


/-! ### What the statements ask for can be met -/

theorem test_meets_IdleStepPassesAMillisecond :
    let t : State := { inRun with ru := { inRun.ru with timer := some 1 }, pg := { inRun.pg with phase := .dwell, dwellLeft := 1 } }
    (inRun.pending = [] ∧ inRun.ru.timer = none ∧ inRun.pg.phase ≠ .dwell)
      ∧ (t.pending = [] ∧ t.ru.timer = some 1 ∧ t.pg.phase = .dwell)
      ∧ ((broke inRun).pending = [] ∧ (broke inRun).hears = true ∧ (broke inRun).tif.reception = .skips)
      ∧ ((lostTo inRun).pending = [] ∧ (lostTo inRun).tif.reception ≠ .skips)
      ∧ ((breaking inRun).pending = [] ∧ (breaking inRun).hears = false) := by decide

theorem test_meets_NresetReleasedEndsReset : inHeld.pins.nreset = .low ∧ inHeld.ss.node = .held := by decide

theorem test_meets_RestartTakenResets :
    let unstrapped : State := { inSetup with ss := { inSetup.ss with straps := { straps with rsten := .low } } }
    stationOk 1 = true ∧ stationOk 62 = true
      ∧ inRun.hears = true ∧ inRun.ss.straps.rsten = .high ∧ stationOk straps.stn = true
      ∧ stationOk ({ straps with stn := 63 } : Straps).stn = false
      ∧ unstrapped.hears = true ∧ unstrapped.ss.straps.rsten = .low := by decide

theorem test_meets_AttemptStartChoosesByRank :
    let owes : State := (idle inRun).setOwed 0 (some (haltEntry false))
    let q : List TxEntry := [entry (noticeFrame false) false, entry markFrame false, entry answerFrame false]
    let timed : State := { idle inRun with tif := { (idle inRun).tif with queue := q } }
    (owes.hears = true ∧ owes.idleEnds [] ∧ owes.tif.owed[(0 : Fin 8)] = some (haltEntry false)
        ∧ ∀ j : Fin 8, j < 0 → owes.tif.owed[j] = none)
      ∧ (timed.hears = true ∧ timed.idleEnds [] ∧ (∀ k : Fin 8, timed.tif.owed[k] = none)
        ∧ (entry markFrame false).withdrawn = false ∧ (entry markFrame false).frame.isTimed = true
        ∧ ∀ x ∈ [entry (noticeFrame false) false], x.withdrawn = true ∨ x.frame.isTimed = false)
      ∧ ((waiting answerFrame (idle inRun)).hears = true ∧ (waiting answerFrame (idle inRun)).idleEnds []
        ∧ (∀ k : Fin 8, (waiting answerFrame (idle inRun)).tif.owed[k] = none)
        ∧ (entry answerFrame false).frame.isTimed = false)
      ∧ ((idle inRun).hears = true ∧ (idle inRun).idleEnds [] ∧ (∀ k : Fin 8, (idle inRun).tif.owed[k] = none)
        ∧ ∀ x ∈ (idle inRun).tif.queue, x.withdrawn = true)
      ∧ (inRun.hears = true ∧ inRun.idleEnds (List.replicate 9 recessive))
      ∧ (inRun.hears = true ∧ ¬ inRun.idleEnds (List.replicate 8 recessive))
      ∧ ((idle inRun).hears = true ∧ ¬ (idle inRun).idleEnds ([] ++ dominant :: List.replicate 8 recessive) ∧ (idle inRun).everIdle [])
      ∧ (inRun.hears = true ∧ ¬ inRun.idleEnds ([] ++ dominant :: List.replicate 8 recessive) ∧ ¬ inRun.everIdle []) := by
  have h0 : ∀ s : State, 9 ≤ s.tif.idleCount → s.idleEnds [] := fun s h => .inr ⟨0, rfl, h⟩
  refine ⟨⟨rfl, h0 _ (by decide), by decide⟩, ⟨rfl, h0 _ (by decide), by decide⟩,
    ⟨rfl, h0 _ (by decide), by decide⟩, ⟨rfl, h0 _ (by decide), by decide⟩,
    ⟨rfl, idleEnds_recessives.2 (by decide)⟩, ⟨rfl, mt idleEnds_recessives.1 (by decide)⟩,
    ⟨rfl, mt idleEnds_dominant.1 (by decide), [], [], rfl, h0 _ (by decide)⟩,
    rfl, mt idleEnds_dominant.1 (by decide), ?_⟩
  rintro ⟨pre, post, hp, hi⟩
  obtain ⟨rfl, -⟩ := List.append_eq_nil_iff.1 hp.symm
  exact absurd (idleEnds_recessives (k := 0).1 hi) (by decide)

theorem sending_sends (f : TxFrame) (s : State) (h : ∀ k : Fin 8, s.tif.owed[k] = none) :
    (sending f s).sendsEntry [] (entry f true) [] where
  sending := rfl
  queue := rfl
  onLine := rfl
  others := by simp
  owed := fun k => by show (s.tif.owed[k]).any _ = false; rw [h k]; rfl

theorem inRun_owes_none : ∀ k : Fin 8, inRun.tif.owed[k] = none := by decide

theorem sendingHalt_sends : (sendingHalt inRun).sendsHalt 2 (haltEntry true) where
  sending := rfl
  entry := rfl
  onLine := rfl
  others := by decide
  queue := by decide

theorem test_meets_ArbitrationLostKeepsTheFrame :
    ((sendingHalt inRun).tif.mismatchTest = false ∧ (sendingHalt inRun).limitsKept
        ∧ (sendingHalt inRun).sendsHalt 2 (haltEntry true))
      ∧ ∀ f : TxFrame, (sending f inRun).tif.mismatchTest = false ∧ (sending f inRun).limitsKept
        ∧ (sending f inRun).sendsEntry [] (entry f true) [] :=
  ⟨⟨rfl, limitsKept_of_short (by decide), sendingHalt_sends⟩,
    fun f => ⟨rfl, limitsKept_of_short (by simp [sending]), sending_sends f inRun inRun_owes_none⟩⟩

theorem test_meets_AttemptVoidedCountsAndRetries :
    (∀ f : TxFrame, (sending f inRun).tif.mismatchTest = false ∧ (sending f inRun).limitsKept)
      ∧ (sendingHalt inRun).limitsKept
      ∧ (∃ a b, VoidHow.complaint dominant recessive = .complaint a b ∧ (a = dominant ∨ b = dominant))
      ∧ (∃ a b, VoidHow.complaint recessive dominant = .complaint a b ∧ (a = dominant ∨ b = dominant))
      ∧ (haltEntry true).attempts + 1 < inRun.ss.settings.retryLimit
      ∧ (∀ f : TxFrame, (entry f true).attempts + 1 < inRun.ss.settings.retryLimit) :=
  ⟨fun _ => ⟨rfl, limitsKept_of_short (by simp [sending])⟩, limitsKept_of_short (by decide), ⟨_, _, rfl, .inl rfl⟩,
    ⟨_, _, rfl, .inr rfl⟩, by decide, fun _ => by show 0 + 1 < 8; omega⟩

theorem test_meets_AttemptVoidedAbandonsAtTheLimit :
    (sendingHalt (oneTry inRun)).sendsHalt 2 (haltEntry true)
      ∧ (oneTry inRun).ss.settings.retryLimit ≤ (haltEntry true).attempts + 1
      ∧ ∀ f : TxFrame, (sending f (oneTry inRun)).sendsEntry [] (entry f true) []
        ∧ (entry f true).withdrawn = false ∧ (oneTry inRun).ss.settings.retryLimit ≤ (entry f true).attempts + 1 :=
  ⟨{ sending := rfl, entry := rfl, onLine := rfl, others := by decide, queue := by decide }, by decide,
    fun f => ⟨sending_sends f (oneTry inRun) (by decide), rfl, by show 1 ≤ 0 + 1; omega⟩⟩

/-- What a MARK and a NOTICE leave behind when they are abandoned: no held firings and some, no notice and one, with a
report station and without. -/
theorem test_meets_AttemptVoidedAbandonsAtTheLimit_producers :
    (sending markFrame (oneTry inRun)).pb.units[(1 : Fin 4)].held = none
      ∧ (sending markFrame (oneTry (withHeld inRun))).pb.units[(1 : Fin 4)].held = some firings
      ∧ (sending markFrame (oneTry (withHeld inRun))).limitsKept
      ∧ ∀ s ∈ [inRun, backlog 1 inRun, reporting (backlog 8 inRun)],
        (sending (noticeFrame false) (oneTry s)).ss.node ≠ .silent ∧ (sending (noticeFrame false) (oneTry s)).limitsKept := by
  refine ⟨by decide, by decide, limitsKept_of_short (by decide), fun s hs => ⟨?_, limitsKept_of_short (by simp [sending])⟩⟩
  revert s
  decide

/-- The node sends, and reads on after a mismatch. -/
def mismatched (s : State) : State :=
  let t := sending readyFrame s
  { t with tif := { t.tif with mismatchTest := true } }

theorem test_meets_MismatchTestsForABreak :
    (sending readyFrame inRun).tif.link = .sending ∧ (mismatched inRun).tif.link = .sending
      ∧ (mismatched inRun).tif.mismatchTest = true := by decide

/-- The line is at no instant idle in these bits: 8 dominant ones, and 8 recessive ones after a dominant one. -/
theorem never_idle : ∀ bits ∈ [List.replicate 8 dominant, dominant :: List.replicate 8 recessive],
    ¬ (broke inRun).everIdle bits := by
  intro bits hb
  rw [← fromIdle_isSome]
  revert bits
  decide

theorem test_meets_MismatchTestEndEntersSilent :
    let levels := (Vector.replicate 7 dominant).set 6 recessive
    (levels.toList.any fun b => b == recessive) = true
      ∧ ((mismatched inRun).tif.link = .sending ∧ (mismatched inRun).tif.mismatchTest = true
        ∧ (mismatched inRun).ss.node = .run ∧ (mismatched inRun).gd.state = .normal)
      ∧ ((mismatched inSetup).tif.link = .sending ∧ (mismatched inSetup).tif.mismatchTest = true
        ∧ (mismatched inSetup).ss.node = .setup) := by decide

/-- The heads that the entry into SILENT can find in RUN, with the guard NORMAL and without. -/
theorem test_meets_MismatchTestEndEntersSilent_heads :
    let head (h : Segment) (g : GroupState) := mismatched (withGroup g (withPg 30000 5 (withQueue [h] inRun)))
    let waits := head (grouped .waiting) .opened
    let announces := head (grouped .announced) .armed
    let runs := head (grouped .running) .opened
    let alone := head (seg (.move 12 ramp) .running) .opened
    let ends := head (seg (.move 12 ramp) (.ending .stopped .smooth)) .opened
    let stopping : State := { ends with gd := { ends.gd with state := .stopping } }
    let stopped := stoppedBy .driveFault Cause.driveFault.bit waits
    (∀ s ∈ [waits, announces, runs, alone, ends, stopping, stopped],
        s.tif.link = .sending ∧ s.tif.mismatchTest = true ∧ s.ss.node = .run)
      ∧ (∀ s ∈ [waits, announces, runs, alone, ends], s.gd.state = .normal)
      ∧ (announces.group? 2 = some (group .armed) ∧ announces.slotHalted 2 = false)
      ∧ (runs.group? 2 = some (group .opened) ∧ runs.slotHalted 2 = false)
      ∧ alone.queue = seg (.move 12 ramp) .running :: []
      ∧ (stopping.gd.state ≠ .normal ∧ stopping.headEnding = true)
      ∧ (stopped.gd.state = .stopped ∧ stopped.headMoving = false) := by decide

theorem test_meets_CodingErrorDrivesABreak :
    let header : List TrunkBit := List.replicate 21 dominant ++ List.replicate 4 recessive
    inRun.receives [] ∧ breaksAtLast (List.replicate 8 dominant) = true ∧ (breaking inRun).tif.breakLeft ≠ 0
      ∧ (broke inRun).receives (List.replicate 8 dominant ++ List.replicate 9 recessive)
      ∧ (∀ s ∈ [broke inRun, breaking inRun], s.tif.link = .listening ∧ s.tif.reception = .skips)
      ∧ (receive ([recessive] ++ List.replicate 7 dominant) = .reading (List.replicate 7 dominant) dominant 7)
      ∧ (header.length = 25 ∧ header.head? = some dominant ∧ 29 ≤ natOfBits ((header ++ [recessive]).drop 21)
        ∧ 30 = natOfBits ((header ++ [dominant]).drop 21)
        ∧ ¬ 29 ≤ natOfBits ((List.replicate 25 dominant ++ [recessive]).drop 21)) :=
  ⟨.inl ⟨by decide, by decide, rfl⟩, by decide, by decide, .inr ⟨rfl, rfl, by decide, 8, 9, rfl, by decide⟩, by decide, by decide⟩

/-- The Trunk Interface after a command. -/
def tifAfter (c : Instr) (s : State) : Tif :=
  match exec c s with
  | .next t => t.tif
  | _ => s.tif

/-- R3's own case: after the node's break, 8 more dominant bits of the other stations' breaks draw no second break, and 9
recessive bit times after them make the line idle, on which a new frame with a coding error draws one. -/
theorem test_break_once_for_a_frame :
    let after := List.replicate 8 dominant ++ List.replicate 9 recessive
    tifAfter (.codingError (List.replicate 8 dominant)) (broke inRun) = (broke inRun).tif
      ∧ tifAfter (.codingError (after ++ List.replicate 8 dominant)) (broke inRun) = (breaking inRun).tif := by
  decide

/-- After its own break, or a break that voided its attempt, the node takes a later frame, and decodes again; while it
drives a break it takes none (R3, R11). -/
theorem test_later_frame_is_taken_after_a_break :
    let taken (s : State) := tifAfter (.stop 30 1 0 9) s
    (taken (broke inRun)).reception = .awaits ∧ (taken (broke inRun)).queue.length = 1
      ∧ taken (breaking inRun) = (breaking inRun).tif := by
  decide

/-- After a window the ninth recessive bit time makes the line idle, and an attempt starts directly after it; another
station's start bit on the idle line keeps the node from it, and it receives that frame (R4, R5). -/
theorem test_attempt_waits_for_idle :
    let s := waiting answerFrame inRun
    let start (bits : List TrunkBit) := tifAfter (.attemptStart bits) s
    (start (List.replicate 9 recessive)).link = .sending ∧ (start (List.replicate 8 recessive)).link = .listening
      ∧ start (List.replicate 9 recessive ++ [dominant]) = { s.tif with reception := .reads } := by
  decide

/-- A STOP from station 30 to station 5. -/
def stopFrame : Frame := { cls := clsRoutine, kind := kindStop, source := 30, dest := 5, payload := [1, 0, 9] }

/-- Both answer slots are in use. -/
def bothAnswers (s : State) : State :=
  { s with fh := { slots := Vector.replicate 2 (some { station := 30, reference := 1, kind := 5 }) } }

/-- The bits of a frame with its last check bit wrong. -/
def wrongCheck (f : Frame) : List TrunkBit := stuff (dominant :: (f.checkedBits ++ bitsOf (crc f.checkedBits ^^^ 1#16)))

theorem test_meets_FrameVoidedActsNowhere :
    let bad : Frame := { stopFrame with cls := clsUrgent }
    inRun.receives []
      ∧ (broke inRun).receives (List.replicate 9 recessive)
      ∧ receivedFrame stopFrame.codedBits = some (stopFrame, true)
      ∧ receivedFrame (wrongCheck stopFrame) = some (stopFrame, false)
      ∧ (receivedFrame bad.codedBits = some (bad, true) ∧ bad.malformed = true)
      ∧ ((bothAnswers inRun).receives [] ∧ stopFrame.malformed = false
        ∧ stopFrame.dest = destStation (bothAnswers inRun).own ∧ stopFrame.isRequest = true
        ∧ (bothAnswers inRun).fh.slots[0].isSome = true ∧ (bothAnswers inRun).fh.slots[1].isSome = true) :=
  ⟨.inl ⟨by decide, by decide, rfl⟩, .inr ⟨rfl, rfl, by decide, 0, 9, rfl, by decide⟩, by decide +kernel, by decide +kernel,
    by decide +kernel, .inl ⟨by decide, by decide, rfl⟩, by decide⟩

theorem test_meets_JoiningStuckAndRecovery :
    let joining : State := { inSetup with tif := { inSetup.tif with link := .joining } }
    let stuck : State := { inRun with tif := { inRun.tif with link := .stuck } }
    joining.tif.link = .joining ∧ inRun.tif.link = .listening ∧ stuck.tif.link = .stuck := by decide

theorem test_meets_FrameTakenNoEffectChangesNothing :
    let other : Frame := { stopFrame with dest := 62 }
    let answer : Frame := { cls := clsRoutine, kind := kindAnswer, source := 30, dest := 5, payload := [1, 5, 0] }
    let notice : Frame := { cls := clsRoutine, kind := kindNotice, source := 30, dest := destAll, payload := [3, 0, 0, 0, 0, 0] }
    let halt : Frame := { cls := clsUrgent, kind := kindHalt, source := 30, dest := destGroup 31, payload := [1, 0, 9] }
    inRun.hears = true
      ∧ (other.malformed = false ∧ destType other.dest = 0 ∧ destNumber other.dest ≠ inRun.own)
      ∧ (answer.malformed = false ∧ destType answer.dest = 0 ∧ answer.kind = kindAnswer)
      ∧ (notice.malformed = false ∧ destType notice.dest = 2 ∧ notice.kind = kindNotice)
      ∧ (halt.malformed = false ∧ destType halt.dest = 1 ∧ inRun.slotOfAddress? (destNumber halt.dest) = none) := by
  decide

theorem test_meets_OwnReportsTaken :
    (∀ f : TxFrame, ∀ s ∈ [inRun, reporting (backlog 8 inRun), backlog 1 inRun],
        (sending f s).tif.mismatchTest = false ∧ (entry f true).withdrawn = false
        ∧ (sending f s).sendsEntry [] (entry f true) [] ∧ (sending f s).limitsKept ∧ (sending f s).ss.node ≠ .silent)
      ∧ inRun.nb.list = [] ∧ (backlog 1 inRun).nb.list ≠ [] ∧ (backlog 1 inRun).ss.settings.report = .nobody
      ∧ (reporting (backlog 8 inRun)).nb.list.length = 8
      ∧ ReportTo.dest (reporting (backlog 8 inRun)).ss.settings.report = some 0x1E := by
  refine ⟨fun f s hs => ?_, rfl, by decide, rfl, by decide, rfl⟩
  have h : (∀ k : Fin 8, s.tif.owed[k] = none) ∧ s.tif.mismatchTest = false ∧ s.ss.node ≠ .silent := by
    revert s
    decide
  exact ⟨h.2.1, rfl, sending_sends f s h.1, limitsKept_of_short (by simp [sending]), h.2.2⟩

theorem test_meets_TakenFrameLeavesItsQueue :
    inRun.tif.link = .listening
      ∧ ((sendingHalt inRun).tif.mismatchTest = false ∧ (sendingHalt inRun).sendsHalt 2 (haltEntry true))
      ∧ (∀ f : TxFrame, ∀ s ∈ [inRun, withHeld inRun], (sending f s).tif.mismatchTest = false
        ∧ (sending f s).sendsEntry [] (entry f true) [] ∧ (sending f s).limitsKept)
      ∧ (withGroup .opened (sendingHalt inRun)).group? 2 = some (group .opened)
      ∧ (sending markFrame inRun).pb.units[(1 : Fin 4)].held = none
      ∧ (sending markFrame (withHeld inRun)).pb.units[(1 : Fin 4)].held = some firings := by
  refine ⟨rfl, ⟨rfl, sendingHalt_sends⟩, fun f s hs => ?_, by decide, by decide, by decide⟩
  have h : (∀ k : Fin 8, s.tif.owed[k] = none) ∧ s.tif.mismatchTest = false := by
    revert s
    decide
  exact ⟨h.2, sending_sends f s h.1, limitsKept_of_short (by simp [sending])⟩

theorem test_meets_ProducedNoticeIsSentHeldOrDiscarded :
    let full := waiting (noticeFrame false) (reporting (backlog 8 inRun))
    let silent : State := { reporting (backlog 7 inRun) with ss := { (reporting inRun).ss with node := .silent } }
    inRun.ss.settings.report = .nobody
      ∧ (ReportTo.dest (reporting inRun).ss.settings.report = some 0x1E
        ∧ (reporting inRun).ss.settings.mask.getLsbD NoticeType.link.byte.toNat = true
        ∧ (reporting inRun).ss.node ≠ .silent ∧ (reporting inRun).noticePending = false ∧ (reporting inRun).nb.list = [])
      ∧ (silent.ss.node = .silent ∧ silent.nb.list.length < 8)
      ∧ (8 ≤ full.nb.list.length ∧ full.tif.queue = [] ++ entry (noticeFrame false) false :: [])
      ∧ (8 ≤ (reporting (backlog 8 inRun)).nb.list.length ∧ (reporting (backlog 8 inRun)).noticePending = false) := by
  decide

theorem test_meets_limitsKept_of_one_notice :
    (waiting (noticeFrame false) (reporting (backlog 8 inRun))).limitsKept
      ∧ (sending (noticeFrame false) (reporting (backlog 8 inRun))).limitsKept :=
  ⟨limitsKept_of_short (by decide), limitsKept_of_short (by decide)⟩

/-- A head that starts at mark 1 of station 7. -/
def markHead : Segment := { seg (.dwell 1) .waiting with start := .mark { station := 7, unit := 1 } }

/-- Mark 1 of station 7 has been heard once. -/
def heardOnce (s : State) : State :=
  { s with pb := { s.pb with heard := [{ ref := { station := 7, unit := 1 }, count := 1 }] } }

theorem test_meets_HeadEvaluationStartsOrAnnounces :
    let halted := withGroup (.halted .operator 30) (withQueue [grouped .waiting] inRun)
    let opened := withGroup .opened (withQueue [grouped .waiting] inRun)
    (∃ k : Fin 8, (grouped .waiting).slot = some k ∧ halted.slotHalted k = true)
      ∧ (withQueue [seg (.dwell 1) .waiting] inRun).mayProgress (seg (.dwell 1) .waiting)
      ∧ (withQueue [markHead] inRun).mayProgress markHead
      ∧ (∀ e ∈ (withQueue [markHead] inRun).pb.heard, e.ref ≠ { station := 7, unit := 1 })
      ∧ (heardOnce (withQueue [markHead] inRun)).pb.heard = [] ++ { ref := { station := 7, unit := 1 }, count := 1 } :: []
      ∧ opened.mayProgress (grouped .waiting) ∧ opened.group? 2 = some (group .opened)
      ∧ ∀ e ∈ opened.tif.queue, e.frame.isReady = false := by
  unfold State.mayProgress
  decide

theorem test_meets_StartedHeadSetsTheGenerator :
    let t : State := { inRun with pb := { inRun.pb with command := 5 } }
    let run : SegKind := .run .minus (some { station := 7, unit := 1 }) ramp
    (withQueue [seg run .waiting] inRun).heardHas { station := 7, unit := 1 } = false
      ∧ (heardOnce (withQueue [seg run .waiting] inRun)).pb.heard
          = [] ++ { ref := { station := 7, unit := 1 }, count := 1 } :: []
      ∧ t.pb.command = 5 ∧ (5 : Int) = t.pb.command ∧ (-1073741823 : Int) ≠ t.pb.command := by decide

theorem test_meets_EndedHeadLeavesTheQueue :
    let a := withQueue [seg (.move 12 ramp) .running] inRun
    let b := withQueue [seg (.move 12 ramp) (.ending .stopped .smooth), seg (.dwell 1) .queued] inRun
    inRun.nothingOver = true ∧ inRun.queue = [] ∧ (a.pg.phase = .idle ∧ a.queue = seg (.move 12 ramp) .running :: [])
      ∧ (b.pg.phase = .idle ∧ b.queue = seg (.move 12 ramp) (.ending .stopped .smooth) :: [seg (.dwell 1) .queued]) := by
  decide

theorem test_meets_GuardTakesACause :
    let stopped := stoppedBy .driveFault Cause.driveFault.bit inRun
    let moving := withPg 30000 5 (withQueue [seg (.move 12 ramp) .running] inRun)
    let announcing := withGroup .armed (withQueue [grouped .announced] inRun)
    let together := withGroup .opened (withPg 30000 5 (withQueue [grouped .running] inRun))
    let silent : State := { inRun with ss := { inRun.ss with node := .silent }, tif := { inRun.tif with link := .silent } }
    let atFl := withPg 10000 5 (withQueue [seg (.move 12 ramp) .running] inRun)
    let dwell := withQueue [seg (.dwell 1) .running] { inRun with pg := { inRun.pg with phase := .dwell, dwellLeft := 1 } }
    let seek := seeking .edge false .search none 30000 inRun
    let named : State := { seek with pg := { seek.pg with speedName := .accel } }
    let ending := withPg 30000 5 (withQueue [seg (.move 12 ramp) (.ending .stopped .smooth)] inRun)
    let stopping : State := { ending with gd := { ending.gd with state := .stopping } }
    let waits := withGroup .opened (withQueue [grouped .waiting] inRun)
    let endsGrouped := withGroup .opened (withPg 30000 5 (withQueue [grouped (.ending .done .smooth)] inRun))
    inHeld.ss.node = .held ∧ inSetup.ss.node = .setup ∧ silent.ss.node = .silent
      ∧ (stopping.ss.node = .run ∧ stopping.gd.state ≠ .normal ∧ stopping.headEnding = true ∧ stopping.nothingOver = true)
      ∧ (atFl.gd.state = .normal ∧ atFl.pg.stopsAtOnce (.move 12 ramp) .smooth = true)
      ∧ (dwell.gd.state = .normal ∧ dwell.pg.stopsAtOnce (.dwell 1) .smooth = true)
      ∧ (named.gd.state = .normal ∧ named.pg.stopsAtOnce (seekKind .edge false) .smooth = false ∧ named.pg.speedName ≠ .idle)
      ∧ (moving.pg.stopsAtOnce (.move 12 ramp) .smooth = false)
      ∧ (ending.gd.state = .normal ∧ ending.headEnding = true ∧ ending.nothingOver = true)
      ∧ (waits.gd.state = .normal ∧ waits.headMoving = false
        ∧ waits.queue.head?.all (fun h => h.state == .waiting || h.state == .queued) = true)
      ∧ (endsGrouped.gd.state = .normal ∧ endsGrouped.queue = grouped (.ending .done .smooth) :: [])
      ∧ ((seg (.move 12 ramp) .running).slot = none ∧ (seg (.move 12 ramp) .running).state.isMoving = true)
      ∧ (stopped.nothingOver = true ∧ stopped.headEnding = false)
      ∧ (stopped.ss.node = .run ∧ stopped.gd.state ≠ .normal ∧ stopped.headMoving = false)
      ∧ (inRun.ss.node = .run ∧ inRun.gd.state = .normal ∧ inRun.headMoving = false)
      ∧ (moving.gd.state = .normal ∧ moving.headMoving = true ∧ (seg (.move 12 ramp) .running).kind.profile? = some ramp
        ∧ ramp.flSq < moving.pg.speedSq)
      ∧ (announcing.gd.state = .normal ∧ announcing.group? 2 = some (group .armed) ∧ announcing.slotHalted 2 = false)
      ∧ (together.gd.state = .normal ∧ together.group? 2 = some (group .opened) ∧ together.slotHalted 2 = false) := by
  decide

theorem test_meets_HaltedSlotRecordsAndStopsItsHead :
    let armed := withGroup .armed (withQueue [grouped .announcing] inRun)
    let running := withGroup .opened (withPg 30000 5 (withQueue [grouped .running] inRun))
    let ending := withGroup (.halted .operator 30) (withPg 30000 5 (withQueue [grouped (.ending .halted .smooth)] inRun))
    (armed.takesCommand (.haltGroupTaken 6 3 11 0 9) = true ∧ armed.ss.node = .run ∧ causeOf 11 = some .operator
        ∧ modeOf 0 = some .smooth ∧ armed.slotOfAddress? 3 = some 2)
      ∧ (armed.group? 2 = some (group .armed) ∧ armed.slotHalted 2 = false
        ∧ armed.headOfSlot? 2 = some (grouped .announcing))
      ∧ (running.group? 2 = some (group .opened) ∧ running.slotHalted 2 = false
        ∧ running.headOfSlot? 2 = some (grouped .running))
      ∧ (ending.group? 2 = some (group (.halted .operator 30)) ∧ ending.slotHalted 2 = true
        ∧ ending.headOfSlot? 2 = some (grouped (.ending .halted .smooth)))
      ∧ ((withGroup .armed (withQueue [grouped .waiting] inRun)).headOfSlot? 2 = some (grouped .waiting))
      ∧ (withGroup .opened inRun).headOfSlot? 2 = none := by decide

theorem test_meets_HaltAllTakenHaltsEverySlot :
    let s := withGroup .opened inRun
    let held := stoppedBy .peerAllHalt Cause.peerAllHalt.bit s
    (s.takesCommand (.haltAllTaken 6 15 1 0) = true ∧ s.ss.node = .run ∧ causeOf 15 = some .seekFailed
        ∧ modeOf 1 = some .abrupt ∧ hasCause s.gd.causes .peerAllHalt = false ∧ s.gd.state = .normal
        ∧ (taken s).group? 2 = some (group .opened) ∧ (taken s).group? 0 = none)
      ∧ (held.takesCommand (.haltAllTaken 6 1 0 0) = true ∧ hasCause held.gd.causes .peerAllHalt = true) := by decide

/-- The heads that a HALT(ALL) can find: grouped and ungrouped, at FL and above it. -/
theorem test_meets_HaltAllTakenHaltsEverySlot_heads :
    let waits := withGroup .opened (withQueue [grouped .waiting] inRun)
    let announces := withGroup .armed (withQueue [grouped .announcing] inRun)
    let runs := withGroup .opened (withPg 30000 5 (withQueue [grouped .running] inRun))
    let alone (state : SegState) (v : Nat) := withPg v 5 (withQueue [seg (.move 12 ramp) state, seg (.dwell 1) .queued] inRun)
    (∀ s ∈ [waits, announces, runs, alone .running 10000, alone .running 30000, alone (.ending .stopped .smooth) 30000],
        s.takesCommand (.haltAllTaken 6 11 0 0) = true ∧ s.takesCommand (.haltAllTaken 6 11 1 0) = true
        ∧ s.ss.node = .run ∧ s.armedRight = true ∧ s.nothingOver = true ∧ s.gd.state = .normal)
      ∧ waits.group? 2 ≠ none ∧ announces.group? 2 ≠ none ∧ runs.group? 2 ≠ none
      ∧ (alone .running 10000).pg.stopsAtOnce (.move 12 ramp) .smooth = true
      ∧ (alone .running 30000).pg.stopsAtOnce (.move 12 ramp) .smooth = false
      ∧ (alone .running 30000).pg.stopsAtOnce (.move 12 ramp) .abrupt = true
      ∧ runs.pg.stopsAtOnce (.move 12 ramp) .smooth = false := by decide

theorem test_meets_ClearGroupTakenOpensTheSlot :
    let s := withGroup .armed (withQueue [grouped .announcing] inRun)
    let t := withGroup (.halted .operator 30) inRun
    (s.takesCommand (.clearGroupTaken 30 3 255) = true ∧ s.ss.node = .run ∧ s.slotOfAddress? 3 = some 2
        ∧ s.group? 2 = some (group .armed) ∧ (grouped .announcing).slot = some 2
        ∧ (grouped .announcing).state.isAnnounce = true)
      ∧ (t.takesCommand (.clearGroupTaken 30 3 0) = true ∧ t.group? 2 = some (group (.halted .operator 30))
        ∧ (t.headOfSlot? 2).any (fun h => h.state.isAnnounce) = false) := by decide

theorem test_meets_ClearAllTakenClearsEverySlot :
    let s := withGroup (.halted .operator 30) inRun
    let alone := stoppedBy .peerAllHalt Cause.peerAllHalt.bit s
    let both := stoppedBy .peerAllHalt (Cause.peerAllHalt.bit ||| Cause.driveFault.bit) s
    let armed := withGroup .armed (withQueue [grouped .announced] inRun)
    (armed.takesCommand (.clearAllTaken 30 0) = true ∧ (grouped .announced).state.isAnnounce = true
        ∧ armed.group? 2 ≠ none ∧ inRun.queue.head?.any (fun h => h.state.isAnnounce) = false)
      ∧ (s.takesCommand (.clearAllTaken 30 0) = true ∧ s.ss.node = .run ∧ s.group? 2 = some (group (.halted .operator 30))
        ∧ s.group? 7 = none ∧ hasCause s.gd.causes .peerAllHalt = false)
      ∧ (alone.takesCommand (.clearAllTaken 30 0) = true ∧ alone.gd.causes = Cause.peerAllHalt.bit)
      ∧ (both.takesCommand (.clearAllTaken 30 0) = true ∧ hasCause both.gd.causes .peerAllHalt = true
        ∧ both.gd.causes ≠ Cause.peerAllHalt.bit) := by decide

theorem test_meets_ReadyTakenIsRecordedOrFires :
    let halted := withGroup (.halted .operator 30) inRun
    let opened := withGroup .opened inRun
    let under := withGroup .opened (withPg 30000 5 (withQueue [grouped .running] inRun))
    let last := (withQueue [grouped .announced] inRun).setSlot 2 (.live { group .armed with ready := 0x20 })
    (halted.takesCommand (.readyTaken 6 3 7 1) = true ∧ halted.ss.node = .run ∧ halted.slotOfAddress? 3 = some 2
        ∧ halted.group? 2 = some (group (.halted .operator 30)) ∧ halted.slotHalted 2 = true)
      ∧ (opened.takesCommand (.readyTaken 62 3 7 1) = true ∧ opened.slotHalted 2 = false
        ∧ hasStation (group .opened).roster 62 = false)
      ∧ (opened.takesCommand (.readyTaken 6 3 8 1) = true ∧ hasStation (group .opened).roster 6 = true
        ∧ (8 : Byte) ≠ (group .opened).sequence)
      ∧ (opened.takesCommand (.readyTaken 6 3 7 1) = true ∧ (group .opened).state ≠ .armed)
      ∧ (under.takesCommand (.readyTaken 62 3 7 1) = true ∧ under.slotHalted 2 = false ∧ (grouped .running).slot = some 2
        ∧ under.tif.owed[(2 : Fin 8)] = none)
      ∧ (last.takesCommand (.readyTaken 6 3 7 1) = true ∧ last.slotOfAddress? 3 = some 2
        ∧ (0x20#64 ||| 1#64 <<< 6) = (group .armed).roster ∧ (grouped .announced).slot = some 2) := by decide

theorem test_meets_RendezvousTimeoutHaltsTheSlot :
    let s : State := withGroup .armed (withQueue [grouped .announcing] { inRun with ru := { inRun.ru with timer := some 1 } })
    inRun.ru.timer = none
      ∧ (s.ru.timer = some 1 ∧ s.group? 2 = some (group .armed) ∧ (∀ j : Fin 8, j ≠ 2 → s.group? j = none)
        ∧ s.queue = grouped .announcing :: [] ∧ (grouped .announcing).slot = some 2
        ∧ (grouped .announcing).state.isAnnounce = true) := by decide

/-- Eight pairs other than mark 1 of station 7 have been heard. -/
def heardFull (s : State) : State :=
  { s with pb := { s.pb with heard := (List.range 8).map fun i => { ref := { station := BitVec.ofNat 6 (i + 10), unit := 0 }, count := 1 } } }

theorem test_meets_MarkTakenIsHeard :
    let s := withQueue [markHead] inRun
    let c : Instr := .markTaken 7 1 0x0F 100
    let m : MarkRef := { station := 7, unit := 1 }
    let run : Segment := seg (.run .plus (some m) ramp) .running
    (heardOnce (withPg 10000 0 (withQueue [run] inRun))).pg.speedSq ≤ ramp.fl * ramp.fl
      ∧ ¬ (heardOnce (withPg 30000 0 (withQueue [run] inRun))).pg.speedSq ≤ ramp.fl * ramp.fl
      ∧ (heardOnce (withPg 10000 0 (withQueue [run] inRun))).pb.heard = [] ++ { ref := m, count := 1 } :: []
      ∧ (withQueue [run] inRun).heardHas m = false
      ∧ unitOf 1 = some 1 ∧ unitOf 3 = some 3
      ∧ (inRun.takesCommand c = true ∧ inRun.referenced m = false)
      ∧ ((heardOnce s).takesCommand c = true ∧ (heardOnce s).referenced m = true
        ∧ (heardOnce s).pb.heard = [] ++ { ref := m, count := 1 } :: [])
      ∧ (s.takesCommand c = true ∧ s.ss.node = .run ∧ s.referenced m = true ∧ s.heardHas m = false
        ∧ s.pb.heard.length < 8)
      ∧ ((heardFull s).takesCommand c = true ∧ (heardFull s).referenced m = true ∧ (heardFull s).heardHas m = false
        ∧ 8 ≤ (heardFull s).pb.heard.length) := by decide

/-- A request of station 30 to station 5 with reference 1. -/
def requests : List Instr :=
  [.load 30 1 { tag := 1, slot := 0xFF, start := 0, startMark := 0, body := .dwell 1 }, .flushAll 30 1 0, .flushTag 30 1 9,
   .flushSlot 30 1 7, .stop 30 1 0 0, .marksetArm 30 1 3 0 0 0, .marksetDisarm 30 1 3 0, .clearStationTaken 30 1,
   .queryStatus 30 1 0 .low, .queryPosition 30 1 0, .queryQueue 30 1 0, .queryGroup 30 1 7, .queryMarks 30 1 4,
   .querySetup 30 1 0, .setup 30 1 (fieldsOf Settings.reset), .define 30 1 7 31 0x60, .commit 30 1]

/-- Every request can be served in the first free answer slot, in SETUP and in RUN. -/
theorem test_meets_canServe :
    (∀ c ∈ requests, inSetup.canServe c 0) ∧ (∀ c ∈ requests, inRun.canServe c 0)
      ∧ ∀ c ∈ requests, (oneAnswer inRun).canServe c 1 := by
  unfold State.canServe
  decide

theorem test_meets_FramesOutsideTheirNodeStateDoNothing :
    inSetup.ss.node ≠ .run ∧ inRun.ss.node ≠ .setup
      ∧ ∀ c ∈ [Instr.haltGroupTaken 6 3 11 0 9, .haltAllTaken 6 11 0 9, .clearGroupTaken 30 3 0, .clearAllTaken 30 0,
        .readyTaken 6 3 7 9, .markTaken 7 1 1 0], inSetup.takesCommand c = true := by decide

/-- A LOAD record of a DWELL with this tag and slot. -/
def dwellRecord (tag slot : Byte) : LoadRecord := { tag, slot, start := 0, startMark := 0, body := .dwell 1 }

theorem test_meets_LoadIsCheckedAndAppended :
    let full := withQueue (List.replicate 16 (seg (.dwell 1) .queued)) inRun
    let one := withQueue [seg (.dwell 1) .running] inRun
    let h : Segment := { tag := 1, kind := .dwell 1, slot := none, start := .immediate, state := .queued }
    16 ≤ full.queue.length
      ∧ (segmentOf (dwellRecord 0 0xFF) = none ∧ segmentOf (dwellRecord 1 8) = none)
      ∧ segmentOf (dwellRecord 1 7) = some { h with slot := some 7 } ∧ inRun.group? 7 = none
      ∧ segmentOf (dwellRecord 1 0xFF) = some h ∧ inRun.queue = []
      ∧ (∃ x ∈ one.queue, x.tag = 9) ∧ (∀ x ∈ one.queue, x.tag ≠ h.tag) ∧ one.queue ≠ [] := by decide

/-- A record of each kind at a bound of its ranges (R55, R56) is a segment. -/
theorem test_meets_LoadIsCheckedAndAppended_ranges :
    let least : RawProfile := { cls := 0, fl := 10, fh := 10, accel := 1, decel := 1 }
    let most : RawProfile := { cls := 2, fl := 100000, fh := 250000, accel := 1000000, decel := 1000000 }
    ∀ r ∈ [({ tag := 255, slot := 7, start := 2, startMark := 0xFB, body := .move (BitVec.ofInt 32 (-16777215)) least } : LoadRecord),
        { tag := 1, slot := 0xFF, start := 2, startMark := 0x04, body := .moveTo (BitVec.ofInt 32 1073741823) most },
        { tag := 1, slot := 0, start := 1, startMark := 0, body := .span 1 1 least },
        { tag := 1, slot := 0xFF, start := 0, startMark := 0, body := .run 1 0xFB most },
        { tag := 1, slot := 0xFF, start := 0, startMark := 0, body := .run 0 0 most },
        { tag := 1, slot := 0xFF, start := 0, startMark := 0, body := .dwell 65535 },
        { tag := 1, slot := 0xFF, start := 0, startMark := 0, body := .seek 1 3 16 (BitVec.ofInt 32 (-1073741823)) least },
        { tag := 1, slot := 0xFF, start := 0, startMark := 0, body := .seek 0 0 0 0 least }],
      (segmentOf r).isSome = true := by decide

theorem test_meets_FlushRemovesTheMatchingSegments :
    let s := withGroup .armed (withQueue [grouped .announcing, seg (.dwell 1) .queued] inRun)
    s.ss.node = .run ∧ inRun.queue.any (fun _ => true) = false ∧ s.queue.any (fun _ => true) = true
      ∧ (8 : Byte).toNat > 7 ∧ (7 : Byte).toNat < 8 := by decide

theorem test_meets_StopClaimsTheMovingHead :
    let move := seg (.move 12 ramp) .running
    let atFl := withPg 10000 5 (withQueue [move] inRun)
    let fast := withPg 30000 5 (withQueue [move] inRun)
    let ending := withPg 30000 5 (withQueue [seg (.move 12 ramp) (.ending .done .smooth)] inRun)
    let seek := seeking .edge true .search none 30000 inRun
    (seek.queue = seg (seekKind .edge true) .running :: [] ∧ (seekKind .edge true).profile? = some ramp
        ∧ (seekKind .edge true).isSeek = true ∧ ramp.flSq < seek.pg.speedSq)
      ∧ 1 < (2 : Byte).toNat ∧ (1 : Byte).toNat ≤ 1 ∧ inRun.headMoving = false
      ∧ (atFl.queue = move :: [] ∧ move.state.isMoving = true ∧ move.slot = none ∧ move.kind.profile? = some ramp
        ∧ atFl.pg.speedSq ≤ ramp.flSq)
      ∧ ramp.flSq < fast.pg.speedSq ∧ (8 : Byte) ≠ 0 ∧ (8 : Byte) ≠ move.tag ∧ (grouped .running).slot ≠ none
      ∧ ending.queue = seg (.move 12 ramp) (.ending .done .smooth) :: []
      ∧ (seg (.dwell 1) .running).kind.profile? = none := by decide

theorem test_meets_MarksetArmArmsAndJudges :
    3 < (4 : Byte).toNat ∧ (0x04 : Byte) &&& 0xEC ≠ 0 ∧ 1073741823 < (BitVec.ofInt 32 1073741824).toInt.natAbs
      ∧ (3 : Byte).toNat = (3 : Fin 4).val ∧ (0x13 : Byte) &&& 0xEC = 0
      ∧ (BitVec.ofInt 32 (-1073741823)).toInt.natAbs ≤ 1073741823 := by decide

theorem test_meets_MarksetDisarmWithdrawsTheMark :
    let s := waiting markFrame inRun
    3 < (4 : Byte).toNat ∧ s.canServe (.marksetDisarm 30 1 4 0) 0
      ∧ s.ss.node = .run ∧ (1 : Byte).toNat = (1 : Fin 4).val ∧ s.lineRight = true ∧ s.heldRight = true
      ∧ s.canServe (.marksetDisarm 30 1 1 0) 0 := by
  unfold State.canServe
  decide

theorem test_meets_ClearStationReleasesTheGuard :
    let stopping : State := { inRun with gd := { inRun.gd with state := .stopping } }
    let limit := stoppedBy .limitPlus Cause.limitPlus.bit inRun
    inRun.gd.state = .normal ∧ stopping.gd.state = .stopping
      ∧ (limit.gd.state = .stopped ∧ limit.limpActive = false ∧ limit.dfltActive = false
        ∧ hasCause limit.gd.causes .peerAllHalt = false)
      ∧ ((atLimit limit).gd.state = .stopped ∧ hasCause (atLimit limit).gd.causes .limitPlus = true
        ∧ (atLimit limit).limpActive = true) := by decide

theorem test_meets_QueriesReportTheState :
    (5 : Byte) ≠ 0 ∧ 7 < (8 : Byte).toNat ∧ 4 < (5 : Byte).toNat ∧ (7 : Byte).toNat = (7 : Fin 8).val
      ∧ (3 : Byte).toNat = (3 : Fin 4).val ∧ Level.low = inRun.pins.qi ∧ inRun.canServe (.queryStatus 30 1 5 .low) 0
      ∧ inRun.canServe (.queryGroup 30 1 8) 0 ∧ inRun.canServe (.queryMarks 30 1 5) 0 := by
  unfold State.canServe
  decide

theorem test_meets_SetupReplacesTheSettings :
    let f := fieldsOf Settings.reset
    inSetup.ss.node = .setup
      ∧ (f.report.toNat ≤ 63 ∧ f.mask.toNat < 64 ∧ 1 ≤ f.retry.toNat ∧ f.retry.toNat ≤ 15 ∧ f.timeout.toNat ≤ 60000
        ∧ f.softEnable.toNat ≤ 1 ∧ f.softMin.toInt.natAbs ≤ 1073741823 ∧ f.softMax.toInt.natAbs ≤ 1073741823
        ∧ f.stopOutput.toNat < 4 ∧ f.encoder &&& 0x7C = 0 ∧ f.polarity.toNat < 16)
      ∧ ¬ ({ f with retry := 0 } : SetupFields).retry.toNat ≥ 1
      ∧ inSetup.canServe (.setup 30 1 { f with retry := 0 }) 0 := by
  unfold State.canServe
  decide

theorem test_meets_DefineChecksAndSetsTheSlot :
    let roster : StationSet := 0x60
    inSetup.ss.node = .setup ∧ 7 < (8 : Byte).toNat ∧ 31 < (32 : Byte).toNat
      ∧ roster.getLsbD 0 = false ∧ roster.getLsbD 63 = false ∧ roster.getLsbD inSetup.own.toNat = true
      ∧ ((List.range 64).filter fun n => roster.getLsbD n).length = 2
      ∧ ((List.range 64).filter fun n => (0x1FFFE : StationSet).getLsbD n).length = 16
      ∧ (0x40 : StationSet).getLsbD inSetup.own.toNat = false ∧ (7 : Byte).toNat = (7 : Fin 8).val := by decide

theorem test_meets_CommitChecksAndEntersRun :
    let d : GroupDef := { address := 3, roster := 0x60 }
    let twice := (inSetup.setSlot 0 (.defined d)).setSlot 7 (.defined d)
    let soft : State := { inSetup with ss := { inSetup.ss with settings := { Settings.reset with softEnable := true } } }
    (inSetup.ss.node = .setup ∧ inSetup.quietBeforeRun = true ∧ inSetup.ss.settings.softEnable = false
        ∧ ∀ k : Fin 8, inSetup.ru.slots[k] = .empty)
      ∧ (twice.quietBeforeRun = true ∧ twice.ru.slots[(0 : Fin 8)] = .defined d ∧ twice.ru.slots[(7 : Fin 8)] = .defined d)
      ∧ (soft.quietBeforeRun = true ∧ soft.ss.settings.softEnable = true
        ∧ soft.ss.settings.softMax ≤ soft.ss.settings.softMin) := by decide

theorem test_meets_IntervalEndEmitsAPassedPulse :
    let s := withPg 10000 12 (withQueue [seg (.move 12 ramp) .running] inRun)
    let span : Segment := { seg (.span 3 10 ramp) .running with slot := some 2, start := .rendezvous }
    let t := withPg 10000 3 (withQueue [span] inRun)
    let edge : State := { s with pb := { s.pb with command := 1073741822 } }
    let soft : State := { s with
      ss := { s.ss with settings := { s.ss.settings with softEnable := true, softMin := -5, softMax := 1 } } }
    inRun.intervalRuns = false
      ∧ (edge.intervalRuns = true ∧ (edge.pb.command + 1).natAbs ≤ 1073741823
        ∧ ¬ (edge.pb.command + 2).natAbs ≤ 1073741823)
      ∧ (soft.intervalRuns = true ∧ soft.pb.command + 1 ≤ soft.ss.settings.softMax
        ∧ ¬ soft.pb.command + 2 ≤ soft.ss.settings.softMax)
      ∧ (s.intervalRuns = true ∧ s.pg.dir = some .plus ∧ s.limpActive = false ∧ s.ss.settings.softEnable = false
        ∧ (s.pb.command + 1).natAbs ≤ 1073741823)
      ∧ (t.intervalRuns = true ∧ t.pg.acc + (3 : Int).natAbs < 10)
      ∧ 10 ≤ ({ t with pg := { t.pg with acc := 7 } } : State).pg.acc + (3 : Int).natAbs := by decide

theorem test_meets_NextIntervalIsChosen :
    let s := withPg 10000 11 (withQueue [seg (.move 12 ramp) .running] inRun)
    let last := withPg 10000 0 (withQueue [seg (.move 12 ramp) .running] inRun)
    let ending := withPg 30000 11 (withQueue [seg (.move 12 ramp) (.ending .stopped .smooth)] inRun)
    let settling := seeking .edge false .settle (some (0, 0)) 10000 inRun
    let counting := seeking (.index 1) false .count none 10000 inRun
    let of (kind : SegKind) (v : Nat) := withPg v 0 (withQueue [seg kind .running] inRun)
    let low := of (.run .minus none flat) 10000
    let high := of (.moveTo 12 { ramp with cls := .flatHigh }) 90000
    let free := of (.run .plus none ramp) 30000
    let span := of (.span 3 10 ramp) 10000
    (low.pg.speedSq ≠ 0 ∧ (seg (.run .minus none flat) .running).kind.profile? = some flat ∧ flat.cls = .flatLow)
      ∧ (high.pg.speedSq ≠ 0 ∧ ({ ramp with cls := .flatHigh } : Profile).cls = .flatHigh)
      ∧ (free.pg.speedSq ≠ 0 ∧ free.pg.seek = none ∧ ramp.cls = .ramp)
      ∧ (span.pg.speedSq ≠ 0 ∧ ¬ 10 ≤ span.pg.progress)
      ∧ (seg (.move 12 ramp) .running).kind.profile? = some ramp
      ∧ (s.pg.speedSq ≠ 0 ∧ s.pg.remaining ≠ 0 ∧ (s.pg.seek.all fun x => x.stage != some .settle) = true)
      ∧ (last.pg.speedSq ≠ 0 ∧ last.pg.remaining = 0)
      ∧ (ending.pg.remaining ≠ 0 ∧ ramp.fl * ramp.fl < ending.pg.speedSq)
      ∧ (settling.pg.seek = some (seekAt .settle (some (0, 0))) ∧ settling.pg.speedSq ≤ ramp.fl * ramp.fl)
      ∧ (counting.pg.seek.all fun x => x.stage != some .settle) = true := by decide

theorem test_meets_RefusedPulseEndsOrTurnsTheMotion :
    let h := seg (.move 12 ramp) .running
    let s := atLimit (withPg 10000 12 (withQueue [h] inRun))
    let turning := atLimit (seeking .edge true .search none 10000 inRun)
    let failing := atLimit (seeking .edge false .search none 10000 inRun)
    let slot := withGroup .opened (withQueue [{ seg (seekKind .edge false) .running with slot := some 2 }] failing)
    (s.intervalRuns = true ∧ s.pg.dir = some .plus ∧ s.limpActive = true ∧ s.onlyHeadMoves = true)
      ∧ (turning.intervalRuns = true ∧ turning.limpActive = true ∧ turning.pg.seek = some (seekAt .search none))
      ∧ (failing.intervalRuns = true ∧ failing.gd.state = .normal ∧ failing.onlyHeadMoves = true)
      ∧ (slot.intervalRuns = true ∧ slot.group? 2 = some (group .opened) ∧ slot.tif.owed[(2 : Fin 8)] = none) := by decide

theorem test_meets_PlainAxisEvents :
    let s : State := withQueue [seg (.dwell 1) .running] { inRun with pg := { inRun.pg with phase := .dwell, dwellLeft := 1 } }
    s.queue = seg (.dwell 1) .running :: [] ∧ (seg (.dwell 1) .running).state = .running ∧ s.pg.phase = .dwell
      ∧ inRun.pins.dflt ≠ .low := by decide

theorem test_meets_PresetRewritesTheCounters :
    let s := seeking .edge false .settle (some (-1, 0)) 10000 inRun
    let kind : SegKind := .seek { dir := .plus, variant := .edge, reverse := false, preset := 1073741823 } ramp
    let bound := withQueue [seg kind .running] s
    (bound.queue = seg kind .running :: [] ∧ bound.pg.seek = some (seekAt .settle (some (-1, 0)))
        ∧ 1073741823 < ((1073741823 : Int) + (bound.pb.command - -1)).natAbs)
      ∧ s.queue = seg (seekKind .edge false) .running :: []
      ∧ s.pg.seek = some (seekAt .settle (some (-1, 0)))
      ∧ (seekAt .settle (some (-1, 0))).latched = some (-1, 0) := by decide

theorem test_meets_ReferenceEdgeAndIndexPulses :
    let s := seeking .edge false .search none 30000 inRun
    let t := seeking (.index 2) false .count none 30000 inRun
    let i := seeking (.index 2) false .search none 30000 inRun
    inRun.queue = [] ∧ s.queue = seg (seekKind .edge false) .running :: [] ∧ i.queue = seg (seekKind (.index 2) false) .running :: []
      ∧ s.pg.seek = some (seekAt .search none) ∧ s.pins.ref ≠ .low
      ∧ ({ s with pins := { s.pins with ref := .low } } : State).refActive = true
      ∧ i.pg.seek = some (seekAt .search none) ∧ t.pg.seek = some (seekAt .count none)
      ∧ t.queue = seg (seekKind (.index 2) false) .running :: [] := by decide

/-- RUN with the encoder in mode X4 and a following limit of 1. -/
def encoding (s : State) : State :=
  { s with ss := { s.ss with settings := { s.ss.settings with encMode := .x4, following := 1 } } }

theorem test_meets_QuadratureCountsTheFeedback :
    let s := encoding inRun
    let far : State := { s with pb := { s.pb with feedback := 1073741823 } }
    (s.ss.settings.encMode ≠ .off ∧ s.pb.decoder = .s0) ∧ inRun.ss.settings.encMode = .off
      ∧ 1073741823 < (far.pb.feedback + 1).natAbs ∧ (far.pb.feedback + -1).natAbs ≤ 1073741823 := by decide

theorem test_meets_FiringsReachTheUnitsMark :
    (∀ e ∈ inRun.tif.queue, e.frame.isMark 1 = false)
      ∧ (waiting markFrame inRun).tif.queue = [] ++ entry markFrame false :: []
      ∧ (sending markFrame inRun).tif.queue = [] ++ entry markFrame true :: []
      ∧ (waiting markFrame inRun).limitsKept ∧ (sending markFrame inRun).limitsKept :=
  ⟨by decide, rfl, rfl, limitsKept_of_short (by decide), limitsKept_of_short (by decide)⟩

theorem test_meets_JudgedUnitFiresWhileItsConditionIsMet :
    inCounterRange 1073741823 = true ∧ inCounterRange (-1073741823) = true ∧ (100 : Int) - 99 = 1
      ∧ MarkUnit.reset.state ≠ .armed := by
  decide

theorem test_meets_RampDownDistanceCountsTheSteps :
    0 < ramp.decel ∧ ramp.fl * ramp.fl ≤ 10000 ∧ ramp.fl * ramp.fl ≤ 90000 := by decide

theorem test_meets_RampLeavesRoomToComeDown :
    0 < ramp.decel ∧ ramp.fl * ramp.fl ≤ 90000 ∧ 90000 ≤ ramp.fh * ramp.fh ∧ 1 ≤ 4 ∧ ramp.rampDown 90000 ≤ 4 := by decide

theorem test_meets_SpanPulsesFollowTheCommonLine :
    let s : State := { inRun with pg := { inRun.pg with acc := 5 } }
    1 ≤ 10 ∧ (-10 : Int).natAbs ≤ 10 ∧ s.pg.progress = 0 ∧ s.pg.acc = 10 / 2 := by decide

theorem test_meets_CodedFrameReadsBack : ({ stopFrame with payload := List.replicate 28 0 } : Frame).payload.length ≤ 28 := by
  decide

theorem test_meets_CommandsReadBackFromTheirFrames :
    frameOf 5 (.stop 30 1 0 9) = some stopFrame ∧ (Instr.stop 30 1 0 9) ≠ .frameTakenNoEffect stopFrame
      ∧ (frameOf 5 (.restartTaken 30 straps)).isSome = true ∧ (frameOf 5 (.queryStatus 30 1 0 .low)).isSome = true := by
  decide

/-- A state in the middle of a rendezvous, with a frame on the line, keeps the laws that the invariants ask for. -/
theorem test_meets_StepKeeps :
    let s := withGroup .armed (withQueue [grouped .announcing, seg (.dwell 1) .queued] (sending readyFrame inRun))
    s.denRight = true ∧ s.lineRight = true ∧ s.answersHeld = true ∧ s.withdrawnRight = true ∧ s.heldRight = true
      ∧ s.heldTogether = true ∧ s.receiverRight = true ∧ (breaking inRun).receiverRight = true ∧ s.onlyHeadMoves = true ∧ s.armedRight = true ∧ s.quietBeforeRun = true
      ∧ s.listsBounded = true ∧ s.countersInRange = true ∧ s.readySetsRight = true ∧ s.recordRight = true
      ∧ s.linesLow = true
      ∧ (withQueue [grouped .announcing, { seg (.dwell 1) .queued with tag := 1 }] inRun).tagsDistinct = true := by decide

theorem test_meets_StepKeeps_limits : (sending readyFrame inRun).limitsKept := limitsKept_of_short (by decide)

end Sys2Proof.Tests
end

