-- ==== Sys2Proof/Proofs/Setup.lean ====
section
/-! PROOFS. Start-up and setup: RESTART (R44), DEFINE (R48) and COMMIT (R49 to R51). -/

namespace Sys2Proof.Machine

/-! ### RESTART -/

/-- The frame that RESTART_TAKEN stands for (Table 2-1). -/
def restartFrame (source : StationId) : Frame :=
  { cls := clsUrgent, kind := kindRestart, source, dest := destAll, payload := [] }

theorem frameOf_restartTaken (own source : StationId) (straps : Straps) :
    frameOf own (.restartTaken source straps) = some (restartFrame source) := rfl

/-- A RESTART from a station is well formed: its class, destination and length are fixed (R27). -/
theorem restartTaken_wellFormed {source : StationId} (own : StationId) (straps : Straps) (h : stationOk source = true) :
    (Instr.restartTaken source straps).wellFormed own = true := by
  have hm : (restartFrame source).malformed = !stationOk source := by
    simp [Frame.malformed, restartFrame, classOfKind, destTypeOk, destNumberOk, lengthOk, codesOk, destType,
      destNumber, destAll]
  simp [Instr.wellFormed, frameOf_restartTaken, hm, h]

/-- A RESTART is no request, so it draws no busy complaint (R10). -/
theorem restartFrame_not_busy (source : StationId) (s : State) : s.busyFor (restartFrame source) = false := by
  have hr : (restartFrame source).isRequest = false := rfl
  simp [State.busyFor, hr]

/-- A RESTART that is heard: the node resets and leaves the reset when RSTEN was sampled high (R44). -/
theorem exec_restartTaken {s : State} {source : StationId} (straps : Straps) (hh : s.hears = true)
    (hs : stationOk source = true) :
    exec (.restartTaken source straps) s
      = .next (if s.ss.straps.rsten = .high then endReset (resetNode straps .restart s.heard) else s.heard) :=
  congrArg Host.Outcome.next (takeFrame_heard _ hh (restartTaken_wellFormed _ _ hs) (frameOf_restartTaken _ _ _)
    (restartFrame_not_busy source s))

@[simp] theorem resetNode_own (straps : Straps) (c : ResetCause) (s : State) : (resetNode straps c s).own = straps.stn := rfl

/-- Settles O6: the frame is taken, and what is left is which way R44 and then R43 decide. -/
theorem restartTakenResets : Obligations.RestartTakenResets := by
  intro source straps s hh hs
  rw [exec_restartTaken straps hh hs]
  refine ⟨fun hlow => ?_, fun hhigh hstn => ?_, fun hhigh hstn => ?_⟩
  · rw [if_neg (by simp [hlow])]
  · rw [if_pos hhigh, endReset, if_pos (by rwa [resetNode_own])]
    rfl
  · rw [if_pos hhigh, endReset, if_neg (by simp [hstn])]
    rfl

/-! ### Requests that act in SETUP -/

/-- A request in node state SETUP: its owner's reply to the state with the answer slot occupied is what the node is left
with, and its ANSWER joins the queue (R38, R170, R171). -/
theorem serve_setupOnly {s : State} {c : Instr} {i : Fin 2} {f : Frame} {st : StationId} {ref : Byte} {kind : BitVec 4}
    {act : State → Reply} {r : Reply} (hc : s.canServe c i) (hf : frameOf s.own c = some f) (hn : s.ss.node = .setup)
    (hr : act (s.served i st ref kind) = r) (ha : r.state.answers = s.answers) :
    serve c st ref kind (setupOnly act) s = r.state.withAnswer i st ref kind r.result r.contents := by
  have hact : setupOnly act (s.served i st ref kind) = r := (if_pos hn).trans hr
  rw [serve_eq st ref kind _ hc hf (by rwa [hact]), hact]

/-! ### DEFINE -/

theorem slotIndexOf_eq_none {b : Byte} (h : 7 < b.toNat) : slotIndexOf b = none := dif_neg (by omega)

theorem slotIndexOf_eq_some {b : Byte} {k : Fin 8} (h : b.toNat = k.val) : slotIndexOf b = some k := by
  rw [slotIndexOf, dif_pos (by omega)]
  exact congrArg some (Fin.ext h)

/-- The size of a set is the length of the list of its members. -/
theorem setSize_eq_length (set : StationSet) : setSize set = ((List.range 64).filter fun n => set.getLsbD n).length :=
  List.countP_eq_length_filter

/-- The fields of a DEFINE that draw RANGE whatever the slot (R48, checks 2 to 5). -/
theorem definitionOf_eq_none {own : StationId} {address : Byte} {roster : StationSet}
    (h : 31 < address.toNat ∨ address ≠ 0 ∧ (roster.getLsbD 0 = true ∨ roster.getLsbD 63 = true
      ∨ roster.getLsbD own.toNat = false ∨ setSize roster < 2 ∨ 16 < setSize roster)) :
    definitionOf own address roster = none := by
  have h0 : address ≠ 0 := by
    rintro rfl
    obtain h | ⟨h, -⟩ := h
    · exact absurd h (by decide)
    · exact h rfl
  rw [definitionOf, if_neg h0]
  by_cases ha : 31 < address.toNat
  · rw [if_pos ha]
  · obtain ⟨-, hroster⟩ := h.resolve_left ha
    rw [if_neg ha]
    have hset : roster.getLsbD 0 = false → roster.getLsbD 63 = false → roster.getLsbD own.toNat = true →
        1 < setSize roster → 16 < setSize roster := by grind
    simpa [hasStation, -BitVec.getLsbD_eq_getElem] using hset

/-- Address 0 empties the slot, whatever the roster (R48). -/
theorem definitionOf_zero (own : StationId) (roster : StationSet) : definitionOf own 0 roster = some none := rfl

/-- An address of 1 to 31 with a roster that passes the checks is a definition (R48). -/
theorem definitionOf_eq_some {own : StationId} {address : Byte} {roster : StationSet} (h1 : 1 ≤ address.toNat)
    (h31 : address.toNat ≤ 31) (hr0 : roster.getLsbD 0 = false) (hr63 : roster.getLsbD 63 = false)
    (hown : roster.getLsbD own.toNat = true) (h2 : 2 ≤ setSize roster) (h16 : setSize roster ≤ 16) :
    definitionOf own address roster = some (some { address := address.setWidth 6, roster }) := by
  have h0 : address ≠ 0 := by
    rintro rfl
    exact absurd h1 (by decide)
  rw [definitionOf, if_neg h0, if_neg (by omega), if_neg (by rw [hr0, hr63]; decide), if_neg (by simp [hasStation, hown]),
    if_neg (by omega)]

theorem served_own (s : State) (i : Fin 2) (st : StationId) (ref : Byte) (kind : BitVec 4) :
    (s.served i st ref kind).own = s.own := rfl

section
variable {s : State} {source : StationId} {reference slot address : Byte} {roster : StationSet} {i : Fin 2}

/-- A DEFINE whose slot or fields fail a check draws RANGE and changes nothing (R48). -/
theorem exec_define_range (hc : s.canServe (.define source reference slot address roster) i) (hn : s.ss.node = .setup)
    (h : slotIndexOf slot = none ∨ definitionOf s.own address roster = none) :
    exec (.define source reference slot address roster) s
      = .next ((s.served i source reference kindDefine).withAnswer i source reference kindDefine .range []) := by
  refine congrArg Host.Outcome.next (serve_setupOnly (r := refuse .range _) hc rfl hn ?_ rfl)
  rw [served_own]
  obtain h | h := h <;> rw [h]
  · rfl
  · cases slotIndexOf slot <;> rfl

/-- A DEFINE that passes every check empties or sets its slot (R48). -/
theorem exec_define_accepted {k : Fin 8} {d : Option GroupDef}
    (hc : s.canServe (.define source reference slot address roster) i) (hn : s.ss.node = .setup)
    (hk : slotIndexOf slot = some k) (hd : definitionOf s.own address roster = some d) :
    exec (.define source reference slot address roster) s
      = .next (((s.served i source reference kindDefine).setSlot k (d.elim .empty .defined)).withAnswer
          i source reference kindDefine .accepted []) := by
  refine congrArg Host.Outcome.next (serve_setupOnly (r := accept _) hc rfl hn ?_ rfl)
  rw [served_own, hk, hd]
  cases d <;> rfl

end

/-- Settles O40: each check that fails leaves the slot index or the definition without a value, and a definition that
passes is the slot's new content. -/
theorem defineChecksAndSetsTheSlot : Obligations.DefineChecksAndSetsTheSlot := by
  intro source reference slot address roster i s hc hn
  dsimp only
  rw [← setSize_eq_length]
  refine ⟨fun h => exec_define_range hc hn ?_, fun k hk => ⟨?_, ?_⟩⟩
  · exact h.imp slotIndexOf_eq_none definitionOf_eq_none
  · rintro rfl
    exact exec_define_accepted hc hn (slotIndexOf_eq_some hk) (definitionOf_zero _ _)
  · intro h1 h31 hr0 hr63 hown h2 h16
    exact exec_define_accepted hc hn (slotIndexOf_eq_some hk) (definitionOf_eq_some h1 h31 hr0 hr63 hown h2 h16)

/-! ### COMMIT -/

theorem mem_allSlots (k : Fin 8) : k ∈ allSlots := by
  revert k
  decide

/-- Two slots hold one address exactly if the list of the addresses repeats (R49, check 1). -/
theorem duplicateAddress_iff (s : State) :
    s.duplicateAddress = true
      ↔ ∃ j k : Fin 8, j ≠ k ∧ ∃ a ∈ (s.ru.slots[j]).address?, a ∈ (s.ru.slots[k]).address? := by
  have hnodup : allSlots.Nodup := by decide
  have key : s.addresses.Nodup
      ↔ ∀ j k : Fin 8, j ≠ k → ∀ a ∈ (s.ru.slots[j]).address?, ∀ b ∈ (s.ru.slots[k]).address?, a ≠ b := by
    rw [State.addresses, List.Nodup, List.pairwise_filterMap]
    constructor
    · intro h j k hjk
      refine @List.Pairwise.forall _ _ _ ⟨fun _ _ hab b hb a ha => ?_⟩ h _ (mem_allSlots j) _ (mem_allSlots k) hjk
      exact (hab a ha b hb).symm
    · exact fun h => hnodup.pairwise_of_forall_ne fun j _ k _ hjk => h j k hjk
  rw [State.duplicateAddress, Bool.not_eq_true', decide_eq_false_iff_not, key]
  push Not
  constructor
  · rintro ⟨j, k, hjk, a, ha, b, hb, rfl⟩
    exact ⟨j, k, hjk, a, ha, hb⟩
  · rintro ⟨j, k, hjk, a, ha, hb⟩
    exact ⟨j, k, hjk, a, ha, a, hb, rfl⟩

/-- Before RUN no slot is live (R81). -/
theorem slots_not_live {s : State} (hq : s.quietBeforeRun = true) (hn : s.ss.node = .setup) (k : Fin 8) (g : Group) :
    s.ru.slots[k] ≠ .live g := by
  have hk : s.group? k = none := by
    simp only [State.quietBeforeRun, hn, BEq.rfl, Bool.or_true, Bool.not_true, Bool.false_or, Bool.and_eq_true,
      List.all_eq_true, Option.isNone_iff_eq_none] at hq
    exact hq.2 k (mem_allSlots k)
  intro hg
  simp [State.group?, hg] at hk

/-- Before RUN a slot that holds an address is a defined one (R48, R81). -/
theorem address_of_slot {s : State} (hq : s.quietBeforeRun = true) (hn : s.ss.node = .setup) (k : Fin 8) (a : GroupAddr) :
    a ∈ (s.ru.slots[k]).address? ↔ ∃ d : GroupDef, s.ru.slots[k] = .defined d ∧ d.address = a := by
  cases h : s.ru.slots[k] with
  | empty => simp [Slot.address?]
  | defined d => simp [Slot.address?]
  | live g => exact absurd h (slots_not_live hq hn k g)

/-- The soft limits are out of order (R49, check 2). -/
theorem softLimitsWrong_iff (s : State) :
    s.softLimitsWrong = true ↔ s.ss.settings.softEnable = true ∧ s.ss.settings.softMax ≤ s.ss.settings.softMin := by
  simp [State.softLimitsWrong]

/-- The node in RUN as R50 gives it, before the Guard looks at DFLT. -/
def inRunFrom (s : State) : State :=
  { s with
    ss := { s.ss with node := .run, locked := true }
    ru := { slots := s.ru.slots.map Slot.commit, timer := none }
    gd := { state := .normal, first := none, causes := 0, originator := none, stopMode := none, den := .high } }

/-- The entry into RUN of a node that is not SILENT (R50, R157, R168). -/
theorem enterRun_eq {s : State} (hl : s.tif.link ≠ .silent) :
    enterRun s = if s.dfltActive then guardTake .driveFault .abrupt (inRunFrom s) else inRunFrom s := by
  have hden : guardEmpty { s with
      ss := { s.ss with node := .run, locked := true }
      ru := { slots := s.ru.slots.map Slot.commit, timer := none } } = inRunFrom s := by
    simp [guardEmpty, driveDen, inRunFrom, hl]
  rw [enterRun, hden]
  rfl

/-- The entry into RUN leaves the ANSWERs that wait. -/
theorem enterRun_answers (s : State) : (enterRun s).answers = s.answers := by
  rw [enterRun]
  dsimp only
  split
  · exact congrArg Outside.answers (guardTake_outside _ _ _)
  · rfl

section
variable {s : State} {source : StationId} {reference : Byte} {i : Fin 2}

/-- COMMIT in SETUP comes to what its checks and R50 make of the node (R49 to R51). -/
theorem exec_commit {r : Reply} (hc : s.canServe (.commit source reference) i) (hn : s.ss.node = .setup)
    (hr : commitSetup (s.served i source reference kindCommit) = r) (ha : r.state.answers = s.answers) :
    exec (.commit source reference) s
      = .next (r.state.withAnswer i source reference kindCommit r.result r.contents) :=
  congrArg Host.Outcome.next (serve_setupOnly hc rfl hn hr ha)

theorem exec_commit_duplicate (hc : s.canServe (.commit source reference) i) (hn : s.ss.node = .setup)
    (hd : s.duplicateAddress = true) :
    exec (.commit source reference) s
      = .next ((s.served i source reference kindCommit).withAnswer i source reference kindCommit .setupInvalid [1]) :=
  exec_commit hc hn (if_pos hd) rfl

theorem exec_commit_softLimits (hc : s.canServe (.commit source reference) i) (hn : s.ss.node = .setup)
    (hd : ¬ s.duplicateAddress = true) (hw : s.softLimitsWrong = true) :
    exec (.commit source reference) s
      = .next ((s.served i source reference kindCommit).withAnswer i source reference kindCommit .setupInvalid [2]) :=
  exec_commit hc hn ((if_neg hd).trans (if_pos hw)) rfl

theorem exec_commit_accepted (hc : s.canServe (.commit source reference) i) (hn : s.ss.node = .setup)
    (hd : ¬ s.duplicateAddress = true) (hw : ¬ s.softLimitsWrong = true) :
    exec (.commit source reference) s
      = .next ((enterRun (s.served i source reference kindCommit)).withAnswer i source reference kindCommit .accepted []) :=
  exec_commit hc hn ((if_neg hd).trans (if_neg hw)) (enterRun_answers _)

end

/-- Settles O41: check 1 and check 2 say what the statement says of them, and the node in RUN is `inRunFrom`. -/
theorem commitChecksAndEntersRun : Obligations.CommitChecksAndEntersRun := by
  intro source reference i s hc hn hq t answers twice unordered
  have htwice : s.duplicateAddress = true ↔ twice := by
    rw [duplicateAddress_iff]
    simp only [address_of_slot hq hn]
    constructor
    · rintro ⟨j, k, hjk, -, ⟨a, ha, rfl⟩, b, hb, hab⟩
      exact ⟨j, k, hjk, a, b, ha, hb, hab.symm⟩
    · rintro ⟨j, k, hjk, a, b, ha, hb, hab⟩
      exact ⟨j, k, hjk, _, ⟨a, ha, rfl⟩, b, hb, hab.symm⟩
  rw [← htwice, show unordered ↔ _ from (softLimitsWrong_iff s).symm]
  refine ⟨exec_commit_duplicate hc hn, exec_commit_softLimits hc hn, fun hd hw => ?_⟩
  refine ⟨inRunFrom t, ?_, rfl, rfl, fun k => ?_⟩
  · have hlink : t.tif.link ≠ .silent := fun h : Link.listening = .silent => nomatch h
    have hrun := exec_commit_accepted hc hn hd hw
    rwa [enterRun_eq hlink] at hrun
  · have hslot : (inRunFrom t).ru.slots[k] = (s.ru.slots[k]).commit := Vector.getElem_map ..
    rw [hslot]
    cases h : s.ru.slots[k] with
    | empty => rfl
    | defined d => rfl
    | live g => exact absurd h (slots_not_live hq hn k g)

end Sys2Proof.Machine
end

