-- ==== Sys2Proof/Proofs/Rendezvous.lean ====
section
/-! PROOFS. Groups and the rendezvous: the expiry of the rendezvous timer (R90). -/

namespace Sys2Proof.Machine

/-! ### Where a notice goes -/

/-- The transmit queue after an admission rests on the transmit queue alone (R21). -/
theorem enqueue_queueTx_congr {s t : State} (hq : t.tif.queue = s.tif.queue) (f : TxFrame) :
    (enqueue f t).tif.queue = (enqueue f s).tif.queue := by
  unfold enqueue
  rw [hq]
  split
  · rfl
  · exact hq

@[simp] theorem enqueue_owed (f : TxFrame) (s : State) : (enqueue f s).tif.owed = s.tif.owed := by
  unfold enqueue; split <;> rfl

theorem enqueue_outgoing_congr {s t : State} (ho : t.outgoing = s.outgoing) (f : TxFrame) :
    (enqueue f t).outgoing = (enqueue f s).outgoing := by
  obtain ⟨hnb, hq⟩ := Prod.mk.inj ho
  simp [State.outgoing, hnb, enqueue_queueTx_congr hq]

/-- What the composition of a NOTICE changes rests on the notices, the transmit queue and the settings (R175). -/
theorem composeNotice_outgoing_congr {s t : State} (hs : t.ss = s.ss) (ho : t.outgoing = s.outgoing) :
    (composeNotice t).outgoing = (composeNotice s).outgoing := by
  obtain ⟨hnb, hq⟩ := Prod.mk.inj ho
  have hpending : t.noticePending = s.noticePending := by rw [State.noticePending, hq, State.noticePending]
  by_cases hc : (s.ss.node = .silent || s.noticePending) = true
  · rw [composeNotice, composeNotice, if_pos hc, if_pos (by rwa [hs, hpending])]
    exact ho
  · rw [composeNotice, composeNotice, if_neg hc, if_neg (by rwa [hs, hpending]), hnb, hs]
    split
    · exact ho
    · split
      · exact congrArg (Prod.mk _) hq
      · refine enqueue_outgoing_congr ?_ _
        exact congrArg (Prod.mk _) hq

@[simp] theorem composeNotice_owed (s : State) : (composeNotice s).tif.owed = s.tif.owed := by
  unfold composeNotice
  repeat' split
  all_goals simp

/-- What a discarded notice changes rests on the notices and the transmit queue (R174). -/
theorem discardNotice_outgoing_congr {s t : State} (ho : t.outgoing = s.outgoing) :
    (discardNotice t).outgoing = (discardNotice s).outgoing := by
  obtain ⟨hnb, hq⟩ := Prod.mk.inj ho
  simp only [discardNotice, hnb, hq]
  split <;> simp [State.outgoing, changeWaiting, hq]

@[simp] theorem discardNotice_owed (s : State) : (discardNotice s).tif.owed = s.tif.owed := by
  unfold discardNotice; dsimp only; split <;> rfl

/-- What a produced notice changes rests on the notices, the transmit queue and the settings (R173, R174). -/
theorem produce_outgoing_congr {s t : State} (hs : t.ss = s.ss) (ho : t.outgoing = s.outgoing) (n : NoticeType)
    (c : List Byte) : (produce n c t).outgoing = (produce n c s).outgoing := by
  obtain ⟨hnb, hq⟩ := Prod.mk.inj ho
  simp only [produce, State.reports, hs, hnb]
  split
  · exact ho
  · split
    · exact composeNotice_outgoing_congr rfl (congrArg (Prod.mk _) hq)
    · exact discardNotice_outgoing_congr ho

@[simp] theorem produce_owed (n : NoticeType) (c : List Byte) (s : State) :
    (produce n c s).tif.owed = s.tif.owed := by
  unfold produce
  repeat' split
  all_goals simp

/-! ### The withdrawal of the READY -/

@[simp] theorem withdrawReady_owed (s : State) : (withdrawReady s).tif.owed = s.tif.owed := rfl

/-- A READY that a withdrawal leaves is on the line with the withdrawal recorded (R24). -/
theorem withdrawReady_readyWithdrawn (s : State) : (withdrawReady s).readyWithdrawn := by
  intro e he hr
  obtain ⟨x, -, hx⟩ := List.mem_filterMap.mp he
  split at hx
  · split at hx
    · next hl =>
      cases hx
      exact ⟨hl, rfl⟩
    · cases hx
  · next hn =>
    cases hx
    exact absurd hr hn

/-- The withdrawal of the READY leaves every other frame (R24). -/
@[simp] theorem withdrawReady_otherFrames (s : State) : (withdrawReady s).otherFrames = s.otherFrames := by
  simp only [State.otherFrames, withdrawReady, withdraw]
  induction s.tif.queue with
  | nil => rfl
  | cons e q ih => by_cases hr : e.frame.isReady = true <;> by_cases hl : e.onLine = true <;> simp [hr, hl, ih]

/-! ### The halt of a slot whose head is announcing -/

/-- Slot k HALTED in the group table (R92): the record, an empty ready set, and an ARMED slot's timer stopped. -/
def Ru.halting (ru : Ru) (k : Fin 8) (g : Group) (c : Cause) (o : StationId) : Ru where
  slots := ru.slots.set k (.live { g with state := .halted c o, ready := 0 })
  timer := if g.state = .armed then none else ru.timer

/-- The halt of a slot that is live and not HALTED (R92): the record, the HALT notice, and what becomes of the head. -/
theorem haltSlot_of_not_halted {s : State} {k : Fin 8} {g : Group} (hg : s.group? k = some g)
    (hh : s.slotHalted k = false) (c : Cause) (o : StationId) (m : Mode) (b : Bool) :
    haltSlot k c o m b s = haltHead k m b (haltNotice k g.address c o { s with ru := s.ru.halting k g c o }) := by
  simp only [haltSlot, hg]
  cases hx : g.state with
  | halted c' o' => simp [State.slotHalted, hg, hx] at hh
  | opened => simp [Ru.halting, hx, State.setSlot]
  | armed => simp [Ru.halting, hx, State.setSlot, stopTimer]

section
variable {s : State} {k : Fin 8} {h : Segment} {rest : List Segment}

theorem headOfSlot_of_queue (hq : s.queue = h :: rest) (hk : h.slot = some k) : s.headOfSlot? k = some h := by
  simp [State.headOfSlot?, hq, hk]

/-- An announcing head goes back to WAITING and its READY is withdrawn (R69, R92). -/
theorem haltHead_of_announce (hq : s.queue = h :: rest) (hk : h.slot = some k) (ha : h.state.isAnnounce = true)
    (m : Mode) (b : Bool) :
    haltHead k m b s = withdrawReady { s with queue := { h with state := .waiting } :: rest } := by
  have hreturn : returnHead k s = withdrawReady { s with queue := { h with state := .waiting } :: rest } := by
    simp [returnHead, headOfSlot_of_queue hq hk, ha, setHeadState, hq]
  rw [haltHead, headOfSlot_of_queue hq hk, ← hreturn]
  cases hx : h.state with
  | running => simp [hx, SegState.isAnnounce] at ha
  | ending o' m' => simp [hx, SegState.isAnnounce] at ha
  | _ => simp [hx]

/-- The HALT owed for an announcing head carries the head's tag (R93). -/
theorem haltTag_of_announce (hq : s.queue = h :: rest) (hk : h.slot = some k) (ha : h.state.isAnnounce = true) :
    s.haltTag k = h.tag := by
  simp [State.haltTag, headOfSlot_of_queue hq hk, SegState.isUnderWay, ha]

/-- The HALT notice of a local halt is the one that the state before it produces (R92, R93). -/
theorem haltNotice_outgoing (k : Fin 8) (c : Cause) (m : Mode) (tag : Byte) (a : GroupAddr) (o : StationId) (ru : Ru)
    (s : State) : (haltNotice k a c o { oweHalt k c m tag s with ru := ru }).outgoing = (haltNotice k a c o s).outgoing := by
  refine produce_outgoing_congr ?_ ?_ _ _
  · exact oweHalt_ss ..
  · show (oweHalt k c m tag s).outgoing = s.outgoing
    unfold oweHalt
    split <;> rfl

/-- The local halt of a slot, not HALTED, whose head is announcing (R92, R93). -/
theorem localHalt_of_announce {g : Group} (hg : s.group? k = some g) (hh : s.slotHalted k = false)
    (hq : s.queue = h :: rest) (hk : h.slot = some k) (ha : h.state.isAnnounce = true) (c : Cause) (m : Mode) (b : Bool) :
    localHalt k c m b s = withdrawReady
      { haltNotice k g.address c s.own { oweHalt k c m h.tag s with ru := s.ru.halting k g c s.own } with
        queue := { h with state := .waiting } :: rest } := by
  have hg' : (oweHalt k c m h.tag s).group? k = some g := by rw [State.group?, oweHalt_ru]; exact hg
  have hh' : (oweHalt k c m h.tag s).slotHalted k = false := by rw [State.slotHalted, hg', ← hg]; exact hh
  rw [localHalt, haltTag_of_announce hq hk ha, haltSlot_of_not_halted hg' hh', oweHalt_ru]
  exact haltHead_of_announce (by simp [hq]) hk ha m b

end

/-! ### The rendezvous timer -/

/-- The slot that is ARMED, where it is the only one (R82). -/
theorem armedSlot_eq_some {s : State} {k : Fin 8} {g : Group} (hg : s.group? k = some g) (ha : g.state = .armed)
    (hone : ∀ j x, s.group? j = some x → x.state = .armed → j = k) : s.armedSlot? = some k := by
  cases hf : s.armedSlot? with
  | none => simpa [hg, ha] using List.find?_eq_none.mp hf k (mem_allSlots k)
  | some j =>
    obtain ⟨x, hx, hxa⟩ : ∃ x, s.group? j = some x ∧ x.state = .armed := by
      simpa [Option.any_eq_true] using List.find?_some hf
    rw [hone j x hx hxa]

theorem exec_rendezvousTimeout (s : State) : exec .rendezvousTimeout s = execRendezvousTimeout s := rfl

/-- RENDEZVOUS_TIMEOUT while no timer runs changes nothing (entry 4). -/
theorem exec_rendezvousTimeout_stopped {s : State} (ht : s.ru.timer = none) : exec .rendezvousTimeout s = .next s := by
  simp [exec_rendezvousTimeout, execRendezvousTimeout, ht]

/-- RENDEZVOUS_TIMEOUT while the timer runs for slot k halts that slot (R90). -/
theorem exec_rendezvousTimeout_armed {s : State} {left : Nat} {k : Fin 8} (ht : s.ru.timer = some left)
    (hk : s.armedSlot? = some k) :
    exec .rendezvousTimeout s = .next (localHalt k .rendezvousTimeout .abrupt false s) := by
  simp [exec_rendezvousTimeout, execRendezvousTimeout, ht, hk]

/-- Settles O29: the ARMED slot is the one that R90 halts, and its announcing head fixes what R92 and R93 do. -/
theorem rendezvousTimeoutHaltsTheSlot : Obligations.RendezvousTimeoutHaltsTheSlot := by
  intro s
  refine ⟨exec_rendezvousTimeout_stopped, ?_⟩
  intro left k g h rest ht hg harmed hone hq hk ha told
  have hh : s.slotHalted k = false := by simp [State.slotHalted, hg, harmed]
  have heq := localHalt_of_announce hg hh hq hk ha .rendezvousTimeout .abrupt false
  have htold : (haltNotice k g.address .rendezvousTimeout s.own
      { oweHalt k .rendezvousTimeout .abrupt h.tag s with
        ru := s.ru.halting k g .rendezvousTimeout s.own }).outgoing = told.outgoing :=
    haltNotice_outgoing ..
  obtain ⟨hnb, htx⟩ := Prod.mk.inj htold
  refine ⟨_, exec_rendezvousTimeout_armed ht (armedSlot_eq_some hg harmed hone), rfl, localHalt_outside .., localHalt_gd ..,
    localHalt_pb .., ?_⟩
  rw [heq]
  refine ⟨by simp [withdrawReady], ?_, rfl, withdrawReady_readyWithdrawn _, hnb, ?_, ?_⟩
  · simp [withdrawReady, Ru.halting, harmed]
  · rw [withdrawReady_otherFrames]
    exact congrArg (List.filter fun e => !e.frame.isReady) htx
  · simp only [withdrawReady_owed, haltNotice, produce_owed, oweHalt]
    split <;> rfl

end Sys2Proof.Machine
end

