-- ==== Sys2Proof/Proofs/Speeds.lean ====
section
/-! PROOFS. Speeds as squares: the deceleration steps, the ramp-down distance and the speed itself (R109). -/

namespace Sys2Proof.Machine

/-! ### The ramp-down distance -/

/-- A profile that decelerates takes something at each step. -/
theorem Profile.decelSq_pos {p : Profile} (hd : 0 < p.decel) : 0 < p.decelSq := by
  unfold Profile.decelSq
  omega

/-- The ramp-down distance is the quotient rounded up (R109). -/
theorem Profile.rampDown_eq_ceilDiv {p : Profile} (hd : 0 < p.decel) (v : Nat) :
    p.rampDown v = (v - p.flSq) ⌈/⌉ p.decelSq := by
  have hpos := p.decelSq_pos hd
  rw [Profile.rampDown, Nat.ceilDiv_eq_add_pred_div, Nat.add_sub_assoc hpos]

/-- The ramp-down distance is within n exactly if n deceleration steps cover the way down to FL². Every other fact about
the distance is read off this one. -/
theorem Profile.rampDown_le_iff {p : Profile} (hd : 0 < p.decel) {v n : Nat} :
    p.rampDown v ≤ n ↔ v - p.flSq ≤ n * p.decelSq := by
  rw [p.rampDown_eq_ceilDiv hd, ceilDiv_le_iff_le_mul (p.decelSq_pos hd), Nat.mul_comm]

theorem Profile.lt_rampDown_iff {p : Profile} (hd : 0 < p.decel) {v n : Nat} :
    n < p.rampDown v ↔ n * p.decelSq < v - p.flSq := by
  rw [← Nat.not_le, p.rampDown_le_iff hd, Nat.not_le]

/-- The distance is the least such n: one step fewer would not do, so it exceeds the exact quotient by less than 1. -/
theorem Profile.rampDown_mul_lt {p : Profile} (hd : 0 < p.decel) (v : Nat) :
    p.rampDown v * p.decelSq < v - p.flSq + p.decelSq := by
  have hpos := p.decelSq_pos hd
  cases hn : p.rampDown v with
  | zero => omega
  | succ n =>
    have hlt : n * p.decelSq < v - p.flSq := (p.lt_rampDown_iff hd).mp (by omega)
    rw [Nat.succ_mul]
    omega

theorem Profile.rampDown_flSq {p : Profile} (hd : 0 < p.decel) : p.rampDown p.flSq = 0 :=
  Nat.le_zero.mp ((p.rampDown_le_iff hd).mpr (by omega))

/-- One deceleration step lowers the ramp-down distance by 1, down to 0 (R109). -/
theorem Profile.rampDown_decelStep {p : Profile} (hd : 0 < p.decel) (v : Nat) :
    p.rampDown (p.decelStep v) = p.rampDown v - 1 := by
  refine eq_of_forall_ge_iff fun n => ?_
  rw [Nat.sub_le_iff_le_add, p.rampDown_le_iff hd, p.rampDown_le_iff hd, Profile.decelStep, Nat.succ_mul]
  omega

/-- The speed squared after k deceleration steps: k times what one step takes, held at FL² (R109). -/
theorem Profile.repeat_decelStep (p : Profile) {v : Nat} (hv : p.flSq ≤ v) (k : Nat) :
    Nat.repeat p.decelStep k v = max (v - k * p.decelSq) p.flSq := by
  induction k with
  | zero => simp [Nat.repeat, hv]
  | succ k ih =>
    rw [Nat.repeat, ih, Profile.decelStep, Nat.succ_mul]
    omega

/-- As many deceleration steps as the ramp-down distance says end at FL. -/
theorem Profile.repeat_decelStep_rampDown {p : Profile} (hd : 0 < p.decel) {v : Nat} (hv : p.flSq ≤ v) :
    Nat.repeat p.decelStep (p.rampDown v) v = p.flSq := by
  have hcover := (p.rampDown_le_iff hd (v := v)).mp le_rfl
  rw [p.repeat_decelStep hv]
  omega

/-- Fewer deceleration steps than the ramp-down distance stay above FL. -/
theorem Profile.flSq_lt_repeat_decelStep {p : Profile} (hd : 0 < p.decel) {v k : Nat} (hv : p.flSq ≤ v)
    (hk : k < p.rampDown v) : p.flSq < Nat.repeat p.decelStep k v := by
  have hshort := (p.lt_rampDown_iff hd).mp hk
  rw [p.repeat_decelStep hv]
  omega

/-! ### The speed -/

/-- The search for the root keeps it between `r` and `r + 2 ^ bits`, which halves the gap at each bit down to 1. -/
theorem isqrtFrom_isRoot {n : Nat} (bits : Nat) {r : Nat} (hlow : r * r ≤ n)
    (hhigh : n < (r + 2 ^ bits) * (r + 2 ^ bits)) :
    isqrtFrom n bits r * isqrtFrom n bits r ≤ n ∧ n < (isqrtFrom n bits r + 1) * (isqrtFrom n bits r + 1) := by
  induction bits generalizing r with
  | zero => exact ⟨hlow, hhigh⟩
  | succ bits ih =>
    rw [isqrtFrom]
    split
    next hset =>
      have hgap : r + 2 ^ bits + 2 ^ bits = r + 2 ^ (bits + 1) := by rw [pow_succ]; omega
      exact ih hset (hgap ▸ hhigh)
    next hclear => exact ih hlow (Nat.not_le.mp hclear)

/-- `log2 n / 2 + 1` bits are enough for the root of n. -/
theorem lt_isqrt_bound_mul_self (n : Nat) : n < 2 ^ (n.log2 / 2 + 1) * 2 ^ (n.log2 / 2 + 1) :=
  calc
    n < 2 ^ (n.log2 + 1) := Nat.lt_log2_self
    _ ≤ 2 ^ (n.log2 / 2 + 1 + (n.log2 / 2 + 1)) := Nat.pow_le_pow_right (by decide) (by omega)
    _ = _ := pow_add ..

theorem isqrt_isRoot (n : Nat) : isqrt n * isqrt n ≤ n ∧ n < (isqrt n + 1) * (isqrt n + 1) :=
  isqrtFrom_isRoot _ (Nat.zero_le n) (by simpa using lt_isqrt_bound_mul_self n)

/-- No interval in progress has speed 0 (R109). -/
theorem Pg.speed_eq_zero {pg : Pg} (h : pg.speedSq = 0) : pg.speed = 0 := by
  have hlow : pg.speed * pg.speed ≤ pg.speedSq := (isqrt_isRoot pg.speedSq).1
  simpa [h] using hlow

/-- Settles O51: the distance is the least number of steps that cover the way down to FL, and k steps have a closed
form. -/
theorem rampDownDistanceCountsTheSteps : Obligations.RampDownDistanceCountsTheSteps := by
  intro p v hd hv
  refine ⟨rfl, rfl, p.rampDown_mul_lt hd v, (p.rampDown_le_iff hd).mp le_rfl, p.repeat_decelStep_rampDown hd hv,
    fun _ => p.flSq_lt_repeat_decelStep hd hv, p.rampDown_flSq hd, p.rampDown_decelStep hd v, fun pg => ?_⟩
  obtain ⟨hlow, hhigh⟩ := isqrt_isRoot pg.speedSq
  exact ⟨hlow, hhigh, Pg.speed_eq_zero⟩

end Sys2Proof.Machine
end

