-- ==== Sys2Proof/Proofs/MarkUnits.lean ====
section
/-! PROOFS. Mark units: how firings reach a unit's MARK (R144), and MARKSET (R140, R141). -/

namespace Sys2Proof.Machine

/-! ### A unit's MARK in the transmit queue -/

theorem TxFrame.isMark_self (u : Fin 4) (f : Firings) : (TxFrame.mark u f).isMark u = true := beq_self_eq_true u

/-- The frames that count against the limit of a unit's MARK are that unit's MARKs (R21). -/
theorem sameLimit_mark_eq_isMark (u : Fin 4) (f : Firings) (x : TxFrame) : sameLimit (.mark u f) x = x.isMark u := by
  cases x <;> rfl

/-- A MARK of a unit that has none in the transmit queue is admitted (R21). -/
theorem enqueue_mark {s : State} {u : Fin 4} (f : Firings) (hn : ∀ e ∈ s.tif.queue, e.frame.isMark u = false) :
    enqueue (.mark u f) s = { s with tif := { s.tif with
      queue := s.tif.queue ++ [{ frame := .mark u f, attempts := 0, onLine := false, withdrawn := false }] } } := by
  have hc : (s.tif.queue.countP fun e => sameLimit (.mark u f) e.frame) = 0 := by
    rw [List.countP_eq_zero]
    intro e he
    simp [sameLimit_mark_eq_isMark, hn e he]
  rw [enqueue, if_pos (by rw [hc]; exact Nat.one_pos)]

theorem markEntry_eq_none {s : State} {u : Fin 4} (hn : ∀ e ∈ s.tif.queue, e.frame.isMark u = false) :
    s.markEntry? u = none := by
  rw [State.markEntry?, List.find?_eq_none]
  intro e he
  simp [hn e he]

section
variable {s : State} {u : Fin 4} {pre : List TxEntry} {e : TxEntry} {post : List TxEntry} {f : Firings}

/-- Under the limits of R21 a unit has one MARK in the transmit queue. -/
theorem isMark_others (hq : s.tif.queue = pre ++ e :: post) (hf : e.frame = .mark u f) (hl : s.limitsKept) :
    ∀ x ∈ pre ++ post, x.frame.isMark u = false := by
  intro x hx
  have hno := no_alike hq hl (by rw [hf]; rfl) x hx
  rw [hf] at hno
  exact sameLimit_mark hno

theorem markEntry_eq_some (hq : s.tif.queue = pre ++ e :: post) (hf : e.frame = .mark u f) (hl : s.limitsKept) :
    s.markEntry? u = some e := by
  have hothers := isMark_others hq hf hl
  have hpre : pre.find? (fun x => x.frame.isMark u) = none := by
    rw [List.find?_eq_none]
    intro x hx
    simp [hothers x (by simp [hx])]
  rw [State.markEntry?, hq, List.find?_append, hpre, List.find?_cons_of_pos (by rw [hf]; exact TxFrame.isMark_self u f)]
  rfl

end

/-! ### Firings -/

theorem Firings.fresh_eq (k : Nat) (n : Int) :
    Firings.fresh k n = { count := min 15 k, saturated := decide (15 < k), position := n } := by
  simp [Firings.fresh, Firings.more, Config.markCountMax]

/-- No firings change nothing (R144). -/
theorem handFirings_zero (u : Fin 4) (n : Int) (s : State) : handFirings u 0 n s = s := if_pos rfl

section
variable {s : State} {u : Fin 4} {k : Nat} (n : Int)

/-- The firings of a unit without a MARK make a new one (R144). -/
theorem handFirings_of_no_mark (hk : 1 ≤ k) (hn : ∀ e ∈ s.tif.queue, e.frame.isMark u = false) :
    handFirings u k n s = { s with tif := { s.tif with queue := s.tif.queue
      ++ [{ frame := .mark u (Firings.fresh k n), attempts := 0, onLine := false, withdrawn := false }] } } := by
  rw [handFirings, if_neg (by omega), markEntry_eq_none hn]
  exact enqueue_mark _ hn

variable {pre : List TxEntry} {e : TxEntry} {post : List TxEntry} {f : Firings}

/-- The firings of a unit whose MARK waits are counted into it in place (R144). -/
theorem handFirings_of_waiting (hk : 1 ≤ k) (hq : s.tif.queue = pre ++ e :: post) (hf : e.frame = .mark u f)
    (hl : s.limitsKept) (hoff : e.onLine = false) :
    handFirings u k n s = { s with tif := { s.tif with queue := pre ++ { e with frame := .mark u (f.more k) } :: post } } := by
  rw [handFirings, if_neg (by omega), markEntry_eq_some hq hf hl]
  have hchange := changeWaiting_one (g := TxFrame.mapFirings (Firings.more k)) hq hoff
    (by rw [hf]; exact TxFrame.isMark_self u f) (isMark_others hq hf hl)
  simp [hoff, hchange, hf, TxFrame.mapFirings]

/-- The firings of a unit whose MARK is on the line are held (R144). -/
theorem handFirings_of_onLine (hk : 1 ≤ k) (hq : s.tif.queue = pre ++ e :: post) (hf : e.frame = .mark u f)
    (hl : s.limitsKept) (hon : e.onLine = true) :
    handFirings u k n s = s.setUnit u { s.pb.units[u] with
      held := some ((s.pb.units[u]).held.elim (Firings.fresh k n) (Firings.more k)) } := by
  rw [handFirings, if_neg (by omega), markEntry_eq_some hq hf hl]
  simp only [hon, if_true]
  cases (s.pb.units[u]).held <;> rfl

end

/-- Settles O49: the three cases are whether the unit has a MARK in the transmit queue, and whether that is on the
line. -/
theorem firingsReachTheUnitsMark : Obligations.FiringsReachTheUnitsMark := by
  refine ⟨handFirings_zero, fun u k n s hk => ?_⟩
  dsimp only
  rw [← Firings.fresh_eq]
  refine ⟨handFirings_of_no_mark n hk, fun pre e post f hq hf hl => ⟨handFirings_of_waiting n hk hq hf hl, fun hon => ?_⟩⟩
  rw [handFirings_of_onLine n hk hq hf hl hon]
  cases (s.pb.units[u]).held <;> rfl

/-! ### Requests that act in RUN -/

/-- A request in node state RUN: its owner's reply to the state with the answer slot occupied is what the node is left
with, and its ANSWER joins the queue (R38, R170, R171). -/
theorem serve_runOnly {s : State} {c : Instr} {i : Fin 2} {f : Frame} {st : StationId} {ref : Byte} {kind : BitVec 4}
    {act : State → Reply} {r : Reply} (hc : s.canServe c i) (hf : frameOf s.own c = some f) (hn : s.ss.node = .run)
    (hr : act (s.served i st ref kind) = r) (ha : r.state.answers = s.answers) :
    serve c st ref kind (runOnly act) s = r.state.withAnswer i st ref kind r.result r.contents := by
  have hact : runOnly act (s.served i st ref kind) = r := (if_pos hn).trans hr
  rw [serve_eq st ref kind _ hc hf (by rwa [hact]), hact]

/-! ### Operands of MARKSET -/

theorem unitOf_eq_none {b : Byte} (h : 3 < b.toNat) : unitOf b = none := dif_neg (by omega)

theorem unitOf_eq_some {b : Byte} {u : Fin 4} (h : b.toNat = u.val) : unitOf b = some u := by
  rw [unitOf, dif_pos (by omega)]
  exact congrArg some (Fin.ext h)

/-- The counter range as a bound on the size (R26, R131). -/
theorem inCounterRange_iff {x : Int} : inCounterRange x = true ↔ x.natAbs ≤ 1073741823 := by
  rw [inCounterRange, decide_eq_true_iff]
  show -1073741823 ≤ x ∧ x ≤ 1073741823 ↔ _
  omega

theorem positionOf_eq_none {x : BitVec 32} (h : 1073741823 < x.toInt.natAbs) : positionOf x = none :=
  if_neg (by rw [inCounterRange_iff]; omega)

theorem positionOf_eq_some {x : BitVec 32} (h : x.toInt.natAbs ≤ 1073741823) : positionOf x = some x.toInt :=
  if_pos (inCounterRange_iff.mpr h)

/-- The condition's two bits one by one (Table 2-8, byte 3 bits 1 to 0). -/
theorem markCondOf_eq (b : Byte) :
    markCondOf b = if b.getLsbD 1 then (if b.getLsbD 0 then .atOrBelow else .atOrAbove)
      else (if b.getLsbD 0 then .crossDown else .crossUp) := by
  revert b
  decide

/-! ### MARKSET ARM -/

theorem setUnit_units_self (u : Fin 4) (x : MarkUnit) (s : State) : (s.setUnit u x).pb.units[u] = x := by
  simp [State.setUnit]

@[simp] theorem setUnit_setUnit (u : Fin 4) (x y : MarkUnit) (s : State) :
    (s.setUnit u x).setUnit u y = s.setUnit u y := by
  simp [State.setUnit]

/-- A unit judged at an event of its source counter outside SILENT: it is left as the judgement leaves it, and its
firings go to its MARK (R142 to R144, R149). -/
theorem evalUnit_of_source {src : MarkSource} {s : State} {u : Fin 4} (e : CounterEvent) (n : Int)
    (hs : (s.pb.units[u]).source = src) (hn : s.ss.node ≠ .silent) :
    evalUnit src e n s u
      = handFirings u ((s.pb.units[u]).judge e n).1 n (s.setUnit u ((s.pb.units[u]).judge e n).2) :=
  if_neg (not_or.mpr ⟨not_not.mpr hs, hn⟩)

/-- A unit with the settings of an ARM (R140); the firings it holds stand. -/
def MarkUnit.armedWith (x : MarkUnit) (src : MarkSource) (cond : MarkCond) (threshold : Int) (period : Nat) : MarkUnit :=
  { x with state := .armed, source := src, cond, threshold, period }

/-- Arming judges the armed unit once against its source counter (R140). -/
theorem armUnit_eq {s : State} (hn : s.ss.node = .run) (u : Fin 4) (src : MarkSource) (cond : MarkCond) (threshold : Int)
    (period : Nat) :
    armUnit u src cond threshold period s
      = handFirings u (((s.pb.units[u]).armedWith src cond threshold period).judge .arming (s.sourceCounter src)).1
          (s.sourceCounter src)
          (s.setUnit u (((s.pb.units[u]).armedWith src cond threshold period).judge .arming (s.sourceCounter src)).2) := by
  have hc : ∀ x, (s.setUnit u x).sourceCounter src = s.sourceCounter src := fun _ => by cases src <;> rfl
  rw [armUnit, evalUnit_of_source]
  · simp only [setUnit_units_self, setUnit_setUnit, hc]
    rfl
  · rw [setUnit_units_self]
  · simp [hn]

theorem armUnit_answers (u : Fin 4) (src : MarkSource) (cond : MarkCond) (threshold : Int) (period : Nat) (s : State) :
    (armUnit u src cond threshold period s).answers = s.answers :=
  congrArg Outside.answers ((evalUnit_outside ..).trans (setUnit_outside ..))

section
variable {s : State} {source : StationId} {reference unit b : Byte} {threshold : BitVec 32} {period : BitVec 24} {i : Fin 2}

/-- A MARKSET ARM that fails a check draws RANGE and changes nothing (R140). -/
theorem exec_marksetArm_range (hc : s.canServe (.marksetArm source reference unit b threshold period) i)
    (hn : s.ss.node = .run) (h : unitOf unit = none ∨ b &&& 0xEC ≠ 0 ∨ positionOf threshold = none) :
    exec (.marksetArm source reference unit b threshold period) s
      = .next ((s.served i source reference kindMarkset).withAnswer i source reference kindMarkset .range []) := by
  refine congrArg Host.Outcome.next (serve_runOnly (r := refuse .range _) hc rfl hn ?_ rfl)
  obtain hu | hb | hp := h
  · rw [hu]; rfl
  · cases unitOf unit with
    | none => rfl
    | some u => exact if_pos hb
  · cases unitOf unit with
    | none => rfl
    | some u => rw [hp]; exact ite_self _

/-- A MARKSET ARM that passes its checks arms its unit (R140). -/
theorem exec_marksetArm_accepted {u : Fin 4} {t : Int}
    (hc : s.canServe (.marksetArm source reference unit b threshold period) i) (hn : s.ss.node = .run)
    (hu : unitOf unit = some u) (hb : b &&& 0xEC = 0) (hp : positionOf threshold = some t) :
    exec (.marksetArm source reference unit b threshold period) s
      = .next ((armUnit u (markSourceOf b) (markCondOf b) t period.toNat
          (s.served i source reference kindMarkset)).withAnswer i source reference kindMarkset .accepted []) := by
  refine congrArg Host.Outcome.next (serve_runOnly (r := accept _) hc rfl hn ?_ (armUnit_answers ..))
  rw [hu, hp]
  exact if_neg (not_not.mpr hb)

end

theorem sourceCounter_markSourceOf (b : Byte) (s : State) :
    s.sourceCounter (markSourceOf b) = if b.getLsbD 4 then s.pb.feedback else s.pb.command := by
  rw [markSourceOf]
  split <;> rfl

/-- Settles O35: each check that fails leaves an operand without a value, and a unit that passes is armed and judged. -/
theorem marksetArmArmsAndJudges : Obligations.MarksetArmArmsAndJudges := by
  intro source reference unit b threshold period i s hc hn
  refine ⟨fun h => exec_marksetArm_range hc hn ?_, fun u hu hb hp => ?_⟩
  · exact h.imp unitOf_eq_none (Or.imp_right positionOf_eq_none)
  · dsimp only
    have hrun : (s.served i source reference kindMarkset).ss.node = .run := hn
    rw [exec_marksetArm_accepted hc hn (unitOf_eq_some hu) hb (positionOf_eq_some hp), armUnit_eq hrun,
      sourceCounter_markSourceOf, markCondOf_eq]
    rfl

/-! ### MARKSET DISARM -/

theorem link_ne_sending {s : State} (h : s.hears = true) : s.tif.link ≠ .sending := by
  simp only [State.hears, Bool.and_eq_true, beq_iff_eq] at h
  obtain ⟨hlink, -⟩ := h
  simp [hlink]

/-- A node that is not SENDING has no frame on the line (R21). -/
theorem onLine_eq_false {s : State} (hl : s.lineRight = true) (hs : s.tif.link ≠ .sending) :
    ∀ e ∈ s.tif.queue, e.onLine = false := by
  have hzero : s.framesOnLine = 0 := by simpa [State.lineRight, hs] using hl
  have hqueue : (s.tif.queue.countP fun e => e.onLine) = 0 := Nat.eq_zero_of_add_eq_zero_right hzero
  simpa [List.countP_eq_zero] using hqueue

/-- A withdrawal while nothing is on the line removes the frames it picks (R24). -/
theorem withdraw_of_off_line {s : State} (hoff : ∀ e ∈ s.tif.queue, e.onLine = false) (p : TxFrame → Bool) :
    withdraw p s = { s with tif := { s.tif with queue := s.tif.queue.filter fun e => !p e.frame } } := by
  have hq : (s.tif.queue.filterMap fun e =>
      if p e.frame then (if e.onLine then some { e with withdrawn := true } else none) else some e)
      = s.tif.queue.filter fun e => !p e.frame := by
    rw [← List.filterMap_eq_filter]
    refine List.filterMap_congr fun e he => ?_
    cases hp : p e.frame <;> simp [hoff e he, hp, Option.guard]
  rw [withdraw, hq]

/-- Without a frame on the line no unit holds firings (Table 8-3). -/
theorem held_eq_none {s : State} (hh : s.heldRight = true) (hoff : ∀ e ∈ s.tif.queue, e.onLine = false) (u : Fin 4) :
    (s.pb.units[u]).held = none := by
  have hmem : u ∈ allUnits := by
    revert u
    decide
  have hnone : (s.markEntry? u).any (fun e => e.onLine) = false := by
    rw [Option.any_eq_false]
    exact fun e he => hoff e (List.mem_of_find?_eq_some he)
  have hu := List.all_eq_true.mp hh u hmem
  rwa [hnone, Bool.or_false, Option.isNone_iff_eq_none] at hu

section
variable {s : State} {u : Fin 4}

/-- The DISARM of a unit while nothing is on the line: the unit keeps its settings, and its MARK is removed (R141). -/
theorem disarmUnit_of_off_line (hh : s.heldRight = true) (hoff : ∀ e ∈ s.tif.queue, e.onLine = false) :
    disarmUnit u s = { s with
      pb := { s.pb with units := s.pb.units.set u { s.pb.units[u] with state := .disarmed, held := none } }
      tif := { s.tif with queue := s.tif.queue.filter fun e => !e.frame.isMark u } } := by
  rw [disarmUnit, withdraw_of_off_line (s := s.setUnit u _) hoff, held_eq_none hh hoff u]
  rfl

theorem disarmUnit_answers (u : Fin 4) (s : State) : (disarmUnit u s).answers = s.answers :=
  congrArg Outside.answers ((withdrawMark_outside ..).trans (setUnit_outside ..))

variable {source : StationId} {reference unit : Byte} {unused : BitVec 64} {i : Fin 2}

/-- A MARKSET DISARM of a unit above 3 draws RANGE and changes nothing (R140). -/
theorem exec_marksetDisarm_range (hc : s.canServe (.marksetDisarm source reference unit unused) i) (hn : s.ss.node = .run)
    (hu : unitOf unit = none) :
    exec (.marksetDisarm source reference unit unused) s
      = .next ((s.served i source reference kindMarkset).withAnswer i source reference kindMarkset .range []) := by
  refine congrArg Host.Outcome.next (serve_runOnly (r := refuse .range _) hc rfl hn ?_ rfl)
  rw [hu]
  rfl

theorem exec_marksetDisarm_accepted (hc : s.canServe (.marksetDisarm source reference unit unused) i)
    (hn : s.ss.node = .run) (hu : unitOf unit = some u) :
    exec (.marksetDisarm source reference unit unused) s
      = .next ((disarmUnit u (s.served i source reference kindMarkset)).withAnswer i source reference kindMarkset
          .accepted []) := by
  refine congrArg Host.Outcome.next (serve_runOnly (r := accept _) hc rfl hn ?_ (disarmUnit_answers ..))
  rw [hu]
  rfl

end

/-- Settles O36: a node that hears a request has nothing on the line, so the unit's MARK waits and no firings are held. -/
theorem marksetDisarmWithdrawsTheMark : Obligations.MarksetDisarmWithdrawsTheMark := by
  intro source reference unit unused i s hc hn
  refine ⟨fun hu => exec_marksetDisarm_range hc hn (unitOf_eq_none hu), fun u hu hl hh => ?_⟩
  have ⟨hears, _⟩ := hc
  have hoff := onLine_eq_false hl (link_ne_sending hears)
  rw [exec_marksetDisarm_accepted hc hn (unitOf_eq_some hu),
    disarmUnit_of_off_line (s := s.served i source reference kindMarkset) hh hoff]
  rfl

end Sys2Proof.Machine
end

