-- ==== Sys2Proof/Proofs/FeedbackCounter.lean ====
section
/-! PROOFS. The feedback counter: the following test (R138), the quadrature decoder (R133, R135) and the count
(R136). -/

namespace Sys2Proof.Machine

/-! ### The following test -/

/-- The following test (R138) on the deviation as it stands and as it stood before. -/
theorem followTest_eq (before : Int) (s : State) : followTest before s =
    if s.ss.node = .run ∧ s.ss.settings.encMode ≠ .off ∧ s.ss.settings.following ≠ 0
        ∧ s.ss.settings.following < (s.pb.command - s.pb.feedback).natAbs
        ∧ before.natAbs < (s.pb.command - s.pb.feedback).natAbs then guardTake .followingError .smooth s
    else s := by
  have hfails : s.followFails before = true ↔ s.ss.node = .run ∧ s.ss.settings.encMode ≠ .off
      ∧ s.ss.settings.following ≠ 0 ∧ s.ss.settings.following < (s.pb.command - s.pb.feedback).natAbs
      ∧ before.natAbs < (s.pb.command - s.pb.feedback).natAbs := by
    rw [State.followFails]
    simp only [Bool.and_eq_true, beq_iff_eq, bne_iff_ne, decide_eq_true_iff, and_assoc]
    rfl
  exact if_congr hfails rfl rfl

/-! ### One count -/

theorem stepFeedback_zero (s : State) : stepFeedback 0 s = s := by
  rw [stepFeedback]
  exact if_pos rfl

section
variable {c : Int} {s : State}

/-- A count beyond the counter range is not applied (R136). -/
theorem stepFeedback_refused (hc : c ≠ 0) (hn : 1073741823 < (s.pb.feedback + c).natAbs) :
    stepFeedback c s = guardTake .encoderError .abrupt s := by
  have hout : inCounterRange (s.pb.feedback + c) = false := by
    rw [← Bool.not_eq_true, inCounterRange_iff]
    omega
  simp [stepFeedback, hc, hout]

/-- A count within the counter range is applied; the following test and the units with source FEEDBACK see it. -/
theorem stepFeedback_applied (hc : c ≠ 0) (hn : (s.pb.feedback + c).natAbs ≤ 1073741823) :
    stepFeedback c s = evalMarks .feedback (.step s.pb.feedback) (s.pb.feedback + c)
      (followTest (s.pb.command - s.pb.feedback) { s with pb := { s.pb with feedback := s.pb.feedback + c } }) := by
  have hin := inCounterRange_iff.mpr hn
  simp [stepFeedback, hc, hin, Pb.deviation]

end

/-! ### The decoder -/

/-- The decoder moves one combination forward, S0 to S1 to S2 to S3 to S0 (R133). -/
def Quad.advances (a b : Quad) : Bool := (a, b) ∈ [(Quad.s0, Quad.s1), (.s1, .s2), (.s2, .s3), (.s3, .s0)]

/-- The transitions that an encoder mode counts (Table 8-2). -/
def EncMode.counts (m : EncMode) (a b : Quad) : Bool :=
  match m with
  | .off => false
  | .x1 => (a, b) ∈ [(Quad.s0, Quad.s1), (.s1, .s0)]
  | .x2 => (a, b) ∈ [(Quad.s0, Quad.s1), (.s1, .s0), (.s2, .s3), (.s3, .s2)]
  | .x4 => a.advances b || b.advances a

theorem quadOf_eq (qa qb : Level) :
    quadOf qa qb = if qa = .low then (if qb = .low then .s0 else .s3) else (if qb = .low then .s1 else .s2) := by
  cases qa <;> cases qb <;> rfl

/-- Both inputs change exactly if the combination changes by more than one place (R135). -/
theorem Quad.bothChange_iff (a b : Quad) :
    a.bothChange b = true ↔ a ≠ b ∧ a.advances b = false ∧ b.advances a = false := by
  cases a <;> cases b <;> decide

/-- Table 8-2: a counted transition counts forward as 1 and back as −1, the others as 0. -/
theorem quadCount_eq (m : EncMode) (a b : Quad) :
    quadCount m a b = if m.counts a b then (if a.advances b then 1 else -1) else 0 := by
  cases m <;> cases a <;> cases b <;> rfl

theorem EncMode.ne_off_of_counts {m : EncMode} {a b : Quad} (h : m.counts a b = true) : m ≠ .off := by
  rintro rfl
  exact Bool.false_ne_true h

section
variable {x : Settings} {a b : Quad}

theorem Settings.quadCount_of_not_counted (h : x.encMode.counts a b = false) : x.quadCount a b = 0 := by
  simp [Settings.quadCount, quadCount_eq, h]

/-- The setting encoder invert turns the direction of a count (R133). -/
theorem Settings.quadCount_of_counted (h : x.encMode.counts a b = true) :
    x.quadCount a b = if a.advances b != x.encInvert then 1 else -1 := by
  cases ha : a.advances b <;> cases hx : x.encInvert <;> simp [Settings.quadCount, quadCount_eq, h, ha, hx]

theorem Settings.quadCount_ne_zero (h : x.encMode.counts a b = true) : x.quadCount a b ≠ 0 := by
  rw [Settings.quadCount_of_counted h]
  split <;> decide

end

/-! ### QUADRATURE_TRANSITION -/

/-- The node whose decoder has taken a combination (R133). -/
def State.decoded (s : State) (q : Quad) : State := { s with pb := { s.pb with decoder := q } }

section
variable {s : State} {qa qb : Level}

/-- With an encoder, both inputs changing is an illegal transition (R135). -/
theorem exec_quadrature_illegal (he : s.ss.settings.encMode ≠ .off) (hb : s.pb.decoder.bothChange (quadOf qa qb) = true) :
    exec (.quadratureTransition qa qb) s = .next (guardTake .encoderError .abrupt (s.decoded (quadOf qa qb))) :=
  congrArg Host.Outcome.next (if_pos ⟨he, hb⟩)

/-- Any other transition counts as the settings in force say (R133). -/
theorem exec_quadrature_valid
    (h : ¬ (s.ss.settings.encMode ≠ .off ∧ s.pb.decoder.bothChange (quadOf qa qb) = true)) :
    exec (.quadratureTransition qa qb) s
      = .next (stepFeedback (s.ss.settings.quadCount s.pb.decoder (quadOf qa qb)) (s.decoded (quadOf qa qb))) :=
  congrArg Host.Outcome.next (if_neg h)

end

/-- Settles O48: the transition is illegal, not counted, counted beyond the range, or counted and applied. -/
theorem quadratureCountsTheFeedback : Obligations.QuadratureCountsTheFeedback := by
  refine ⟨followTest_eq, fun qa qb s => ?_⟩
  rw [← quadOf_eq]
  intro new old forward reverse counted n t
  have hcount (h : counted = true) : s.pb.feedback + s.ss.settings.quadCount old new = n :=
    congrArg (s.pb.feedback + ·) (Settings.quadCount_of_counted h)
  refine ⟨fun he hne hf hr => exec_quadrature_illegal he ((old.bothChange_iff new).mpr ⟨hne, hf, hr⟩), fun hvalid => ?_⟩
  have hexec : exec (.quadratureTransition qa qb) s = .next (stepFeedback (s.ss.settings.quadCount old new) t) := by
    refine exec_quadrature_valid fun ⟨he, hb⟩ => ?_
    obtain ⟨hne, hf, hr⟩ := (old.bothChange_iff new).mp hb
    obtain h | h | h | h := hvalid
    · exact he h
    · exact hne h
    · exact Bool.false_ne_true (hf.symm.trans h)
    · exact Bool.false_ne_true (hr.symm.trans h)
  rw [hexec]
  refine ⟨fun h => ?_, fun h hn => ?_, fun h hn => ?_⟩
  · rw [Settings.quadCount_of_not_counted h, stepFeedback_zero]
  · rw [stepFeedback_refused (Settings.quadCount_ne_zero h)]
    rwa [← hcount h] at hn
  · intro before after u fails
    rw [stepFeedback_applied (Settings.quadCount_ne_zero h) (by rwa [← hcount h] at hn), followTest_eq, hcount h]
    refine congrArg (fun x => Host.Outcome.next (evalMarks .feedback (.step s.pb.feedback) n x)) (if_congr ?_ rfl rfl)
    exact and_congr_right' (and_iff_right (EncMode.ne_off_of_counts h))

end Sys2Proof.Machine
end

