-- ==== Sys2Proof/Proofs/HeardMarks.lean ====
section
/-! PROOFS. MARKs of other stations and of the node itself: the heard-mark list (R146 to R148), and the end mark of a
RUN (R74, R115). -/

namespace Sys2Proof.Machine

/-! ### Taking a frame leaves the segments, the setup and the heard marks -/

@[simp] theorem releaseHeld_heard (u : Fin 4) (s : State) : (releaseHeld u s).pb.heard = s.pb.heard := by
  unfold releaseHeld
  dsimp only
  split
  · rfl
  · rw [enqueue_pb]
    rfl

/-- What the producer of a taken frame does leaves the segment queue, the Setup Store and the heard-mark list (R12,
R145, R170, R176). -/
theorem attemptTaken_frame (s : State) :
    (attemptTaken s).queue = s.queue ∧ (attemptTaken s).ss = s.ss ∧ (attemptTaken s).pb.heard = s.pb.heard := by
  unfold attemptTaken
  split
  · exact ⟨rfl, rfl, rfl⟩
  · split
    · exact ⟨rfl, rfl, rfl⟩
    · dsimp only
      split
      · exact ⟨rfl, rfl, rfl⟩
      · split <;> simp [dropOnLine, noticeTaken]

theorem taken_frame (s : State) :
    (taken s).queue = s.queue ∧ (taken s).ss = s.ss ∧ (taken s).pb.heard = s.pb.heard := by
  unfold taken
  split
  · exact attemptTaken_frame _
  · exact ⟨rfl, rfl, rfl⟩

@[simp] theorem taken_queue (s : State) : (taken s).queue = s.queue :=
  have ⟨h, _, _⟩ := taken_frame s
  h

@[simp] theorem taken_ss (s : State) : (taken s).ss = s.ss :=
  have ⟨_, h, _⟩ := taken_frame s
  h

@[simp] theorem taken_heard (s : State) : (taken s).pb.heard = s.pb.heard :=
  have ⟨_, _, h⟩ := taken_frame s
  h

theorem taken_referenced (s : State) (m : MarkRef) : (taken s).referenced m = s.referenced m := by
  rw [State.referenced, taken_queue, State.referenced]

theorem taken_heardHas (s : State) (m : MarkRef) : (taken s).heardHas m = s.heardHas m := by
  rw [State.heardHas, taken_heard, State.heardHas]

/-! ### The MARK is taken -/

/-- A node with no free answer slot has both occupied (R170). -/
theorem freeSlot_isNone (s : State) :
    s.freeSlot?.isNone = (s.fh.slots[0].isSome && s.fh.slots[1].isSome) := by
  rw [State.freeSlot?]
  cases s.fh.slots[0] <;> cases s.fh.slots[1] <;> rfl

/-- A command that the node takes is what follows on its window (R9 to R12). -/
theorem takeFrame_of_takesCommand {s : State} {c : Instr} (h : s.takesCommand c = true) (act : State → State) :
    takeFrame c act s = act (taken s) := by
  obtain ⟨f, hf, ht⟩ := (Option.any_eq_true _ _).mp h
  have htakes : s.takes f = true := by
    rw [State.takes, State.busyFor, freeSlot_isNone, ← Bool.and_assoc]
    exact ht
  simp [takeFrame, hf, htakes]

/-- A MARK taken in RUN reaches the Position Block (R147). -/
theorem exec_markTaken {s : State} {source : StationId} {unit packed : Byte} {position : BitVec 32} {u : Fin 4}
    (ht : s.takesCommand (.markTaken source unit packed position) = true) (hn : s.ss.node = .run)
    (hu : unitOf unit = some u) :
    exec (.markTaken source unit packed position) s
      = .next (hearMark { station := source, unit := u } (packed.extractLsb' 0 4).toNat (taken s)) := by
  refine congrArg Host.Outcome.next ((takeFrame_of_takesCommand ht _).trans ?_)
  rw [inRun, if_pos (by rw [taken_ss, hn]), hu]
  rfl

/-! ### The record -/

section
variable {s : State} {m : MarkRef} {c : Nat}

/-- A pair that no segment refers to is not recorded (R147). -/
theorem hearMark_of_not_referenced (hr : s.referenced m = false) : hearMark m c s = s := by
  rw [hearMark, hr]
  rfl

/-- A pair with an entry has the firings added to it, at most 15 (R147). -/
theorem hearMark_of_entry {pre : List Heard} {e : Heard} {post : List Heard} (hr : s.referenced m = true)
    (hq : s.pb.heard = pre ++ e :: post) (he : e.ref = m) (hn : ∀ x ∈ pre ++ post, x.ref ≠ m) :
    hearMark m c s = evaluate (lookEndMark { s with
      pb := { s.pb with heard := pre ++ { e with count := min 15 (e.count + c) } :: post } }) := by
  have hhas : s.heardHas m = true := by simp [State.heardHas, hq, he]
  have hid : ∀ l : List Heard, (∀ x ∈ l, x.ref ≠ m) →
      l.map (fun e => if e.ref = m then { e with count := min Config.markCountMax (e.count + c) } else e) = l :=
    fun l hl => (List.map_congr_left fun x hx => if_neg (hl x hx)).trans (List.map_id l)
  rw [hearMark, hr, hhas, addHeard, hq, List.map_append, List.map_cons, hid pre (fun x hx => hn x (by simp [hx])),
    hid post (fun x hx => hn x (by simp [hx])), if_pos he]
  rfl

/-- A pair without an entry joins the list while there is room (R147). -/
theorem hearMark_of_room (hr : s.referenced m = true) (hh : s.heardHas m = false) (hroom : s.pb.heard.length < 8) :
    hearMark m c s = evaluate (lookEndMark { s with
      pb := { s.pb with heard := s.pb.heard ++ [{ ref := m, count := c }] } }) := by
  rw [hearMark, hr, hh]
  exact if_pos hroom

/-- A pair without an entry is lost when the list is full, and the LINK notice says so (R147). -/
theorem hearMark_of_full (hr : s.referenced m = true) (hh : s.heardHas m = false) (hfull : 8 ≤ s.pb.heard.length) :
    hearMark m c s = produce .link [2, m.station ++ BitVec.ofNat 2 m.unit.val] s := by
  rw [hearMark, hr, hh]
  exact if_neg (Nat.not_lt.mpr hfull)

end

/-! ### The end mark of a RUN -/

section
variable {s : State} {h : Segment} {rest : List Segment}

/-- A head that is not a RUNNING RUN with its end mark heard does not look (R115). -/
theorem lookEndMark_of_no_mark (hq : s.queue = h :: rest)
    (hno : h.state ≠ .running ∨ ∀ d m p, h.kind = .run d (some m) p → s.heardHas m = false) : lookEndMark s = s := by
  unfold lookEndMark
  rw [hq]
  dsimp only
  split
  · next d m p hs hk =>
    have hm := hno.resolve_left (not_not.mpr hs) d m p hk
    rw [hm]
    rfl
  · rfl

/-- A RUNNING RUN whose end mark is heard consumes one unit of it and stops, DONE and SMOOTH (R74, R115, R118). -/
theorem lookEndMark_of_mark {d : Dir} {m : MarkRef} {p : Profile} {pre : List Heard} {e : Heard} {post : List Heard}
    (hq : s.queue = h :: rest) (hs : h.state = .running) (hk : h.kind = .run d (some m) p)
    (hheard : s.pb.heard = pre ++ e :: post) (he : e.ref = m) (hpre : ∀ x ∈ pre, x.ref ≠ m) :
    lookEndMark s = { s with
      queue := { h with state := .ending .done .smooth } :: rest
      pg := s.pg.stopping h.kind .smooth
      pb := { s.pb with heard := pre ++ (if e.count ≤ 1 then [] else [{ e with count := e.count - 1 }]) ++ post } } := by
  have hhas : s.heardHas m = true := by simp [State.heardHas, hheard, he]
  have hconsumed := consumeHeard_split (post := post) he hpre
  simp [lookEndMark, hq, hs, hk, hhas, consume, setHeadState, pgStop_eq, hheard, hconsumed]

end

/-- A SMOOTH stop of a segment with a profile ends at once at FL and decelerates above it (R118). -/
theorem Pg.stopping_smooth {pg : Pg} {k : SegKind} {p : Profile} (hk : k.profile? = some p) :
    pg.stopping k .smooth = if pg.speedSq ≤ p.fl * p.fl then pg.resting else pg.decelerating k := by
  simp [Pg.stopping, Pg.stopsAtOnce, hk]

/-- Settles O30: whether the pair is referred to, has an entry, and finds room decides the record, and the head's state
and kind whether it looks for its end mark. -/
theorem markTakenIsHeard : Obligations.MarkTakenIsHeard := by
  refine ⟨fun source unit packed position u s ht hn hu => ?_, fun s h rest hq => ⟨lookEndMark_of_no_mark hq, ?_⟩⟩
  · intro m c
    rw [exec_markTaken ht hn hu, ← taken_referenced, ← taken_heardHas, ← taken_heard]
    refine ⟨fun hr => ?_, fun hr pre e post hq he ho => ?_, fun hr hh hroom => ?_, fun hr hh hfull => ?_⟩
    · rw [hearMark_of_not_referenced hr]
    · rw [hearMark_of_entry hr hq he ho]
    · rw [hearMark_of_room hr hh hroom]
    · rw [hearMark_of_full hr hh hfull]
  · intro d m p pre e post hs hk hheard he hpre
    have hprofile : h.kind.profile? = some p := by rw [hk]; rfl
    rw [lookEndMark_of_mark hq hs hk hheard he hpre, Pg.stopping_smooth hprofile]

end Sys2Proof.Machine
end

