-- ==== Sys2Proof/Proofs/ClearStation.lean ====
section
/-! PROOFS. CLEAR(STATION): the causes it finds present (R165), and the release of the Guard (R166). -/

namespace Sys2Proof.Machine

/-! ### Cause sets -/

theorem Cause.code_pred_lt (c : Cause) : c.code - 1 < 16 := by
  cases c <;> decide

/-- Causes have different places in a cause set: the place gives the cause back (Table 2-4). -/
theorem Cause.code_pred_injective : Function.Injective fun c : Cause => c.code - 1 := by
  have hback : Function.LeftInverse (fun n => allCauses.getD n .limitPlus) fun c : Cause => c.code - 1 := by
    intro c
    cases c <;> rfl
  exact hback.injective

theorem hasCause_zero (c : Cause) : hasCause 0 c = false := BitVec.getLsbD_zero

theorem hasCause_or (a b : BitVec 16) (c : Cause) : hasCause (a ||| b) c = (hasCause a c || hasCause b c) :=
  BitVec.getLsbD_or

/-- The bit of a cause is the set of that cause alone (R26). -/
theorem hasCause_bit (d c : Cause) : hasCause d.bit c = decide (c = d) := by
  have hplace : hasCause d.bit c = (decide (d.code - 1 < 16) && decide (d.code - 1 = c.code - 1)) :=
    BitVec.getLsbD_twoPow _ _
  rw [hplace, decide_eq_true d.code_pred_lt, Bool.true_and]
  exact decide_eq_decide.mpr (Cause.code_pred_injective.eq_iff.trans eq_comm)

theorem hasCause_foldl (cs : List Cause) (set : BitVec 16) (c : Cause) :
    hasCause (cs.foldl (fun a d => a ||| d.bit) set) c = (hasCause set c || decide (c ∈ cs)) := by
  induction cs generalizing set with
  | nil => simp
  | cons d cs ih => simp [ih, hasCause_or, hasCause_bit, Bool.or_assoc]

/-- The set of a list of causes holds the causes of the list. -/
theorem hasCause_causeSet (cs : List Cause) (c : Cause) : hasCause (causeSet cs) c = decide (c ∈ cs) := by
  rw [causeSet, hasCause_foldl, hasCause_zero, Bool.false_or]

/-- The set of a list of causes is empty if it holds no cause. -/
theorem causeSet_eq_zero {cs : List Cause} (h : ∀ c, hasCause (causeSet cs) c = false) : causeSet cs = 0 := by
  have hnil : cs = [] := List.eq_nil_iff_forall_not_mem.mpr fun c => by simpa [hasCause_causeSet] using h c
  rw [hnil]
  rfl

/-! ### The causes that are present -/

/-- A CLEAR(STATION) finds the condition of this cause present (R165): DFLT is active; a limit input is active whose
cause is held; PEER_ALL_HALT is held with another cause. -/
def State.findsPresent (s : State) (c : Cause) : Bool :=
  match c with
  | .driveFault => s.dfltActive
  | .limitPlus => hasCause s.gd.causes .limitPlus && s.limpActive
  | .limitMinus => hasCause s.gd.causes .limitMinus && s.limnActive
  | .peerAllHalt => hasCause s.gd.causes .peerAllHalt && s.gd.causes != Cause.peerAllHalt.bit
  | _ => false

/-- The set that a CLEAR(STATION) computes holds the causes found present (R165). -/
theorem hasCause_presentCauses (s : State) (c : Cause) : hasCause s.presentCauses c = s.findsPresent c := by
  rw [State.presentCauses, hasCause_causeSet]
  cases c <;> simp [State.findsPresent, Bool.and_comm, bne, beq_eq_decide]

theorem presentCauses_ne_zero {s : State} {c : Cause} (h : s.findsPresent c = true) : s.presentCauses ≠ 0 := by
  intro hzero
  rw [← hasCause_presentCauses, hzero, hasCause_zero] at h
  contradiction

theorem presentCauses_eq_zero {s : State} (h : ∀ c, s.findsPresent c = false) : s.presentCauses = 0 :=
  causeSet_eq_zero fun c => (hasCause_presentCauses s c).trans (h c)

/-! ### The Guard's answer -/

/-- The release of the Guard in RUN: NORMAL with an empty record, and DEN high (R166, R168). -/
theorem guardEmpty_eq {s : State} (hn : s.ss.node = .run) (hl : s.tif.link ≠ .silent) :
    guardEmpty s = { s with
      gd := { state := .normal, first := none, causes := 0, originator := none, stopMode := none, den := .high } } := by
  simp [guardEmpty, driveDen, hn, hl]

theorem served_link (s : State) (i : Fin 2) (st : StationId) (ref : Byte) (kind : BitVec 4) :
    (s.served i st ref kind).tif.link = .listening := rfl

section
variable {s : State}

theorem clearGuard_of_normal (h : s.gd.state = .normal) :
    clearGuard s = { state := s, result := .accepted, contents := [0, 0, 0] } := by
  rw [clearGuard, h]

theorem clearGuard_of_stopping (h : s.gd.state = .stopping) : clearGuard s = refuse .state s := by
  rw [clearGuard, h]

/-- A STOPPED Guard stays so while a cause is present, and reports the causes that are (R165). -/
theorem clearGuard_of_present (h : s.gd.state = .stopped) (hp : s.presentCauses ≠ 0) :
    clearGuard s
      = { state := s, result := .stillActive, contents := causeByte s.gd.first :: bytes2 s.presentCauses } := by
  rw [clearGuard, h]
  exact if_pos hp

/-- A STOPPED Guard with no cause present is released, and reports its record as it stood (R165, R166). -/
theorem clearGuard_of_not_present (h : s.gd.state = .stopped) (hp : s.presentCauses = 0) :
    clearGuard s
      = { state := evaluate (guardEmpty s), result := .accepted,
          contents := causeByte s.gd.first :: bytes2 s.gd.causes } := by
  rw [clearGuard, h]
  exact if_neg (not_not.mpr hp)

/-- The Guard's answer to a CLEAR(STATION) leaves the ANSWERs that wait. -/
theorem clearGuard_answers (s : State) : (clearGuard s).state.answers = s.answers := by
  unfold clearGuard
  split
  · rfl
  · rfl
  · split
    · rfl
    · exact congrArg Outside.answers ((evaluate_outside _).trans (guardEmpty_outside s))

/-- A CLEAR(STATION) in RUN is answered as the Guard says (R165, R166). -/
theorem exec_clearStationTaken {source : StationId} {reference : Byte} {i : Fin 2} {r : Reply}
    (hc : s.canServe (.clearStationTaken source reference) i) (hn : s.ss.node = .run)
    (hr : clearGuard (s.served i source reference kindClear) = r) :
    exec (.clearStationTaken source reference) s
      = .next (r.state.withAnswer i source reference kindClear r.result r.contents) :=
  congrArg Host.Outcome.next (serve_runOnly hc rfl hn hr (hr ▸ clearGuard_answers _))

end

/-- Settles O37: the Guard's state, and in STOPPED whether the set of causes found present is empty, decide the answer;
the window of the CLEAR leaves the link LISTENING, so DEN goes high with the release. -/
theorem clearStationReleasesTheGuard : Obligations.ClearStationReleasesTheGuard := by
  intro source reference i s hc hn
  refine ⟨fun h => ?normal, fun h => ?stopping, fun h hpresent => ?stillActive, fun h hnone => ?released⟩
  case normal => exact exec_clearStationTaken hc hn (clearGuard_of_normal h)
  case stopping => exact exec_clearStationTaken hc hn (clearGuard_of_stopping h)
  case stillActive =>
    obtain ⟨c, hcause⟩ := hpresent
    exact ⟨s.presentCauses, hasCause_presentCauses s,
      exec_clearStationTaken hc hn (clearGuard_of_present h (presentCauses_ne_zero (c := c) hcause))⟩
  case released =>
    have hzero : (s.served i source reference kindClear).presentCauses = 0 := presentCauses_eq_zero (s := s) hnone
    have hrun : (s.served i source reference kindClear).ss.node = .run := hn
    have hlink : (s.served i source reference kindClear).tif.link ≠ .silent := by simp [served_link]
    have hreply := clearGuard_of_not_present (s := s.served i source reference kindClear) h hzero
    rw [guardEmpty_eq hrun hlink] at hreply
    exact exec_clearStationTaken hc hn hreply

end Sys2Proof.Machine
end

