-- ==== Sys2Proof/Proofs/Notices.lean ====
section
/-! PROOFS. A produced notice: whether it is reported (R173), the composition of its NOTICE (R175), and its discard
(R174). -/

namespace Sys2Proof.Machine

/-! ### Whether a notice is reported, and to whom -/

/-- The bit of a type in the notice mask is at the place of its code (Table 2-9, Table 2-16). -/
theorem NoticeType.maskBit_eq (t : NoticeType) : t.maskBit = t.byte.toNat := by
  cases t <;> rfl

/-- A destination STATION is the station number in a byte (R27). -/
theorem destStation_eq (n : StationId) : destStation n = n.setWidth 8 :=
  (BitVec.setWidth_eq_append (by decide)).symm

theorem ReportTo.ne_nobody_of_dest {r : ReportTo} {d : Byte} (h : ReportTo.dest r = some d) : r ≠ .nobody := by
  rintro rfl
  cases h

/-- With report station NONE, or its type not in the mask, a notice is not produced (R173). -/
theorem produce_of_masked {t : NoticeType} {s : State}
    (h : s.ss.settings.report = .nobody ∨ s.ss.settings.mask.getLsbD t.byte.toNat = false) (c : List Byte) :
    produce t c s = s := by
  have hreports : s.reports t = false := by
    rw [State.reports, NoticeType.maskBit_eq]
    rcases h with hnobody | hmask
    · simp [hnobody]
    · simp [hmask]
  simp [produce, hreports]

theorem reports_of_dest {t : NoticeType} {s : State} {d : Byte} (hd : ReportTo.dest s.ss.settings.report = some d)
    (hm : s.ss.settings.mask.getLsbD t.byte.toNat = true) : s.reports t = true := by
  rw [State.reports, NoticeType.maskBit_eq, hm, Bool.and_true, bne_iff_ne]
  exact ReportTo.ne_nobody_of_dest hd

/-- A reported notice joins the list while there is room, and the next NOTICE is composed (R174, R175). -/
theorem produce_of_room {t : NoticeType} {s : State} (hr : s.reports t = true) (hroom : s.nb.list.length < 8)
    (c : List Byte) :
    produce t c s
      = composeNotice { s with nb := { s.nb with list := s.nb.list ++ [{ type := t, contents := c }] } } := by
  simp [produce, hr, Config.backlogCapacity, hroom]

/-- A reported notice is discarded when the list is full (R174). -/
theorem produce_of_full {t : NoticeType} {s : State} (hr : s.reports t = true) (hfull : 8 ≤ s.nb.list.length)
    (c : List Byte) : produce t c s = discardNotice s := by
  simp [produce, hr, Config.backlogCapacity, Nat.not_lt.mpr hfull]

/-! ### The pending NOTICE -/

theorem not_isNotice_of_not_pending {s : State} (hp : s.noticePending = false) :
    ∀ e ∈ s.tif.queue, e.frame.isNotice = false := by
  simpa [State.noticePending] using hp

/-- The frames that count against the limit of a NOTICE are the NOTICEs (R21). -/
theorem sameLimit_notice_eq_isNotice (d : Byte) (o : Bool) (n : Notice) (x : TxFrame) :
    sameLimit (.notice d o n) x = x.isNotice := by
  cases x <;> rfl

/-- A NOTICE is admitted while none is pending (R21). -/
theorem enqueue_notice {s : State} (hp : s.noticePending = false) (d : Byte) (o : Bool) (n : Notice) :
    enqueue (.notice d o n) s = { s with tif := { s.tif with
      queue := s.tif.queue ++ [{ frame := .notice d o n, attempts := 0, onLine := false, withdrawn := false }] } } := by
  have hc : (s.tif.queue.countP fun e => sameLimit (.notice d o n) e.frame) = 0 := by
    rw [List.countP_eq_zero]
    intro e he
    simp [sameLimit_notice_eq_isNotice, not_isNotice_of_not_pending hp e he]
  rw [enqueue, if_pos (by rw [hc]; exact Nat.one_pos)]

/-- A change in place of frames that the transmit queue does not hold changes nothing. -/
theorem changeWaiting_of_none {p : TxFrame → Bool} {s : State} (h : ∀ e ∈ s.tif.queue, p e.frame = false)
    (g : TxFrame → TxFrame) : changeWaiting p g s = s := by
  have hid : s.tif.queue.map (fun e => if p e.frame && !e.onLine then { e with frame := g e.frame } else e)
      = s.tif.queue :=
    (List.map_congr_left fun e he => if_neg (by simp [h e he])).trans (List.map_id _)
  rw [changeWaiting, hid]

/-! ### Composition -/

/-- In SILENT, or behind a pending NOTICE, no NOTICE is composed (R175). -/
theorem composeNotice_of_held {s : State} (h : s.ss.node = .silent ∨ s.noticePending = true) : composeNotice s = s :=
  if_pos (by simpa using h)

/-- The first notice of the list leaves in a NOTICE to the report station that carries the overflow flag (R175). -/
theorem composeNotice_cons {s : State} {d : Byte} {n : Notice} {rest : List Notice} (hs : s.ss.node ≠ .silent)
    (hp : s.noticePending = false) (hl : s.nb.list = n :: rest) (hd : ReportTo.dest s.ss.settings.report = some d) :
    composeNotice s = { s with
      nb := { s.nb with list := rest, lateOverflow := false }
      tif := { s.tif with queue := s.tif.queue
        ++ [{ frame := .notice d s.nb.overflow n, attempts := 0, onLine := false, withdrawn := false }] } } := by
  rw [composeNotice, if_neg (by simp [hs, hp]), hl, hd]
  exact enqueue_notice (by exact hp) d s.nb.overflow n

/-! ### Discard -/

section
variable {s : State}

/-- With no pending NOTICE a discard sets the overflow flag alone (R174). -/
theorem discardNotice_of_not_pending (hp : s.noticePending = false) :
    discardNotice s = { s with nb := { s.nb with overflow := true } } := by
  have hno := not_isNotice_of_not_pending hp
  have hline : s.tif.queue.any (fun e => e.frame.isNotice && e.onLine) = false := by
    rw [List.any_eq_false]
    intro e he
    simp [hno e he]
  simp only [discardNotice, hline, Bool.false_eq_true, if_false]
  exact changeWaiting_of_none (by exact hno) _

variable {pre : List TxEntry} {e : TxEntry} {post : List TxEntry} {d : Byte} {o : Bool} {m : Notice}

/-- Under the limits of R21 there is one NOTICE in the transmit queue. -/
theorem isNotice_others (hq : s.tif.queue = pre ++ e :: post) (hf : e.frame = .notice d o m) (hl : s.limitsKept) :
    ∀ x ∈ pre ++ post, x.frame.isNotice = false := by
  intro x hx
  have hno := no_alike hq hl (by rw [hf]; rfl) x hx
  rw [hf] at hno
  exact sameLimit_notice hno

/-- Whether a NOTICE is on the line is whether the pending one is. -/
theorem any_notice_onLine (hq : s.tif.queue = pre ++ e :: post) (hf : e.frame = .notice d o m) (hl : s.limitsKept) :
    s.tif.queue.any (fun x => x.frame.isNotice && x.onLine) = e.onLine := by
  have hothers : ∀ l : List TxEntry, (∀ x ∈ l, x.frame.isNotice = false) →
      l.any (fun x => x.frame.isNotice && x.onLine) = false :=
    fun l h => List.any_eq_false.mpr fun x hx => by simp [h x hx]
  have hn := isNotice_others hq hf hl
  rw [hq, List.any_append, List.any_cons, hothers pre fun x hx => hn x (by simp [hx]),
    hothers post fun x hx => hn x (by simp [hx]), hf]
  simp [TxFrame.isNotice]

/-- Behind a NOTICE on the line a discard sets the overflow flag and the late-overflow marker (R174). -/
theorem discardNotice_of_onLine (hq : s.tif.queue = pre ++ e :: post) (hf : e.frame = .notice d o m)
    (hl : s.limitsKept) (hon : e.onLine = true) :
    discardNotice s = { s with nb := { s.nb with overflow := true, lateOverflow := true } } := by
  simp [discardNotice, any_notice_onLine hq hf hl, hon]

/-- Behind a NOTICE that waits a discard sets the overflow flag, and in place the flag that the NOTICE carries
(R174). -/
theorem discardNotice_of_waiting (hq : s.tif.queue = pre ++ e :: post) (hf : e.frame = .notice d o m)
    (hl : s.limitsKept) (hoff : e.onLine = false) :
    discardNotice s = { s with
      nb := { s.nb with overflow := true }
      tif := { s.tif with queue := pre ++ { e with frame := .notice d true m } :: post } } := by
  have hchange := changeWaiting_one (s := { s with nb := { s.nb with overflow := true } }) (p := TxFrame.isNotice)
    (g := TxFrame.markOverflow) hq hoff (by rw [hf]; rfl) (isNotice_others hq hf hl)
  simp [discardNotice, any_notice_onLine hq hf hl, hoff, hchange, hf, TxFrame.markOverflow]

end

/-- Settles O19: whether the notice is reported, then the room in the list, then the pending NOTICE decide. -/
theorem producedNoticeIsSentHeldOrDiscarded : Obligations.ProducedNoticeIsSentHeldOrDiscarded := by
  refine ⟨rfl, rfl, rfl, fun n => congrArg some (destStation_eq n), fun type contents s =>
    ⟨fun hmasked => produce_of_masked hmasked contents, fun dest hdest hmask => ?_⟩⟩
  have hr : s.reports type = true := reports_of_dest hdest hmask
  refine ⟨fun hnode hpending hempty => ?sent, fun hheld hroom => ?listed, fun hfull =>
    ⟨fun pre e post d o m hq hf hl => ?discarded, fun hpending => ?discardedAlone⟩⟩
  case sent =>
    have hroom : s.nb.list.length < 8 := by simp [hempty]
    have hlist : s.nb.list ++ [⟨type, contents⟩] = ⟨type, contents⟩ :: s.nb.list := by
      rw [hempty, List.nil_append]
    rw [produce_of_room hr hroom]
    exact composeNotice_cons hnode hpending hlist hdest
  case listed =>
    rw [produce_of_room hr hroom]
    exact composeNotice_of_held hheld
  case discarded =>
    rw [produce_of_full hr hfull]
    split
    · next hon => exact discardNotice_of_onLine hq hf hl hon
    · next hoff => exact discardNotice_of_waiting hq hf hl (Bool.not_eq_true _ ▸ hoff)
  case discardedAlone =>
    rw [produce_of_full hr hfull, discardNotice_of_not_pending hpending]

end Sys2Proof.Machine
end

