-- ==== Sys2Proof/Proofs/StepLaws.lean ====
section
/-! PROOFS. Every command completes (O3), and what every command keeps: DEN (R168) and the bounds of the lists and counters, the
ready sets, the Guard's record and the pulse lines (R52, R58, R87, R131, R146, R150, R174). -/

namespace Sys2Proof.Machine

/-! ### The relation between the states before and after -/

/-- From a state to the next one each of these laws is kept by itself, and the waiting commands stand. -/
structure Keeps (s t : State) : Prop where
  pending : t.pending = s.pending
  den : s.denRight = true → t.denRight = true
  tags : s.tagsDistinct = true → t.tagsDistinct = true
  lists : s.listsBounded = true → t.listsBounded = true
  counters : s.countersInRange = true → t.countersInRange = true
  readySets : s.readySetsRight = true → t.readySetsRight = true
  record : s.recordRight = true → t.recordRight = true
  lines : s.linesLow = true → t.linesLow = true

theorem Keeps.refl (s : State) : Keeps s s := ⟨rfl, id, id, id, id, id, id, id⟩

theorem Keeps.trans {s t u : State} (h : Keeps s t) (h' : Keeps t u) : Keeps s u :=
  ⟨h'.pending.trans h.pending, h'.den ∘ h.den, h'.tags ∘ h.tags, h'.lists ∘ h.lists, h'.counters ∘ h.counters,
    h'.readySets ∘ h.readySets, h'.record ∘ h.record, h'.lines ∘ h.lines⟩

/-- A slot's ready set is within its roster, and empty while the slot is HALTED (R87). -/
def Slot.readyRight : Slot → Prop
  | .live g => g.ready &&& g.roster = g.ready ∧ ∀ c o, g.state = .halted c o → g.ready = 0
  | _ => True

theorem readySetsRight_iff (s : State) : s.readySetsRight = true ↔ ∀ k : Fin 8, (s.ru.slots[k]).readyRight := by
  simp only [State.readySetsRight, List.all_eq_true]
  constructor
  · intro h k
    have hk := h k (mem_allSlots k)
    cases hs : s.ru.slots[k] with
    | live g =>
      simp only [State.group?, hs, State.slotHalted, Option.all_some, Option.any_some, Bool.and_eq_true, beq_iff_eq] at hk
      refine ⟨hk.1, fun c o hc => ?_⟩
      simpa [hc] using hk.2
    | _ => trivial
  · intro h k _
    have hk := h k
    cases hs : s.ru.slots[k] with
    | live g =>
      rw [hs] at hk
      obtain ⟨hsub, hempty⟩ := hk
      simp only [State.group?, hs, State.slotHalted, Option.all_some, Option.any_some, Bool.and_eq_true, beq_iff_eq, hsub,
        true_and]
      cases hg : g.state with
      | halted c o => simp [hempty c o hg]
      | _ => simp
    | _ => simp [State.group?, hs]

/-- A change that leaves the outside of the state and the Guard, and the pulse lines unless the node is in RUN; it may
take segments, heard marks and notices away, and adds heard marks and notices within their bounds alone. -/
structure Tame (s t : State) : Prop where
  outside : t.outside = s.outside
  gd : t.gd = s.gd
  tags : (t.queue.map Segment.tag).Sublist (s.queue.map Segment.tag)
  heard : s.pb.heard.length ≤ 8 → t.pb.heard.length ≤ 8
  list : s.nb.list.length ≤ 8 → t.nb.list.length ≤ 8
  readySets : (∀ k : Fin 8, (s.ru.slots[k]).readyRight) → ∀ k : Fin 8, (t.ru.slots[k]).readyRight
  lines : s.ss.node ≠ .run → t.pg.stepCw = s.pg.stepCw ∧ t.pg.dirCcw = s.pg.dirCcw

theorem Tame.refl (s : State) : Tame s s := ⟨rfl, rfl, .refl _, id, id, id, fun _ => ⟨rfl, rfl⟩⟩

theorem Tame.ss {s t : State} (h : Tame s t) : t.ss = s.ss := congrArg Outside.ss h.outside

theorem Tame.trans {s t u : State} (h : Tame s t) (h' : Tame t u) : Tame s u where
  outside := h'.outside.trans h.outside
  gd := h'.gd.trans h.gd
  tags := h'.tags.trans h.tags
  heard := h'.heard ∘ h.heard
  list := h'.list ∘ h.list
  readySets := h'.readySets ∘ h.readySets
  lines hn := by
    obtain ⟨hcw, hccw⟩ := h.lines hn
    obtain ⟨hcw', hccw'⟩ := h'.lines (by rwa [h.ss])
    exact ⟨hcw'.trans hcw, hccw'.trans hccw⟩

/-- A change of the transmit queue and the Notice Backlog alone. -/
theorem Tame.of_notices {s t : State} (ho : t.outside = s.outside) (hgd : t.gd = s.gd) (hq : t.queue = s.queue)
    (hru : t.ru = s.ru) (hpg : t.pg = s.pg) (hh : t.pb.heard = s.pb.heard)
    (hl : s.nb.list.length ≤ 8 → t.nb.list.length ≤ 8) : Tame s t :=
  ⟨ho, hgd, by rw [hq], by rw [hh]; exact id, hl, by rw [hru]; exact id, fun _ => by rw [hpg]; exact ⟨rfl, rfl⟩⟩

/-- A change of the generator alone. -/
theorem Tame.of_pg {s : State} (pg : Pg) (h : s.ss.node ≠ .run → pg.stepCw = s.pg.stepCw ∧ pg.dirCcw = s.pg.dirCcw) :
    Tame s { s with pg := pg } := ⟨rfl, rfl, .refl _, id, id, id, h⟩

/-- A change of the segments alone, with no new tag. -/
theorem Tame.of_queue {s : State} (q : List Segment) (h : (q.map Segment.tag).Sublist (s.queue.map Segment.tag)) :
    Tame s { s with queue := q } := ⟨rfl, rfl, h, id, id, id, fun _ => ⟨rfl, rfl⟩⟩

/-- A change of the heard-mark list alone, within its bound. -/
theorem Tame.of_heard {s : State} (l : List Heard) (h : s.pb.heard.length ≤ 8 → l.length ≤ 8) :
    Tame s { s with pb := { s.pb with heard := l } } := ⟨rfl, rfl, .refl _, h, id, id, fun _ => ⟨rfl, rfl⟩⟩

/-- One slot of the group table changed. -/
theorem Tame.of_slot {s : State} (k : Fin 8) (x : Slot) (h : (s.ru.slots[k]).readyRight → x.readyRight) :
    Tame s (s.setSlot k x) := by
  refine ⟨rfl, rfl, .refl _, id, id, fun hs j => ?_, fun _ => ⟨rfl, rfl⟩⟩
  by_cases hj : k = j
  · subst hj
    simpa [State.setSlot] using h (hs k)
  · have hne : (k : Nat) ≠ j := fun he => hj (Fin.ext he)
    simpa [State.setSlot, Vector.getElem_set, hne] using hs j

/-- What such a change keeps. -/
theorem Tame.keeps {s t : State} (h : Tame s t) : Keeps s t where
  pending := congrArg Outside.pending h.outside
  den hs := (denRight_congr h.gd h.outside).trans hs
  tags hs := by
    rw [State.tagsDistinct, decide_eq_true_iff] at hs ⊢
    exact h.tags.nodup hs
  lists hs := by
    simp only [State.listsBounded, Bool.and_eq_true, decide_eq_true_iff] at hs ⊢
    obtain ⟨⟨hq, hh⟩, hl⟩ := hs
    have hle : t.queue.length ≤ s.queue.length := by simpa using h.tags.length_le
    exact ⟨⟨hle.trans hq, h.heard hh⟩, h.list hl⟩
  counters hs := by
    have hc : t.pb.command = s.pb.command := congrArg Outside.command h.outside
    have hf : t.pb.feedback = s.pb.feedback := congrArg Outside.feedback h.outside
    rwa [State.countersInRange, hc, hf]
  readySets hs := (readySetsRight_iff t).2 (h.readySets ((readySetsRight_iff s).1 hs))
  record hs := by rwa [State.recordRight, h.ss, h.gd]
  lines hs := by
    by_cases hn : s.ss.node = .run
    · simp [State.linesLow, h.ss, hn]
    · obtain ⟨hcw, hccw⟩ := h.lines hn
      rwa [State.linesLow, h.ss, hcw, hccw]

/-! ### Notices, marks and withdrawals -/

theorem composeNotice_list_length (s : State) : (composeNotice s).nb.list.length ≤ s.nb.list.length := by
  unfold composeNotice
  split
  · exact le_rfl
  · split
    · exact le_rfl
    · next hl =>
      split
      · simp
      · rw [enqueue_nb, hl]
        exact Nat.le_succ _

theorem discardNotice_list (s : State) : (discardNotice s).nb.list = s.nb.list := by
  unfold discardNotice
  dsimp only
  split <;> rfl

theorem produce_list_length (n : NoticeType) (c : List Byte) {s : State} (h : s.nb.list.length ≤ 8) :
    (produce n c s).nb.list.length ≤ 8 := by
  unfold produce
  split
  · exact h
  · split
    · next hroom =>
      refine (composeNotice_list_length _).trans ?_
      rw [List.length_append]
      exact hroom
    · rwa [discardNotice_list]

theorem produce_tame (n : NoticeType) (c : List Byte) (s : State) : Tame s (produce n c s) :=
  .of_notices (by simp) (by simp) (by simp) (by simp) (by simp) (by simp) (produce_list_length n c)

theorem enqueue_tame {f : TxFrame} (h : f.isAnswer = false) (s : State) : Tame s (enqueue f s) :=
  .of_notices (enqueue_outside h s) (by simp) (by simp) (by simp) (by simp) (by simp) (by simp)

theorem withdrawReady_tame (s : State) : Tame s (withdrawReady s) :=
  .of_notices (by simp) rfl rfl rfl rfl rfl id

theorem withdrawMark_tame (u : Fin 4) (s : State) : Tame s (withdraw (TxFrame.isMark u) s) :=
  .of_notices (by simp) rfl rfl rfl rfl rfl id

@[simp] theorem handFirings_heard (u : Fin 4) (k : Nat) (n : Int) (s : State) :
    (handFirings u k n s).pb.heard = s.pb.heard := by
  unfold handFirings
  split
  · rfl
  · split
    · simp
    · split <;> rfl

@[simp] theorem evalUnit_heard (src : MarkSource) (e : CounterEvent) (n : Int) (s : State) (u : Fin 4) :
    (evalUnit src e n s u).pb.heard = s.pb.heard := by
  unfold evalUnit
  dsimp only
  split <;> simp

theorem evalUnit_tame (src : MarkSource) (e : CounterEvent) (n : Int) (s : State) (u : Fin 4) :
    Tame s (evalUnit src e n s u) :=
  .of_notices (by simp) (by simp) (by simp) (by simp) (by simp) (by simp) (by simp)

theorem evalMarks_tame (src : MarkSource) (e : CounterEvent) (n : Int) (s : State) : Tame s (evalMarks src e n s) := by
  unfold evalMarks
  induction allUnits generalizing s with
  | nil => exact .refl s
  | cons u us ih => exact (evalUnit_tame src e n s u).trans (ih _)

theorem releaseHeld_tame (u : Fin 4) (s : State) : Tame s (releaseHeld u s) := by
  unfold releaseHeld
  dsimp only
  split
  · exact .refl s
  · exact Tame.trans (t := s.setUnit u _) (.of_notices rfl rfl rfl rfl rfl rfl id) (enqueue_tame rfl _)

theorem foldHeld_tame (u : Fin 4) (s : State) : Tame s (foldHeld u s) := by
  refine .of_notices (by simp) (by simp) (by simp) (by simp) (by simp) ?_ (by simp)
  unfold foldHeld
  dsimp only
  split <;> rfl

theorem composeNotice_tame (s : State) : Tame s (composeNotice s) :=
  .of_notices (by simp) (by simp) (by simp) (by simp) (by simp) (by simp) (composeNotice_list_length s).trans

/-- The flags of the Notice Backlog alone changed. -/
theorem noticeFlags_tame (s : State) (a b : Bool) : Tame s { s with nb := { s.nb with overflow := a, lateOverflow := b } } :=
  .of_notices rfl rfl rfl rfl rfl rfl id

theorem markOverflow_tame (s : State) : Tame s (changeWaiting TxFrame.isNotice TxFrame.markOverflow s) :=
  .of_notices (by simp) rfl rfl rfl rfl rfl id

theorem noticeWaits_tame (s : State) : Tame s (noticeWaits s) := by
  unfold noticeWaits
  split
  · exact (noticeFlags_tame s s.nb.overflow false).trans (markOverflow_tame _)
  · exact .refl s

theorem noticeTaken_tame (carried : Bool) (s : State) : Tame s (noticeTaken carried s) :=
  (noticeFlags_tame s _ _).trans (composeNotice_tame _)

theorem noticeAbandoned_tame (s : State) : Tame s (noticeAbandoned s) :=
  (noticeFlags_tame s s.nb.overflow false).trans (composeNotice_tame _)

/-! ### The head -/

theorem setHeadState_tame (x : SegState) (s : State) : Tame s (setHeadState x s) := by
  unfold setHeadState
  split
  · exact .refl s
  · next h t hq => exact .of_queue _ (by rw [hq]; exact .refl _)

theorem promote_map_tag (q : List Segment) : (promote q).map Segment.tag = q.map Segment.tag := by
  cases q <;> rfl

theorem promote_tame (s : State) : Tame s { s with queue := promote s.queue } :=
  .of_queue _ (by rw [promote_map_tag])

theorem pruneHeard_tame (s : State) : Tame s (pruneHeard s) :=
  .of_heard _ (List.length_filter_le _ _).trans

theorem consumeHeard_length (m : MarkRef) (l : List Heard) : (consumeHeard m l).length ≤ l.length := by
  induction l with
  | nil => exact le_rfl
  | cons e l ih =>
    rw [consumeHeard]
    split
    · split <;> simp
    · simpa using ih

theorem consume_tame (m : MarkRef) (s : State) : Tame s (consume m s) := .of_heard _ (consumeHeard_length m _).trans

theorem pgIdle_tame (s : State) : Tame s (pgIdle s) := .of_pg _ fun _ => ⟨rfl, rfl⟩

theorem pgStop_tame (k : SegKind) (m : Mode) (s : State) : Tame s (pgStop k m s) := by
  rw [pgStop_eq]
  refine .of_pg _ fun _ => ?_
  unfold Pg.stopping
  split <;> exact ⟨rfl, rfl⟩

/-- In RUN the generator and its lines may change in any way. -/
theorem pgStart_tame (h : Segment) {s : State} (hn : s.ss.node = .run) : Tame s (pgStart h s) :=
  ⟨by simp, by simp, by rw [pgStart_queue], by simp, by simp, by rw [pgStart_ru]; exact id, fun hr => absurd hn hr⟩

theorem lookEndMark_tame (s : State) : Tame s (lookEndMark s) := by
  unfold lookEndMark
  split
  · exact .refl s
  · split
    · split
      · exact (consume_tame _ s).trans ((setHeadState_tame _ _).trans (pgStop_tame _ _ _))
      · exact .refl s
    · exact .refl s

theorem startHead_tame {s : State} (hn : s.ss.node = .run) : Tame s (startHead s) := by
  unfold startHead
  split
  · exact .refl s
  · exact ((setHeadState_tame _ s).trans (pruneHeard_tame _)).trans
      ((pgStart_tame _ (by simpa using hn)).trans (lookEndMark_tame _))

theorem timer_tame (s : State) (x : Option Nat) : Tame s { s with ru := { s.ru with timer := x } } :=
  ⟨rfl, rfl, .refl _, id, id, id, fun _ => ⟨rfl, rfl⟩⟩

theorem stopTimer_tame (s : State) : Tame s (stopTimer s) := timer_tame s none

theorem group_eq_some {s : State} {k : Fin 8} {g : Group} : s.group? k = some g ↔ s.ru.slots[k] = .live g := by
  rw [State.group?]
  cases s.ru.slots[k] <;> simp

/-- A slot whose live group stays out of HALTED keeps its ready set. -/
theorem setSlot_state_tame {s : State} {k : Fin 8} {g : Group} (hg : s.group? k = some g) (x : GroupState)
    (hx : ∀ c o, x ≠ .halted c o) : Tame s (s.setSlot k (.live { g with state := x })) :=
  .of_slot k _ fun hr => by
    rw [group_eq_some.1 hg] at hr
    exact ⟨hr.1, fun c o hc => absurd hc (hx c o)⟩

/-- A live group given a new state and sequence number, with an empty ready set. -/
theorem setSlot_emptied_tame (s : State) (k : Fin 8) (g : Group) (x : GroupState) (n : Byte) :
    Tame s (s.setSlot k (.live { g with ready := 0, state := x, sequence := n })) :=
  .of_slot k _ fun _ => ⟨BitVec.zero_and, fun _ _ _ => rfl⟩

theorem announce_tame {s : State} {k : Fin 8} {g : Group} (hg : s.group? k = some g) (tag : Byte) :
    Tame s (announce k g tag s) := by
  have henq := enqueue_tame (f := .ready k g.address g.sequence tag) rfl s
  have hg' : (enqueue (.ready k g.address g.sequence tag) s).group? k = some g := by
    rw [State.group?, enqueue_ru]
    exact hg
  exact ((henq.trans (setSlot_state_tame hg' .armed fun _ _ => nofun)).trans (timer_tame _ _)).trans
    (setHeadState_tame _ _)

theorem run_of_not_blocked {s : State} {h : Segment} (hb : ¬ s.blocked h = true) : s.ss.node = .run := by
  simp only [State.blocked, Bool.or_eq_true, not_or, bne_iff_ne, ne_eq, not_not] at hb
  exact hb.1.1

theorem evalHead_tame (s : State) : Tame s (evalHead s) := by
  unfold evalHead
  split
  · exact .refl s
  · split
    · exact .refl s
    · next hb =>
      have hn : s.ss.node = .run := run_of_not_blocked fun h => hb (.inr h)
      split
      · exact startHead_tame hn
      · split
        · exact (consume_tame _ s).trans (startHead_tame hn)
        · exact .refl s
      · split
        · exact .refl s
        · split
          · next hg =>
            split
            · exact announce_tame hg _
            · exact .refl s
          · exact .refl s

theorem doneNotice_tame (tag : Byte) (o : SegOutcome) (n : Nat) (s : State) : Tame s (doneNotice tag o n s) :=
  produce_tame _ _ s

theorem afterRemoval_tame (tag : Byte) (o : SegOutcome) (n : Nat) (s : State) : Tame s (afterRemoval tag o n s) := by
  unfold afterRemoval
  refine ((pruneHeard_tame s).trans (doneNotice_tame tag o n _)).trans ?_
  dsimp only
  split
  · exact produce_tame _ _ _
  · exact promote_tame _

theorem claim_tame (o : SegOutcome) (m : Mode) (s : State) : Tame s (claim o m s) := by
  unfold claim
  split
  · exact .refl s
  · split
    · exact (setHeadState_tame _ s).trans (pgStop_tame _ _ _)
    · split
      · exact (setHeadState_tame _ s).trans (pgIdle_tame _)
      · exact .refl s
    · exact .refl s

/-! ### Groups -/

theorem oweHalt_tame (k : Fin 8) (c : Cause) (m : Mode) (tag : Byte) (s : State) : Tame s (oweHalt k c m tag s) :=
  .of_notices (by simp) (by simp) (by simp) (by simp) (by simp) (by simp) (by simp)

theorem returnHead_tame (k : Fin 8) (s : State) : Tame s (returnHead k s) := by
  unfold returnHead
  split
  · split
    · exact (setHeadState_tame _ s).trans (withdrawReady_tame _)
    · exact .refl s
  · exact .refl s

theorem haltHead_tame (k : Fin 8) (m : Mode) (b : Bool) (s : State) : Tame s (haltHead k m b s) := by
  unfold haltHead
  split
  · split
    · split
      · exact .refl s
      · exact claim_tame _ _ s
    · exact claim_tame _ _ s
    · exact returnHead_tame k s
  · exact .refl s

theorem haltSlot_tame (k : Fin 8) (c : Cause) (o : StationId) (m : Mode) (b : Bool) (s : State) :
    Tame s (haltSlot k c o m b s) := by
  unfold haltSlot
  split
  · exact .refl s
  · next g _ =>
    split
    · split
      · exact claim_tame _ _ s
      · exact .refl s
    · refine Tame.trans (Tame.trans (Tame.trans (setSlot_emptied_tame s k g (.halted c o) g.sequence) ?_)
        (produce_tame _ _ _)) (haltHead_tame k m b _)
      split
      · exact stopTimer_tame _
      · exact .refl _

theorem localHalt_tame (k : Fin 8) (c : Cause) (m : Mode) (b : Bool) (s : State) : Tame s (localHalt k c m b s) :=
  (oweHalt_tame k c m _ s).trans (haltSlot_tame k c _ m b _)

theorem owed_tame (s : State) (x : Vector (Option HaltEntry) 8) : Tame s { s with tif := { s.tif with owed := x } } :=
  .of_notices rfl rfl rfl rfl rfl rfl id

theorem clearSlot_tame (k : Fin 8) (n : Byte) (s : State) : Tame s (clearSlot k n s) := by
  unfold clearSlot
  split
  · exact .refl s
  · dsimp only
    refine Tame.trans (t := if _ then stopTimer s else s) ?_ (Tame.trans (Tame.trans (setSlot_emptied_tame _ k
      _ _ _) (owed_tame _ _)) (returnHead_tame k _))
    split
    · exact stopTimer_tame s
    · exact .refl s

theorem guardHaltsGroup_tame (c : Cause) (m : Mode) (s : State) : Tame s (guardHaltsGroup c m s) := by
  unfold guardHaltsGroup
  split
  · split
    · split
      · exact localHalt_tame _ c m true s
      · exact .refl s
    · exact .refl s
  · exact .refl s

theorem hastenEnding_tame (s : State) : Tame s (hastenEnding s) := by
  unfold hastenEnding
  split
  · split
    · exact claim_tame _ _ s
    · exact .refl s
  · exact .refl s

theorem haltUngrouped_tame (m : Mode) (s : State) : Tame s (haltUngrouped m s) := by
  unfold haltUngrouped
  split
  · split
    · exact claim_tame _ _ s
    · exact .refl s
  · exact .refl s

/-! ### The Guard -/

/-- A change of the Guard alone. -/
theorem keeps_gd {s : State} (gd : Gd) (hd : s.denRight = true → State.denRight { s with gd := gd } = true)
    (hr : s.recordRight = true → State.recordRight { s with gd := gd } = true) : Keeps s { s with gd := gd } :=
  ⟨rfl, hd, id, id, id, id, hr, id⟩

/-- The record of a Guard that is NORMAL with nothing in it, or not NORMAL with a cause (R150). -/
theorem recordRight_iff (s : State) : s.recordRight = true ↔ (s.ss.node = .run →
    (s.gd.state = .normal ↔ s.gd.causes = 0) ∧ (s.gd.causes = 0 ↔ s.gd.first = none)) := by
  have hb (a b : Bool) : (a == b) = true ↔ (a = true ↔ b = true) := by cases a <;> cases b <;> decide
  simp only [State.recordRight, Bool.or_eq_true, Bool.and_eq_true, bne_iff_ne, hb, beq_iff_eq, Option.isNone_iff_eq_none]
  exact ⟨fun h hn => h.resolve_left (not_not.mpr hn), fun h => (em (s.ss.node = .run)).symm.imp_right h⟩

theorem Cause.bit_ne_zero (c : Cause) : c.bit ≠ 0 := by cases c <;> decide

theorem or_bit_ne_zero (x : BitVec 16) (c : Cause) : x ||| c.bit ≠ 0 := fun h => by
  have hc : hasCause (x ||| c.bit) c = true := by simp [hasCause_or, hasCause_bit]
  rw [h, hasCause_zero] at hc
  cases hc

theorem guardStops_keeps (s : State) : Keeps s (guardStops s) := by
  unfold guardStops
  split
  · next hs =>
    refine keeps_gd _ (fun _ => driveDen_denRight { s with gd := { s.gd with state := .stopped } }) fun hr => ?_
    rw [recordRight_iff] at hr ⊢
    intro hn
    obtain ⟨hnormal, hfirst⟩ := hr hn
    exact ⟨by simpa [hs] using hnormal, hfirst⟩
  · exact .refl s

theorem guardRecord_keeps (c : Cause) (m : Mode) (s : State) : Keeps s (guardRecord c m s) := by
  refine keeps_gd _ (fun _ => guardRecord_denRight c m s) fun _ => (recordRight_iff _).2 fun _ => ⟨?_, ?_⟩
  · have hstate : (if s.headMoving then GuardState.stopping else .stopped) ≠ .normal := by split <;> nofun
    exact iff_of_false hstate (Cause.bit_ne_zero c)
  · exact iff_of_false (Cause.bit_ne_zero c) nofun

theorem guardEmpty_keeps (s : State) : Keeps s (guardEmpty s) :=
  keeps_gd _ (fun _ => guardEmpty_denRight s) fun _ => (recordRight_iff _).2 fun _ => ⟨iff_of_true rfl rfl, iff_of_true rfl rfl⟩

/-- Outside RUN a cause is noted (R154). -/
theorem guardNote_keeps (c : Cause) {s : State} (hn : s.ss.node ≠ .run) : Keeps s (guardNote c s) :=
  keeps_gd _ id fun _ => (recordRight_iff _).2 fun h => absurd h hn

/-- A further cause joins the record of a Guard that is not NORMAL (R153). -/
theorem joinCause_keeps (c : Cause) (x : Option Mode) {s : State} (hs : s.gd.state ≠ .normal) :
    Keeps s { s with gd := { s.gd with causes := s.gd.causes ||| c.bit, stopMode := x } } :=
  keeps_gd _ id fun hr => (recordRight_iff _).2 fun hn => by
    obtain ⟨hnormal, hfirst⟩ := (recordRight_iff s).1 hr hn
    exact ⟨iff_of_false hs (or_bit_ne_zero _ c),
      iff_of_false (or_bit_ne_zero _ c) fun h => hs (hnormal.2 (hfirst.2 h))⟩

theorem finishHead_keeps (o : SegOutcome) (s : State) : Keeps s (finishHead o s) := by
  unfold finishHead
  split
  · exact .refl s
  · next h t hq =>
    exact ((Tame.of_queue t (by rw [hq]; exact List.sublist_cons_self ..)).keeps.trans (guardStops_keeps _)).trans
      (afterRemoval_tame _ o _ _).keeps

theorem finishIfOver_keeps (s : State) : Keeps s (finishIfOver s) := by
  unfold finishIfOver
  split
  · exact finishHead_keeps _ s
  · exact .refl s

theorem settleFrom_keeps (n : Nat) (s : State) : Keeps s (settleFrom n s) := by
  induction n generalizing s with
  | zero => exact .refl s
  | succ n ih =>
    unfold settleFrom
    split
    · exact ((finishHead_keeps _ s).trans (evalHead_tame _).keeps).trans (ih _)
    · exact .refl s

theorem settle_keeps (s : State) : Keeps s (settle s) := settleFrom_keeps _ s

theorem evaluate_keeps (s : State) : Keeps s (evaluate s) := (evalHead_tame s).keeps.trans (settle_keeps _)

theorem guardLeave_keeps (c : Cause) (m : Mode) (s : State) : Keeps s (guardLeave c m s) :=
  ((guardRecord_keeps c m s).trans ((guardHaltsGroup_tame c m _).trans
    ((produce_tame _ _ _).trans (claim_tame _ _ _))).keeps).trans (finishIfOver_keeps _)

theorem guardAdd_keeps (c : Cause) (m : Mode) {s : State} (hs : s.gd.state ≠ .normal) : Keeps s (guardAdd c m s) := by
  unfold guardAdd
  dsimp only
  refine Keeps.trans ?_ (finishIfOver_keeps _)
  split
  · exact (joinCause_keeps c (some .abrupt) hs).trans (hastenEnding_tame _).keeps
  · exact joinCause_keeps c s.gd.stopMode hs

theorem guardTake_keeps (c : Cause) (m : Mode) (s : State) : Keeps s (guardTake c m s) := by
  unfold guardTake
  split
  · exact .refl s
  · next hn => exact guardNote_keeps c (by simp [hn])
  · next hn => exact guardNote_keeps c (by simp [hn])
  · split
    · exact guardLeave_keeps c m s
    · next hs => exact guardAdd_keeps c m hs

theorem guardTakeAll_keeps (cs : List (Cause × Mode)) (s : State) : Keeps s (guardTakeAll cs s) := by
  unfold guardTakeAll
  induction cs generalizing s with
  | nil => exact .refl s
  | cons c cs ih => exact (guardTake_keeps c.1 c.2 s).trans (ih _)

theorem guardLatchPeer_keeps (o : StationId) (m : Mode) (s : State) : Keeps s (guardLatchPeer o m s) := by
  unfold guardLatchPeer
  split
  · exact guardTake_keeps _ m s
  · exact (keeps_gd { s.gd with originator := some o } id id).trans (guardTake_keeps _ m _)

/-- Every bit of a cause set is the bit of a cause (Table 2-4). -/
theorem exists_cause_of_ne_zero {set : BitVec 16} (h : set ≠ 0) : ∃ c, hasCause set c = true := by
  by_contra hn
  push Not at hn
  refine h (BitVec.eq_of_getLsbD_eq fun i hi => ?_)
  have hcodes : ∀ j : Fin 16, ∃ c ∈ allCauses, c.code - 1 = j := by decide
  obtain ⟨c, -, hc⟩ := hcodes ⟨i, hi⟩
  have := hn c
  rw [hasCause, hc] at this
  simpa using this

theorem lowestCause_ne_none {set : BitVec 16} (h : set ≠ 0) : lowestCause set ≠ none := by
  obtain ⟨c, hc⟩ := exists_cause_of_ne_zero h
  intro hnone
  have := List.find?_eq_none.1 hnone c (by cases c <;> decide)
  exact this hc

/-- The Guard drops PEER_ALL_HALT (R163). -/
theorem guardRemovePeer_keeps (s : State) : Keeps s (guardRemovePeer s) := by
  unfold guardRemovePeer
  split
  · next hp =>
    dsimp only
    split
    · exact guardEmpty_keeps s
    · next hleft =>
      refine keeps_gd _ id fun hr => (recordRight_iff _).2 fun hn => ?_
      obtain ⟨hnormal, hfirst⟩ := (recordRight_iff s).1 hr hn
      have hcauses : s.gd.causes ≠ 0 := fun h0 => by rw [h0, hasCause_zero] at hp; cases hp
      refine ⟨iff_of_false (fun h => hcauses (hnormal.1 h)) hleft, iff_of_false hleft ?_⟩
      show (if s.gd.first = some .peerAllHalt then _ else s.gd.first) ≠ none
      split
      · exact lowestCause_ne_none hleft
      · exact fun h => hcauses (hfirst.2 h)
  · exact .refl s

/-! ### Counters -/

/-- Both counters changed, within the counter range. -/
theorem keeps_counters {s : State} (c f : Int) (h : s.countersInRange = true → inCounterRange c = true ∧ inCounterRange f = true) :
    Keeps s { s with pb := { s.pb with command := c, feedback := f } } :=
  ⟨rfl, id, id, id, fun hs => Bool.and_eq_true_iff.2 (h hs), id, id, id⟩

theorem countersInRange_iff (s : State) :
    s.countersInRange = true ↔ inCounterRange s.pb.command = true ∧ inCounterRange s.pb.feedback = true :=
  Bool.and_eq_true_iff

theorem followTest_keeps (before : Int) (s : State) : Keeps s (followTest before s) := by
  unfold followTest
  split
  · exact guardTake_keeps _ _ s
  · exact .refl s

/-- A pulse that the range test lets pass (R132). -/
theorem stepCommand_keeps {d : Dir} {s : State} (h : inCounterRange (s.pb.command + d.step) = true) :
    Keeps s (stepCommand d s) :=
  ((keeps_counters _ s.pb.feedback fun hs => ⟨h, ((countersInRange_iff s).1 hs).2⟩).trans (followTest_keeps _ _)).trans
    (evalMarks_tame ..).keeps

theorem stepFeedback_keeps (c : Int) (s : State) : Keeps s (stepFeedback c s) := by
  unfold stepFeedback
  dsimp only
  split
  · exact .refl s
  · split
    · exact guardTake_keeps _ _ s
    · next h =>
      have hr : inCounterRange (s.pb.feedback + c) = true := by simpa using h
      exact ((keeps_counters s.pb.command _ fun hs => ⟨((countersInRange_iff s).1 hs).1, hr⟩).trans
        (followTest_keeps _ _)).trans (evalMarks_tame ..).keeps

theorem inCounterRange_clampCounter (x : Int) : inCounterRange (clampCounter x) = true := by
  rw [inCounterRange, decide_eq_true_iff, clampCounter]
  have : Config.counterMax = 1073741823 := rfl
  omega

theorem rewriteCounters_keeps (p : Int) (l : Int × Int) (s : State) : Keeps s (rewriteCounters p l s) := by
  unfold rewriteCounters
  dsimp only
  split
  · exact (keeps_counters _ s.pb.feedback fun hs =>
      ⟨inCounterRange_clampCounter _, ((countersInRange_iff s).1 hs).2⟩).trans (evalMarks_tame ..).keeps
  · exact ((keeps_counters _ _ fun _ => ⟨inCounterRange_clampCounter _, inCounterRange_clampCounter _⟩).trans
      (evalMarks_tame ..).keeps).trans (evalMarks_tame ..).keeps

/-- Steps 1 to 3 of R125: the rewrite, the SEEK notice, and the end of the segment. -/
theorem presetEnd_keeps (tag : Byte) (spec : SeekSpec) (l : Int × Int) (s : State) :
    Keeps s (finishHead .done (pgIdle (seekNotice tag spec l (rewriteCounters spec.preset l s)))) :=
  ((rewriteCounters_keeps _ _ s).trans ((produce_tame _ _ _).trans (pgIdle_tame _)).keeps).trans (finishHead_keeps .done _)

theorem applyPreset_keeps (s : State) : Keeps s (applyPreset s) := by
  unfold applyPreset
  split
  · split
    · refine Keeps.trans ?_ ((followTest_keeps _ _).trans (evaluate_keeps _))
      split
      · exact (presetEnd_keeps ..).trans (guardTake_keeps _ _ _)
      · exact presetEnd_keeps ..
    · exact .refl s
  · exact .refl s

/-! ### The trunk -/

/-- A change of the Trunk Interface alone that does not turn the link SILENT or back. -/
theorem keeps_tif {s : State} (x : Tif) (h : x.link = .silent ↔ s.tif.link = .silent) : Keeps s { s with tif := x } :=
  ⟨rfl, fun hs => by simpa [State.denRight, h] using hs, id, id, id, id, id, id⟩

theorem txQueue_keeps (s : State) (q : List TxEntry) : Keeps s { s with tif := { s.tif with queue := q } } :=
  keeps_tif _ Iff.rfl

theorem pins_keeps (s : State) (x : Pins) : Keeps s { s with pins := x } := ⟨rfl, id, id, id, id, id, id, id⟩

theorem fh_keeps (s : State) (x : Fh) : Keeps s { s with fh := x } := ⟨rfl, id, id, id, id, id, id, id⟩

theorem windowEnds_keeps (a b : TrunkBit) {s : State} (h : s.tif.link ≠ .silent) : Keeps s (windowEnds a b s) :=
  keeps_tif _ (iff_of_false nofun h)

theorem leaveSending_keeps (r : Reception) {s : State} (h : s.tif.link = .sending) : Keeps s (leaveSending r s) :=
  keeps_tif _ (iff_of_false nofun (by simp [h]))

theorem enqueue_keeps (f : TxFrame) (s : State) : Keeps s (enqueue f s) := by
  unfold enqueue
  split
  · exact keeps_tif _ Iff.rfl
  · exact .refl s

theorem dropOnLine_keeps (s : State) : Keeps s (dropOnLine s) := keeps_tif _ Iff.rfl

theorem attemptTaken_keeps (s : State) : Keeps s (attemptTaken s) := by
  unfold attemptTaken
  split
  · exact keeps_tif _ Iff.rfl
  · split
    · exact .refl s
    · refine (dropOnLine_keeps s).trans ?_
      dsimp only
      split
      · exact .refl _
      · split
        · exact .refl _
        · exact (releaseHeld_tame _ _).keeps
        · exact fh_keeps _ _
        · exact (noticeTaken_tame _ _).keeps

theorem link_ne_silent_of_takes {s : State} {f : Frame} (h : s.takes f = true) : s.tif.link ≠ .silent := by
  intro hl
  simp [State.takes, hl] at h

theorem link_ne_silent_of_sends {s : State} {p : TxFrame → Bool} (h : s.sends p = true) : s.tif.link ≠ .silent := by
  intro hl
  simp [State.sends, hl] at h

theorem taken_keeps {s : State} (h : s.tif.link ≠ .silent) : Keeps s (taken s) := by
  unfold taken
  split
  · exact (windowEnds_keeps _ _ h).trans (attemptTaken_keeps _)
  · exact windowEnds_keeps _ _ h

theorem takeFrame_keeps {i : Instr} {act : State → State} {s : State} (h : ∀ u, Keeps u (act u)) :
    Keeps s (takeFrame i act s) := by
  unfold takeFrame
  split
  · split
    · next ht => exact (taken_keeps (link_ne_silent_of_takes ht)).trans (h _)
    · exact .refl s
  · exact .refl s

theorem serve_keeps {i : Instr} {st : StationId} {ref : Byte} {kind : BitVec 4} {act : State → Reply} {s : State}
    (h : ∀ u, Keeps u (act u).state) : Keeps s (serve i st ref kind act s) := by
  refine takeFrame_keeps fun u => ?_
  split
  · exact (fh_keeps u _).trans ((h _).trans (enqueue_keeps _ _))
  · exact .refl u

theorem runOnly_keeps {act : State → Reply} {s : State} (h : s.ss.node = .run → Keeps s (act s).state) :
    Keeps s (runOnly act s).state := by
  unfold runOnly
  split
  · next hn => exact h hn
  · exact .refl s

theorem setupOnly_keeps {act : State → Reply} {s : State} (h : s.ss.node = .setup → Keeps s (act s).state) :
    Keeps s (setupOnly act s).state := by
  unfold setupOnly
  split
  · next hn => exact h hn
  · exact .refl s

theorem inRun_keeps {act : State → State} {s : State} (h : s.ss.node = .run → Keeps s (act s)) : Keeps s (inRun act s) := by
  unfold inRun
  split
  · next hn => exact h hn
  · exact .refl s

theorem onGroup_keeps {a : GroupAddr} {act : Fin 8 → State → State} {s : State} (h : ∀ k, Keeps s (act k s)) :
    Keeps s (onGroup a act s) := by
  unfold onGroup
  split
  · exact h _
  · exact .refl s

theorem resetNode_keeps (straps : Straps) (c : ResetCause) (s : State) : Keeps s (resetNode straps c s) :=
  ⟨rfl, fun _ => rfl, fun _ => rfl, fun _ => rfl, fun _ => rfl, fun _ => rfl, fun _ => rfl, fun _ => rfl⟩

/-- The end of a reset finds the node HELD, where DEN and the pulse lines are low (R43). -/
theorem endReset_keeps {s : State} (hn : s.ss.node = .held) : Keeps s (endReset s) := by
  unfold endReset
  split
  · refine ⟨rfl, fun hd => ?_, id, id, id, id, fun _ => (recordRight_iff _).2 nofun, fun hl => ?_⟩
    · simpa [State.denRight, hn] using hd
    · simpa [State.linesLow, hn] using hl
  · exact .refl s

theorem sampleStraps_keeps (s : State) (x : Straps) : Keeps s { s with ss := { s.ss with straps := x } } :=
  ⟨rfl, id, id, id, id, id, id, id⟩

theorem chooseFrame_keeps {s t : State} (h : chooseFrame s = some t) : Keeps s t ∧ t.tif.link = s.tif.link := by
  unfold chooseFrame at h
  split at h
  · cases h
    exact ⟨keeps_tif _ Iff.rfl, rfl⟩
  · split at h
    · cases h
      exact ⟨keeps_tif _ Iff.rfl, rfl⟩
    · obtain ⟨q, -, rfl⟩ := Option.map_eq_some_iff.1 h
      exact ⟨keeps_tif _ Iff.rfl, rfl⟩

theorem attemptStart_keeps (bits : List TrunkBit) (s : State) :
    ∃ t, execAttemptStart s bits = .next t ∧ Keeps s t := by
  refine ⟨_, rfl, ?_⟩
  split
  · next h =>
    have hread : Keeps s (readLine bits s) := keeps_tif _ Iff.rfl
    refine hread.trans ?_
    dsimp only
    split
    · split
      · next t ht =>
        obtain ⟨hk, hl⟩ := chooseFrame_keeps ht
        have hlisten : t.tif.link = .listening := hl.trans h.1
        exact hk.trans (keeps_tif _ (iff_of_false nofun (by simp [hlisten])))
      · exact .refl _
    · exact .refl _
  · exact .refl s

theorem attemptWaits_keeps (s : State) : Keeps s (attemptWaits s) := by
  unfold attemptWaits
  split
  · exact keeps_tif _ Iff.rfl
  · split
    · exact .refl s
    · split
      · exact dropOnLine_keeps s
      · refine (txQueue_keeps s (s.tif.queue.map fun x => { x with onLine := false })).trans ?_
        dsimp only
        split
        · exact .refl _
        · exact (foldHeld_tame _ _).keeps
        · exact .refl _
        · exact (noticeWaits_tame _).keeps

theorem abandoned_keeps (f : TxFrame) (s : State) : Keeps s (abandoned f s) := by
  unfold abandoned
  split
  · split
    · exact ((localHalt_tame _ _ _ _ s).trans (produce_tame _ _ _)).keeps
    · exact .refl s
  · exact ((produce_tame _ _ s).trans (releaseHeld_tame _ _)).keeps
  · exact fh_keeps s _
  · exact (noticeAbandoned_tame s).keeps

theorem attemptVoid_keeps (s : State) : Keeps s (attemptVoid s) := by
  unfold attemptVoid
  dsimp only
  split
  · split
    · exact .refl s
    · split
      · exact (owed_tame s _).keeps.trans (guardTake_keeps _ _ _)
      · exact keeps_tif _ Iff.rfl
  · split
    · exact .refl s
    · split
      · exact dropOnLine_keeps s
      · split
        · exact (dropOnLine_keeps s).trans (abandoned_keeps _ _)
        · exact Keeps.trans (t := countVoid s) (keeps_tif _ Iff.rfl) (attemptWaits_keeps _)

theorem driveDen_keeps (s : State) : Keeps s (driveDen s) := keeps_gd _ (fun _ => driveDen_denRight s) id

/-- The entry into SILENT (R16): DEN is driven low at its end, and every other law is kept from the start. -/
theorem enterSilent_keeps (s : State) : Keeps s (enterSilent s) := by
  have hguard : Keeps (silence s) (enterSilent s) := by
    unfold enterSilent
    refine Keeps.trans ?_ ((stopTimer_tame _).keeps.trans (driveDen_keeps _))
    split
    · split
      · exact guardLeave_keeps _ _ _
      · next h => exact guardAdd_keeps _ _ h
    · exact guardNote_keeps _ nofun
  exact ⟨hguard.pending, fun _ => driveDen_denRight _, hguard.tags, hguard.lists, hguard.counters, hguard.readySets,
    fun _ => hguard.record ((recordRight_iff _).2 nofun), fun _ => hguard.lines rfl⟩

/-! ### Groups and requests -/

theorem foldl_keeps {α : Type} (f : State → α → State) (l : List α) (h : ∀ s a, Keeps s (f s a)) (s : State) :
    Keeps s (l.foldl f s) := by
  induction l generalizing s with
  | nil => exact .refl s
  | cons a l ih => exact (h s a).trans (ih _)

/-- A roster that holds a station and a ready set holds them together (R87). -/
theorem addStation_and {ready roster : StationSet} {n : StationId} (hr : ready &&& roster = ready)
    (hn : hasStation roster n = true) : addStation ready n &&& roster = addStation ready n := by
  refine BitVec.eq_of_getLsbD_eq fun i hi => ?_
  have hri : (ready.getLsbD i && roster.getLsbD i) = ready.getLsbD i := by rw [← BitVec.getLsbD_and, hr]
  have hbit : (1#64 <<< n.toNat).getLsbD i = true → roster.getLsbD i = true := by
    intro h
    have hin : i = n.toNat := by
      simp only [BitVec.getLsbD_shiftLeft, BitVec.getLsbD_one, Bool.and_eq_true, decide_eq_true_eq, Bool.not_eq_true',
        decide_eq_false_iff_not] at h
      omega
    rw [hin]
    exact hn
  simp only [addStation, BitVec.getLsbD_and, BitVec.getLsbD_or] at hri ⊢
  cases h1 : ready.getLsbD i <;> cases h2 : roster.getLsbD i <;> cases h3 : (1#64 <<< n.toNat).getLsbD i <;> simp_all

/-- A live group with a READY recorded (R87). -/
def Group.recording (g : Group) (source : StationId) : Group := { g with ready := addStation g.ready source }

/-- The state with a READY recorded, before the slot fires (R87). -/
def readyRecorded (k : Fin 8) (g : Group) (source : StationId) (s : State) : State :=
  let s' := s.setSlot k (.live (g.recording source))
  if source = s.own ∧ g.state = .armed then announced k s' else s'

theorem recordReady_eq (k : Fin 8) (g : Group) (source : StationId) (s : State) :
    recordReady k g source s =
      if addStation g.ready source = g.roster ∧ g.state = .armed ∧ (readyRecorded k g source s).headAnnounced k = true then
        fire k (g.recording source) (readyRecorded k g source s)
      else readyRecorded k g source s := rfl

theorem announced_tame (k : Fin 8) (s : State) : Tame s (announced k s) := by
  unfold announced
  split
  · exact setHeadState_tame _ s
  · exact .refl s

theorem readyRecorded_tame {s : State} {k : Fin 8} {g : Group} {source : StationId} (hg : s.group? k = some g)
    (hh : s.slotHalted k = false) (hm : hasStation g.roster source = true) : Tame s (readyRecorded k g source s) := by
  have hrecord : Tame s (s.setSlot k (.live (g.recording source))) := by
    refine .of_slot k _ fun hr => ?_
    rw [group_eq_some.1 hg] at hr
    refine ⟨addStation_and hr.1 hm, fun c o hc => ?_⟩
    have hstate : g.state = .halted c o := hc
    simp [State.slotHalted, hg, hstate] at hh
  unfold readyRecorded
  dsimp only
  split
  · exact hrecord.trans (announced_tame k _)
  · exact hrecord

theorem fire_keeps (k : Fin 8) (g : Group) {s : State} (hn : s.ss.node = .run) : Keeps s (fire k g s) :=
  ((setSlot_emptied_tame s k g .opened (g.sequence + 1)).trans ((stopTimer_tame _).trans (startHead_tame hn))).keeps.trans
    (settle_keeps _)

theorem recordReady_keeps {s : State} {k : Fin 8} {g : Group} {source : StationId} (hg : s.group? k = some g)
    (hh : s.slotHalted k = false) (hm : hasStation g.roster source = true) (hn : s.ss.node = .run) :
    Keeps s (recordReady k g source s) := by
  have hrecord := readyRecorded_tame hg hh hm
  rw [recordReady_eq]
  split
  · exact hrecord.keeps.trans (fire_keeps k _ ((congrArg Ss.node hrecord.ss).trans hn))
  · exact hrecord.keeps

theorem takeReady_keeps (k : Fin 8) (source : StationId) (n : Byte) {s : State} (hn : s.ss.node = .run) :
    Keeps s (takeReady k source n s) := by
  unfold takeReady
  split
  · exact .refl s
  · next g hg =>
    split
    · exact .refl s
    · next hh =>
      split
      · exact (localHalt_tame ..).keeps.trans (settle_keeps _)
      · next hm =>
        split
        · exact (localHalt_tame ..).keeps.trans (settle_keeps _)
        · exact recordReady_keeps hg (by simpa using hh) (by simpa using hm) hn

theorem hearMark_keeps (m : MarkRef) (c : Nat) (s : State) : Keeps s (hearMark m c s) := by
  unfold hearMark
  split
  · exact .refl s
  · split
    · exact (Tame.trans (.of_heard _ (by rw [List.length_map]; exact id)) (lookEndMark_tame _)).keeps.trans (evaluate_keeps _)
    · split
      · next hroom =>
        refine (Tame.trans (.of_heard _ fun _ => ?_) (lookEndMark_tame _)).keeps.trans (evaluate_keeps _)
        rw [List.length_append]
        exact hroom
      · exact (produce_tame _ _ s).keeps

/-- A segment is appended with a tag of its own, where the queue has room (R57, R58). -/
theorem append_keeps {h : Segment} {s : State} (hroom : s.queue.length < 16) (htag : ∀ x ∈ s.queue, x.tag ≠ h.tag) :
    Keeps s (append h s) := by
  have hjoin (q : List Segment) (hq : q.map Segment.tag = s.queue.map Segment.tag ++ [h.tag]) :
      Keeps s { s with queue := q } := by
    refine ⟨rfl, id, fun ht => ?_, fun hl => ?_, id, id, id, id⟩
    · rw [State.tagsDistinct, decide_eq_true_iff] at ht ⊢
      rw [show List.map Segment.tag _ = _ from hq]
      refine List.nodup_append.2 ⟨ht, List.nodup_singleton _, fun a ha b hb => ?_⟩
      obtain ⟨x, hx, rfl⟩ := List.mem_map.1 ha
      rw [List.mem_singleton.1 hb]
      exact htag x hx
    · have hlength : q.length = s.queue.length + 1 := by simpa using congrArg List.length hq
      simp only [State.listsBounded, Bool.and_eq_true, decide_eq_true_iff] at hl ⊢
      exact ⟨⟨hlength ▸ hroom, hl.1.2⟩, hl.2⟩
  unfold append
  split
  · next hq => exact (hjoin _ (by rw [hq]; rfl)).trans (evaluate_keeps _)
  · exact hjoin _ (by simp)

theorem loadSegment_keeps (r : LoadRecord) (s : State) : Keeps s (loadSegment r s).state := by
  unfold loadSegment
  split
  · exact .refl s
  · next hfull =>
    split
    · exact .refl s
    · split
      · exact .refl s
      · split
        · exact .refl s
        · next htag => exact append_keeps (Nat.lt_of_not_le hfull) (by simpa using htag)

theorem flushAnnouncing_tame (removed : List Segment) (s : State) : Tame s (flushAnnouncing removed s) := by
  unfold flushAnnouncing
  split
  · exact .refl s
  · split
    · exact .refl s
    · split
      · exact .refl s
      · next hg =>
        exact (withdrawReady_tame s).trans
          ((setSlot_state_tame (s := withdrawReady s) hg .opened fun _ _ => nofun).trans (stopTimer_tame _))

theorem afterFlush_keeps (b : Bool) (s : State) : Keeps s (afterFlush b s) := by
  unfold afterFlush
  split
  · exact (produce_tame _ _ s).keeps
  · split
    · exact (promote_tame s).keeps.trans (evaluate_keeps _)
    · exact .refl s

theorem flushMatching_keeps (p : Segment → Bool) (s : State) : Keeps s (flushMatching p s).state := by
  unfold flushMatching
  split
  · exact .refl s
  · exact (((Tame.of_queue _ (List.Sublist.map _ List.filter_sublist)).trans (flushAnnouncing_tame _ _)).trans
      (pruneHeard_tame _)).keeps.trans ((foldl_keeps _ _ (fun u h => (doneNotice_tame ..).keeps) _).trans
        (afterFlush_keeps _ _))

theorem stopSegment_keeps (mode tag : Byte) (s : State) : Keeps s (stopSegment mode tag s).state := by
  unfold stopSegment
  split
  · exact .refl s
  · split
    · exact .refl s
    · split
      · exact .refl s
      · split
        · exact .refl s
        · exact (claim_tame _ _ s).keeps.trans (settle_keeps _)

theorem setUnit_tame (u : Fin 4) (x : MarkUnit) (s : State) : Tame s (s.setUnit u x) :=
  .of_notices rfl rfl rfl rfl rfl rfl id

theorem armUnit_keeps (u : Fin 4) (src : MarkSource) (cond : MarkCond) (threshold : Int) (period : Nat) (s : State) :
    Keeps s (armUnit u src cond threshold period s) :=
  ((setUnit_tame u _ s).trans (evalUnit_tame ..)).keeps

theorem disarmUnit_keeps (u : Fin 4) (s : State) : Keeps s (disarmUnit u s) :=
  ((setUnit_tame u _ s).trans (withdrawMark_tame u _)).keeps

theorem clearGuard_keeps (s : State) : Keeps s (clearGuard s).state := by
  unfold clearGuard
  split
  · exact .refl s
  · exact .refl s
  · split
    · exact .refl s
    · exact (guardEmpty_keeps s).trans (evaluate_keeps _)

theorem applySettings_keeps (x : Settings) (s : State) : Keeps s (applySettings x s) :=
  ⟨rfl, id, id, id, fun hs => by
    obtain ⟨hc, hf⟩ := (countersInRange_iff s).1 hs
    refine (countersInRange_iff _).2 ⟨hc, ?_⟩
    show inCounterRange (if x.encMode = .off then 0 else s.pb.feedback) = true
    split
    · decide
    · exact hf, id, id, id⟩

theorem commit_readyRight {x : Slot} (h : x.readyRight) : x.commit.readyRight := by
  cases x with
  | defined d => exact ⟨BitVec.zero_and, fun _ _ _ => rfl⟩
  | _ => exact h

/-- The entry into RUN (R50): the Guard's record is empty, and DEN is driven. -/
theorem enterRun_keeps (s : State) : Keeps s (enterRun s) := by
  have hrun : Keeps s (guardEmpty { s with
      ss := { s.ss with node := .run, locked := true }
      ru := { slots := s.ru.slots.map Slot.commit, timer := none } }) := by
    refine ⟨rfl, fun _ => guardEmpty_denRight _, id, id, id, fun hr => ?_, fun _ => ?_, fun _ => rfl⟩
    · refine (readySetsRight_iff _).2 fun k => ?_
      show ((s.ru.slots.map Slot.commit)[k]).readyRight
      rw [Fin.getElem_fin, Vector.getElem_map]
      exact commit_readyRight ((readySetsRight_iff s).1 hr k)
    · exact (recordRight_iff _).2 fun _ => ⟨iff_of_true rfl rfl, iff_of_true rfl rfl⟩
  unfold enterRun
  dsimp only
  split
  · exact hrun.trans (guardTake_keeps _ _ _)
  · exact hrun

theorem commitSetup_keeps (s : State) : Keeps s (commitSetup s).state := by
  unfold commitSetup
  split
  · exact .refl s
  · split
    · exact .refl s
    · exact enterRun_keeps s

/-! ### The axis -/

theorem spanProgress_tame (k : SegKind) (b : Bool) (s : State) : Tame s (spanProgress k b s) := by
  unfold spanProgress
  split
  · exact .of_pg _ fun _ => ⟨rfl, rfl⟩
  · exact .refl s

theorem beginDecel_tame (p : Profile) (v : Nat) (s : State) : Tame s (beginDecel p v s) := .of_pg _ fun _ => ⟨rfl, rfl⟩

theorem beginInterval_tame (p : Profile) (v next : Nat) (s : State) : Tame s (beginInterval p v next s) :=
  .of_pg _ fun _ => ⟨rfl, rfl⟩

theorem afterStep_keeps (s : State) : Keeps s (afterStep s) := by
  have hover : Keeps s (settle (pgIdle s)) := (pgIdle_tame s).keeps.trans (settle_keeps _)
  unfold afterStep
  split
  · exact .refl s
  · split
    · exact .refl s
    · dsimp only
      split
      · exact .refl s
      · split
        · exact hover
        · split
          · split
            · exact hover
            · exact (beginDecel_tame ..).keeps
          · split
            · split
              · exact applyPreset_keeps s
              · exact (beginDecel_tame ..).keeps
            · exact (beginInterval_tame ..).keeps

theorem raisePulse_tame (d : Dir) {s : State} (hn : s.ss.node = .run) : Tame s (raisePulse d s) := by
  unfold raisePulse
  split <;> exact .of_pg _ fun h => absurd hn h

theorem pulse_in_range {k : SegKind} {d : Dir} {s : State} (h : s.pulseCauses k d = []) :
    inCounterRange (s.pb.command + d.step) = true := by
  simp only [State.pulseCauses, List.append_eq_nil_iff] at h
  obtain ⟨-, hrange⟩ := h
  by_contra hn
  simp [State.rangeRefuses, hn] at hrange

theorem spanProgress_pb (k : SegKind) (b : Bool) (s : State) : (spanProgress k b s).pb = s.pb := by
  cases k <;> rfl

theorem setRemaining_tame (n : Nat) (s : State) : Tame s { s with pg := { s.pg with remaining := n } } :=
  .of_pg _ fun _ => ⟨rfl, rfl⟩

theorem emitPulse_keeps {k : SegKind} {d : Dir} {s : State} (hn : s.ss.node = .run) (h : s.pulseCauses k d = []) :
    Keeps s (emitPulse k d s) := by
  have hspan := spanProgress_tame k true s
  have hraise := hspan.trans (raisePulse_tame d ((congrArg Ss.node hspan.ss).trans hn))
  refine (hraise.trans (setRemaining_tame _ _)).keeps.trans (stepCommand_keeps ?_)
  show inCounterRange ((raisePulse d (spanProgress k true s)).pb.command + d.step) = true
  rw [raisePulse_pb, spanProgress_pb]
  exact pulse_in_range h

theorem reverseSeek_tame (d : Dir) (p : Profile) {s : State} (hn : s.ss.node = .run) : Tame s (reverseSeek d p s) :=
  ⟨by unfold reverseSeek; simp; rfl, by unfold reverseSeek; simp, by unfold reverseSeek; simp, by unfold reverseSeek; simp,
    by unfold reverseSeek; simp, by unfold reverseSeek; simp, fun h => absurd hn h⟩

theorem failSeek_keeps (h : Segment) (d : Dir) (s : State) : Keeps s (failSeek h d s) := by
  have hgone : Tame s { pgIdle s with queue := s.queue.tail } :=
    (pgIdle_tame s).trans (.of_queue _ (List.Sublist.map _ (List.tail_sublist _)))
  unfold failSeek
  dsimp only
  refine Keeps.trans ?_ ((guardTake_keeps _ _ _).trans ((afterRemoval_tame ..).keeps.trans
    ((evalHead_tame _).keeps.trans (settle_keeps _))))
  split
  · split
    · exact (hgone.trans ((oweHalt_tame ..).trans (haltSlot_tame ..))).keeps
    · exact hgone.keeps
  · exact hgone.keeps

theorem refusePulse_keeps (h : Segment) (d : Dir) (causes : List (Cause × Mode)) {s : State} (hn : s.ss.node = .run) :
    Keeps s (refusePulse h d causes s) := by
  have hover : Keeps s (guardTakeAll causes (pgIdle s)) := (pgIdle_tame s).keeps.trans (guardTakeAll_keeps _ _)
  unfold refusePulse
  split
  · split
    · split
      · exact (reverseSeek_tame d _ hn).keeps
      · exact failSeek_keeps h d s
    · exact hover
  · exact hover

theorem run_of_intervalRuns {s : State} (h : s.intervalRuns = true) : s.ss.node = .run := by
  simp only [State.intervalRuns, Bool.and_eq_true, beq_iff_eq] at h
  exact h.1.1.2

theorem intervalEnd_keeps (s : State) : ∃ t, execIntervalEnd s = .next t ∧ Keeps s t := by
  refine ⟨_, rfl, ?_⟩
  split
  · exact .refl s
  · split
    · exact .refl s
    · next hruns =>
      have hn : s.ss.node = .run := run_of_intervalRuns (by simpa using hruns)
      split
      · exact (spanProgress_tame ..).keeps.trans (afterStep_keeps _)
      · split
        · exact .refl s
        · dsimp only
          split
          · next hc => exact (emitPulse_keeps hn hc).trans (afterStep_keeps _)
          · exact refusePulse_keeps _ _ _ hn

/-- The pulse lines fall (R119). -/
theorem lowerPulse_keeps (s : State) : Keeps s (lowerPulse s) := by
  have hlow (pg : Pg) (h : s.linesLow = true → State.linesLow { s with pg := pg } = true) : Keeps s { s with pg := pg } :=
    ⟨rfl, id, id, id, id, id, id, h⟩
  unfold lowerPulse
  split <;> refine hlow _ fun h => ?_ <;> simp only [State.linesLow, Bool.or_eq_true, Bool.and_eq_true] at h ⊢
  · exact h.imp_right fun hl => ⟨rfl, hl.2⟩
  · exact .inr ⟨rfl, rfl⟩

theorem setSeek_tame (x : Option Seek) (s : State) : Tame s { s with pg := { s.pg with seek := x } } :=
  .of_pg _ fun _ => ⟨rfl, rfl⟩

theorem setPhase_tame (x : Phase) (s : State) : Tame s { s with pg := { s.pg with phase := x } } :=
  .of_pg _ fun _ => ⟨rfl, rfl⟩

theorem referenceEdge_keeps (spec : SeekSpec) (p : Profile) (x : Seek) (s : State) : Keeps s (referenceEdge spec p x s) := by
  have hset (y : Seek) := setSeek_tame (some y) s
  unfold referenceEdge
  split
  · dsimp only
    split
    · exact (hset _).keeps.trans (applyPreset_keeps _)
    · exact (Tame.trans (hset { x with stage := some .settle, latched := some s.counters }) (setPhase_tame .decel _)).keeps
  · exact (Tame.trans (hset { x with stage := some .count, counted := 0 }) (setPhase_tame .count _)).keeps

/-! ### Every command -/

/-- A command completes and keeps every law: one arm for each row, by the operation that is its meaning. -/
theorem exec_keeps (c : Instr) (s : State) : ∃ t, exec c s = .next t ∧ Keeps s t := by
  cases c with
  | nresetAsserted straps => exact ⟨_, rfl, (resetNode_keeps ..).trans (pins_keeps _ _)⟩
  | nresetReleased straps =>
    refine ⟨_, rfl, ?_⟩
    split
    · next h => exact ((pins_keeps s { s.pins with nreset := .high }).trans (sampleStraps_keeps _ straps)).trans (endReset_keeps h.2)
    · exact .refl s
  | restartTaken source straps =>
    refine ⟨_, rfl, takeFrame_keeps fun u => ?_⟩
    split
    · exact (resetNode_keeps straps .restart u).trans (endReset_keeps rfl)
    · exact .refl u
  | joiningIdleReached =>
    refine ⟨_, rfl, ?_⟩
    split
    · next h => exact keeps_tif _ (iff_of_false nofun (by simp [h]))
    · exact .refl s
  | attemptStart bits => exact attemptStart_keeps bits s
  | arbitrationLost =>
    refine ⟨_, rfl, ?_⟩
    split
    · next h => exact (leaveSending_keeps _ h.1).trans (attemptWaits_keeps _)
    · exact .refl s
  | mismatchTestEnd levels =>
    refine ⟨_, rfl, ?_⟩
    split
    · next h =>
      split
      · exact (leaveSending_keeps _ h.1).trans (attemptVoid_keeps _)
      · exact enterSilent_keeps s
    · exact .refl s
  | codingError bits =>
    refine ⟨_, rfl, ?_⟩
    split
    · exact keeps_tif _ Iff.rfl
    · exact .refl s
  | frameVoided bits a b =>
    refine ⟨_, rfl, ?_⟩
    split
    · next h =>
      split
      · exact .refl s
      · dsimp only
        split
        · exact .refl s
        · exact windowEnds_keeps _ _ (by simp [h.1])
    · exact .refl s
  | attemptVoided how =>
    refine ⟨_, rfl, ?_⟩
    split
    · next h => exact (leaveSending_keeps _ h.1).trans (attemptVoid_keeps _)
    · exact .refl s
  | linkStuck =>
    refine ⟨_, rfl, ?_⟩
    split
    · next h =>
      refine (keeps_tif _ ?_).trans (guardTake_keeps _ _ _)
      exact iff_of_false nofun (by simp [h])
    · exact .refl s
  | stuckRecovery =>
    refine ⟨_, rfl, ?_⟩
    split
    · next h =>
      refine (keeps_tif _ ?_).trans (produce_tame _ _ _).keeps
      exact iff_of_false nofun (by simp [h])
    · exact .refl s
  | frameTakenNoEffect f =>
    refine ⟨_, rfl, ?_⟩
    split
    · exact takeFrame_keeps fun u => .refl u
    · exact .refl s
  | ownAnswerTaken =>
    refine ⟨_, rfl, ?_⟩
    split
    · next h => exact taken_keeps (link_ne_silent_of_sends h)
    · exact .refl s
  | ownNoticeTaken =>
    refine ⟨_, rfl, ?_⟩
    split
    · next h => exact taken_keeps (link_ne_silent_of_sends h)
    · exact .refl s
  | haltGroupTaken source group cause mode tag =>
    refine ⟨_, rfl, takeFrame_keeps fun u => inRun_keeps fun _ => onGroup_keeps fun k => ?_⟩
    split
    · exact (haltSlot_tame ..).keeps.trans (settle_keeps _)
    · exact .refl u
  | haltAllTaken source cause mode tag =>
    refine ⟨_, rfl, takeFrame_keeps fun u => inRun_keeps fun _ => ?_⟩
    split
    · exact ((foldl_keeps _ _ (fun v k => (haltSlot_tame ..).keeps) u).trans (haltUngrouped_tame _ _).keeps).trans
        (guardLatchPeer_keeps ..)
    · exact .refl u
  | clearGroupTaken source group n =>
    refine ⟨_, rfl, takeFrame_keeps fun u => inRun_keeps fun _ => onGroup_keeps fun k => ?_⟩
    dsimp only
    split
    · exact (clearSlot_tame ..).keeps.trans (evaluate_keeps _)
    · exact (clearSlot_tame ..).keeps
  | clearAllTaken source n =>
    exact ⟨_, rfl, takeFrame_keeps fun u => inRun_keeps fun _ =>
      (foldl_keeps _ _ (fun v k => (clearSlot_tame ..).keeps) u).trans ((guardRemovePeer_keeps _).trans (evaluate_keeps _))⟩
  | clearStationTaken source reference =>
    exact ⟨_, rfl, serve_keeps fun u => runOnly_keeps fun _ => clearGuard_keeps u⟩
  | readyTaken source group n tag =>
    exact ⟨_, rfl, takeFrame_keeps fun u => inRun_keeps fun hn => onGroup_keeps fun k => takeReady_keeps k source n hn⟩
  | markTaken source unit packed position =>
    refine ⟨_, rfl, takeFrame_keeps fun u => inRun_keeps fun _ => ?_⟩
    split
    · exact hearMark_keeps ..
    · exact .refl u
  | load source reference record =>
    exact ⟨_, rfl, serve_keeps fun u => runOnly_keeps fun _ => loadSegment_keeps record u⟩
  | flushAll source reference value =>
    refine ⟨_, rfl, serve_keeps fun u => runOnly_keeps fun _ => ?_⟩
    split
    · exact flushMatching_keeps _ u
    · exact .refl u
  | flushTag source reference value =>
    refine ⟨_, rfl, serve_keeps fun u => runOnly_keeps fun _ => ?_⟩
    split
    · exact .refl u
    · exact flushMatching_keeps _ u
  | flushSlot source reference value =>
    refine ⟨_, rfl, serve_keeps fun u => runOnly_keeps fun _ => ?_⟩
    split
    · exact .refl u
    · exact flushMatching_keeps _ u
  | stop source reference mode tag =>
    exact ⟨_, rfl, serve_keeps fun u => runOnly_keeps fun _ => stopSegment_keeps mode tag u⟩
  | marksetArm source reference unit sc threshold period =>
    refine ⟨_, rfl, serve_keeps fun u => runOnly_keeps fun _ => ?_⟩
    split
    · exact .refl u
    · split
      · exact .refl u
      · split
        · exact .refl u
        · exact armUnit_keeps ..
  | marksetDisarm source reference unit unused =>
    refine ⟨_, rfl, serve_keeps fun u => runOnly_keeps fun _ => ?_⟩
    split
    · exact .refl u
    · exact disarmUnit_keeps _ u
  | queryStatus source reference item qi =>
    refine ⟨_, rfl, serve_keeps fun u => ?_⟩
    dsimp only
    split <;> exact pins_keeps u _
  | queryPosition source reference item =>
    refine ⟨_, rfl, serve_keeps fun u => ?_⟩
    split <;> exact .refl u
  | queryQueue source reference item =>
    refine ⟨_, rfl, serve_keeps fun u => ?_⟩
    split <;> exact .refl u
  | queryGroup source reference item =>
    refine ⟨_, rfl, serve_keeps fun u => ?_⟩
    split <;> exact .refl u
  | queryMarks source reference item =>
    refine ⟨_, rfl, serve_keeps fun u => ?_⟩
    split
    · exact .refl u
    · split <;> exact .refl u
  | querySetup source reference item =>
    refine ⟨_, rfl, serve_keeps fun u => ?_⟩
    split <;> exact .refl u
  | setup source reference fields =>
    refine ⟨_, rfl, serve_keeps fun u => setupOnly_keeps fun _ => ?_⟩
    split
    · exact .refl u
    · exact applySettings_keeps _ u
  | define source reference slot address roster =>
    refine ⟨_, rfl, serve_keeps fun u => setupOnly_keeps fun _ => ?_⟩
    split
    · exact .refl u
    · split
      · exact .refl u
      · exact (Tame.of_slot _ .empty fun _ => trivial).keeps
      · exact (Tame.of_slot _ (.defined _) fun _ => trivial).keeps
  | commit source reference => exact ⟨_, rfl, serve_keeps fun u => setupOnly_keeps fun _ => commitSetup_keeps u⟩
  | rendezvousTimeout =>
    refine ⟨_, rfl, ?_⟩
    split
    · split
      · exact (localHalt_tame ..).keeps
      · exact .refl s
    · exact .refl s
  | intervalEnd => exact intervalEnd_keeps s
  | pulseHighEnd => exact ⟨_, rfl, lowerPulse_keeps s⟩
  | dwellEnd =>
    refine ⟨_, rfl, ?_⟩
    split
    · exact ((Tame.of_pg { s.pg with dwellLeft := 0 } fun _ => ⟨rfl, rfl⟩).trans (pgIdle_tame _)).keeps.trans (settle_keeps _)
    · exact .refl s
  | driveFaultChange level =>
    refine ⟨_, rfl, ?_⟩
    split
    · exact .refl s
    · refine (pins_keeps s { s.pins with dflt := level }).trans ?_
      dsimp only
      split
      · exact guardTake_keeps ..
      · exact .refl _
  | limitInputChange input level => cases input <;> exact ⟨_, rfl, pins_keeps s _⟩
  | refChange level =>
    refine ⟨_, rfl, ?_⟩
    split
    · exact .refl s
    · refine (pins_keeps s { s.pins with ref := level }).trans ?_
      dsimp only
      split
      · split
        · exact .refl _
        · split
          · exact (setSeek_tame _ _).keeps
          · split
            · exact referenceEdge_keeps ..
            · exact .refl _
      · exact .refl _
  | qiRise =>
    refine ⟨_, rfl, (pins_keeps s { s.pins with qi := .high }).trans ?_⟩
    dsimp only
    split
    · split
      · split
        · exact (setSeek_tame _ _).keeps.trans (applyPreset_keeps _)
        · exact (setSeek_tame _ _).keeps
      · exact .refl _
    · exact .refl _
  | quadratureTransition qa qb =>
    have hdecoder : Keeps s (s.decoded (quadOf qa qb)) := ⟨rfl, id, id, id, id, id, id, id⟩
    refine ⟨_, rfl, hdecoder.trans ?_⟩
    dsimp only [State.decoded]
    split
    · exact guardTake_keeps ..
    · exact stepFeedback_keeps ..
  | mismatch =>
    refine ⟨_, rfl, ?_⟩
    split
    · exact keeps_tif _ Iff.rfl
    · exact .refl s
  | breakEnd =>
    refine ⟨_, rfl, ?_⟩
    split
    · exact .refl s
    · exact keeps_tif _ Iff.rfl

/-- The passing of a millisecond (entry 3). -/
theorem tick_keeps (s : State) : Keeps s (tick s) := by
  have hlink : (lineTick s.tif).link = s.tif.link := by unfold lineTick; split <;> rfl
  have hdwell (n : Nat) (u : State) : Tame u { u with pg := { u.pg with dwellLeft := n } } := .of_pg _ fun _ => ⟨rfl, rfl⟩
  exact (keeps_tif (lineTick s.tif) (by rw [hlink])).trans ((timer_tame _ _).trans (hdwell _ _)).keeps

/-- One step keeps every law. -/
theorem step_keeps {s t : State} (h : step s = .next t) :
    (s.denRight = true → t.denRight = true) ∧ (s.tagsDistinct = true → t.tagsDistinct = true)
    ∧ (s.listsBounded = true → t.listsBounded = true) ∧ (s.countersInRange = true → t.countersInRange = true)
    ∧ (s.readySetsRight = true → t.readySetsRight = true) ∧ (s.recordRight = true → t.recordRight = true)
    ∧ (s.linesLow = true → t.linesLow = true) := by
  unfold step at h
  split at h
  · cases h
    have k := tick_keeps s
    exact ⟨k.den, k.tags, k.lists, k.counters, k.readySets, k.record, k.lines⟩
  · next c rest _ =>
    obtain ⟨u, hu, k⟩ := exec_keeps c { s with pending := rest }
    cases hu.symm.trans h
    exact ⟨k.den, k.tags, k.lists, k.counters, k.readySets, k.record, k.lines⟩

/-- Settles O3: every arm of `exec` answers a next state, and no operation touches the waiting commands. -/
theorem everyCommandAnswersNext : Obligations.EveryCommandAnswersNext := fun c s => by
  obtain ⟨t, ht, hk⟩ := exec_keeps c s
  exact ⟨t, ht, hk.pending⟩

/-- Settles O57: DEN is driven with every change of what decides it. -/
theorem stepKeepsDen : Obligations.StepKeepsDen := fun _ _ hs h => (step_keeps h).1 hs

/-- Settles O60: each law of bounds and records by itself. -/
theorem stepKeepsTheBoundsAndRecords : Obligations.StepKeepsTheBoundsAndRecords := fun _ _ h => (step_keeps h).2

end Sys2Proof.Machine
end

