-- ==== Sys2Proof/Proofs/HeadLaws.lean ====
section
/-! PROOFS. The head and the group slots (R39, R59, R82): only the head moves, a slot is ARMED exactly for an announcing head, and
nothing is queued before RUN. -/

namespace Sys2Proof.Machine

/-! ### The three laws as one -/

/-- The laws of the head and of the group slots (R39, R59, R82). -/
structure HeadsRight (s : State) : Prop where
  tail : ∀ h ∈ s.queue.tail, h.state = .queued
  armed : ∀ k : Fin 8, (∃ g, s.group? k = some g ∧ g.state = .armed)
    ↔ ∃ h, s.headOfSlot? k = some h ∧ h.state.isAnnounce = true
  quiet : s.ss.node = .held ∨ s.ss.node = .setup → s.queue = [] ∧ ∀ k : Fin 8, s.group? k = none

theorem headsRight_iff (s : State) :
    HeadsRight s ↔ s.onlyHeadMoves = true ∧ s.armedRight = true ∧ s.quietBeforeRun = true := by
  have hb (a b : Bool) : (a == b) = true ↔ (a = true ↔ b = true) := by cases a <;> cases b <;> decide
  have htail : s.onlyHeadMoves = true ↔ ∀ h ∈ s.queue.tail, h.state = .queued := by simp [State.onlyHeadMoves]
  have harmed : s.armedRight = true ↔ ∀ k : Fin 8, (∃ g, s.group? k = some g ∧ g.state = .armed)
      ↔ ∃ h, s.headOfSlot? k = some h ∧ h.state.isAnnounce = true := by
    simp only [State.armedRight, List.all_eq_true, hb, Option.any_eq_true, beq_iff_eq]
    exact ⟨fun h k => h k (mem_allSlots k), fun h k _ => h k⟩
  have hquiet : s.quietBeforeRun = true ↔
      (s.ss.node = .held ∨ s.ss.node = .setup → s.queue = [] ∧ ∀ k : Fin 8, s.group? k = none) := by
    simp only [State.quietBeforeRun, Bool.or_eq_true, Bool.not_eq_true', Bool.or_eq_false_iff, beq_eq_false_iff_ne,
      Bool.and_eq_true, List.isEmpty_iff, List.all_eq_true, Option.isNone_iff_eq_none]
    constructor
    · rintro (⟨h1, h2⟩ | ⟨hq, hg⟩) hn
      · exact absurd hn (not_or.mpr ⟨h1, h2⟩)
      · exact ⟨hq, fun k => hg k (mem_allSlots k)⟩
    · intro h
      by_cases hn : s.ss.node = .held ∨ s.ss.node = .setup
      · obtain ⟨hq, hg⟩ := h hn
        exact .inr ⟨hq, fun k _ => hg k⟩
      · exact .inl (not_or.mp hn)
  rw [htail, harmed, hquiet]
  exact ⟨fun ⟨h1, h2, h3⟩ => ⟨h1, h2, h3⟩, fun ⟨h1, h2, h3⟩ => ⟨h1, h2, h3⟩⟩

/-- The head, if there is one, is not announcing. -/
def State.calm (s : State) : Prop := ∀ h ∈ s.queue.head?, h.state.isAnnounce = false

theorem calm_of_empty {s : State} (hq : s.queue = []) : s.calm := by simp [State.calm, hq]

/-- A change that keeps the laws, and starts no announcement. -/
structure Steady (s t : State) : Prop where
  heads : HeadsRight s → HeadsRight t
  calm : HeadsRight s → s.calm → t.calm

theorem Steady.refl (s : State) : Steady s s := ⟨id, fun _ => id⟩

theorem Steady.trans {s t u : State} (h : Steady s t) (h' : Steady t u) : Steady s u :=
  ⟨h'.heads ∘ h.heads, fun hs hc => h'.calm (h.heads hs) (h.calm hs hc)⟩

theorem group_congr {s t : State} (h : t.ru.slots = s.ru.slots) (k : Fin 8) : t.group? k = s.group? k := by
  rw [State.group?, h, State.group?]

theorem headOfSlot_congr {s t : State} (h : t.queue = s.queue) (k : Fin 8) : t.headOfSlot? k = s.headOfSlot? k := by
  rw [State.headOfSlot?, h, State.headOfSlot?]

/-- The laws look at the node state, the segments and the group slots alone. -/
theorem Steady.of_same {s t : State} (hn : t.ss.node = s.ss.node) (hq : t.queue = s.queue)
    (hr : t.ru.slots = s.ru.slots) : Steady s t where
  heads h := by
    refine ⟨by rw [hq]; exact h.tail, fun k => ?_, fun hb => ?_⟩
    · rw [group_congr hr, headOfSlot_congr hq]
      exact h.armed k
    · obtain ⟨h1, h2⟩ := h.quiet (by rwa [← hn])
      exact ⟨hq.trans h1, fun k => (group_congr hr k).trans (h2 k)⟩
  calm _ hc := by rwa [State.calm, hq]

theorem headOfSlot_cons {s : State} {h : Segment} {rest : List Segment} (hq : s.queue = h :: rest) (k : Fin 8) (x : Segment) :
    s.headOfSlot? k = some x ↔ x = h ∧ h.slot = some k := by
  rw [State.headOfSlot?, hq, List.head?_cons, Option.filter_eq_some_iff, Option.some_inj, beq_iff_eq]
  constructor
  · rintro ⟨rfl, hk⟩
    exact ⟨rfl, hk⟩
  · rintro ⟨rfl, hk⟩
    exact ⟨rfl, hk⟩

theorem queue_of_headOfSlot {s : State} {k : Fin 8} {h : Segment} (hh : s.headOfSlot? k = some h) :
    h.slot = some k ∧ ∃ rest, s.queue = h :: rest := by
  cases hq : s.queue with
  | nil =>
    rw [State.headOfSlot?, hq] at hh
    cases hh
  | cons x rest =>
    obtain ⟨rfl, hk⟩ := (headOfSlot_cons hq k h).1 hh
    exact ⟨hk, rest, rfl⟩

/-- The head's slot announces for the head alone. -/
theorem announces_cons {s : State} {h : Segment} {rest : List Segment} (hq : s.queue = h :: rest) (k : Fin 8) :
    (∃ x, s.headOfSlot? k = some x ∧ x.state.isAnnounce = true) ↔ h.slot = some k ∧ h.state.isAnnounce = true := by
  simp only [headOfSlot_cons hq]
  constructor
  · rintro ⟨x, ⟨rfl, hk⟩, ha⟩
    exact ⟨hk, ha⟩
  · rintro ⟨hk, ha⟩
    exact ⟨h, ⟨rfl, hk⟩, ha⟩

/-- With a calm head no slot is ARMED (R82). -/
theorem HeadsRight.not_armed {s : State} (h : HeadsRight s) (hc : s.calm) {k : Fin 8} {g : Group}
    (hg : s.group? k = some g) : g.state ≠ .armed := by
  intro ha
  obtain ⟨x, hx, hxa⟩ := (h.armed k).1 ⟨g, hg, ha⟩
  have hhead : x ∈ s.queue.head? := (Option.filter_eq_some_iff.1 hx).1
  rw [hc x hhead] at hxa
  cases hxa

/-- Laws with a calm head: no slot ARMED, the segments behind it QUEUED, and nothing queued before RUN. -/
theorem HeadsRight.of_calm {s : State} (ht : ∀ h ∈ s.queue.tail, h.state = .queued) (hc : s.calm)
    (ha : ∀ (k : Fin 8) (g : Group), s.group? k = some g → g.state ≠ .armed)
    (hq : s.ss.node = .held ∨ s.ss.node = .setup → s.queue = [] ∧ ∀ k : Fin 8, s.group? k = none) : HeadsRight s := by
  refine ⟨ht, fun k => iff_of_false ?_ ?_, hq⟩
  · rintro ⟨g, hg, harmed⟩
    exact ha k g hg harmed
  · rintro ⟨x, hx, hxa⟩
    rw [hc x (Option.filter_eq_some_iff.1 hx).1] at hxa
    cases hxa

/-! ### The head -/

/-- The head changes its state and neither begins nor ends an announcement. -/
theorem Steady.of_head {s t : State} {h h' : Segment} {rest : List Segment} (hn : t.ss.node = s.ss.node)
    (hr : t.ru.slots = s.ru.slots) (hq : s.queue = h :: rest) (hq' : t.queue = h' :: rest) (hk : h'.slot = h.slot)
    (ha : h'.state.isAnnounce = h.state.isAnnounce) : Steady s t where
  heads hs := by
    refine ⟨?_, fun k => ?_, fun hb => ?_⟩
    · rw [hq']
      have := hs.tail
      rwa [hq] at this
    · rw [group_congr hr, hs.armed, announces_cons hq, announces_cons hq', hk, ha]
    · obtain ⟨h1, -⟩ := hs.quiet (by rwa [← hn])
      cases hq.symm.trans h1
  calm _ hc := by
    have hh := hc h (by rw [hq]; rfl)
    rw [State.calm, hq']
    rintro x hx
    cases hx
    rwa [ha]

theorem setHeadState_queue_cons (x : SegState) {s : State} {h : Segment} {rest : List Segment} (hq : s.queue = h :: rest) :
    (setHeadState x s).queue = { h with state := x } :: rest := by
  rw [setHeadState, hq]

theorem claim_steady (o : SegOutcome) (m : Mode) (s : State) : Steady s (claim o m s) := by
  unfold claim
  split
  · exact .refl s
  · next h rest hq =>
    have hset (x : SegState) := setHeadState_queue_cons x hq
    split
    · next hs => exact .of_head (by simp) (by simp) hq ((pgStop_queue ..).trans (hset _)) rfl (by rw [hs]; rfl)
    · next hs =>
      split
      · exact .of_head (by simp) (by simp) hq ((pgIdle_queue _).trans (hset _)) rfl (by rw [hs]; rfl)
      · exact .refl s
    · exact .refl s

theorem lookEndMark_steady (s : State) : Steady s (lookEndMark s) := by
  unfold lookEndMark
  split
  · exact .refl s
  · next h rest hq =>
    split
    · next hs _ =>
      split
      · refine .of_head (by simp) (by simp) hq ((pgStop_queue ..).trans (setHeadState_queue_cons _ ?_)) rfl (by rw [hs]; rfl)
        exact hq
      · exact .refl s
    · exact .refl s

/-- The start of the head (R66): it keeps its slot and is announcing no more. -/
theorem startHead_queue {s : State} {h : Segment} {rest : List Segment} (hq : s.queue = h :: rest) :
    ∃ h', (startHead s).queue = h' :: rest ∧ h'.slot = h.slot ∧ h'.state.isAnnounce = false := by
  have hrun : (pgStart h (pruneHeard (setHeadState .running s))).queue = { h with state := .running } :: rest := by
    rw [pgStart_queue, pruneHeard_queue, setHeadState_queue_cons _ hq]
  unfold startHead
  simp only [hq]
  unfold lookEndMark
  simp only [hrun]
  split
  · split
    · exact ⟨_, (pgStop_queue ..).trans (setHeadState_queue_cons _ (h := { h with state := .running }) hrun), rfl, rfl⟩
    · exact ⟨_, hrun, rfl, rfl⟩
  · exact ⟨_, hrun, rfl, rfl⟩

theorem startHead_steady {s : State} (hc : s.calm) : Steady s (startHead s) := by
  cases hq : s.queue with
  | nil =>
    rw [startHead, hq]
    exact .refl s
  | cons h rest =>
    obtain ⟨h', hq', hk, ha⟩ := startHead_queue hq
    exact .of_head (by simp) (by simp) hq hq' hk (by rw [ha, hc h (by rw [hq]; rfl)])

/-- The head announces for a slot that was OPEN (R65, R84). -/
theorem announce_heads {s : State} {h : Segment} {rest : List Segment} {k : Fin 8} {g : Group} (hs : HeadsRight s)
    (hn : s.ss.node = .run) (hq : s.queue = h :: rest) (hw : h.state = .waiting) (hk : h.slot = some k) (tag : Byte) :
    HeadsRight (announce k g tag s) := by
  have hcalm : s.calm := by
    rw [State.calm, hq]
    rintro x hx
    cases hx
    rw [hw]
    rfl
  have hqueue : (announce k g tag s).queue = { h with state := .announcing } :: rest := by
    unfold announce
    exact setHeadState_queue_cons _ (by simpa using hq)
  have hslots : (announce k g tag s).ru.slots = s.ru.slots.set k (.live { g with state := .armed }) := by
    simp [announce]
  refine ⟨?_, fun j => ?_, ?_⟩
  · have := hs.tail
    rw [hq] at this
    rwa [hqueue]
  · rw [announces_cons hqueue]
    by_cases hj : k = j
    · subst hj
      refine iff_of_true ⟨{ g with state := .armed }, ?_, rfl⟩ ⟨hk, rfl⟩
      rw [group_eq_some, hslots]
      simp
    · have hne : (k : Nat) ≠ j := fun he => hj (Fin.ext he)
      refine iff_of_false ?_ fun hkj => hj (Option.some_inj.1 (hk.symm.trans hkj.1))
      rintro ⟨x, hx, ha⟩
      rw [group_eq_some, hslots, Fin.getElem_fin, Vector.getElem_set_ne _ _ hne] at hx
      exact hs.not_armed hcalm (group_eq_some.2 hx) ha
  · rw [announce_ss, hn]
    rintro (h | h) <;> cases h

theorem evalHead_heads {s : State} (hs : HeadsRight s) : HeadsRight (evalHead s) := by
  unfold evalHead
  split
  · exact hs
  · next h rest hq =>
    split
    · exact hs
    · next hb =>
      have hn : s.ss.node = .run := run_of_not_blocked fun h => hb (.inr h)
      have hw : h.state = .waiting := not_not.1 fun h => hb (.inl h)
      have hc : s.calm := by
        rw [State.calm, hq]
        rintro x hx
        cases hx
        rw [hw]
        rfl
      split
      · exact (startHead_steady hc).heads hs
      · split
        · exact ((Steady.of_same (s := s) (t := consume _ s) rfl rfl rfl).trans (startHead_steady hc)).heads hs
        · exact hs
      · split
        · exact hs
        · next k hk =>
          split
          · split
            · exact announce_heads hs hn hq hw hk h.tag
            · exact hs
          · exact hs

theorem calm_of_queued {s : State} (hs : HeadsRight s) : State.calm { s with queue := s.queue.tail } := by
  intro h hh
  have hmem : h ∈ s.queue.tail := List.mem_of_head? hh
  rw [hs.tail h hmem]
  rfl

/-- A head that is not announcing leaves the queue (R75). -/
theorem tail_heads {s : State} (hs : HeadsRight s) (hc : s.calm) : HeadsRight { s with queue := s.queue.tail } :=
  .of_calm (fun h hh => hs.tail h (List.mem_of_mem_tail hh)) (calm_of_queued hs)
    (fun _ _ hg => hs.not_armed hc hg) fun hb => by
      obtain ⟨h1, h2⟩ := hs.quiet hb
      exact ⟨by rw [h1]; rfl, h2⟩

/-- The oldest remaining segment becomes head in WAITING (R75, R78). -/
theorem promote_steady {s : State} (hc : s.calm) : Steady s { s with queue := promote s.queue } := by
  cases hq : s.queue with
  | nil => exact .of_same rfl (by rw [hq]; rfl) rfl
  | cons h rest =>
    exact .of_head (h' := { h with state := .waiting }) rfl rfl hq rfl rfl (by rw [hc h (by rw [hq]; rfl)]; rfl)

theorem produce_steady (n : NoticeType) (c : List Byte) (s : State) : Steady s (produce n c s) :=
  .of_same (by simp) (by simp) (by simp)

theorem afterRemoval_steady (tag : Byte) (o : SegOutcome) (n : Nat) {s : State} (hc : s.calm) :
    Steady s (afterRemoval tag o n s) := by
  have hdone : Steady s (doneNotice tag o n (pruneHeard s)) := .of_same (by simp) (by simp) (by simp)
  have hcalm : (doneNotice tag o n (pruneHeard s)).calm := by simpa [State.calm] using hc
  unfold afterRemoval
  refine hdone.trans ?_
  dsimp only
  split
  · exact produce_steady _ _ _
  · exact promote_steady hcalm

theorem finishHead_steady (o : SegOutcome) {s : State} (hc : s.calm) : Steady s (finishHead o s) := by
  cases hq : s.queue with
  | nil =>
    rw [finishHead, hq]
    exact .refl s
  | cons h rest =>
    have hgone (hs : HeadsRight s) : HeadsRight (guardStops { s with queue := s.queue.tail }) ∧
        (guardStops { s with queue := s.queue.tail }).calm :=
      have hstops : Steady { s with queue := s.queue.tail } (guardStops { s with queue := s.queue.tail }) :=
        .of_same (by simp) (by simp) (by simp)
      ⟨hstops.heads (tail_heads hs hc), hstops.calm (tail_heads hs hc) (calm_of_queued hs)⟩
    have heq : finishHead o s
        = afterRemoval h.tag o (h.notEmitted s.pg) (guardStops { s with queue := s.queue.tail }) := by
      simp only [finishHead, hq, List.tail_cons]
    rw [heq]
    constructor
    · intro hs
      obtain ⟨h1, h2⟩ := hgone hs
      exact (afterRemoval_steady _ o _ h2).heads h1
    · intro hs _
      obtain ⟨h1, h2⟩ := hgone hs
      exact (afterRemoval_steady _ o _ h2).calm h1 h2

/-- A head whose work is over is not announcing (R73). -/
theorem calm_of_headOver {s : State} {o : SegOutcome} (h : s.headOver? = some o) : s.calm := by
  intro x hx
  unfold State.headOver? at h
  split at h
  · cases h
  · next y rest hq =>
    rw [hq] at hx
    cases hx
    split at h
    · cases h
    · split at h
      · next hs => rw [hs]; rfl
      · next hs => rw [hs]; rfl
      · cases h

theorem finishIfOver_steady (s : State) : Steady s (finishIfOver s) := by
  unfold finishIfOver
  split
  · next h => exact finishHead_steady _ (calm_of_headOver h)
  · exact .refl s

theorem settleFrom_heads (n : Nat) {s : State} (hs : HeadsRight s) : HeadsRight (settleFrom n s) := by
  induction n generalizing s with
  | zero => exact hs
  | succ n ih =>
    unfold settleFrom
    split
    · next h => exact ih (evalHead_heads ((finishHead_steady _ (calm_of_headOver h)).heads hs))
    · exact hs

theorem settle_heads {s : State} (hs : HeadsRight s) : HeadsRight (settle s) := settleFrom_heads _ hs

theorem evaluate_heads {s : State} (hs : HeadsRight s) : HeadsRight (evaluate s) := settle_heads (evalHead_heads hs)

/-! ### Groups -/

/-- A live slot is found in RUN alone (R39). -/
theorem HeadsRight.not_quiet {s : State} (hs : HeadsRight s) {k : Fin 8} {g : Group} (hg : s.group? k = some g) :
    ¬ (s.ss.node = .held ∨ s.ss.node = .setup) := fun hb => by
  have := (hs.quiet hb).2 k
  rw [hg] at this
  cases this

/-- The groups after one slot has been given a live group. -/
theorem group_of_set {s u : State} {k : Fin 8} {g : Group} (hr : u.ru.slots = s.ru.slots.set k (.live g)) {j : Fin 8}
    {x : Group} (hx : u.group? j = some x) : j = k ∧ x = g ∨ j ≠ k ∧ s.group? j = some x := by
  rw [group_eq_some, hr] at hx
  by_cases hj : k = j
  · subst hj
    left
    exact ⟨rfl, by simpa using hx.symm⟩
  · have hne : (k : Nat) ≠ j := fun he => hj (Fin.ext he)
    rw [Fin.getElem_fin, Vector.getElem_set_ne _ _ hne] at hx
    exact .inr ⟨fun h => hj h.symm, group_eq_some.2 hx⟩

/-- With the slot of an announcing head no longer ARMED, none is (R82). -/
theorem HeadsRight.none_armed {s u : State} {k : Fin 8} {g' : Group} {h : Segment} {rest : List Segment} (hs : HeadsRight s)
    (hq : s.queue = h :: rest) (hk : h.slot = some k) (hg' : g'.state ≠ .armed)
    (hr : u.ru.slots = s.ru.slots.set k (.live g')) (j : Fin 8) (x : Group) (hx : u.group? j = some x) :
    x.state ≠ .armed := by
  obtain ⟨-, rfl⟩ | ⟨hj, hx⟩ := group_of_set hr hx
  · exact hg'
  · intro hxa
    have harmed := (hs.armed j).1 ⟨x, hx, hxa⟩
    rw [announces_cons hq] at harmed
    exact hj (Option.some_inj.1 (harmed.1.symm.trans hk))

/-- A live slot takes a state that is not ARMED, and an announcing head of the slot waits again (R69, R92, R99). -/
theorem HeadsRight.disarm {s u : State} {k : Fin 8} {g g' : Group} (hs : HeadsRight s) (hg : s.group? k = some g)
    (hg' : g'.state ≠ .armed) (hn : u.ss.node = s.ss.node) (hq : u.queue = s.queue)
    (hr : u.ru.slots = s.ru.slots.set k (.live g')) :
    HeadsRight (returnHead k u) ∧ (s.calm → (returnHead k u).calm) := by
  have hquiet (hb : u.ss.node = .held ∨ u.ss.node = .setup) : False := hs.not_quiet hg (by rwa [← hn])
  by_cases hann : ∃ h, s.headOfSlot? k = some h ∧ h.state.isAnnounce = true
  · obtain ⟨h, hh, ha⟩ := hann
    obtain ⟨hk, rest, hqs⟩ := queue_of_headOfSlot hh
    have heq : returnHead k u = withdrawReady (setHeadState .waiting u) := by
      simp only [returnHead, headOfSlot_congr hq, hh, ha, if_true]
    have hqueue : (returnHead k u).queue = { h with state := .waiting } :: rest := by
      rw [heq]
      exact setHeadState_queue_cons _ (hq.trans hqs)
    have hcalm : (returnHead k u).calm := by
      rw [State.calm, hqueue]
      rintro x hx
      cases hx
      rfl
    refine ⟨.of_calm ?_ hcalm (fun j x hx hxa => ?_) fun hb => ?_, fun _ => hcalm⟩
    · have := hs.tail
      rw [hqs] at this
      rwa [hqueue]
    · exact hs.none_armed hqs hk hg' (by rw [returnHead_ru, hr]) j x hx hxa
    · rw [returnHead_ss] at hb
      exact (hquiet hb).elim
  · have heq : returnHead k u = u := by
      unfold returnHead
      rw [headOfSlot_congr hq]
      split
      · next h hh => exact if_neg fun ha => hann ⟨h, hh, ha⟩
      · rfl
    rw [heq]
    refine ⟨⟨by rw [hq]; exact hs.tail, fun j => ?_, fun hb => (hquiet hb).elim⟩, fun hc => by rwa [State.calm, hq]⟩
    rw [headOfSlot_congr hq]
    by_cases hj : j = k
    · subst hj
      refine iff_of_false ?_ hann
      rintro ⟨x, hx, hxa⟩
      obtain ⟨-, rfl⟩ | ⟨hj, -⟩ := group_of_set hr hx
      · exact hg' hxa
      · exact hj rfl
    · rw [← hs.armed]
      have hne : (k : Nat) ≠ j := fun he => hj (Fin.ext he.symm)
      have : u.group? j = s.group? j := by
        simp only [State.group?, hr, Fin.getElem_fin, Vector.getElem_set_ne _ _ hne]
      rw [this]

/-- The head under a halt waits again if it was announcing, and meets the claim HALTED if it moves (R92). -/
theorem haltHead_eq (k : Fin 8) (m : Mode) (b : Bool) (s : State) :
    haltHead k m b s = returnHead k s ∨ haltHead k m b s = claim .halted m (returnHead k s) := by
  unfold haltHead
  cases hh : s.headOfSlot? k with
  | none => exact .inl (by simp [returnHead, hh])
  | some h =>
    have hstay (ha : h.state.isAnnounce = false) : returnHead k s = s := by simp [returnHead, hh, ha]
    dsimp only
    split
    · next hs =>
      rw [hstay (by rw [hs]; rfl)]
      split
      · exact .inl rfl
      · exact .inr rfl
    · next hs =>
      rw [hstay (by rw [hs]; rfl)]
      exact .inr rfl
    · exact .inl rfl

theorem haltSlot_steady (k : Fin 8) (c : Cause) (o : StationId) (m : Mode) (b : Bool) (s : State) :
    Steady s (haltSlot k c o m b s) := by
  cases hg : s.group? k with
  | none =>
    simp only [haltSlot, hg]
    exact .refl s
  | some g =>
    by_cases hh : s.slotHalted k = true
    · obtain ⟨c', o', hstate⟩ : ∃ c' o', g.state = .halted c' o' := by
        cases hx : g.state with
        | halted c' o' => exact ⟨c', o', rfl⟩
        | _ => simp [State.slotHalted, hg, hx] at hh
      simp only [haltSlot, hg, hstate]
      split
      · exact claim_steady _ _ s
      · exact .refl s
    · rw [haltSlot_of_not_halted hg (by simpa using hh)]
      have hdisarm (hs : HeadsRight s) := hs.disarm (g' := { g with state := .halted c o, ready := 0 })
        (u := haltNotice k g.address c o { s with ru := s.ru.halting k g c o }) hg nofun (by simp) (by simp) (by simp [Ru.halting])
      obtain heq | heq := haltHead_eq k m b (haltNotice k g.address c o { s with ru := s.ru.halting k g c o }) <;> rw [heq]
      · exact ⟨fun hs => (hdisarm hs).1, fun hs => (hdisarm hs).2⟩
      · exact ⟨fun hs => (claim_steady ..).heads (hdisarm hs).1,
          fun hs hc => (claim_steady ..).calm (hdisarm hs).1 ((hdisarm hs).2 hc)⟩

theorem oweHalt_steady (k : Fin 8) (c : Cause) (m : Mode) (tag : Byte) (s : State) : Steady s (oweHalt k c m tag s) :=
  .of_same (by simp) (by simp) (by simp)

theorem localHalt_steady (k : Fin 8) (c : Cause) (m : Mode) (b : Bool) (s : State) : Steady s (localHalt k c m b s) :=
  (oweHalt_steady ..).trans (haltSlot_steady ..)

theorem clearSlot_steady (k : Fin 8) (n : Byte) (s : State) : Steady s (clearSlot k n s) := by
  cases hg : s.group? k with
  | none =>
    simp only [clearSlot, hg]
    exact .refl s
  | some g =>
    simp only [clearSlot, hg]
    have hdisarm (hs : HeadsRight s) := hs.disarm (g' := { g with state := .opened, ready := 0, sequence := n })
      (u := { (if g.state = .armed then stopTimer s else s).setSlot k (.live { g with state := .opened, ready := 0, sequence := n }) with
        tif := { (if g.state = .armed then stopTimer s else s).tif with
          owed := (if g.state = .armed then stopTimer s else s).tif.owed.set k none } }) hg nofun
      (by dsimp only [setSlot_ss]; split <;> rfl) (by dsimp only [setSlot_queue]; split <;> rfl)
      (by dsimp only [setSlot_slots]; split <;> rfl)
    exact ⟨fun hs => (hdisarm hs).1, fun hs => (hdisarm hs).2⟩


/-! ### The Guard -/

theorem guardHaltsGroup_steady (c : Cause) (m : Mode) (s : State) : Steady s (guardHaltsGroup c m s) := by
  unfold guardHaltsGroup
  split
  · split
    · split
      · exact localHalt_steady ..
      · exact .refl s
    · exact .refl s
  · exact .refl s

theorem hastenEnding_steady (s : State) : Steady s (hastenEnding s) := by
  unfold hastenEnding
  split
  · split
    · exact claim_steady _ _ s
    · exact .refl s
  · exact .refl s

theorem haltUngrouped_steady (m : Mode) (s : State) : Steady s (haltUngrouped m s) := by
  unfold haltUngrouped
  split
  · split
    · exact claim_steady _ _ s
    · exact .refl s
  · exact .refl s

/-- A change of the Guard alone. -/
theorem gd_steady (s : State) (gd : Gd) : Steady s { s with gd := gd } := .of_same rfl rfl rfl

theorem guardLeave_steady (c : Cause) (m : Mode) (s : State) : Steady s (guardLeave c m s) :=
  (gd_steady s _).trans ((guardHaltsGroup_steady c m _).trans ((produce_steady ..).trans
    ((claim_steady _ _ _).trans (finishIfOver_steady _))))

theorem guardAdd_steady (c : Cause) (m : Mode) (s : State) : Steady s (guardAdd c m s) := by
  unfold guardAdd
  dsimp only
  refine Steady.trans ?_ (finishIfOver_steady _)
  split
  · exact (gd_steady s _).trans (hastenEnding_steady _)
  · exact gd_steady s _

theorem guardTake_steady (c : Cause) (m : Mode) (s : State) : Steady s (guardTake c m s) := by
  unfold guardTake
  split
  · exact .refl s
  · exact gd_steady s _
  · exact gd_steady s _
  · split
    · exact guardLeave_steady c m s
    · exact guardAdd_steady c m s

theorem foldl_steady {α : Type} (f : State → α → State) (l : List α) (h : ∀ s a, Steady s (f s a)) (s : State) :
    Steady s (l.foldl f s) := by
  induction l generalizing s with
  | nil => exact .refl s
  | cons a l ih => exact (h s a).trans (ih _)

theorem guardTakeAll_steady (cs : List (Cause × Mode)) (s : State) : Steady s (guardTakeAll cs s) :=
  foldl_steady _ cs (fun u c => guardTake_steady c.1 c.2 u) s

theorem guardLatchPeer_steady (o : StationId) (m : Mode) (s : State) : Steady s (guardLatchPeer o m s) := by
  unfold guardLatchPeer
  split
  · exact guardTake_steady ..
  · exact (gd_steady s _).trans (guardTake_steady ..)

theorem guardRemovePeer_steady (s : State) : Steady s (guardRemovePeer s) := by
  unfold guardRemovePeer
  split
  · dsimp only
    split <;> exact gd_steady s _
  · exact .refl s

/-! ### Counters and the axis -/

/-- A change of the Position Block alone. -/
theorem pb_steady (s : State) (pb : Pb) : Steady s { s with pb := pb } := .of_same rfl rfl rfl

/-- A change of the generator alone. -/
theorem pg_steady (s : State) (pg : Pg) : Steady s { s with pg := pg } := .of_same rfl rfl rfl

/-- A change of the inputs alone. -/
theorem pins_steady (s : State) (x : Pins) : Steady s { s with pins := x } := .of_same rfl rfl rfl

/-- A change of the Trunk Interface alone. -/
theorem tif_steady (s : State) (x : Tif) : Steady s { s with tif := x } := .of_same rfl rfl rfl

theorem followTest_steady (before : Int) (s : State) : Steady s (followTest before s) := by
  unfold followTest
  split
  · exact guardTake_steady _ _ s
  · exact .refl s

theorem evalMarks_steady (src : MarkSource) (e : CounterEvent) (n : Int) (s : State) : Steady s (evalMarks src e n s) :=
  .of_same (by simp) (by simp) (by simp)

theorem stepCommand_steady (d : Dir) (s : State) : Steady s (stepCommand d s) :=
  (pb_steady s _).trans ((followTest_steady _ _).trans (evalMarks_steady ..))

theorem stepFeedback_steady (c : Int) (s : State) : Steady s (stepFeedback c s) := by
  unfold stepFeedback
  dsimp only
  split
  · exact .refl s
  · split
    · exact guardTake_steady _ _ s
    · exact (pb_steady s _).trans ((followTest_steady _ _).trans (evalMarks_steady ..))

theorem rewriteCounters_steady (p : Int) (l : Int × Int) (s : State) : Steady s (rewriteCounters p l s) := by
  unfold rewriteCounters
  dsimp only
  split
  · exact (pb_steady s _).trans (evalMarks_steady ..)
  · exact (pb_steady s _).trans ((evalMarks_steady ..).trans (evalMarks_steady ..))

theorem Steady.calm_heads {s t : State} (h : Steady s t) (hs : HeadsRight s ∧ s.calm) : HeadsRight t ∧ t.calm :=
  ⟨h.heads hs.1, h.calm hs.1 hs.2⟩

/-- Steps 1 to 3 of R125: the rewrite, the SEEK notice, and the end of the segment. -/
theorem presetEnd_heads (tag : Byte) (spec : SeekSpec) (l : Int × Int) {s : State} (hs : HeadsRight s) (hc : s.calm) :
    HeadsRight (finishHead .done (pgIdle (seekNotice tag spec l (rewriteCounters spec.preset l s)))) := by
  obtain ⟨h1, h2⟩ := ((rewriteCounters_steady spec.preset l s).trans ((produce_steady ..).trans (pg_steady _ _))).calm_heads ⟨hs, hc⟩
  exact (finishHead_steady .done h2).heads h1

theorem applyPreset_heads {s : State} (hs : HeadsRight s) (hc : s.calm) : HeadsRight (applyPreset s) := by
  unfold applyPreset
  split
  · split
    · refine evaluate_heads ((followTest_steady _ _).heads ?_)
      split
      · exact (guardTake_steady _ _ _).heads (presetEnd_heads _ _ _ hs hc)
      · exact presetEnd_heads _ _ _ hs hc
    · exact hs
  · exact hs

/-- A RUNNING or ENDING head is not announcing. -/
theorem calm_of_moving {s : State} {h : Segment} {rest : List Segment} (hq : s.queue = h :: rest)
    (hm : h.state.isMoving = true) : s.calm := by
  rw [State.calm, hq]
  rintro x hx
  cases hx
  cases hst : h.state with
  | running => rfl
  | ending o m => rfl
  | _ => rw [hst] at hm; cases hm

theorem settleIdle_heads {s : State} (hs : HeadsRight s) : HeadsRight (settle (pgIdle s)) :=
  settle_heads ((pg_steady s _).heads hs)

theorem afterStep_heads {s : State} (hs : HeadsRight s) (hc : s.calm) : HeadsRight (afterStep s) := by
  unfold afterStep
  split
  · exact hs
  · split
    · exact hs
    · dsimp only
      split
      · exact hs
      · split
        · exact settleIdle_heads hs
        · split
          · split
            · exact settleIdle_heads hs
            · exact (pg_steady s _).heads hs
          · split
            · split
              · exact applyPreset_heads hs hc
              · exact (pg_steady s _).heads hs
            · exact (pg_steady s _).heads hs

theorem spanProgress_steady (k : SegKind) (b : Bool) (s : State) : Steady s (spanProgress k b s) := by
  unfold spanProgress
  split
  · exact pg_steady s _
  · exact .refl s

theorem emitPulse_steady (k : SegKind) (d : Dir) (s : State) : Steady s (emitPulse k d s) :=
  (spanProgress_steady k true s).trans ((Steady.of_same (t := raisePulse d _) (by simp) (by simp) (by simp)).trans
    ((pg_steady _ _).trans (stepCommand_steady ..)))

theorem reverseSeek_steady (d : Dir) (p : Profile) (s : State) : Steady s (reverseSeek d p s) :=
  .of_same (by simp [reverseSeek]) (by simp [reverseSeek]) (by simp [reverseSeek])

/-- A SEEK that fails leaves with its slot halted, and the next head is evaluated (R128). -/
theorem failSeek_heads (h : Segment) (d : Dir) {s : State} (hs : HeadsRight s) (hc : s.calm) : HeadsRight (failSeek h d s) := by
  have hgone : HeadsRight { pgIdle s with queue := s.queue.tail } ∧ State.calm { pgIdle s with queue := s.queue.tail } :=
    ⟨tail_heads (s := pgIdle s) ((pg_steady s _).heads hs) hc, calm_of_queued (s := pgIdle s) ((pg_steady s _).heads hs)⟩
  unfold failSeek
  dsimp only
  refine settle_heads (evalHead_heads ?_)
  have hremoved {t : State} (ht : HeadsRight t ∧ t.calm) (o : SegOutcome) (n : Nat) : HeadsRight (afterRemoval h.tag o n
      (guardTake d.limitCause t.ss.settings.limitMode t)) := by
    obtain ⟨h1, h2⟩ := (guardTake_steady d.limitCause t.ss.settings.limitMode t).calm_heads ht
    exact (afterRemoval_steady h.tag o n h2).heads h1
  refine hremoved ?_ _ _
  split
  · split
    · exact ((oweHalt_steady ..).trans (haltSlot_steady ..)).calm_heads hgone
    · exact hgone
  · exact hgone

theorem refusePulse_heads (h : Segment) (d : Dir) (causes : List (Cause × Mode)) {s : State} (hs : HeadsRight s)
    (hc : s.calm) : HeadsRight (refusePulse h d causes s) := by
  have hover : HeadsRight (guardTakeAll causes (pgIdle s)) := (guardTakeAll_steady _ _).heads ((pg_steady s _).heads hs)
  unfold refusePulse
  split
  · split
    · split
      · exact (reverseSeek_steady ..).heads hs
      · exact failSeek_heads h d hs hc
    · exact hover
  · exact hover

theorem calm_of_intervalRuns {s : State} (h : s.intervalRuns = true) : s.calm := by
  simp only [State.intervalRuns, Bool.and_eq_true] at h
  obtain ⟨⟨⟨⟨hm, -⟩, -⟩, -⟩, -⟩ := h
  cases hq : s.queue with
  | nil => simp [State.calm, hq]
  | cons x rest =>
    refine calm_of_moving hq ?_
    simpa [State.headMoving, State.head?, hq] using hm

theorem intervalEnd_heads {s : State} (hs : HeadsRight s) : ∀ t, execIntervalEnd s = .next t → HeadsRight t := by
  rintro _ ⟨⟩
  split
  · exact hs
  · split
    · exact hs
    · next hruns =>
      have hc : s.calm := calm_of_intervalRuns (by simpa using hruns)
      split
      · obtain ⟨h1, h2⟩ := (spanProgress_steady _ _ s).calm_heads ⟨hs, hc⟩
        exact afterStep_heads h1 h2
      · split
        · exact hs
        · dsimp only
          split
          · obtain ⟨h1, h2⟩ := (emitPulse_steady _ _ s).calm_heads ⟨hs, hc⟩
            exact afterStep_heads h1 h2
          · exact refusePulse_heads _ _ _ hs hc

theorem lowerPulse_steady (s : State) : Steady s (lowerPulse s) := .of_same (by simp) (by simp) (by simp)

theorem calm_of_runningSeek {s : State} {x : SeekSpec × Profile} (h : s.runningSeek? = some x) : s.calm := by
  unfold State.runningSeek? at h
  split at h
  · cases h
  · next y rest hq =>
    split at h
    · next hr _ => exact calm_of_moving hq (by rw [hr]; rfl)
    · cases h

theorem referenceEdge_heads (spec : SeekSpec) (p : Profile) (x : Seek) {s : State} (hs : HeadsRight s) (hc : s.calm) :
    HeadsRight (referenceEdge spec p x s) := by
  unfold referenceEdge
  split
  · dsimp only
    split
    · exact applyPreset_heads ((pg_steady s _).heads hs) hc
    · exact (pg_steady s _).heads hs
  · exact (pg_steady s _).heads hs

/-! ### READY, MARK and the requests -/

/-- A live slot keeps its group state (R87). -/
theorem setSlot_sameState_steady {s : State} {k : Fin 8} {g g' : Group} (hg : s.group? k = some g) (hs : g'.state = g.state) :
    Steady s (s.setSlot k (.live g')) where
  heads h := by
    refine ⟨h.tail, fun j => ?_, fun hb => (h.not_quiet hg hb).elim⟩
    refine Iff.trans ⟨?_, ?_⟩ (h.armed j)
    · rintro ⟨x, hx, hxa⟩
      obtain ⟨rfl, rfl⟩ | ⟨hj, hx⟩ := group_of_set rfl hx
      · exact ⟨g, hg, hs ▸ hxa⟩
      · exact ⟨x, hx, hxa⟩
    · rintro ⟨x, hx, hxa⟩
      by_cases hj : k = j
      · subst hj
        cases hg.symm.trans hx
        exact ⟨g', by simp [State.group?, State.setSlot], hs.trans hxa⟩
      · have hne : (k : Nat) ≠ j := fun he => hj (Fin.ext he)
        refine ⟨x, ?_, hxa⟩
        rw [group_eq_some] at hx ⊢
        rw [setSlot_slots, Fin.getElem_fin, Vector.getElem_set_ne _ _ hne]
        exact hx
  calm _ hc := hc

@[simp] theorem announced_ru (k : Fin 8) (s : State) : (announced k s).ru = s.ru := by
  unfold announced
  split <;> simp

theorem announced_steady (k : Fin 8) (s : State) : Steady s (announced k s) := by
  unfold announced
  split
  · next h =>
    obtain ⟨x, hx, ha⟩ := (Option.any_eq_true ..).1 h
    obtain ⟨-, rest, hq⟩ := queue_of_headOfSlot hx
    refine .of_head (by simp) (by simp) hq (setHeadState_queue_cons _ hq) rfl ?_
    rw [beq_iff_eq.1 ha]
    rfl
  · exact .refl s

theorem readyRecorded_steady {s : State} {k : Fin 8} {g : Group} (source : StationId) (hg : s.group? k = some g) :
    Steady s (readyRecorded k g source s) := by
  have hrecord : Steady s (s.setSlot k (.live (g.recording source))) := setSlot_sameState_steady hg rfl
  unfold readyRecorded
  dsimp only
  split
  · exact hrecord.trans (announced_steady k _)
  · exact hrecord

/-- The slot of an announced head fires: it is OPEN again, and the head starts (R68, R88). -/
theorem fire_heads {s : State} {k : Fin 8} {g g' : Group} (hs : HeadsRight s) (hg : s.group? k = some g')
    (ha : s.headAnnounced k = true) : HeadsRight (fire k g s) := by
  obtain ⟨h, hh, -⟩ := (Option.any_eq_true ..).1 ha
  obtain ⟨hk, rest, hq⟩ := queue_of_headOfSlot hh
  obtain ⟨h', hq', -, hcalm⟩ := startHead_queue
    (s := stopTimer (s.setSlot k (.live { g with ready := 0, sequence := g.sequence + 1, state := .opened }))) hq
  refine settle_heads (.of_calm ?_ ?_ (hs.none_armed (g' := { g with ready := 0, sequence := g.sequence + 1, state := .opened })
    hq hk nofun (by rw [startHead_ru]; rfl)) fun hb => ?_)
  · have := hs.tail
    rw [hq] at this
    rwa [hq']
  · rw [State.calm, hq']
    rintro x hx
    cases hx
    exact hcalm
  · rw [startHead_ss] at hb
    exact (hs.not_quiet hg hb).elim

theorem recordReady_heads {s : State} {k : Fin 8} {g : Group} (source : StationId) (hs : HeadsRight s)
    (hg : s.group? k = some g) : HeadsRight (recordReady k g source s) := by
  have hrecord := (readyRecorded_steady source hg).heads hs
  rw [recordReady_eq]
  split
  · next hfires =>
    refine fire_heads (g' := g.recording source) hrecord ?_ hfires.2.2
    unfold readyRecorded
    rw [group_eq_some]
    dsimp only
    split <;> simp
  · exact hrecord

theorem takeReady_heads (k : Fin 8) (source : StationId) (n : Byte) {s : State} (hs : HeadsRight s) :
    HeadsRight (takeReady k source n s) := by
  unfold takeReady
  split
  · exact hs
  · next g hg =>
    split
    · exact hs
    · split
      · exact settle_heads ((localHalt_steady ..).heads hs)
      · split
        · exact settle_heads ((localHalt_steady ..).heads hs)
        · exact recordReady_heads source hs hg

theorem hearMark_heads (m : MarkRef) (c : Nat) {s : State} (hs : HeadsRight s) : HeadsRight (hearMark m c s) := by
  unfold hearMark
  split
  · exact hs
  · split
    · exact evaluate_heads (((pb_steady s _).trans (lookEndMark_steady _)).heads hs)
    · split
      · exact evaluate_heads (((pb_steady s _).trans (lookEndMark_steady _)).heads hs)
      · exact (produce_steady ..).heads hs

/-- A segment joins the queue in RUN: it is QUEUED behind others, or a WAITING head (R58). -/
theorem append_heads (h : Segment) {s : State} (hn : s.ss.node = .run) (hs : HeadsRight s) : HeadsRight (append h s) := by
  have hnot (hb : s.ss.node = .held ∨ s.ss.node = .setup) : False := by
    rw [hn] at hb
    rcases hb with hb | hb <;> cases hb
  unfold append
  split
  · next hq =>
    have hcalm : State.calm { s with queue := [{ h with state := .waiting }] } := by
      rintro x hx
      cases hx
      rfl
    have hempty : s.calm := calm_of_empty hq
    have hjoined : HeadsRight { s with queue := [{ h with state := .waiting }] } :=
      .of_calm (by simp) hcalm (fun j x hx => hs.not_armed (k := j) hempty hx) fun hb => (hnot hb).elim
    exact evaluate_heads hjoined
  · next y rest hq =>
    have hq' : State.queue { s with queue := s.queue ++ [{ h with state := .queued }] }
        = y :: (rest ++ [{ h with state := .queued }]) := by simp [hq]
    refine ⟨?_, fun j => ?_, fun hb => (hnot hb).elim⟩
    · have := hs.tail
      rw [hq] at this
      rw [hq']
      intro x hx
      obtain hx | hx := List.mem_append.1 hx
      · exact this x hx
      · rw [List.mem_singleton.1 hx]
    · rw [announces_cons hq', ← announces_cons hq]
      exact hs.armed j

theorem loadSegment_heads (r : LoadRecord) {s : State} (hn : s.ss.node = .run) (hs : HeadsRight s) :
    HeadsRight (loadSegment r s).state := by
  unfold loadSegment
  split
  · exact hs
  · split
    · exact hs
    · split
      · exact hs
      · split
        · exact hs
        · exact append_heads _ hn hs

/-- The state after a FLUSH (R77, R78). -/
theorem flushMatching_state (p : Segment → Bool) (s : State) :
    (flushMatching p s).state = if s.queue.any p then
        afterFlush (s.head?.any (flushes p)) ((s.queue.filter (flushes p)).foldl
          (fun s h => doneNotice h.tag .flushed h.kind.flushedSteps s)
          (pruneHeard (flushAnnouncing (s.queue.filter (flushes p)) { s with queue := s.queue.filter fun h => !flushes p h })))
      else s := by
  unfold flushMatching
  cases s.queue.any p <;> rfl

theorem doneNotices_steady (l : List Segment) (s : State) :
    Steady s (l.foldl (fun s h => doneNotice h.tag .flushed h.kind.flushedSteps s) s) :=
  foldl_steady _ l (fun _ _ => produce_steady ..) s

/-- The segments behind the head that a FLUSH removes are QUEUED: none gives its slot back (R102). -/
theorem flushAnnouncing_of_queued {l : List Segment} (h : ∀ x ∈ l, x.state = .queued) (s : State) : flushAnnouncing l s = s := by
  have hnone : l.find? (fun h => h.state == .announcing) = none :=
    List.find?_eq_none.2 fun x hx => by rw [h x hx]; decide
  rw [flushAnnouncing, hnone]

/-- The head that a FLUSH removes, with the slot it was announcing for (R102). -/
theorem flushAnnouncing_heads {s : State} {h : Segment} {rest left : List Segment} (hs : HeadsRight s) (hq : s.queue = h :: rest)
    (hk : h.state.keptByFlush = false) (hsub : left.Sublist rest) (removed : List Segment)
    (hr : ∀ x ∈ removed, x.state = .queued) :
    HeadsRight (flushAnnouncing (h :: removed) { s with queue := left })
      ∧ (flushAnnouncing (h :: removed) { s with queue := left }).calm := by
  have hrest (x : Segment) (hx : x ∈ left) : x.state = .queued := by
    have := hs.tail
    rw [hq] at this
    exact this x (hsub.mem hx)
  have hdone {t : State} (hqt : t.queue = left) (hnt : t.ss.node = s.ss.node)
      (ha : ∀ (j : Fin 8) (g : Group), t.group? j = some g → g.state ≠ .armed) : HeadsRight t ∧ t.calm := by
    have hcalm : t.calm := by
      rw [State.calm, hqt]
      intro x hx
      rw [hrest x (List.mem_of_head? hx)]
      rfl
    refine ⟨.of_calm (fun x hx => hrest x ?_) hcalm ha fun hb => ?_, hcalm⟩
    · rw [hqt] at hx
      exact List.mem_of_mem_tail hx
    · have := (hs.quiet (by rwa [← hnt])).1
      rw [hq] at this
      cases this
  by_cases hann : h.state = .announcing
  · have hfind : (h :: removed).find? (fun h => h.state == .announcing) = some h := by simp [hann]
    unfold flushAnnouncing
    simp only [hfind]
    have harmed (k : Fin 8) := hs.armed k
    simp only [announces_cons hq, hann] at harmed
    cases hslot : h.slot with
    | none =>
      dsimp only
      refine hdone rfl rfl fun j g hg ha => ?_
      have := ((harmed j).1 ⟨g, hg, ha⟩).1
      rw [hslot] at this
      cases this
    | some k =>
      obtain ⟨g, hg, -⟩ := (harmed k).2 ⟨hslot, rfl⟩
      have hg' : State.group? { s with queue := left } k = some g := hg
      simp only [hg']
      exact hdone rfl rfl (hs.none_armed (g' := { g with state := .opened }) hq hslot nofun rfl)
  · have hstay : flushAnnouncing (h :: removed) { s with queue := left } = { s with queue := left } := by
      have hnone : (h :: removed).find? (fun h => h.state == .announcing) = none := by
        refine List.find?_eq_none.2 fun x hx => ?_
        obtain rfl | hx := List.mem_cons.1 hx
        · simpa using hann
        · rw [hr x hx]
          decide
      rw [flushAnnouncing, hnone]
    rw [hstay]
    refine hdone rfl rfl fun j g hg => hs.not_armed ?_ hg
    rw [State.calm, hq]
    rintro x hx
    cases hx
    cases hst : h.state with
    | announcing => exact absurd hst hann
    | announced => rw [hst] at hk; cases hk
    | _ => rfl

theorem afterFlush_heads {s : State} (hs : HeadsRight s) {b : Bool} (hc : b = true → s.calm) : HeadsRight (afterFlush b s) := by
  unfold afterFlush
  split
  · exact (produce_steady ..).heads hs
  · split
    · next hb => exact evaluate_heads ((promote_steady (hc hb)).heads hs)
    · exact hs

theorem flushMatching_heads (p : Segment → Bool) {s : State} (hs : HeadsRight s) : HeadsRight (flushMatching p s).state := by
  rw [flushMatching_state]
  by_cases hany : s.queue.any p
  swap
  · rwa [if_neg hany]
  rw [if_pos hany]
  have htold (removed : List Segment) (t : State) : Steady t (removed.foldl
      (fun s h => doneNotice h.tag .flushed h.kind.flushedSteps s) (pruneHeard t)) :=
    (pb_steady t _).trans (doneNotices_steady _ _)
  cases hq : s.queue with
  | nil => simp [hq] at hany
  | cons h rest =>
    have hhead : s.head?.any (flushes p) = flushes p h := by rw [State.head?, hq]; rfl
    have htail := hs.tail
    rw [hq, List.tail_cons] at htail
    have hremoved (x : Segment) (hx : x ∈ rest.filter (flushes p)) : x.state = .queued := htail x (List.mem_of_mem_filter hx)
    rw [hhead]
    cases hf : flushes p h with
    | true =>
      have hkept : h.state.keptByFlush = false := by
        simp only [flushes, Bool.and_eq_true, Bool.not_eq_true'] at hf
        exact hf.2
      rw [List.filter_cons_of_pos hf, List.filter_cons_of_neg (by simp [hf])]
      obtain ⟨h1, h2⟩ := (htold _ _).calm_heads (flushAnnouncing_heads hs hq hkept List.filter_sublist _ hremoved)
      exact afterFlush_heads h1 fun _ => h2
    | false =>
      rw [List.filter_cons_of_neg (by simp [hf]), List.filter_cons_of_pos (by simp [hf]), flushAnnouncing_of_queued hremoved]
      have hleft : HeadsRight { s with queue := h :: rest.filter fun x => !flushes p x } := by
        refine ⟨fun x hx => htail x (List.mem_of_mem_filter (p := fun x => !flushes p x) hx), fun k => ?_, fun hb => ?_⟩
        · rw [announces_cons (s := { s with queue := h :: rest.filter fun x => !flushes p x }) rfl, ← announces_cons hq]
          exact hs.armed k
        · have := (hs.quiet hb).1
          rw [hq] at this
          cases this
      exact afterFlush_heads ((htold _ _).heads hleft) nofun

theorem stopSegment_heads (mode tag : Byte) {s : State} (hs : HeadsRight s) : HeadsRight (stopSegment mode tag s).state := by
  unfold stopSegment
  split
  · exact hs
  · split
    · exact hs
    · split
      · exact hs
      · split
        · exact hs
        · exact settle_heads ((claim_steady ..).heads hs)

theorem armUnit_steady (u : Fin 4) (src : MarkSource) (cond : MarkCond) (threshold : Int) (period : Nat) (s : State) :
    Steady s (armUnit u src cond threshold period s) := by
  unfold armUnit
  exact .of_same (by simp) (by simp) (by simp)

theorem disarmUnit_steady (u : Fin 4) (s : State) : Steady s (disarmUnit u s) := .of_same rfl rfl rfl

theorem clearGuard_heads {s : State} (hs : HeadsRight s) : HeadsRight (clearGuard s).state := by
  unfold clearGuard
  split
  · exact hs
  · exact hs
  · split
    · exact hs
    · exact evaluate_heads ((gd_steady s _).heads hs)

theorem applySettings_steady (x : Settings) (s : State) : Steady s (applySettings x s) := .of_same rfl rfl rfl

/-- In SETUP a slot is emptied or defined: none is live (R48, R81). -/
theorem define_heads {s : State} (k : Fin 8) {x : Slot} (hx : ∀ g, x ≠ .live g) (hn : s.ss.node = .setup) (hs : HeadsRight s) :
    HeadsRight (s.setSlot k x) := by
  obtain ⟨hq, hg⟩ := hs.quiet (.inr hn)
  have hgroup (j : Fin 8) : (s.setSlot k x).group? j = none := by
    by_cases hj : k = j
    · subst hj
      cases hsx : x with
      | live g => exact absurd hsx (hx g)
      | _ => simp [State.group?, State.setSlot]
    · have hne : (k : Nat) ≠ j := fun he => hj (Fin.ext he)
      have := hg j
      simpa only [State.group?, setSlot_slots, Fin.getElem_fin, Vector.getElem_set_ne _ _ hne] using this
  have hcalm : (s.setSlot k x).calm := calm_of_empty hq
  refine .of_calm (by simp [hq]) hcalm (fun j g hj => ?_) fun _ => ⟨hq, hgroup⟩
  rw [hgroup] at hj
  cases hj

/-- The entry into RUN (R50): the live groups are OPEN, and no segment is queued. -/
theorem enterRun_heads {s : State} (hn : s.ss.node = .setup) (hs : HeadsRight s) : HeadsRight (enterRun s) := by
  obtain ⟨hq, hg⟩ := hs.quiet (.inr hn)
  have hlive (k : Fin 8) (g : Group) (hk : (s.ru.slots.map Slot.commit)[k] = .live g) : g.state ≠ .armed := by
    rw [Fin.getElem_fin, Vector.getElem_map] at hk
    have hnone := hg k
    rw [State.group?, Fin.getElem_fin] at hnone
    cases hslot : s.ru.slots[(k : Nat)] with
    | live g' => rw [hslot] at hnone; cases hnone
    | empty => rw [hslot] at hk; cases hk
    | defined d => rw [hslot] at hk; cases hk; exact nofun
  have hrun {u : State} (hnu : u.ss.node = .run) (hqu : u.queue = []) (hru : u.ru.slots = s.ru.slots.map Slot.commit) :
      HeadsRight u := by
    have hcalm : u.calm := calm_of_empty hqu
    refine .of_calm (by simp [hqu]) hcalm (fun k g hgk => hlive k g ?_) fun hb => ?_
    · rw [← hru]
      exact group_eq_some.1 hgk
    · rw [hnu] at hb
      rcases hb with hb | hb <;> cases hb
  unfold enterRun
  dsimp only
  split
  · exact (guardTake_steady ..).heads (hrun rfl hq rfl)
  · exact hrun rfl hq rfl

theorem commitSetup_heads {s : State} (hn : s.ss.node = .setup) (hs : HeadsRight s) : HeadsRight (commitSetup s).state := by
  unfold commitSetup
  split
  · exact hs
  · split
    · exact hs
    · exact enterRun_heads hn hs

/-! ### The trunk and reset -/

/-- A change of the answer slots alone. -/
theorem fh_steady (s : State) (x : Fh) : Steady s { s with fh := x } := .of_same rfl rfl rfl

theorem noticeTaken_steady (b : Bool) (s : State) : Steady s (noticeTaken b s) :=
  .of_same (by simp [noticeTaken]) (by simp [noticeTaken]) (by simp [noticeTaken])

theorem noticeAbandoned_steady (s : State) : Steady s (noticeAbandoned s) :=
  .of_same (by simp [noticeAbandoned]) (by simp [noticeAbandoned]) (by simp [noticeAbandoned])

theorem noticeWaits_steady (s : State) : Steady s (noticeWaits s) := by
  unfold noticeWaits
  split
  · exact .of_same rfl rfl rfl
  · exact .refl s

theorem releaseHeld_steady (u : Fin 4) (s : State) : Steady s (releaseHeld u s) := .of_same (by simp) (by simp) (by simp)

theorem foldHeld_steady (u : Fin 4) (s : State) : Steady s (foldHeld u s) := .of_same (by simp) (by simp) (by simp)

theorem attemptTaken_steady (s : State) : Steady s (attemptTaken s) := by
  unfold attemptTaken
  split
  · exact tif_steady s _
  · split
    · exact .refl s
    · refine (tif_steady s _).trans (t := dropOnLine s) ?_
      dsimp only
      split
      · exact .refl _
      · split
        · exact .refl _
        · exact releaseHeld_steady _ _
        · exact fh_steady _ _
        · exact noticeTaken_steady _ _

theorem taken_steady (s : State) : Steady s (taken s) := by
  unfold taken
  split
  · exact (tif_steady s _).trans (attemptTaken_steady _)
  · exact tif_steady s _

theorem attemptWaits_steady (s : State) : Steady s (attemptWaits s) := by
  unfold attemptWaits
  split
  · exact tif_steady s _
  · split
    · exact .refl s
    · split
      · exact tif_steady s _
      · refine (tif_steady s { s.tif with queue := s.tif.queue.map fun x => { x with onLine := false } }).trans ?_
        dsimp only
        split
        · exact .refl _
        · exact foldHeld_steady _ _
        · exact .refl _
        · exact noticeWaits_steady _

theorem abandoned_steady (f : TxFrame) (s : State) : Steady s (abandoned f s) := by
  unfold abandoned
  split
  · split
    · exact (localHalt_steady ..).trans (produce_steady ..)
    · exact .refl s
  · exact (produce_steady ..).trans (releaseHeld_steady _ _)
  · exact fh_steady s _
  · exact noticeAbandoned_steady s

theorem attemptVoid_steady (s : State) : Steady s (attemptVoid s) := by
  unfold attemptVoid
  dsimp only
  split
  · split
    · exact .refl s
    · split
      · exact (tif_steady s _).trans (guardTake_steady ..)
      · exact tif_steady s _
  · split
    · exact .refl s
    · split
      · exact tif_steady s _
      · split
        · exact (tif_steady s _).trans (t := dropOnLine s) (abandoned_steady _ _)
        · exact (tif_steady s _).trans (t := countVoid s) (attemptWaits_steady _)

theorem attemptStart_steady (bits : List TrunkBit) (s : State) : ∃ t, execAttemptStart s bits = .next t ∧ Steady s t := by
  refine ⟨_, rfl, ?_⟩
  split
  · refine (tif_steady s _).trans (t := readLine bits s) ?_
    dsimp only
    split
    · split
      · next t ht =>
        refine Steady.trans (t := t) ?_ (tif_steady _ _)
        unfold chooseFrame at ht
        split at ht
        · cases ht
          exact tif_steady _ _
        · split at ht
          · cases ht
            exact tif_steady _ _
          · obtain ⟨q, -, rfl⟩ := Option.map_eq_some_iff.1 ht
            exact tif_steady _ _
      · exact .refl _
    · exact .refl _
  · exact .refl s

/-- The entry into SILENT (R16): the queue and the slots stand, and the Guard acts on them. -/
theorem enterSilent_heads {s : State} (hs : HeadsRight s) : HeadsRight (enterSilent s) := by
  have hsilence : HeadsRight (silence s) := ⟨hs.tail, hs.armed, fun hb => by rcases hb with hb | hb <;> cases hb⟩
  have hlow (u : State) : Steady u (driveDen (stopTimer u)) := .of_same rfl rfl rfl
  unfold enterSilent
  refine Steady.heads (s := silence s) (Steady.trans ?_ (hlow _)) hsilence
  split
  · split
    · exact guardLeave_steady ..
    · exact guardAdd_steady ..
  · exact gd_steady _ _

theorem resetNode_heads (straps : Straps) (c : ResetCause) (s : State) : HeadsRight (resetNode straps c s) := by
  have hgroup (k : Fin 8) : (resetNode straps c s).group? k = none := by
    have hslot : (resetNode straps c s).ru.slots = Vector.replicate 8 .empty := rfl
    simp [State.group?, hslot]
  have hqueue : (resetNode straps c s).queue = [] := rfl
  have hcalm : (resetNode straps c s).calm := calm_of_empty hqueue
  refine .of_calm (by simp [hqueue]) hcalm (fun k g hg => ?_) fun _ => ⟨rfl, hgroup⟩
  rw [hgroup] at hg
  cases hg

/-- The straps sampled anew (R40). -/
theorem sampleStraps_steady (s : State) (x : Straps) : Steady s { s with ss := { s.ss with straps := x } } :=
  .of_same rfl rfl rfl

/-- The end of a reset finds the node HELD, with nothing queued (R43). -/
theorem endReset_heads {s : State} (hn : s.ss.node = .held) (hs : HeadsRight s) : HeadsRight (endReset s) := by
  unfold endReset
  split
  · exact ⟨hs.tail, hs.armed, fun _ => hs.quiet (.inl hn)⟩
  · exact hs

/-! ### Every command -/

theorem takeFrame_heads {i : Instr} {act : State → State} {s : State} (hs : HeadsRight s)
    (h : ∀ u, HeadsRight u → HeadsRight (act u)) : HeadsRight (takeFrame i act s) := by
  unfold takeFrame
  split
  · split
    · exact h _ ((taken_steady s).heads hs)
    · exact hs
  · exact hs

theorem enqueue_steady (f : TxFrame) (s : State) : Steady s (enqueue f s) := .of_same (by simp) (by simp) (by simp)

theorem serve_heads {i : Instr} {st : StationId} {ref : Byte} {kind : BitVec 4} {act : State → Reply} {s : State}
    (hs : HeadsRight s) (h : ∀ u, HeadsRight u → HeadsRight (act u).state) : HeadsRight (serve i st ref kind act s) := by
  refine takeFrame_heads hs fun u hu => ?_
  split
  · exact (enqueue_steady ..).heads (h _ ((fh_steady u _).heads hu))
  · exact hu

theorem runOnly_heads {act : State → Reply} {s : State} (hs : HeadsRight s)
    (h : s.ss.node = .run → HeadsRight (act s).state) : HeadsRight (runOnly act s).state := by
  unfold runOnly
  split
  · next hn => exact h hn
  · exact hs

theorem setupOnly_heads {act : State → Reply} {s : State} (hs : HeadsRight s)
    (h : s.ss.node = .setup → HeadsRight (act s).state) : HeadsRight (setupOnly act s).state := by
  unfold setupOnly
  split
  · next hn => exact h hn
  · exact hs

theorem inRun_heads {act : State → State} {s : State} (hs : HeadsRight s) (h : HeadsRight (act s)) : HeadsRight (inRun act s) := by
  unfold inRun
  split
  · exact h
  · exact hs

theorem onGroup_heads {a : GroupAddr} {act : Fin 8 → State → State} {s : State} (hs : HeadsRight s)
    (h : ∀ k, HeadsRight (act k s)) : HeadsRight (onGroup a act s) := by
  unfold onGroup
  split
  · exact h _
  · exact hs

/-- A command keeps the laws of the head and of the slots: one arm for each row, by the operation that is its meaning. -/
theorem exec_heads {c : Instr} {s t : State} (ht : exec c s = .next t) (hs : HeadsRight s) : HeadsRight t := by
  have hpins (x : Pins) : HeadsRight { s with pins := x } := (pins_steady s x).heads hs
  cases c with
  | nresetAsserted straps =>
    cases ht
    exact (pins_steady _ _).heads (resetNode_heads ..)
  | nresetReleased straps =>
    cases ht
    split
    · next h => exact endReset_heads h.2 ((sampleStraps_steady _ straps).heads (hpins { s.pins with nreset := .high }))
    · exact hs
  | restartTaken source straps =>
    cases ht
    refine takeFrame_heads hs fun u hu => ?_
    split
    · exact endReset_heads rfl (resetNode_heads ..)
    · exact hu
  | joiningIdleReached =>
    cases ht
    split
    · exact (tif_steady s _).heads hs
    · exact hs
  | attemptStart bits =>
    obtain ⟨u, hu, hk⟩ := attemptStart_steady bits s
    cases hu.symm.trans ht
    exact hk.heads hs
  | arbitrationLost =>
    cases ht
    split
    · exact ((tif_steady s _).trans (attemptWaits_steady _)).heads hs
    · exact hs
  | mismatchTestEnd levels =>
    cases ht
    split
    · split
      · exact ((tif_steady s _).trans (attemptVoid_steady _)).heads hs
      · exact enterSilent_heads hs
    · exact hs
  | codingError bits =>
    cases ht
    split
    · exact (tif_steady s _).heads hs
    · exact hs
  | frameVoided bits a b =>
    cases ht
    split
    · split
      · exact hs
      · dsimp only
        split
        · exact hs
        · exact (tif_steady s _).heads hs
    · exact hs
  | attemptVoided how =>
    cases ht
    split
    · exact ((tif_steady s _).trans (attemptVoid_steady _)).heads hs
    · exact hs
  | linkStuck =>
    cases ht
    split
    · exact ((tif_steady s _).trans (guardTake_steady ..)).heads hs
    · exact hs
  | stuckRecovery =>
    cases ht
    split
    · exact ((tif_steady s _).trans (produce_steady ..)).heads hs
    · exact hs
  | frameTakenNoEffect f =>
    cases ht
    split
    · exact takeFrame_heads hs fun u hu => hu
    · exact hs
  | ownAnswerTaken =>
    cases ht
    split
    · exact (taken_steady s).heads hs
    · exact hs
  | ownNoticeTaken =>
    cases ht
    split
    · exact (taken_steady s).heads hs
    · exact hs
  | haltGroupTaken source group cause mode tag =>
    cases ht
    refine takeFrame_heads hs fun u hu => inRun_heads hu (onGroup_heads hu fun k => ?_)
    split
    · exact settle_heads ((haltSlot_steady ..).heads hu)
    · exact hu
  | haltAllTaken source cause mode tag =>
    cases ht
    refine takeFrame_heads hs fun u hu => inRun_heads hu ?_
    split
    · exact ((foldl_steady _ _ (fun v k => haltSlot_steady ..) u).trans
        ((haltUngrouped_steady _ _).trans (guardLatchPeer_steady ..))).heads hu
    · exact hu
  | clearGroupTaken source group n =>
    cases ht
    refine takeFrame_heads hs fun u hu => inRun_heads hu (onGroup_heads hu fun k => ?_)
    have hclear := (clearSlot_steady k n u).heads hu
    dsimp only
    split
    · exact evaluate_heads hclear
    · exact hclear
  | clearAllTaken source n =>
    cases ht
    exact takeFrame_heads hs fun u hu => inRun_heads hu (evaluate_heads
      (((foldl_steady _ _ (fun v k => clearSlot_steady ..) u).trans (guardRemovePeer_steady _)).heads hu))
  | clearStationTaken source reference =>
    cases ht
    exact serve_heads hs fun u hu => runOnly_heads hu fun _ => clearGuard_heads hu
  | readyTaken source group n tag =>
    cases ht
    exact takeFrame_heads hs fun u hu => inRun_heads hu (onGroup_heads hu fun k => takeReady_heads k source n hu)
  | markTaken source unit packed position =>
    cases ht
    refine takeFrame_heads hs fun u hu => inRun_heads hu ?_
    split
    · exact hearMark_heads _ _ hu
    · exact hu
  | load source reference record =>
    cases ht
    exact serve_heads hs fun u hu => runOnly_heads hu fun hn => loadSegment_heads record hn hu
  | flushAll source reference value =>
    cases ht
    refine serve_heads hs fun u hu => runOnly_heads hu fun _ => ?_
    split
    · exact flushMatching_heads _ hu
    · exact hu
  | flushTag source reference value =>
    cases ht
    refine serve_heads hs fun u hu => runOnly_heads hu fun _ => ?_
    split
    · exact hu
    · exact flushMatching_heads _ hu
  | flushSlot source reference value =>
    cases ht
    refine serve_heads hs fun u hu => runOnly_heads hu fun _ => ?_
    split
    · exact hu
    · exact flushMatching_heads _ hu
  | stop source reference mode tag =>
    cases ht
    exact serve_heads hs fun u hu => runOnly_heads hu fun _ => stopSegment_heads mode tag hu
  | marksetArm source reference unit sc threshold period =>
    cases ht
    refine serve_heads hs fun u hu => runOnly_heads hu fun _ => ?_
    split
    · exact hu
    · split
      · exact hu
      · split
        · exact hu
        · exact (armUnit_steady ..).heads hu
  | marksetDisarm source reference unit unused =>
    cases ht
    refine serve_heads hs fun u hu => runOnly_heads hu fun _ => ?_
    split
    · exact hu
    · exact (disarmUnit_steady _ u).heads hu
  | queryStatus source reference item qi =>
    cases ht
    refine serve_heads hs fun u hu => ?_
    dsimp only
    split <;> exact (pins_steady u _).heads hu
  | queryPosition source reference item =>
    cases ht
    refine serve_heads hs fun u hu => ?_
    split <;> exact hu
  | queryQueue source reference item =>
    cases ht
    refine serve_heads hs fun u hu => ?_
    split <;> exact hu
  | queryGroup source reference item =>
    cases ht
    refine serve_heads hs fun u hu => ?_
    split <;> exact hu
  | queryMarks source reference item =>
    cases ht
    refine serve_heads hs fun u hu => ?_
    split
    · exact hu
    · split <;> exact hu
  | querySetup source reference item =>
    cases ht
    refine serve_heads hs fun u hu => ?_
    split <;> exact hu
  | setup source reference fields =>
    cases ht
    refine serve_heads hs fun u hu => setupOnly_heads hu fun _ => ?_
    split
    · exact hu
    · exact (applySettings_steady _ u).heads hu
  | define source reference slot address roster =>
    cases ht
    refine serve_heads hs fun u hu => setupOnly_heads hu fun hn => ?_
    split
    · exact hu
    · split
      · exact hu
      · exact define_heads _ nofun hn hu
      · exact define_heads _ nofun hn hu
  | commit source reference =>
    cases ht
    exact serve_heads hs fun u hu => setupOnly_heads hu fun hn => commitSetup_heads hn hu
  | rendezvousTimeout =>
    cases ht
    split
    · split
      · exact (localHalt_steady ..).heads hs
      · exact hs
    · exact hs
  | intervalEnd => exact intervalEnd_heads hs t ht
  | pulseHighEnd =>
    cases ht
    exact (lowerPulse_steady s).heads hs
  | dwellEnd =>
    cases ht
    split
    · exact settleIdle_heads ((pg_steady s _).heads hs)
    · exact hs
  | driveFaultChange level =>
    cases ht
    split
    · exact hs
    · dsimp only
      split
      · exact (guardTake_steady ..).heads (hpins _)
      · exact hpins _
  | limitInputChange input level =>
    cases input <;> cases ht <;> exact hpins _
  | refChange level =>
    cases ht
    split
    · exact hs
    · dsimp only
      split
      · next hseek _ =>
        split
        · exact hpins _
        · split
          · exact (pg_steady _ _).heads (hpins _)
          · split
            · exact referenceEdge_heads _ _ _ (hpins _) (calm_of_runningSeek hseek)
            · exact hpins _
      · exact hpins _
  | qiRise =>
    cases ht
    dsimp only
    split
    · next hseek _ =>
      split
      · split
        · exact applyPreset_heads ((pg_steady _ _).heads (hpins _)) (calm_of_runningSeek hseek)
        · exact (pg_steady _ _).heads (hpins _)
      · exact hpins _
    · exact hpins _
  | quadratureTransition qa qb =>
    cases ht
    have hdecoder : HeadsRight (s.decoded (quadOf qa qb)) := (pb_steady s _).heads hs
    dsimp only
    split
    · exact (guardTake_steady ..).heads hdecoder
    · exact (stepFeedback_steady ..).heads hdecoder
  | mismatch =>
    cases ht
    split
    · exact (tif_steady s _).heads hs
    · exact hs
  | breakEnd =>
    cases ht
    split
    · exact hs
    · exact (tif_steady s _).heads hs

theorem tick_steady (s : State) : Steady s (tick s) := .of_same rfl rfl rfl

/-- One step keeps the laws of the head and of the slots. -/
theorem step_heads {s t : State} (h : step s = .next t) (hs : HeadsRight s) : HeadsRight t := by
  unfold step at h
  split at h
  · cases h
    exact (tick_steady s).heads hs
  · next rest _ =>
    have hrest : Steady s { s with pending := rest } := .of_same rfl rfl rfl
    exact exec_heads h (hrest.heads hs)

/-- Settles O59: the three laws together are one invariant, for a slot is ARMED and opened with the head that announces for it. -/
theorem stepKeepsTheHeadAndTheGroups : Obligations.StepKeepsTheHeadAndTheGroups := by
  intro s t h1 h2 h3 h
  exact (headsRight_iff t).1 (step_heads h ((headsRight_iff s).2 ⟨h1, h2, h3⟩))

end Sys2Proof.Machine
end

