-- ==== Sys2Proof/Proofs/TxQueueLaws.lean ====
section
/-! PROOFS. The transmit queue and the line (R3 to R5, R8, R21, R24, R144, R170, R171): what every step keeps of them. -/

namespace Sys2Proof.Machine

/-! ### The laws, with a number of frames on the line -/

/-- The laws of the transmit queue (R21, R24, R144), with `n` of the node's frames on the line. -/
structure TxRight (n : Nat) (s : State) : Prop where
  limits : s.limitsKept
  line : s.framesOnLine = n
  withdrawn : ∀ e ∈ s.tif.queue, e.withdrawn = true → e.onLine = true ∧ e.frame.isReady = true
  held : ∀ u : Fin 4, (s.pb.units[u]).held ≠ none → ∃ e ∈ s.tif.queue, e.frame.isMark u = true ∧ e.onLine = true

/-- The limits look at the frames of the transmit queue alone. -/
theorem alike_eq_countP (s : State) (f : TxFrame) : s.alike f = (s.tif.queue.map TxEntry.frame).countP (sameLimit f) := by
  rw [List.countP_map]
  rfl

theorem limitsKept_of_sublist {s t : State} (h : (t.tif.queue.map TxEntry.frame).Sublist (s.tif.queue.map TxEntry.frame))
    (hs : s.limitsKept) : t.limitsKept := fun f => by
  have hf := hs f
  rw [alike_eq_countP] at hf ⊢
  exact (h.countP_le).trans hf

theorem mem_of_markEntry {s : State} {u : Fin 4} {e : TxEntry} (h : s.markEntry? u = some e) :
    e ∈ s.tif.queue ∧ e.frame.isMark u = true :=
  ⟨List.mem_of_find?_eq_some h, List.find?_some (p := fun e : TxEntry => e.frame.isMark u) h⟩

/-- The MARK of a unit is found exactly if there is one, for there is no other (R21). -/
theorem heldRight_iff {s : State} (hl : s.limitsKept) : s.heldRight = true ↔ ∀ u : Fin 4, (s.pb.units[u]).held ≠ none →
    ∃ e ∈ s.tif.queue, e.frame.isMark u = true ∧ e.onLine = true := by
  have hfound (u : Fin 4) : (s.markEntry? u).any (fun e => e.onLine) = true
      ↔ ∃ e ∈ s.tif.queue, e.frame.isMark u = true ∧ e.onLine = true := by
    constructor
    · intro h
      obtain ⟨e, he, hon⟩ := (Option.any_eq_true ..).1 h
      obtain ⟨hmem, hm⟩ := mem_of_markEntry he
      exact ⟨e, hmem, hm, hon⟩
    · rintro ⟨e, he, hm, hon⟩
      obtain ⟨pre, post, hq⟩ := List.append_of_mem he
      obtain ⟨f, hf⟩ : ∃ f, e.frame = .mark u f := by
        cases hfr : e.frame with
        | mark v f =>
          rw [hfr] at hm
          exact ⟨f, by rw [beq_iff_eq.1 hm]⟩
        | _ => rw [hfr] at hm; cases hm
      rw [markEntry_eq_some hq hf hl]
      exact hon
  have hmem (u : Fin 4) : u ∈ allUnits := by
    revert u
    decide
  simp only [State.heldRight, List.all_eq_true, Bool.or_eq_true, Option.isNone_iff_eq_none, hfound]
  exact ⟨fun h u hu => (h u (hmem u)).resolve_left hu, fun h u _ => Decidable.or_iff_not_imp_left.2 (h u)⟩

theorem withdrawnRight_iff (s : State) : s.withdrawnRight = true ↔
    ∀ e ∈ s.tif.queue, e.withdrawn = true → e.onLine = true ∧ e.frame.isReady = true := by
  simp only [State.withdrawnRight, List.all_eq_true, Bool.or_eq_true, Bool.not_eq_true', Bool.and_eq_true]
  exact forall₂_congr fun e _ => by cases e.withdrawn <;> simp

theorem txRight_iff (n : Nat) (s : State) : TxRight n s ↔
    s.limitsKept ∧ s.framesOnLine = n ∧ s.withdrawnRight = true ∧ s.heldRight = true :=
  ⟨fun ⟨h1, h2, h3, h4⟩ => ⟨h1, h2, (withdrawnRight_iff s).2 h3, (heldRight_iff h1).2 h4⟩,
    fun ⟨h1, h2, h3, h4⟩ => ⟨h1, h2, (withdrawnRight_iff s).1 h3, (heldRight_iff h1).1 h4⟩⟩

/-- What the laws of the answer slots and of the receiver look at, but for the node state. -/
structure LineView where
  link : Link
  fh : Fh
  answers : List TxEntry
  breakLeft : Nat
  reception : Reception
  idleCount : Nat

def State.lineView (s : State) : LineView :=
  ⟨s.tif.link, s.fh, s.answers, s.tif.breakLeft, s.tif.reception, s.tif.idleCount⟩

/-- A change that keeps the laws of the transmit queue with `n` frames on the line, and what the other laws look at. -/
structure Sends (n : Nat) (s t : State) : Prop where
  right : TxRight n s → TxRight n t
  view : t.lineView = s.lineView
  held : t.ss.node = .held ↔ s.ss.node = .held

theorem Sends.refl (n : Nat) (s : State) : Sends n s s := ⟨id, rfl, Iff.rfl⟩

theorem Sends.trans {n : Nat} {s t u : State} (h : Sends n s t) (h' : Sends n t u) : Sends n s u :=
  ⟨h'.right ∘ h.right, h'.view.trans h.view, h'.held.trans h.held⟩

theorem Sends.of_outside {n : Nat} {s t : State} (ho : t.outside = s.outside) (h : TxRight n s → TxRight n t) : Sends n s t where
  right := h
  view := by
    have hview (u : State) : u.lineView = ⟨u.outside.link, u.outside.fh, u.outside.answers, u.outside.breakLeft,
      u.outside.reception, u.outside.counts.1⟩ := rfl
    rw [hview, hview, ho]
  held := by
    have hnode : t.ss.node = s.ss.node := congrArg (fun o => o.ss.node) ho
    rw [hnode]

/-- The laws look at the transmit queue, the halt-owed set and the held firings alone. -/
theorem TxRight.of_same {n : Nat} {s t : State} (hq : t.tif.queue = s.tif.queue) (ho : t.tif.owed = s.tif.owed)
    (hu : ∀ u : Fin 4, (t.pb.units[u]).held = (s.pb.units[u]).held) (h : TxRight n s) : TxRight n t where
  limits := limitsKept_of_sublist (by rw [hq]) h.limits
  line := by
    have hl := h.line
    rwa [State.framesOnLine, ← hq, ← ho] at hl
  withdrawn := by rw [hq]; exact h.withdrawn
  held u := by rw [hq, hu]; exact h.held u

/-- A change of the Notice Backlog alone. -/
theorem nb_txRight {n : Nat} {s : State} (x : Nb) (h : TxRight n s) : TxRight n { s with nb := x } :=
  TxRight.of_same (s := s) rfl rfl (fun _ => rfl) h

/-- A change that leaves the Trunk Interface and the mark units alone. -/
theorem Sends.of_same {n : Nat} {s t : State} (ho : t.outside = s.outside) (ht : t.tif = s.tif) (hu : t.pb.units = s.pb.units) :
    Sends n s t :=
  .of_outside ho (TxRight.of_same (by rw [ht]) (by rw [ht]) fun u => by rw [hu])

/-! ### Frames that wait -/

/-- Frames that count against the same limit have the same limit, and others count against it with both (R21). -/
theorem sameLimit_congr {f f' : TxFrame} (h : sameLimit f f' = true) (x : TxFrame) :
    sameLimit f x = sameLimit f' x ∧ txLimit f = txLimit f' := by
  cases f <;> cases f' <;> simp only [sameLimit, Bool.false_eq_true, beq_iff_eq] at h
  case mark.mark u _ v _ =>
    subst h
    cases x <;> exact ⟨rfl, rfl⟩
  all_goals cases x <;> exact ⟨rfl, rfl⟩

/-- Admission within the limits (R21). -/
theorem enqueue_txRight {n : Nat} {s : State} (f : TxFrame) (h : TxRight n s) : TxRight n (enqueue f s) := by
  unfold enqueue
  split
  · next hroom =>
    refine ⟨fun f' => ?_, ?_, fun e he => ?_, fun u hu => ?_⟩
    · show List.countP _ (s.tif.queue ++ [_]) ≤ _
      rw [List.countP_append, List.countP_singleton]
      cases hf : sameLimit f' f with
      | false => simpa [State.alike] using h.limits f'
      | true =>
        obtain ⟨-, hlimit⟩ := sameLimit_congr hf f
        have hsame : (fun e : TxEntry => sameLimit f' e.frame) = fun e => sameLimit f e.frame :=
          funext fun e => (sameLimit_congr hf e.frame).1
        rw [hsame, hlimit, if_pos rfl]
        exact hroom
    · have hl := h.line
      rw [State.framesOnLine] at hl ⊢
      rw [List.countP_append, List.countP_singleton]
      exact hl
    · obtain he | he := List.mem_append.1 he
      · exact h.withdrawn e he
      · rw [List.mem_singleton.1 he]
        intro hw
        cases hw
    · obtain ⟨e, he, hm⟩ := h.held u hu
      exact ⟨e, List.mem_append_left _ he, hm⟩
  · exact h

theorem enqueue_sends {n : Nat} {f : TxFrame} (h : f.isAnswer = false) (s : State) : Sends n s (enqueue f s) :=
  .of_outside (enqueue_outside h s) (enqueue_txRight f)

/-- Withdrawal of the READY (R24): off the line it is removed, on the line the withdrawal is recorded. -/
theorem withdrawReady_txRight {n : Nat} {s : State} (h : TxRight n s) : TxRight n (withdrawReady s) := by
  have hmem {e : TxEntry} : e ∈ (withdrawReady s).tif.queue ↔
      (e ∈ s.tif.queue ∧ e.frame.isReady = false)
        ∨ ∃ x ∈ s.tif.queue, x.frame.isReady = true ∧ x.onLine = true ∧ e = { x with withdrawn := true } := by
    simp only [withdrawReady, withdraw, List.mem_filterMap]
    constructor
    · rintro ⟨x, hx, he⟩
      split at he
      · next hr =>
        split at he
        · next hon => exact .inr ⟨x, hx, hr, hon, (Option.some_inj.1 he).symm⟩
        · cases he
      · next hr =>
        cases he
        exact .inl ⟨hx, by simpa using hr⟩
    · rintro (⟨he, hr⟩ | ⟨x, hx, hr, hon, rfl⟩)
      · exact ⟨e, he, by simp [hr]⟩
      · exact ⟨x, hx, by simp [hr, hon]⟩
  refine ⟨limitsKept_of_sublist ?_ h.limits, ?_, fun e he hw => ?_, fun u hu => ?_⟩
  · simp only [withdrawReady, withdraw]
    induction s.tif.queue with
    | nil => exact .refl _
    | cons e q ih =>
      rw [List.filterMap_cons]
      cases e.frame.isReady <;> cases e.onLine <;> simp [ih]
  · have hl := h.line
    rw [State.framesOnLine] at hl ⊢
    rw [← hl, withdrawReady_owed]
    congr 1
    simp only [withdrawReady, withdraw]
    induction s.tif.queue with
    | nil => rfl
    | cons e q ih =>
      rw [List.filterMap_cons, List.countP_cons]
      cases hr : e.frame.isReady <;> cases hon : e.onLine <;> simp [hon, ih]
  · obtain ⟨he, hr⟩ | ⟨x, hx, hr, hon, rfl⟩ := hmem.1 he
    · exact h.withdrawn e he hw
    · exact ⟨hon, hr⟩
  · obtain ⟨e, he, hm, hon⟩ := h.held u hu
    refine ⟨e, hmem.2 (.inl ⟨he, ?_⟩), hm, hon⟩
    cases hf : e.frame with
    | ready k g m tag => rw [hf] at hm; cases hm
    | _ => rfl

theorem withdrawReady_sends {n : Nat} (s : State) : Sends n s (withdrawReady s) :=
  .of_outside (by simp) withdrawReady_txRight

/-- A change in place of frames that wait, each within its own limit (R22). -/
theorem changeWaiting_txRight {n : Nat} {s : State} (p : TxFrame → Bool) {g : TxFrame → TxFrame}
    (hg : ∀ f x, sameLimit f (g x) = sameLimit f x) (h : TxRight n s) : TxRight n (changeWaiting p g s) := by
  refine ⟨fun f => ?_, ?_, fun e he hw => ?_, fun u hu => ?_⟩
  · have hf := h.limits f
    rw [State.alike] at hf ⊢
    rw [changeWaiting, List.countP_map]
    refine le_of_eq_of_le (List.countP_congr fun e _ => ?_) hf
    dsimp only [Function.comp]
    split
    · rw [hg]
    · rfl
  · have hl := h.line
    rw [State.framesOnLine] at hl ⊢
    rw [← hl, changeWaiting, List.countP_map]
    congr 1
    refine List.countP_congr fun e _ => ?_
    dsimp only [Function.comp]
    split <;> rfl
  · obtain ⟨x, hx, rfl⟩ := List.mem_map.1 he
    split at hw
    · next hp =>
      have := (h.withdrawn x hx hw).1
      simp [this] at hp
    · next hp =>
      rw [if_neg hp]
      exact h.withdrawn x hx hw
  · obtain ⟨e, he, hm, hon⟩ := h.held u hu
    exact ⟨e, List.mem_map.2 ⟨e, he, if_neg (by simp [hon])⟩, hm, hon⟩

theorem sameLimit_mapFirings (g : Firings → Firings) (f x : TxFrame) : sameLimit f (x.mapFirings g) = sameLimit f x := by
  cases f <;> cases x <;> rfl

theorem sameLimit_markOverflow (f x : TxFrame) : sameLimit f x.markOverflow = sameLimit f x := by
  cases f <;> cases x <;> rfl

/-! ### Notices and MARKs -/

theorem composeNotice_sends {n : Nat} (s : State) : Sends n s (composeNotice s) := by
  refine .of_outside (by simp) fun h => ?_
  unfold composeNotice
  split
  · exact h
  · split
    · exact h
    · split
      · exact nb_txRight _ h
      · exact enqueue_txRight _ (nb_txRight _ h)

theorem discardNotice_sends {n : Nat} (s : State) : Sends n s (discardNotice s) := by
  refine .of_outside (by simp) fun h => ?_
  unfold discardNotice
  dsimp only
  split
  · exact nb_txRight _ h
  · exact changeWaiting_txRight _ sameLimit_markOverflow (nb_txRight _ h)

theorem produce_sends {n : Nat} (x : NoticeType) (c : List Byte) (s : State) : Sends n s (produce x c s) := by
  unfold produce
  split
  · exact .refl n s
  · split
    · exact Sends.trans (t := { s with nb := { s.nb with list := s.nb.list ++ [{ type := x, contents := c }] } })
        (.of_same rfl rfl rfl) (composeNotice_sends _)
    · exact discardNotice_sends s

/-- A unit's record changes, with no firings newly held. -/
theorem setUnit_txRight {n : Nat} {s : State} (u : Fin 4) (x : MarkUnit) (hx : x.held ≠ none → (s.pb.units[u]).held ≠ none)
    (h : TxRight n s) : TxRight n (s.setUnit u x) := by
  refine ⟨h.limits, h.line, h.withdrawn, fun v hv => h.held v ?_⟩
  by_cases hvu : u = v
  · subst hvu
    exact hx (by simpa [State.setUnit] using hv)
  · have hne : (u : Nat) ≠ v := fun he => hvu (Fin.ext he)
    simpa [State.setUnit, Vector.getElem_set_ne _ _ hne] using hv

theorem handFirings_sends {n : Nat} (u : Fin 4) (k : Nat) (x : Int) (s : State) : Sends n s (handFirings u k x s) := by
  refine .of_outside (by simp) fun h => ?_
  unfold handFirings
  split
  · exact h
  · split
    · exact enqueue_txRight _ h
    · next e he =>
      split
      · next hon =>
        refine ⟨h.limits, h.line, h.withdrawn, fun v hv => ?_⟩
        by_cases hvu : u = v
        · subst hvu
          obtain ⟨hmem, hm⟩ := mem_of_markEntry he
          exact ⟨e, hmem, hm, hon⟩
        · have hne : (u : Nat) ≠ v := fun he => hvu (Fin.ext he)
          exact h.held v (by simpa [State.setUnit, Vector.getElem_set_ne _ _ hne] using hv)
      · exact changeWaiting_txRight _ (sameLimit_mapFirings _) h

theorem judge_held (x : MarkUnit) (e : CounterEvent) (n : Int) : (x.judge e n).2.held = x.held := by
  unfold MarkUnit.judge
  split
  · rfl
  · split
    · rfl
    · dsimp only
      split <;> rfl

theorem evalUnit_sends {n : Nat} (src : MarkSource) (e : CounterEvent) (x : Int) (s : State) (u : Fin 4) :
    Sends n s (evalUnit src e x s u) := by
  unfold evalUnit
  dsimp only
  split
  · exact .refl n s
  · exact Sends.trans (.of_outside (by simp) (setUnit_txRight u _ (by rw [judge_held]; exact id))) (handFirings_sends ..)

theorem evalMarks_sends {n : Nat} (src : MarkSource) (e : CounterEvent) (x : Int) (s : State) : Sends n s (evalMarks src e x s) := by
  unfold evalMarks
  induction allUnits generalizing s with
  | nil => exact .refl n s
  | cons u us ih => exact (evalUnit_sends src e x s u).trans (ih _)

/-! ### The head -/

/-- A change of the generator alone. -/
theorem pg_sends {n : Nat} (s : State) (x : Pg) : Sends n s { s with pg := x } := .of_same rfl rfl rfl

/-- A change of the segments alone. -/
theorem queue_sends {n : Nat} (s : State) (x : List Segment) : Sends n s { s with queue := x } := .of_same rfl rfl rfl

/-- A change of the groups alone. -/
theorem ru_sends {n : Nat} (s : State) (x : Ru) : Sends n s { s with ru := x } := .of_same rfl rfl rfl

/-- A change of the Guard alone. -/
theorem gd_sends {n : Nat} (s : State) (x : Gd) : Sends n s { s with gd := x } := .of_same rfl rfl rfl

/-- A change of the heard-mark list alone. -/
theorem heard_sends {n : Nat} (s : State) (x : List Heard) : Sends n s { s with pb := { s.pb with heard := x } } :=
  .of_same rfl rfl rfl

theorem setHeadState_sends {n : Nat} (x : SegState) (s : State) : Sends n s (setHeadState x s) :=
  .of_same (by simp) (by simp) (by simp)

theorem claim_sends {n : Nat} (o : SegOutcome) (m : Mode) (s : State) : Sends n s (claim o m s) :=
  .of_same (by simp) (by simp) (by simp)

theorem lookEndMark_units (s : State) : (lookEndMark s).pb.units = s.pb.units := by
  unfold lookEndMark
  split
  · rfl
  · split
    · split
      · simp [consume]
      · rfl
    · rfl

theorem lookEndMark_sends {n : Nat} (s : State) : Sends n s (lookEndMark s) :=
  .of_same (by simp) (by simp) (lookEndMark_units s)

theorem startHead_sends {n : Nat} (s : State) : Sends n s (startHead s) := by
  refine .of_same (by simp) (by simp) ?_
  unfold startHead
  split
  · rfl
  · simp [lookEndMark_units, pruneHeard]

theorem announce_sends {n : Nat} (k : Fin 8) (g : Group) (tag : Byte) (s : State) : Sends n s (announce k g tag s) := by
  have henqueued : Sends n s (enqueue (.ready k g.address g.sequence tag) s) := enqueue_sends rfl s
  exact henqueued.trans ((ru_sends _ _).trans ((ru_sends _ _).trans (setHeadState_sends _ _)))

theorem evalHead_sends {n : Nat} (s : State) : Sends n s (evalHead s) := by
  unfold evalHead
  split
  · exact .refl n s
  · split
    · exact .refl n s
    · split
      · exact startHead_sends s
      · split
        · exact (heard_sends s _).trans (startHead_sends _)
        · exact .refl n s
      · split
        · exact .refl n s
        · split
          · split
            · exact announce_sends ..
            · exact .refl n s
          · exact .refl n s

theorem afterRemoval_sends {n : Nat} (tag : Byte) (o : SegOutcome) (left : Nat) (s : State) :
    Sends n s (afterRemoval tag o left s) := by
  have htold : Sends n s (doneNotice tag o left (pruneHeard s)) := (heard_sends s _).trans (produce_sends ..)
  unfold afterRemoval
  refine htold.trans ?_
  dsimp only
  split
  · exact produce_sends ..
  · exact queue_sends ..

theorem guardStops_sends {n : Nat} (s : State) : Sends n s (guardStops s) := .of_same (by simp) (by simp) (by simp)

theorem finishHead_sends {n : Nat} (o : SegOutcome) (s : State) : Sends n s (finishHead o s) := by
  unfold finishHead
  split
  · exact .refl n s
  · exact (queue_sends s _).trans ((guardStops_sends _).trans (afterRemoval_sends ..))

theorem finishIfOver_sends {n : Nat} (s : State) : Sends n s (finishIfOver s) := by
  unfold finishIfOver
  split
  · exact finishHead_sends ..
  · exact .refl n s

theorem settleFrom_sends {n : Nat} (k : Nat) (s : State) : Sends n s (settleFrom k s) := by
  induction k generalizing s with
  | zero => exact .refl n s
  | succ k ih =>
    unfold settleFrom
    split
    · exact ((finishHead_sends ..).trans (evalHead_sends _)).trans (ih _)
    · exact .refl n s

theorem settle_sends {n : Nat} (s : State) : Sends n s (settle s) := settleFrom_sends _ s

theorem evaluate_sends {n : Nat} (s : State) : Sends n s (evaluate s) := (evalHead_sends s).trans (settle_sends _)

/-! ### Halts and the Guard -/

theorem countP_toList_set {α : Type} {m : Nat} (p : α → Bool) (v : Vector α m) (k : Fin m) (x : α)
    (h : p x = p v[k]) : (v.set k x).toList.countP p = v.toList.countP p := by
  have hk : (k : Nat) < v.toList.length := by simp
  rw [Vector.toList_set, List.countP_set hk]
  have hget : v.toList[(k : Nat)] = v[k] := by simp
  rw [hget, h]
  have hcounted : (if p v[k] = true then 1 else 0) ≤ v.toList.countP p := by
    by_cases hp : p v[k] = true
    · rw [if_pos hp]
      exact List.countP_pos_iff.2 ⟨_, List.getElem_mem hk, by rw [hget]; exact hp⟩
    · rw [if_neg hp]
      exact Nat.zero_le _
  omega

/-- An owed HALT joins off the line (R25). -/
theorem oweHalt_sends {n : Nat} (k : Fin 8) (c : Cause) (m : Mode) (tag : Byte) (s : State) : Sends n s (oweHalt k c m tag s) := by
  refine .of_outside (by simp) fun h => ?_
  unfold oweHalt
  split
  · exact h
  · next hno =>
    have hnone : s.tif.owed[k] = none := by simpa using (not_or.1 hno).2
    refine ⟨h.limits, ?_, h.withdrawn, h.held⟩
    have hl := h.line
    rw [State.framesOnLine] at hl ⊢
    rw [countP_toList_set _ _ _ _ (by rw [hnone]; rfl)]
    exact hl

theorem returnHead_sends {n : Nat} (k : Fin 8) (s : State) : Sends n s (returnHead k s) := by
  unfold returnHead
  split
  · split
    · exact (setHeadState_sends _ s).trans (withdrawReady_sends _)
    · exact .refl n s
  · exact .refl n s

theorem haltSlot_sends {n : Nat} (k : Fin 8) (c : Cause) (o : StationId) (m : Mode) (b : Bool) (s : State) :
    Sends n s (haltSlot k c o m b s) := by
  cases hg : s.group? k with
  | none =>
    simp only [haltSlot, hg]
    exact .refl n s
  | some g =>
    by_cases hh : s.slotHalted k = true
    · obtain ⟨c', o', hstate⟩ : ∃ c' o', g.state = .halted c' o' := by
        cases hx : g.state with
        | halted c' o' => exact ⟨c', o', rfl⟩
        | _ => simp [State.slotHalted, hg, hx] at hh
      simp only [haltSlot, hg, hstate]
      split
      · exact claim_sends ..
      · exact .refl n s
    · rw [haltSlot_of_not_halted hg (by simpa using hh)]
      have htold : Sends n s (haltNotice k g.address c o { s with ru := s.ru.halting k g c o }) :=
        (ru_sends s _).trans (produce_sends ..)
      refine htold.trans ?_
      obtain heq | heq := haltHead_eq k m b (haltNotice k g.address c o { s with ru := s.ru.halting k g c o }) <;> rw [heq]
      · exact returnHead_sends ..
      · exact (returnHead_sends ..).trans (claim_sends ..)

theorem localHalt_sends {n : Nat} (k : Fin 8) (c : Cause) (m : Mode) (b : Bool) (s : State) : Sends n s (localHalt k c m b s) :=
  (oweHalt_sends ..).trans (haltSlot_sends ..)

theorem guardHaltsGroup_sends {n : Nat} (c : Cause) (m : Mode) (s : State) : Sends n s (guardHaltsGroup c m s) := by
  unfold guardHaltsGroup
  split
  · split
    · split
      · exact localHalt_sends ..
      · exact .refl n s
    · exact .refl n s
  · exact .refl n s

theorem hastenEnding_sends {n : Nat} (s : State) : Sends n s (hastenEnding s) := .of_same (by simp) (by simp) (by simp)

theorem haltUngrouped_sends {n : Nat} (m : Mode) (s : State) : Sends n s (haltUngrouped m s) := by
  unfold haltUngrouped
  split
  · split
    · exact claim_sends ..
    · exact .refl n s
  · exact .refl n s

theorem guardLeave_sends {n : Nat} (c : Cause) (m : Mode) (s : State) : Sends n s (guardLeave c m s) :=
  (gd_sends s _).trans ((guardHaltsGroup_sends c m _).trans ((produce_sends ..).trans
    ((claim_sends ..).trans (finishIfOver_sends _))))

theorem guardAdd_sends {n : Nat} (c : Cause) (m : Mode) (s : State) : Sends n s (guardAdd c m s) := by
  unfold guardAdd
  dsimp only
  refine Sends.trans ?_ (finishIfOver_sends _)
  split
  · exact (gd_sends s _).trans (hastenEnding_sends _)
  · exact gd_sends s _

theorem guardTake_sends {n : Nat} (c : Cause) (m : Mode) (s : State) : Sends n s (guardTake c m s) := by
  unfold guardTake
  split
  · exact .refl n s
  · exact gd_sends s _
  · exact gd_sends s _
  · split
    · exact guardLeave_sends c m s
    · exact guardAdd_sends c m s

theorem foldl_sends {n : Nat} {α : Type} (f : State → α → State) (l : List α) (h : ∀ s a, Sends n s (f s a)) (s : State) :
    Sends n s (l.foldl f s) := by
  induction l generalizing s with
  | nil => exact .refl n s
  | cons a l ih => exact (h s a).trans (ih _)

theorem guardTakeAll_sends {n : Nat} (cs : List (Cause × Mode)) (s : State) : Sends n s (guardTakeAll cs s) :=
  foldl_sends _ cs (fun u c => guardTake_sends c.1 c.2 u) s

theorem guardLatchPeer_sends {n : Nat} (o : StationId) (m : Mode) (s : State) : Sends n s (guardLatchPeer o m s) := by
  unfold guardLatchPeer
  split
  · exact guardTake_sends ..
  · exact (gd_sends s _).trans (guardTake_sends ..)

theorem guardRemovePeer_sends {n : Nat} (s : State) : Sends n s (guardRemovePeer s) := by
  unfold guardRemovePeer
  split
  · dsimp only
    split <;> exact gd_sends s _
  · exact .refl n s

/-- While the node is not SENDING, an owed HALT that is dropped is not on the line. -/
theorem dropOwed_sends (k : Fin 8) (s : State) : Sends 0 s { s with tif := { s.tif with owed := s.tif.owed.set k none } } := by
  refine .of_outside rfl fun h => ⟨h.limits, ?_, h.withdrawn, h.held⟩
  have hl := h.line
  rw [State.framesOnLine] at hl ⊢
  obtain ⟨-, ho⟩ := Nat.add_eq_zero_iff.1 hl
  rw [countP_toList_set _ _ _ _ ?_]
  · exact hl
  · rw [List.countP_eq_zero] at ho
    simpa using ho s.tif.owed[k] (by simp)

/-- A CLEAR of a slot drops its owed HALT (R99), which is not on the line while the node is not SENDING. -/
theorem clearSlot_sends (k : Fin 8) (x : Byte) (s : State) : Sends 0 s (clearSlot k x s) := by
  unfold clearSlot
  split
  · exact .refl 0 s
  · dsimp only
    refine Sends.trans ?_ (returnHead_sends k _)
    refine Sends.trans ?_ (dropOwed_sends k _)
    refine Sends.trans ?_ (ru_sends _ _)
    split
    · exact ru_sends s _
    · exact .refl 0 s

/-! ### Counters and the axis -/

/-- A change of the counters alone. -/
theorem counters_sends {n : Nat} (s : State) (c f : Int) :
    Sends n s { s with pb := { s.pb with command := c, feedback := f } } :=
  ⟨TxRight.of_same rfl rfl fun _ => rfl, rfl, Iff.rfl⟩

theorem followTest_sends {n : Nat} (before : Int) (s : State) : Sends n s (followTest before s) := by
  unfold followTest
  split
  · exact guardTake_sends ..
  · exact .refl n s

theorem stepCommand_sends {n : Nat} (d : Dir) (s : State) : Sends n s (stepCommand d s) :=
  (counters_sends s (s.pb.command + d.step) s.pb.feedback).trans ((followTest_sends ..).trans (evalMarks_sends ..))

theorem stepFeedback_sends {n : Nat} (c : Int) (s : State) : Sends n s (stepFeedback c s) := by
  unfold stepFeedback
  dsimp only
  split
  · exact .refl n s
  · split
    · exact guardTake_sends ..
    · exact (counters_sends s s.pb.command (s.pb.feedback + c)).trans ((followTest_sends ..).trans (evalMarks_sends ..))

theorem rewriteCounters_sends {n : Nat} (p : Int) (l : Int × Int) (s : State) : Sends n s (rewriteCounters p l s) := by
  unfold rewriteCounters
  dsimp only
  split
  · exact (counters_sends s _ s.pb.feedback).trans (evalMarks_sends ..)
  · exact (counters_sends s _ _).trans ((evalMarks_sends ..).trans (evalMarks_sends ..))

/-- Steps 1 to 3 of R125: the rewrite, the SEEK notice, and the end of the segment. -/
theorem presetEnd_sends {n : Nat} (tag : Byte) (spec : SeekSpec) (l : Int × Int) (s : State) :
    Sends n s (finishHead .done (pgIdle (seekNotice tag spec l (rewriteCounters spec.preset l s)))) :=
  (rewriteCounters_sends _ _ s).trans ((produce_sends ..).trans ((pg_sends _ _).trans (finishHead_sends ..)))

theorem applyPreset_sends {n : Nat} (s : State) : Sends n s (applyPreset s) := by
  unfold applyPreset
  split
  · split
    · refine Sends.trans ?_ ((followTest_sends ..).trans (evaluate_sends _))
      split
      · exact (presetEnd_sends ..).trans (guardTake_sends ..)
      · exact presetEnd_sends ..
    · exact .refl n s
  · exact .refl n s

theorem settleIdle_sends {n : Nat} (s : State) : Sends n s (settle (pgIdle s)) := (pg_sends s _).trans (settle_sends _)

theorem afterStep_sends {n : Nat} (s : State) : Sends n s (afterStep s) := by
  unfold afterStep
  split
  · exact .refl n s
  · split
    · exact .refl n s
    · dsimp only
      split
      · exact .refl n s
      · split
        · exact settleIdle_sends s
        · split
          · split
            · exact settleIdle_sends s
            · exact pg_sends s _
          · split
            · split
              · exact applyPreset_sends s
              · exact pg_sends s _
            · exact pg_sends s _

theorem spanProgress_sends {n : Nat} (k : SegKind) (b : Bool) (s : State) : Sends n s (spanProgress k b s) := by
  unfold spanProgress
  split
  · exact pg_sends s _
  · exact .refl n s

theorem raisePulse_sends {n : Nat} (d : Dir) (s : State) : Sends n s (raisePulse d s) := .of_same (by simp) (by simp) (by simp)

theorem emitPulse_sends {n : Nat} (k : SegKind) (d : Dir) (s : State) : Sends n s (emitPulse k d s) :=
  (spanProgress_sends k true s).trans ((raisePulse_sends d _).trans ((pg_sends _ _).trans (stepCommand_sends ..)))

theorem reverseSeek_sends {n : Nat} (d : Dir) (p : Profile) (s : State) : Sends n s (reverseSeek d p s) :=
  .of_same (by unfold reverseSeek; simp; rfl) (by simp [reverseSeek]) (by simp [reverseSeek])

theorem failSeek_sends {n : Nat} (h : Segment) (d : Dir) (s : State) : Sends n s (failSeek h d s) := by
  have hgone : Sends n s { pgIdle s with queue := s.queue.tail } := (pg_sends s _).trans (queue_sends _ _)
  unfold failSeek
  dsimp only
  refine Sends.trans ?_ ((guardTake_sends ..).trans ((afterRemoval_sends ..).trans ((evalHead_sends _).trans (settle_sends _))))
  split
  · split
    · exact hgone.trans ((oweHalt_sends ..).trans (haltSlot_sends ..))
    · exact hgone
  · exact hgone

theorem refusePulse_sends {n : Nat} (h : Segment) (d : Dir) (causes : List (Cause × Mode)) (s : State) :
    Sends n s (refusePulse h d causes s) := by
  have hover : Sends n s (guardTakeAll causes (pgIdle s)) := (pg_sends s _).trans (guardTakeAll_sends ..)
  unfold refusePulse
  split
  · split
    · split
      · exact reverseSeek_sends ..
      · exact failSeek_sends ..
    · exact hover
  · exact hover

theorem intervalEnd_sends {n : Nat} (s : State) : ∃ t, execIntervalEnd s = .next t ∧ Sends n s t := by
  refine ⟨_, rfl, ?_⟩
  split
  · exact .refl n s
  · split
    · exact .refl n s
    · split
      · exact (spanProgress_sends ..).trans (afterStep_sends _)
      · split
        · exact .refl n s
        · dsimp only
          split
          · exact (emitPulse_sends ..).trans (afterStep_sends _)
          · exact refusePulse_sends ..

theorem lowerPulse_sends {n : Nat} (s : State) : Sends n s (lowerPulse s) := .of_same (by simp) (by simp) (by simp)

theorem referenceEdge_sends {n : Nat} (spec : SeekSpec) (p : Profile) (x : Seek) (s : State) :
    Sends n s (referenceEdge spec p x s) := by
  unfold referenceEdge
  split
  · dsimp only
    split
    · exact (pg_sends s _).trans (applyPreset_sends _)
    · exact pg_sends s _
  · exact pg_sends s _

/-! ### READY, MARK and the requests -/

theorem announced_sends {n : Nat} (k : Fin 8) (s : State) : Sends n s (announced k s) := by
  unfold announced
  split
  · exact setHeadState_sends ..
  · exact .refl n s

theorem readyRecorded_sends {n : Nat} (k : Fin 8) (g : Group) (source : StationId) (s : State) :
    Sends n s (readyRecorded k g source s) := by
  unfold readyRecorded
  dsimp only
  split
  · exact (ru_sends s _).trans (announced_sends k _)
  · exact ru_sends s _

theorem fire_sends {n : Nat} (k : Fin 8) (g : Group) (s : State) : Sends n s (fire k g s) :=
  (ru_sends s _).trans ((ru_sends _ _).trans ((startHead_sends _).trans (settle_sends _)))

theorem takeReady_sends {n : Nat} (k : Fin 8) (source : StationId) (x : Byte) (s : State) :
    Sends n s (takeReady k source x s) := by
  unfold takeReady
  split
  · exact .refl n s
  · split
    · exact .refl n s
    · split
      · exact (localHalt_sends ..).trans (settle_sends _)
      · split
        · exact (localHalt_sends ..).trans (settle_sends _)
        · rw [recordReady_eq]
          split
          · exact (readyRecorded_sends ..).trans (fire_sends ..)
          · exact readyRecorded_sends ..

theorem hearMark_sends {n : Nat} (m : MarkRef) (c : Nat) (s : State) : Sends n s (hearMark m c s) := by
  unfold hearMark
  split
  · exact .refl n s
  · split
    · exact (heard_sends s _).trans ((lookEndMark_sends _).trans (evaluate_sends _))
    · split
      · exact (heard_sends s _).trans ((lookEndMark_sends _).trans (evaluate_sends _))
      · exact produce_sends ..

theorem loadSegment_sends {n : Nat} (r : LoadRecord) (s : State) : Sends n s (loadSegment r s).state := by
  have happend (h : Segment) : Sends n s (append h s) := by
    unfold append
    split
    · exact (queue_sends s _).trans (evaluate_sends _)
    · exact queue_sends s _
  unfold loadSegment
  split
  · exact .refl n s
  · split
    · exact .refl n s
    · split
      · exact .refl n s
      · split
        · exact .refl n s
        · exact happend _

theorem flushAnnouncing_sends {n : Nat} (removed : List Segment) (s : State) : Sends n s (flushAnnouncing removed s) := by
  unfold flushAnnouncing
  split
  · exact .refl n s
  · split
    · exact .refl n s
    · split
      · exact .refl n s
      · exact (withdrawReady_sends s).trans ((ru_sends _ _).trans (ru_sends _ _))

theorem afterFlush_sends {n : Nat} (b : Bool) (s : State) : Sends n s (afterFlush b s) := by
  unfold afterFlush
  split
  · exact produce_sends ..
  · split
    · exact (queue_sends s _).trans (evaluate_sends _)
    · exact .refl n s

theorem flushMatching_sends {n : Nat} (p : Segment → Bool) (s : State) : Sends n s (flushMatching p s).state := by
  rw [flushMatching_state]
  split
  · exact (queue_sends s _).trans ((flushAnnouncing_sends ..).trans ((heard_sends _ _).trans
      ((foldl_sends _ _ (fun u h => produce_sends ..) _).trans (afterFlush_sends ..))))
  · exact .refl n s

theorem stopSegment_sends {n : Nat} (mode tag : Byte) (s : State) : Sends n s (stopSegment mode tag s).state := by
  unfold stopSegment
  split
  · exact .refl n s
  · split
    · exact .refl n s
    · split
      · exact .refl n s
      · split
        · exact .refl n s
        · exact (claim_sends ..).trans (settle_sends _)

theorem armUnit_sends {n : Nat} (u : Fin 4) (src : MarkSource) (cond : MarkCond) (threshold : Int) (period : Nat) (s : State) :
    Sends n s (armUnit u src cond threshold period s) :=
  Sends.trans (t := s.setUnit u { s.pb.units[u] with state := .armed, source := src, cond, threshold, period })
    (.of_outside rfl (setUnit_txRight u _ id)) (evalUnit_sends ..)

/-- A DISARM withdraws the unit's MARK (R141), which is not on the line while the node is not SENDING. -/
theorem disarmUnit_sends (u : Fin 4) (s : State) : Sends 0 s (disarmUnit u s) := by
  refine .of_outside ((withdrawMark_outside ..).trans (setUnit_outside ..)) fun h => ?_
  have hoff : ∀ e ∈ s.tif.queue, e.onLine = false := by
    have hl := h.line
    rw [State.framesOnLine] at hl
    simpa [List.countP_eq_zero] using (Nat.add_eq_zero_iff.1 hl).1
  have hset := setUnit_txRight u { s.pb.units[u] with state := .disarmed } id h
  have hq : ∀ e ∈ (disarmUnit u s).tif.queue, e ∈ s.tif.queue := by
    rw [disarmUnit, withdraw_of_off_line (s := s.setUnit u _) hoff]
    exact fun e he => List.mem_of_mem_filter he
  refine ⟨limitsKept_of_sublist ?_ h.limits, ?_, fun e he => h.withdrawn e (hq e he), fun v hv => ?_⟩
  · rw [disarmUnit, withdraw_of_off_line (s := s.setUnit u _) hoff]
    exact List.filter_sublist.map _
  · have hl := h.line
    rw [State.framesOnLine] at hl ⊢
    obtain ⟨-, ho⟩ := Nat.add_eq_zero_iff.1 hl
    refine Nat.add_eq_zero_iff.2 ⟨?_, ho⟩
    rw [List.countP_eq_zero]
    exact fun e he => by simp [hoff e (hq e he)]
  · obtain ⟨e, he, -, hon⟩ := hset.held v hv
    rw [hoff e he] at hon
    cases hon

theorem clearGuard_sends {n : Nat} (s : State) : Sends n s (clearGuard s).state := by
  unfold clearGuard
  split
  · exact .refl n s
  · exact .refl n s
  · split
    · exact .refl n s
    · exact (gd_sends s _).trans (evaluate_sends _)

theorem applySettings_sends {n : Nat} (x : Settings) (s : State) : Sends n s (applySettings x s) :=
  ⟨TxRight.of_same rfl rfl fun _ => rfl, rfl, Iff.rfl⟩

theorem enterRun_sends {n : Nat} {s : State} (hn : s.ss.node = .setup) : Sends n s (enterRun s) := by
  have hrun (u : State) (x : Ss) (y : Ru) (hu : u.ss.node = .setup) (hx : x.node = .run) :
      Sends n u { u with ss := x, ru := y } :=
    ⟨TxRight.of_same rfl rfl fun _ => rfl, rfl, by rw [hu]; exact iff_of_false (by rw [hx]; nofun) nofun⟩
  have hempty (u : State) : Sends n u (guardEmpty u) := gd_sends u _
  unfold enterRun
  dsimp only
  refine (hrun s { s.ss with node := .run, locked := true } { slots := s.ru.slots.map Slot.commit, timer := none } hn rfl).trans
    ((hempty _).trans ?_)
  split
  · exact guardTake_sends ..
  · exact .refl n _

theorem commitSetup_sends {n : Nat} {s : State} (hn : s.ss.node = .setup) : Sends n s (commitSetup s).state := by
  unfold commitSetup
  split
  · exact .refl n s
  · split
    · exact .refl n s
    · exact enterRun_sends hn

end Sys2Proof.Machine
end

