-- ==== Sys2Proof/Proofs/LineLaws.lean ====
section
/-! PROOFS. The ends of an attempt, reset and every command: what they keep of the transmit queue, the answer slots and the receiver
(R3 to R5, R8, R21, R24, R144, R170, R171). -/

namespace Sys2Proof.Machine

/-! ### One frame on the line -/

theorem countP_owed_eq_zero {s : State} : s.tif.owed.toList.countP (fun e => e.any fun x => x.onLine) = 0
    ↔ ∀ k : Fin 8, (s.tif.owed[k]).any (fun x => x.onLine) = false := by
  rw [List.countP_eq_zero]
  constructor
  · intro h k
    simpa using h s.tif.owed[k] (by simp)
  · intro h x hx
    obtain ⟨i, hi, rfl⟩ := List.mem_iff_getElem.1 hx
    have hi8 : i < 8 := by simpa using hi
    simpa using h ⟨i, hi8⟩

/-- A state with nothing of the node on the line (R21). -/
theorem TxRight.of_off {s : State} (hl : s.limitsKept) (hq : ∀ e ∈ s.tif.queue, e.onLine = false ∧ e.withdrawn = false)
    (ho : ∀ k : Fin 8, (s.tif.owed[k]).any (fun x => x.onLine) = false) (hh : ∀ u : Fin 4, (s.pb.units[u]).held = none) :
    TxRight 0 s where
  limits := hl
  line := Nat.add_eq_zero_iff.2 ⟨List.countP_eq_zero.2 fun e he => by simp [hq e he], countP_owed_eq_zero.2 ho⟩
  withdrawn e he hw := by
    rw [(hq e he).2] at hw
    cases hw
  held u hu := absurd (hh u) hu

/-- A frame that is not on the line is not withdrawn (R24). -/
theorem TxRight.not_withdrawn {n : Nat} {s : State} (h : TxRight n s) {e : TxEntry} (he : e ∈ s.tif.queue)
    (hoff : e.onLine = false) : e.withdrawn = false := by
  by_contra hw
  have := (h.withdrawn e he (by simpa using hw)).1
  rw [hoff] at this
  cases this

/-- The state with the link SENDING, in which the predicates of an attempt are stated. -/
def State.asSending (s : State) : State := { s with tif := { s.tif with link := .sending } }

/-- The one frame on the line is an owed HALT or an entry of the transmit queue (R21). -/
theorem attempt_cases {s : State} (h : TxRight 1 s) :
    (∃ k e, s.asSending.sendsHalt k e) ∨ ∃ pre e post, s.asSending.sendsEntry pre e post := by
  have hline : s.tif.queue.countP (fun e => e.onLine) + s.tif.owed.toList.countP (fun e => e.any fun x => x.onLine) = 1 := h.line
  by_cases hq : s.tif.queue.countP (fun e => e.onLine) = 0
  · left
    have hoff : ∀ x ∈ s.tif.queue, x.onLine = false := by simpa [List.countP_eq_zero] using hq
    have hone : s.tif.owed.toList.countP (fun e => e.any fun x => x.onLine) = 1 := by omega
    obtain ⟨x, hx, hxon⟩ := List.countP_pos_iff.1 (by omega : 0 < s.tif.owed.toList.countP (fun e => e.any fun x => x.onLine))
    obtain ⟨i, hi, rfl⟩ := List.mem_iff_getElem.1 hx
    have hi8 : i < 8 := by simpa using hi
    obtain ⟨e, he, hon⟩ := (Option.any_eq_true ..).1 hxon
    have hentry : s.tif.owed[i] = some e := by simpa using he
    refine ⟨⟨i, hi8⟩, e, rfl, hentry, hon, fun j hj => Bool.eq_false_iff.2 fun hjon => ?_, hoff⟩
    have hji : (j : Nat) ≠ i := fun h => hj (Fin.ext h)
    have hset := List.countP_set (p := fun e : Option HaltEntry => e.any fun x => x.onLine) (a := none) hi
    rw [if_pos hxon, hone] at hset
    have hzero := List.countP_eq_zero.1 (hset.trans (by simp)) s.tif.owed[j] ?_
    · refine hzero ?_
      have hon : (s.tif.owed[j]).any (fun x => x.onLine) = true := hjon
      simpa using hon
    · refine List.mem_iff_getElem.2 ⟨j, by simp, ?_⟩
      rw [List.getElem_set_ne (fun h => hji h.symm)]
      simp
  · right
    have hzero : s.tif.owed.toList.countP (fun e => e.any fun x => x.onLine) = 0 := by omega
    obtain ⟨e, he, hon⟩ := List.countP_pos_iff.1 (Nat.pos_of_ne_zero hq)
    obtain ⟨pre, post, hsplit⟩ := List.append_of_mem he
    refine ⟨pre, e, post, rfl, hsplit, hon, fun x hx => ?_, countP_owed_eq_zero.1 hzero⟩
    rw [hsplit, List.countP_append, List.countP_cons, if_pos hon] at hline
    have hpre : pre.countP (fun e => e.onLine) = 0 := by omega
    have hpost : post.countP (fun e => e.onLine) = 0 := by omega
    rw [List.countP_eq_zero] at hpre hpost
    obtain hx | hx := List.mem_append.1 hx
    · simpa using hpre x hx
    · simpa using hpost x hx

section
variable {s : State}

/-- The owed HALT leaves the line: removed, or waiting again (R12, R13). -/
theorem haltEnds_txRight {k : Fin 8} {e : HaltEntry} (h : TxRight 1 s) (hs : s.asSending.sendsHalt k e)
    {x : Option HaltEntry} (hx : x.any (fun x => x.onLine) = false) :
    TxRight 0 { s with tif := { s.tif with owed := s.tif.owed.set k x } } := by
  refine .of_off h.limits (fun y hy => ?_) (fun j => ?_) fun u => ?_
  · have hoff := hs.queue y hy
    exact ⟨hoff, h.not_withdrawn hy hoff⟩
  · by_cases hj : k = j
    · subst hj
      simpa using hx
    · have hne : (k : Nat) ≠ j := fun he => hj (Fin.ext he)
      have hoff : (s.tif.owed[j]).any (fun x => x.onLine) = false := hs.others j fun h => hj h.symm
      simpa [Vector.getElem_set_ne _ _ hne] using hoff
  · by_contra hu
    obtain ⟨y, hy, -, hon⟩ := h.held u hu
    have := hs.queue y hy
    rw [hon] at this
    cases this

section
variable {pre : List TxEntry} {e : TxEntry} {post : List TxEntry}

/-- Only the MARK on the line has firings held beside it (R144). -/
theorem held_of_sendsEntry (h : TxRight 1 s) (hs : s.asSending.sendsEntry pre e post) {u : Fin 4}
    (hu : (s.pb.units[u]).held ≠ none) : e.frame.isMark u = true := by
  obtain ⟨x, hx, hm, hon⟩ := h.held u hu
  have hq : s.tif.queue = pre ++ e :: post := hs.queue
  rw [hq, List.mem_append, List.mem_cons] at hx
  have hoff (hx : x ∈ pre ++ post) : False := by
    have := hs.others x hx
    rw [hon] at this
    cases this
  obtain hx | rfl | hx := hx
  · exact (hoff (List.mem_append_left _ hx)).elim
  · exact hm
  · exact (hoff (List.mem_append_right _ hx)).elim

/-- The state in which firings are held for no unit but one. -/
theorem setUnit_held_none {u : Fin 4} {x : MarkUnit} (hx : x.held = none)
    (h : ∀ v : Fin 4, (s.pb.units[v]).held ≠ none → v = u) (v : Fin 4) : ((s.setUnit u x).pb.units[v]).held = none := by
  by_cases hv : u = v
  · subst hv
    simpa [State.setUnit] using hx
  · have hne : (u : Nat) ≠ v := fun he => hv (Fin.ext he)
    simp only [State.setUnit, Fin.getElem_fin, Vector.getElem_set_ne _ _ hne]
    by_contra hheld
    exact hv (h v hheld).symm

/-- A state after the attempt, with the frame gone or waiting again, and no firings held. -/
theorem entryEnds_txRight {t : State} (h : TxRight 1 s) (hs : s.asSending.sendsEntry pre e post) {mid : List TxEntry}
    (hmid : ∀ x ∈ mid, x.onLine = false ∧ x.withdrawn = false) (hframes : (mid.map TxEntry.frame).Sublist [e.frame])
    (hq : t.tif.queue = pre ++ mid ++ post) (ho : t.tif.owed = s.tif.owed) (hh : ∀ u : Fin 4, (t.pb.units[u]).held = none) :
    TxRight 0 t := by
  have hqs : s.tif.queue = pre ++ e :: post := hs.queue
  refine .of_off (limitsKept_of_sublist ?_ h.limits) (fun x hx => ?_) (by rw [ho]; exact hs.owed) hh
  · rw [hq, hqs]
    simp only [List.map_append, List.map_cons, List.append_assoc]
    exact (List.Sublist.refl _).append (hframes.append (.refl (post.map TxEntry.frame)))
  · rw [hq, List.mem_append, List.mem_append] at hx
    have hother (hx : x ∈ pre ++ post) : x.onLine = false ∧ x.withdrawn = false := by
      have hoff := hs.others x hx
      refine ⟨hoff, h.not_withdrawn ?_ hoff⟩
      rw [hqs]
      obtain hx | hx := List.mem_append.1 hx
      · exact List.mem_append_left _ hx
      · exact List.mem_append_right _ (List.mem_cons_of_mem _ hx)
    obtain (hx | hx) | hx := hx
    · exact hother (List.mem_append_left _ hx)
    · exact hmid x hx
    · exact hother (List.mem_append_right _ hx)

end
end

/-! ### The answer slots and the receiver -/

/-- The ANSWER of an answer slot (R170). -/
def TxFrame.isAnswerOf (i : Fin 2) : TxFrame → Bool
  | .answer j _ _ => j == i
  | _ => false

theorem answersOf_eq (s : State) (i : Fin 2) : s.answersOf i = s.answers.countP fun e => e.frame.isAnswerOf i := by
  rw [State.answersOf, State.answers, List.countP_filter]
  refine List.countP_congr fun e _ => ?_
  cases he : e.frame <;> simp [TxFrame.isAnswerOf, TxFrame.isAnswer]

theorem answersHeld_iff (s : State) : s.answersHeld = true ↔
    ∀ i : Fin 2, (s.answers.countP fun e => e.frame.isAnswerOf i) = if (s.fh.slots[i]).isSome then 1 else 0 := by
  simp only [State.answersHeld, Bool.and_eq_true, beq_iff_eq, ← answersOf_eq, Fin.forall_fin_two]
  rfl

theorem answersHeld_congr {s t : State} (ha : t.answers = s.answers) (hf : t.fh = s.fh) (h : s.answersHeld = true) :
    t.answersHeld = true := by
  rw [answersHeld_iff] at h ⊢
  rwa [ha, hf]

/-- What the laws of the receiver look at (R3 to R5), but for the node state. -/
def State.receiver (s : State) : Link × Nat × Reception × Nat := (s.tif.link, s.tif.breakLeft, s.tif.reception, s.tif.idleCount)

theorem receiver_of_outside {s t : State} (h : t.outside = s.outside) : t.receiver = s.receiver :=
  congrArg (fun o => (o.link, o.breakLeft, o.reception, o.counts.1)) h

/-- The node's attempt has ended: nothing of it is on the line, and the answer slots, the receiver and the node stand. -/
structure Ends (s t : State) : Prop where
  right : TxRight 0 t
  answers : s.answersHeld = true → t.answersHeld = true
  receiver : t.receiver = s.receiver
  held : t.ss.node = .held ↔ s.ss.node = .held

theorem Ends.trans {s t u : State} (h : Ends s t) (h' : Sends 0 t u) : Ends s u where
  right := h'.right h.right
  answers hs := answersHeld_congr (congrArg LineView.answers h'.view) (congrArg LineView.fh h'.view) (h.answers hs)
  receiver := Eq.trans (congrArg (fun v => (v.link, v.breakLeft, v.reception, v.idleCount)) h'.view) h.receiver
  held := h'.held.trans h.held

/-! ### The ends of an attempt -/

section
variable {s : State} {pre : List TxEntry} {e : TxEntry} {post : List TxEntry}

theorem TxFrame.isAnswer_of_isReady {f : TxFrame} (h : f.isReady = true) : f.isAnswer = false := by
  cases f with
  | ready k g n tag => rfl
  | _ => cases h

/-- The transmit queue without the frame on the line. -/
def State.without (s : State) (pre post : List TxEntry) : State := { s with tif := { s.tif with queue := pre ++ post } }

theorem dropOnLine_eq (hs : s.asSending.sendsEntry pre e post) : dropOnLine s = s.without pre post := by
  have hdrop : s.tif.queue.filter (fun x => !x.onLine) = pre ++ post := hs.drop
  rw [dropOnLine, hdrop, State.without]

theorem without_answers (hs : s.asSending.sendsEntry pre e post) (he : e.frame.isAnswer = false) :
    (s.without pre post).answers = s.answers := by
  have hq : s.tif.queue = pre ++ e :: post := hs.queue
  simp [State.answers, State.without, hq, he]

/-- The frame is gone, and no firings were held beside it. -/
theorem without_ends (h : TxRight 1 s) (hs : s.asSending.sendsEntry pre e post) (hm : ∀ u, e.frame.isMark u = false)
    (he : e.frame.isAnswer = false) : Ends s (s.without pre post) where
  right := by
    refine entryEnds_txRight h hs (mid := []) nofun (List.nil_sublist _) (by simp [State.without]) rfl fun u => ?_
    by_contra hu
    have := held_of_sendsEntry h hs hu
    rw [hm] at this
    cases this
  answers ha := answersHeld_congr (without_answers hs he) rfl ha
  receiver := rfl
  held := Iff.rfl

/-- A withdrawn frame is a READY (R24). -/
theorem withdrawnGone_ends (h : TxRight 1 s) (hs : s.asSending.sendsEntry pre e post) (hw : e.withdrawn = true) :
    Ends s (s.without pre post) := by
  have hq : s.tif.queue = pre ++ e :: post := hs.queue
  obtain ⟨-, hready⟩ := h.withdrawn e (by simp [hq]) hw
  refine without_ends h hs (fun u => ?_) (TxFrame.isAnswer_of_isReady hready)
  cases hf : e.frame with
  | ready k g n tag => rfl
  | _ => rw [hf] at hready; cases hready

/-- An ANSWER is gone, and its answer slot free (R170, R171). -/
theorem answerGone_ends (h : TxRight 1 s) (hs : s.asSending.sendsEntry pre e post) {i : Fin 2} {st : StationId} {p : List Byte}
    (hf : e.frame = .answer i st p) : Ends s (freeSlot i (s.without pre post)) where
  right := by
    refine entryEnds_txRight h hs (mid := []) nofun (List.nil_sublist _) (by simp [State.without]) rfl fun u => ?_
    by_contra hu
    have := held_of_sendsEntry h hs hu
    rw [hf] at this
    cases this
  answers ha := by
    rw [answersHeld_iff] at ha ⊢
    intro j
    have hq : s.tif.queue = pre ++ e :: post := hs.queue
    have hj := ha j
    simp only [State.answers, hq, List.filter_append, List.countP_append] at hj
    rw [List.filter_cons_of_pos (by rw [hf]; rfl), List.countP_cons] at hj
    simp only [State.answers, freeSlot, State.without, List.filter_append, List.countP_append]
    by_cases hij : i = j
    · subst hij
      have hone : e.frame.isAnswerOf i = true := by rw [hf]; exact beq_self_eq_true i
      rw [if_pos hone] at hj
      have hzero : ((pre.filter fun e => e.frame.isAnswer).countP fun e => e.frame.isAnswerOf i)
          + ((post.filter fun e => e.frame.isAnswer).countP fun e => e.frame.isAnswerOf i) = 0 := by
        split at hj <;> omega
      rw [hzero]
      simp
    · have hother : e.frame.isAnswerOf j = false := by rw [hf]; exact beq_false_of_ne hij
      have hne : (i : Nat) ≠ j := fun h => hij (Fin.ext h)
      rw [hother] at hj
      simpa [Vector.getElem_set_ne _ _ hne] using hj
  receiver := rfl
  held := Iff.rfl

end

theorem setUnit_self (s : State) (u : Fin 4) : s.setUnit u s.pb.units[u] = s := by
  simp [State.setUnit]

/-- The held firings of a unit go out in a new MARK (R145). -/
theorem releaseHeld_ends {s t : State} {u : Fin 4} (h : ∀ x : MarkUnit, x.held = none → Ends s (t.setUnit u x)) :
    Ends s (releaseHeld u t) := by
  unfold releaseHeld
  dsimp only
  split
  · next hx =>
    have := h t.pb.units[u] hx
    rwa [setUnit_self] at this
  · exact (h _ rfl).trans (enqueue_sends rfl _)

/-- The held firings of a unit join its MARK, which waits again (R145). -/
theorem foldHeld_ends {s t : State} {u : Fin 4} (h : ∀ x : MarkUnit, x.held = none → Ends s (t.setUnit u x)) :
    Ends s (foldHeld u t) := by
  unfold foldHeld
  dsimp only
  split
  · next hx =>
    have := h t.pb.units[u] hx
    rwa [setUnit_self] at this
  · exact (h _ rfl).trans (.of_outside (by simp) (changeWaiting_txRight _ (sameLimit_mapFirings _)))

/-- The laws look at the transmit queue, the halt-owed set, the answer slots, the receiver and the held firings alone. -/
theorem Ends.congr {s t t' : State} (h : Ends s t) (hq : t'.tif.queue = t.tif.queue) (ho : t'.tif.owed = t.tif.owed)
    (hr : t'.receiver = t.receiver) (hf : t'.fh = t.fh) (hn : t'.ss = t.ss)
    (hh : ∀ u : Fin 4, (t'.pb.units[u]).held = (t.pb.units[u]).held) : Ends s t' where
  right := h.right.of_same hq ho hh
  answers ha := answersHeld_congr (by rw [State.answers, hq, State.answers]) hf (h.answers ha)
  receiver := hr.trans h.receiver
  held := by rw [hn]; exact h.held

/-- A notice between the end of a MARK's attempt and the release of the unit's held firings (R145). -/
theorem releaseHeld_produce_ends {s t : State} {u : Fin 4} (n : NoticeType) (c : List Byte)
    (h : ∀ x : MarkUnit, x.held = none → Ends s (t.setUnit u x)) : Ends s (releaseHeld u (produce n c t)) := by
  refine releaseHeld_ends fun x hx => ?_
  have ho : ((produce n c t).setUnit u x).outside = (produce n c (t.setUnit u x)).outside := by simp
  refine ((h x hx).trans (produce_sends n c _)).congr ?_ (by simp) (receiver_of_outside ho) (congrArg Outside.fh ho)
    (congrArg Outside.ss ho) fun v => by simp [State.setUnit]
  exact congrArg Prod.snd (produce_outgoing_congr (s := t.setUnit u x) (t := t) rfl rfl n c)

/-- A change of the Notice Backlog alone. -/
theorem nb_sends {n : Nat} (s : State) (x : Nb) : Sends n s { s with nb := x } := .of_outside rfl (nb_txRight x)

theorem noticeTaken_sends {n : Nat} (b : Bool) (s : State) : Sends n s (noticeTaken b s) :=
  (nb_sends s _).trans (composeNotice_sends _)

theorem noticeAbandoned_sends {n : Nat} (s : State) : Sends n s (noticeAbandoned s) :=
  (nb_sends s _).trans (composeNotice_sends _)

theorem noticeWaits_sends {n : Nat} (s : State) : Sends n s (noticeWaits s) := by
  unfold noticeWaits
  split
  · exact .of_outside (by simp; rfl) fun h => changeWaiting_txRight _ sameLimit_markOverflow (nb_txRight _ h)
  · exact .refl n s

section
variable {s : State} {pre : List TxEntry} {e : TxEntry} {post : List TxEntry}

/-- A MARK is gone, with the firings that were held beside it. -/
theorem markGone_ends (h : TxRight 1 s) (hs : s.asSending.sendsEntry pre e post) {u : Fin 4} {f : Firings}
    (hf : e.frame = .mark u f) {x : MarkUnit} (hx : x.held = none) : Ends s ((s.without pre post).setUnit u x) where
  right := entryEnds_txRight h hs (mid := []) nofun (List.nil_sublist _) (by simp [State.without]) rfl
    (setUnit_held_none (s := s.without pre post) hx fun v hv => by
      have hm := held_of_sendsEntry h hs hv
      rw [hf] at hm
      exact beq_iff_eq.1 hm)
  answers ha := answersHeld_congr (without_answers hs (by rw [hf]; rfl)) rfl ha
  receiver := rfl
  held := Iff.rfl

/-- The node's frame has been taken: it is gone, and its producer is told (R12, R24). -/
theorem attemptTaken_ends (h : TxRight 1 s) : Ends s (attemptTaken s) := by
  obtain ⟨k, e, hs⟩ | ⟨pre, e, post, hs⟩ := attempt_cases h
  · have hhalt : s.onLineHalt? = some k := hs.onLineHalt
    unfold attemptTaken
    simp only [hhalt]
    exact ⟨haltEnds_txRight h hs rfl, id, rfl, Iff.rfl⟩
  · have hhalt : s.onLineHalt? = none := hs.onLineHalt
    have hentry : s.onLineEntry? = some e := hs.onLineEntry
    unfold attemptTaken
    simp only [hhalt, hentry, dropOnLine_eq hs]
    split
    · next hw => exact withdrawnGone_ends h hs hw
    · cases hf : e.frame with
      | ready k g n tag => exact without_ends h hs (fun u => by rw [hf]; rfl) (by rw [hf]; rfl)
      | mark u f => exact releaseHeld_ends fun x hx => markGone_ends h hs hf hx
      | answer i st p => exact answerGone_ends h hs hf
      | notice d o m =>
        exact (without_ends h hs (fun u => by rw [hf]; rfl) (by rw [hf]; rfl)).trans (noticeTaken_sends ..)

/-- The transmit queue with the frame on the line waiting again. -/
def State.waiting (s : State) (pre : List TxEntry) (e : TxEntry) (post : List TxEntry) : State :=
  { s with tif := { s.tif with queue := pre ++ { e with onLine := false } :: post } }

theorem waiting_eq (hs : s.asSending.sendsEntry pre e post) :
    { s with tif := { s.tif with queue := s.tif.queue.map fun x => { x with onLine := false } } } = s.waiting pre e post := by
  have hmap : s.tif.queue.map (fun x => { x with onLine := false }) = pre ++ { e with onLine := false } :: post := by
    refine hs.map (fun x => { x with onLine := false }) fun x hx => ?_
    cases x
    simp_all
  rw [hmap, State.waiting]

/-- A frame waits again, with no firings held beside it. -/
theorem waiting_ends (h : TxRight 1 s) (hs : s.asSending.sendsEntry pre e post) (hw : e.withdrawn = false) {t : State}
    (ht : t.tif = (s.waiting pre e post).tif) (hf : t.fh = s.fh) (hn : t.ss = s.ss)
    (hh : ∀ v : Fin 4, (t.pb.units[v]).held = none) : Ends s t where
  right := entryEnds_txRight h hs (mid := [{ e with onLine := false }]) (by simpa using hw) (.refl _)
    (by simp [ht, State.waiting]) (by rw [ht]; rfl) hh
  answers ha := by
    rw [answersHeld_iff] at ha ⊢
    intro i
    have hq : s.tif.queue = pre ++ e :: post := hs.queue
    rw [hf]
    refine Eq.trans ?_ (ha i)
    simp only [State.answers, ht, State.waiting, hq, List.filter_append, List.filter_cons, List.countP_append]
    congr 1
    split <;> simp [List.countP_cons]
  receiver := by rw [State.receiver, ht]; rfl
  held := by rw [hn]

/-- The attempt ends with its frame neither taken nor abandoned (R8, R13, R24). -/
theorem attemptWaits_ends (h : TxRight 1 s) : Ends s (attemptWaits s) := by
  obtain ⟨k, e, hs⟩ | ⟨pre, e, post, hs⟩ := attempt_cases h
  · have hhalt : s.onLineHalt? = some k := hs.onLineHalt
    have hentry : s.tif.owed[k] = some e := hs.entry
    unfold attemptWaits
    simp only [hhalt, hentry]
    exact ⟨haltEnds_txRight h hs rfl, id, rfl, Iff.rfl⟩
  · have hhalt : s.onLineHalt? = none := hs.onLineHalt
    have hentry : s.onLineEntry? = some e := hs.onLineEntry
    unfold attemptWaits
    simp only [hhalt, hentry, dropOnLine_eq hs, waiting_eq hs]
    split
    · next hw => exact withdrawnGone_ends h hs hw
    · next hw =>
      have hwaits (hm : ∀ u, e.frame.isMark u = false) : Ends s (s.waiting pre e post) :=
        waiting_ends h hs (by simpa using hw) rfl rfl rfl fun v => by
          by_contra hv
          have := held_of_sendsEntry h hs hv
          rw [hm] at this
          cases this
      cases hf : e.frame with
      | ready k g n tag => exact hwaits fun u => by rw [hf]; rfl
      | mark u f =>
        refine foldHeld_ends fun x hx => waiting_ends h hs (by simpa using hw) rfl rfl rfl ?_
        refine setUnit_held_none (s := s.waiting pre e post) hx fun v hv => ?_
        have hm := held_of_sendsEntry h hs hv
        rw [hf] at hm
        exact beq_iff_eq.1 hm
      | answer i st p => exact hwaits fun u => by rw [hf]; rfl
      | notice d o m => exact (hwaits fun u => by rw [hf]; rfl).trans (noticeWaits_sends _)

/-- One more voided attempt of the frame on the line (R13). -/
theorem countVoid_txRight {n : Nat} (h : TxRight n s) : TxRight n (countVoid s) := by
  have hmap {p : TxEntry → Bool} (hp : ∀ x a, p { x with attempts := a } = p x) :
      (countVoid s).tif.queue.countP p = s.tif.queue.countP p := by
    rw [countVoid, List.countP_map]
    refine List.countP_congr fun x _ => ?_
    dsimp only [Function.comp]
    split
    · rw [hp]
    · rfl
  refine ⟨fun f => ?_, ?_, fun x hx hw => ?_, fun u hu => ?_⟩
  · rw [State.alike, hmap fun _ _ => rfl]
    exact h.limits f
  · rw [State.framesOnLine, hmap fun _ _ => rfl]
    exact h.line
  · obtain ⟨y, hy, rfl⟩ := List.mem_map.1 hx
    split at hw
    · next hon => rw [if_pos hon]; exact h.withdrawn y hy hw
    · next hon => rw [if_neg hon]; exact h.withdrawn y hy hw
  · obtain ⟨y, hy, hm, hon⟩ := h.held u hu
    exact ⟨_, List.mem_map.2 ⟨y, hy, rfl⟩, by rw [if_pos hon]; exact hm, by rw [if_pos hon]; exact hon⟩

theorem countVoid_answersHeld (h : s.answersHeld = true) : (countVoid s).answersHeld = true := by
  rw [answersHeld_iff] at h ⊢
  intro i
  refine Eq.trans ?_ (h i)
  simp only [State.answers, countVoid, List.countP_filter, List.countP_map]
  refine List.countP_congr fun x _ => ?_
  dsimp only [Function.comp]
  split <;> rfl

/-- The producer of an abandoned frame is told (R14, R91, R145, R171, R176). -/
theorem abandoned_ends (h : TxRight 1 s) (hs : s.asSending.sendsEntry pre e post) :
    Ends s (abandoned e.frame (s.without pre post)) := by
  cases hf : e.frame with
  | ready k g n tag =>
    have hgone := without_ends h hs (fun u => by rw [hf]; rfl) (by rw [hf]; rfl)
    unfold abandoned
    dsimp only
    split
    · exact hgone.trans ((localHalt_sends ..).trans (produce_sends ..))
    · exact hgone
  | mark u f => exact releaseHeld_produce_ends _ _ fun x hx => markGone_ends h hs hf hx
  | answer i st p => exact answerGone_ends h hs hf
  | notice d o m => exact (without_ends h hs (fun u => by rw [hf]; rfl) (by rw [hf]; rfl)).trans (noticeAbandoned_sends _)

/-- The attempt is voided: it waits again, or is abandoned at the limit (R13, R14, R24). -/
theorem attemptVoid_ends (h : TxRight 1 s) : Ends s (attemptVoid s) := by
  obtain ⟨k, e, hs⟩ | ⟨pre, e, post, hs⟩ := attempt_cases h
  · have hhalt : s.onLineHalt? = some k := hs.onLineHalt
    have hentry : s.tif.owed[k] = some e := hs.entry
    unfold attemptVoid
    simp only [hhalt, hentry]
    split
    · exact Ends.trans ⟨haltEnds_txRight h hs rfl, id, rfl, Iff.rfl⟩ (guardTake_sends ..)
    · exact ⟨haltEnds_txRight h hs rfl, id, rfl, Iff.rfl⟩
  · have hhalt : s.onLineHalt? = none := hs.onLineHalt
    have hentry : s.onLineEntry? = some e := hs.onLineEntry
    unfold attemptVoid
    simp only [hhalt, hentry, dropOnLine_eq hs]
    split
    · next hw => exact withdrawnGone_ends h hs hw
    · split
      · exact abandoned_ends h hs
      · obtain ⟨h1, h2, h3, h4⟩ := attemptWaits_ends (countVoid_txRight h)
        exact ⟨h1, fun ha => h2 (countVoid_answersHeld ha), h3, h4⟩

end

/-! ### The laws together -/

/-- The laws of the transmit queue, the answer slots and the receiver (R3 to R5, R8, R21, R24, R144, R170, R171). -/
structure LineRight (s : State) : Prop where
  tx : TxRight (if s.tif.link = .sending then 1 else 0) s
  answers : s.answersHeld = true
  together : s.ss.node = .held ↔ s.tif.link = .held
  breaks : s.tif.breakLeft = 0 ∨ s.tif.link = .listening ∧ s.tif.reception = .skips
  frames : s.tif.reception = .awaits ∨ s.tif.link ≠ .sending ∧ s.tif.idleCount < 9

theorem lineRight_iff (s : State) : LineRight s ↔ s.limitsKept ∧ s.lineRight = true ∧ s.answersHeld = true
    ∧ s.withdrawnRight = true ∧ s.heldRight = true ∧ s.heldTogether = true ∧ s.receiverRight = true := by
  have hb (a b : Bool) : (a == b) = true ↔ (a = true ↔ b = true) := by cases a <;> cases b <;> decide
  have htogether : s.heldTogether = true ↔ (s.ss.node = .held ↔ s.tif.link = .held) := by
    simp [State.heldTogether, hb]
  have hreceiver : s.receiverRight = true ↔ (s.tif.breakLeft = 0 ∨ s.tif.link = .listening ∧ s.tif.reception = .skips)
      ∧ (s.tif.reception = .awaits ∨ s.tif.link ≠ .sending ∧ s.tif.idleCount < 9) := by
    simp [State.receiverRight]
  have hline : s.lineRight = true ↔ s.framesOnLine = if s.tif.link = .sending then 1 else 0 := by
    simp [State.lineRight]
  rw [htogether, hreceiver, hline]
  constructor
  · rintro ⟨htx, ha, ht, hbr, hfr⟩
    obtain ⟨h1, h2, h3, h4⟩ := (txRight_iff _ s).1 htx
    exact ⟨h1, h2, ha, h3, h4, ht, hbr, hfr⟩
  · rintro ⟨h1, h2, ha, h3, h4, ht, hbr, hfr⟩
    exact ⟨(txRight_iff _ s).2 ⟨h1, h2, h3, h4⟩, ha, ht, hbr, hfr⟩

theorem LineRight.off {s : State} (h : LineRight s) (hl : s.tif.link ≠ .sending) : TxRight 0 s := by
  have := h.tx
  rwa [if_neg hl] at this

theorem LineRight.on {s : State} (h : LineRight s) (hl : s.tif.link = .sending) : TxRight 1 s := by
  have := h.tx
  rwa [if_pos hl] at this

/-- Nothing of the node is on the line, and it drives no break. -/
theorem LineRight.of_quiet {s : State} (htx : TxRight 0 s) (ha : s.answersHeld = true) (hl : s.tif.link ≠ .sending)
    (ht : s.ss.node = .held ↔ s.tif.link = .held) (hb : s.tif.breakLeft = 0)
    (hf : s.tif.reception = .awaits ∨ s.tif.idleCount < 9) : LineRight s :=
  ⟨by rwa [if_neg hl], ha, ht, .inl hb, hf.imp_right fun h => ⟨hl, h⟩⟩

theorem Sends.keeps {n : Nat} {s t : State} (h : Sends n s t) (hn : n = if s.tif.link = .sending then 1 else 0) (hs : LineRight s) :
    LineRight t := by
  have hlink : t.tif.link = s.tif.link := congrArg LineView.link h.view
  have hbreak : t.tif.breakLeft = s.tif.breakLeft := congrArg LineView.breakLeft h.view
  have hreception : t.tif.reception = s.tif.reception := congrArg LineView.reception h.view
  have hidle : t.tif.idleCount = s.tif.idleCount := congrArg LineView.idleCount h.view
  refine ⟨?_, answersHeld_congr (congrArg LineView.answers h.view) (congrArg LineView.fh h.view) hs.answers, ?_, ?_, ?_⟩
  · rw [hlink, ← hn]
    exact h.right (hn ▸ hs.tx)
  · rw [h.held, hlink, hs.together]
  · rw [hlink, hbreak, hreception]
    exact hs.breaks
  · rw [hlink, hreception, hidle]
    exact hs.frames

/-- An operation that keeps the laws whatever is on the line. -/
theorem Sends.line {s t : State} (h : ∀ n, Sends n s t) (hs : LineRight s) : LineRight t := (h _).keeps rfl hs

/-- An operation while the node is not SENDING. -/
theorem Sends.line_off {s t : State} (h : Sends 0 s t) (hl : s.tif.link ≠ .sending) (hs : LineRight s) : LineRight t :=
  h.keeps (by rw [if_neg hl]) hs

/-- A change that leaves the Trunk Interface, the answer slots, the node state and the held firings alone. -/
theorem LineRight.of_same {s t : State} (hs : LineRight s) (ht : t.tif = s.tif) (hf : t.fh = s.fh) (hn : t.ss.node = s.ss.node)
    (hu : ∀ u : Fin 4, (t.pb.units[u]).held = (s.pb.units[u]).held) : LineRight t := by
  refine Sends.line (s := s) (fun n => ⟨TxRight.of_same (by rw [ht]) (by rw [ht]) hu, ?_, by rw [hn]⟩) hs
  simp only [State.lineView, State.answers, ht, hf]

/-- The attempt of a SENDING node has ended (R8, R12, R13): it is LISTENING, and the frame on the line is to it as given. -/
theorem Ends.line {s u t : State} (h : Ends u t) (hs : LineRight s) (hl : s.tif.link = .sending)
    (ha : u.answersHeld = s.answersHeld) (hn : u.ss.node = s.ss.node) (hlink : u.tif.link = .listening)
    (hbreak : u.tif.breakLeft = s.tif.breakLeft) (hidle : u.tif.idleCount = 0) : LineRight t ∧ t.tif.link = .listening := by
  have hreceiver := h.receiver
  simp only [State.receiver, Prod.mk.injEq] at hreceiver
  obtain ⟨h1, h2, -, h4⟩ := hreceiver
  have hnode : s.ss.node ≠ .held := fun hh => by
    have := hs.together.1 hh
    rw [hl] at this
    cases this
  have hlistening : t.tif.link = .listening := h1.trans hlink
  refine ⟨.of_quiet h.right (h.answers (ha.trans hs.answers)) (by simp [hlistening]) (iff_of_false ?_ (by simp [hlistening])) ?_ ?_,
    hlistening⟩
  · rw [h.held, hn]
    exact hnode
  · rw [h2, hbreak]
    refine hs.breaks.resolve_right fun hb => ?_
    rw [hl] at hb
    cases hb.1
  · exact .inr (by rw [h4, hidle]; decide)

theorem leaveSending_line {s t : State} (r : Reception) (hs : LineRight s) (hl : s.tif.link = .sending)
    (h : TxRight 1 (leaveSending r s) → Ends (leaveSending r s) t) : LineRight t := by
  have htx : TxRight 1 (leaveSending r s) := TxRight.of_same (s := s) rfl rfl (fun _ => rfl) (hs.on hl)
  exact ((h htx).line hs hl rfl rfl rfl rfl rfl).1

/-- A frame that the node takes, or its own (R11, R12). -/
theorem taken_line {s : State} (hs : LineRight s) (h : s.tif.link = .listening ∨ s.tif.link = .sending)
    (hb : s.tif.link = .listening → s.tif.breakLeft = 0) : LineRight (taken s) ∧ (taken s).tif.link = .listening := by
  obtain hl | hl := h
  · have hoff : s.tif.link ≠ .sending := by simp [hl]
    have hnode : s.ss.node ≠ .held := fun hh => by
      have := hs.together.1 hh
      rw [hl] at this
      cases this
    rw [taken, if_neg hoff]
    exact ⟨.of_quiet (TxRight.of_same (s := s) rfl rfl (fun _ => rfl) (hs.off hoff)) hs.answers nofun
      (iff_of_false hnode nofun) (hb hl) (.inl rfl), rfl⟩
  · have htx : TxRight 1 (windowEnds recessive recessive s) := TxRight.of_same (s := s) rfl rfl (fun _ => rfl) (hs.on hl)
    rw [taken, if_pos hl]
    exact (attemptTaken_ends htx).line hs hl rfl rfl rfl rfl rfl

theorem takeFrame_line {i : Instr} {act : State → State} {s : State} (hs : LineRight s)
    (h : ∀ u, LineRight u → u.tif.link = .listening → LineRight (act u)) : LineRight (takeFrame i act s) := by
  unfold takeFrame
  split
  · split
    · next ht =>
      simp only [State.takes, Bool.or_eq_true, Bool.and_eq_true, beq_iff_eq] at ht
      have htaken : LineRight (taken s) ∧ (taken s).tif.link = .listening := by
        obtain ⟨⟨⟨hl, hb⟩, -⟩, -⟩ | ⟨⟨hl, -⟩, -⟩ := ht
        · exact taken_line hs (.inl hl) fun _ => hb
        · exact taken_line hs (.inr hl) fun h => by rw [hl] at h; cases h
      exact h _ htaken.1 htaken.2
    · exact hs
  · exact hs

/-- An ANSWER is admitted with its answer slot occupied (R170, R171). -/
theorem answerWith_line {u : State} {j : Fin 2} {st : StationId} {ref : Byte} {kind : BitVec 4} {r : Reply} (hu : LineRight u)
    (hl : u.tif.link = .listening) (hj : u.freeSlot? = some j) (h : Sends 0 (occupySlot j st ref kind u) r.state) :
    LineRight (answerWith j st ref kind r) := by
  have hview := h.view
  have hanswers : r.state.answers = u.answers := congrArg LineView.answers hview
  have hfh : r.state.fh = (occupySlot j st ref kind u).fh := congrArg LineView.fh hview
  have hwith := answerWith_eq j st ref kind (r := r) (by rw [hanswers]; exact answers_lt_two hj hu.answers)
  have hfreed : Sends 0 u { r.state with fh := u.fh } := by
    refine ⟨fun htx => .of_same (s := r.state) rfl rfl (fun _ => rfl) (h.right (.of_same (s := u) rfl rfl (fun _ => rfl) htx)),
      ?_, h.held⟩
    exact congrArg (fun v => { v with fh := u.fh : LineView }) hview
  have hline := hfreed.line_off (by simp [hl]) hu
  have hlink : r.state.tif.link = u.tif.link := congrArg LineView.link hview
  have hadmitted : TxRight 0 (answerWith j st ref kind r) :=
    enqueue_txRight _ (h.right (.of_same (s := u) rfl rfl (fun _ => rfl) (hu.off (by simp [hl]))))
  rw [hwith] at hadmitted ⊢
  refine ⟨?_, ?_, hline.together, hline.breaks, hline.frames⟩
  · rw [if_neg]
    · exact hadmitted
    · show r.state.tif.link ≠ .sending
      simp [hlink, hl]
  · have hheld := (answersHeld_iff u).1 hu.answers
    have hjoined : (r.state.withAnswer j st ref kind r.result r.contents).answers
        = u.answers ++ [answerEntry j st ref kind r.result r.contents] := by
      rw [← hanswers]
      simp [State.answers, State.withAnswer, answerEntry, TxFrame.isAnswer]
    have hslots : (r.state.withAnswer j st ref kind r.result r.contents).fh.slots = u.fh.slots.set j (some ⟨st, ref, kind⟩) :=
      congrArg Fh.slots hfh
    refine (answersHeld_iff _).2 fun i => ?_
    rw [hjoined, hslots, List.countP_append, hheld, List.countP_singleton]
    by_cases hij : j = i
    · subst hij
      have hone : (answerEntry j st ref kind r.result r.contents).frame.isAnswerOf j = true := beq_self_eq_true j
      rw [freeSlot_some hj, if_pos hone]
      simp
    · have hother : (answerEntry j st ref kind r.result r.contents).frame.isAnswerOf i = false := beq_false_of_ne hij
      have hne : (j : Nat) ≠ i := fun h => hij (Fin.ext h)
      simp [hother, Vector.getElem_set_ne _ _ hne]

/-- A request is served: its answer slot is occupied, its owner acts, and the ANSWER is admitted (R170, R171). -/
theorem serve_line {i : Instr} {st : StationId} {ref : Byte} {kind : BitVec 4} {act : State → Reply} {s : State}
    (hs : LineRight s) (h : ∀ u, Sends 0 u (act u).state) : LineRight (serve i st ref kind act s) := by
  refine takeFrame_line hs fun u hu hl => ?_
  split
  · next j hj => exact answerWith_line hu hl hj (h _)
  · exact hu

theorem runOnly_sends {n : Nat} {act : State → Reply} {s : State} (h : Sends n s (act s).state) :
    Sends n s (runOnly act s).state := by
  unfold runOnly
  split
  · exact h
  · exact .refl n s

theorem setupOnly_sends {n : Nat} {act : State → Reply} {s : State} (h : s.ss.node = .setup → Sends n s (act s).state) :
    Sends n s (setupOnly act s).state := by
  unfold setupOnly
  split
  · next hn => exact h hn
  · exact .refl n s

theorem inRun_sends {n : Nat} {act : State → State} {s : State} (h : Sends n s (act s)) : Sends n s (inRun act s) := by
  unfold inRun
  split
  · exact h
  · exact .refl n s

theorem onGroup_sends {n : Nat} {a : GroupAddr} {act : Fin 8 → State → State} {s : State} (h : ∀ k, Sends n s (act k s)) :
    Sends n s (onGroup a act s) := by
  unfold onGroup
  split
  · exact h _
  · exact .refl n s

/-! ### Reset, the start of an attempt, and SILENT -/

theorem resetNode_line (straps : Straps) (c : ResetCause) (s : State) : LineRight (resetNode straps c s) := by
  have hqueue : (resetNode straps c s).tif.queue = [] := rfl
  have howed : (resetNode straps c s).tif.owed = Vector.replicate 8 none := rfl
  have hslots : (resetNode straps c s).fh.slots = Vector.replicate 2 none := rfl
  have hheld : ∀ u : Fin 4, ((resetNode straps c s).pb.units[u]).held = none := by
    show ∀ u : Fin 4, ((State.reset.pb.units)[u]).held = none
    decide
  refine .of_quiet (.of_off (fun f => ?_) (by simp [hqueue]) (fun k => by simp [howed]) hheld) ?_ nofun
    (iff_of_true rfl rfl) rfl (.inl rfl)
  · rw [alike_eq_countP, hqueue]
    exact Nat.zero_le _
  · refine (answersHeld_iff _).2 fun i => ?_
    rw [State.answers, hqueue, hslots]
    simp

/-- The end of a reset finds the node HELD and nothing on the line (R43). -/
theorem endReset_line {s : State} (hs : LineRight s) (hn : s.ss.node = .held) : LineRight (endReset s) := by
  have hl : s.tif.link = .held := hs.together.1 hn
  unfold endReset
  split
  · refine .of_quiet (TxRight.of_same (s := s) rfl rfl (fun _ => rfl) (hs.off (by simp [hl]))) hs.answers nofun
      (iff_of_false nofun nofun) (hs.breaks.resolve_right fun hb => ?_) (hs.frames.imp_right And.right)
    rw [hl] at hb
    cases hb.1
  · exact hs

theorem putOnLine_eq_some {p : TxFrame → Bool} {q q' : List TxEntry} (h : putOnLine p q = some q') :
    ∃ pre e post, q = pre ++ e :: post ∧ q' = pre ++ { e with onLine := true } :: post ∧ p e.frame = true
      ∧ e.withdrawn = false ∧ ∀ x ∈ pre, p x.frame = false ∨ x.withdrawn = true := by
  induction q generalizing q' with
  | nil => cases h
  | cons x q ih =>
    rw [putOnLine] at h
    split at h
    · next hx =>
      cases h
      simp only [Bool.and_eq_true, Bool.not_eq_true'] at hx
      exact ⟨[], x, q, rfl, rfl, hx.1, hx.2, nofun⟩
    · next hx =>
      obtain ⟨q'', hq, rfl⟩ := Option.map_eq_some_iff.1 h
      obtain ⟨pre, e, post, rfl, rfl, hp, hw, hpre⟩ := ih hq
      refine ⟨x :: pre, e, post, rfl, rfl, hp, hw, fun y hy => ?_⟩
      obtain rfl | hy := List.mem_cons.1 hy
      · exact Decidable.or_iff_not_imp_left.2 (by simpa using hx)
      · exact hpre y hy

/-- An entry of the transmit queue goes on the line (R23). -/
theorem putOnLine_txRight {s : State} {p : TxFrame → Bool} {q : List TxEntry} (h : putOnLine p s.tif.queue = some q)
    (hs : TxRight 0 s) : TxRight 1 { s with tif := { s.tif with queue := q } } := by
  obtain ⟨pre, e, post, hq, rfl, -, hw, -⟩ := putOnLine_eq_some h
  obtain ⟨hzero, ho⟩ := Nat.add_eq_zero_iff.1 (show _ + _ = 0 from hs.line)
  have hoff : ∀ x ∈ s.tif.queue, x.onLine = false := by simpa [List.countP_eq_zero] using hzero
  refine ⟨limitsKept_of_sublist (by simp [hq]) hs.limits, ?_, fun x hx hxw => ?_, fun u hu => ?_⟩
  · rw [hq, List.countP_append, List.countP_cons] at hzero
    rw [State.framesOnLine]
    dsimp only
    rw [List.countP_append, List.countP_cons, ho]
    simp only [if_true]
    omega
  · have hmem : x = { e with onLine := true } ∨ x ∈ s.tif.queue := by
      rw [hq]
      obtain hx | hx := List.mem_append.1 hx
      · exact .inr (List.mem_append_left _ hx)
      · obtain rfl | hx := List.mem_cons.1 hx
        · exact .inl rfl
        · exact .inr (List.mem_append_right _ (List.mem_cons_of_mem _ hx))
    obtain rfl | hx := hmem
    · rw [show (e.withdrawn = true) = (false = true) from by rw [hw]] at hxw
      cases hxw
    · exact hs.withdrawn x hx hxw
  · obtain ⟨x, hx, -, hon⟩ := hs.held u hu
    rw [hoff x hx] at hon
    cases hon

/-- An owed HALT goes on the line (R23). -/
theorem onLine_set_owed {s : State} (k : Fin 8) (e : HaltEntry) (hs : TxRight 0 s) :
    TxRight 1 { s with tif := { s.tif with owed := s.tif.owed.set k (some { e with onLine := true }) } } := by
  obtain ⟨hzero, ho⟩ := Nat.add_eq_zero_iff.1 (show _ + _ = 0 from hs.line)
  refine ⟨hs.limits, ?_, hs.withdrawn, hs.held⟩
  have hlen : (k : Nat) < s.tif.owed.toList.length := by simp
  rw [State.framesOnLine]
  dsimp only
  rw [hzero, Vector.toList_set, List.countP_set hlen, ho]
  simp

theorem chooseFrame_txRight {s t : State} (h : chooseFrame s = some t) (hs : TxRight 0 s) :
    TxRight 1 t ∧ t.fh = s.fh ∧ t.ss = s.ss ∧ t.tif.breakLeft = s.tif.breakLeft
      ∧ ∀ i, (t.answers.countP fun e => e.frame.isAnswerOf i) = s.answers.countP fun e => e.frame.isAnswerOf i := by
  have hcount {p : TxFrame → Bool} {q : List TxEntry} (hq : putOnLine p s.tif.queue = some q) (i : Fin 2) :
      ((q.filter fun e => e.frame.isAnswer).countP fun e => e.frame.isAnswerOf i)
        = (s.tif.queue.filter fun e => e.frame.isAnswer).countP fun e => e.frame.isAnswerOf i := by
    obtain ⟨pre, e, post, hq', rfl, -, -, -⟩ := putOnLine_eq_some hq
    rw [hq']
    simp only [List.filter_append, List.filter_cons, List.countP_append]
    congr 1
    split <;> simp [List.countP_cons]
  unfold chooseFrame at h
  split at h
  · next k hk =>
    cases h
    obtain ⟨e, he⟩ := Option.isSome_iff_exists.1 (List.find?_some (p := fun k : Fin 8 => (s.tif.owed[k]).isSome) hk)
    have heq : (s.tif.owed[k]).map (fun e : HaltEntry => { e with onLine := true }) = some { e with onLine := true } := by rw [he]; rfl
    rw [heq]
    exact ⟨onLine_set_owed k e hs, rfl, rfl, rfl, fun _ => rfl⟩
  · split at h
    · next q hq =>
      cases h
      exact ⟨putOnLine_txRight hq hs, rfl, rfl, rfl, hcount hq⟩
    · obtain ⟨q, hq, rfl⟩ := Option.map_eq_some_iff.1 h
      exact ⟨putOnLine_txRight hq hs, rfl, rfl, rfl, hcount hq⟩

theorem node_ne_held {s : State} (hs : LineRight s) (hl : s.tif.link ≠ .held) : s.ss.node ≠ .held := fun h => hl (hs.together.1 h)

/-- A LISTENING node reads the line and may start an attempt (R4, R5, R23). -/
theorem attemptStart_line {bits : List TrunkBit} {s t : State} (h : execAttemptStart s bits = .next t) (hs : LineRight s) :
    LineRight t := by
  cases h
  split
  swap
  · exact hs
  next hl =>
  obtain ⟨hlink, hbreak⟩ := hl
  have hoff : TxRight 0 (readLine bits s) := TxRight.of_same (s := s) rfl rfl (fun _ => rfl) (hs.off (by simp [hlink]))
  have hnode : s.ss.node ≠ .held := node_ne_held hs (by simp [hlink])
  have hread : LineRight (readLine bits s) := by
    refine .of_quiet hoff hs.answers (by simp [hlink]) (iff_of_false hnode (by simp [hlink])) hbreak ?_
    by_cases hidle : Config.idleLength ≤ idleCountAfter s.tif.idleCount bits
    · exact .inl (if_pos hidle)
    · exact .inr (Nat.lt_of_not_le hidle)
  dsimp only
  split
  · split
    · next u hu =>
      obtain ⟨htx, hfh, hss, hbr, hcount⟩ := chooseFrame_txRight hu hoff
      refine ⟨?_, ?_, iff_of_false ?_ nofun, .inl (hbr.trans hbreak), .inl rfl⟩
      · rw [if_pos (by rfl)]
        exact TxRight.of_same (s := u) rfl rfl (fun _ => rfl) htx
      · refine (answersHeld_iff _).2 fun i => ?_
        show (u.answers.countP fun e => e.frame.isAnswerOf i) = if (u.fh.slots[i]).isSome then 1 else 0
        rw [hcount, hfh]
        exact (answersHeld_iff _).1 hread.answers i
      · show u.ss.node ≠ .held
        rw [hss]
        exact hnode
    · exact hread
  · exact hread

/-- The entry into SILENT (R16, R45): nothing is left to send, and every answer slot is free. -/
theorem enterSilent_line {s : State} (hs : LineRight s) (hl : s.tif.link = .sending) : LineRight (enterSilent s) := by
  have hsilence : LineRight (silence s) := by
    have hqueue : (silence s).tif.queue = [] := rfl
    have howed : (silence s).tif.owed = Vector.replicate 8 none := rfl
    have hslots : (silence s).fh.slots = Vector.replicate 2 none := rfl
    have hunits : (silence s).pb.units = s.pb.units.map fun x => { x with held := none } := rfl
    have hbreak : s.tif.breakLeft = 0 := hs.breaks.resolve_right fun hb => by rw [hl] at hb; cases hb.1
    have hreception : s.tif.reception = .awaits := hs.frames.resolve_right fun hf => hf.1 hl
    refine .of_quiet (.of_off (fun f => ?_) (by simp [hqueue]) (fun k => by simp [howed]) fun u => by simp [hunits]) ?_ nofun
      (iff_of_false nofun nofun) hbreak (.inl hreception)
    · rw [alike_eq_countP, hqueue]
      exact Nat.zero_le _
    · refine (answersHeld_iff _).2 fun i => ?_
      rw [State.answers, hqueue, hslots]
      simp
  have hlow (n : Nat) (u : State) : Sends n u (driveDen (stopTimer u)) := (ru_sends u _).trans (gd_sends _ _)
  unfold enterSilent
  refine Sends.line (s := silence s) (fun n => Sends.trans ?_ (hlow n _)) hsilence
  split
  · split
    · exact guardLeave_sends ..
    · exact guardAdd_sends ..
  · exact gd_sends _ _

/-! ### Every command -/

theorem pins_sends {n : Nat} (s : State) (x : Pins) : Sends n s { s with pins := x } :=
  ⟨TxRight.of_same rfl rfl fun _ => rfl, rfl, Iff.rfl⟩

/-- A change of the line of a node that is not SENDING. -/
theorem LineRight.of_line {s : State} (hs : LineRight s) (x : Tif) (hq : x.queue = s.tif.queue) (ho : x.owed = s.tif.owed)
    (hl : s.tif.link ≠ .sending) (hl' : s.tif.link ≠ .held) (hx : x.link ≠ .sending) (hx' : x.link ≠ .held)
    (hb : x.breakLeft = 0 ∨ x.link = .listening ∧ x.reception = .skips) (hf : x.reception = .awaits ∨ x.idleCount < 9) :
    LineRight { s with tif := x } where
  tx := by
    rw [if_neg hx]
    exact TxRight.of_same hq ho (fun _ => rfl) (hs.off hl)
  answers := answersHeld_congr (s := s) (by simp only [State.answers, hq]) rfl hs.answers
  together := by
    have hn : s.ss.node ≠ .held := node_ne_held hs hl'
    exact iff_of_false hn hx'
  breaks := hb
  frames := hf.imp_right fun h => ⟨hx, h⟩

/-- A node that drives a break is LISTENING (R3). -/
theorem LineRight.no_break {s : State} (hs : LineRight s) (hl : s.tif.link ≠ .listening) : s.tif.breakLeft = 0 :=
  hs.breaks.resolve_right fun hb => hl hb.1

/-- The node's own frame is taken. -/
theorem sends_line {s : State} {p : TxFrame → Bool} (hs : LineRight s) (h : s.sends p = true) : LineRight (taken s) := by
  simp only [State.sends, Bool.and_eq_true, beq_iff_eq] at h
  obtain ⟨⟨⟨hl, -⟩, -⟩, -⟩ := h
  exact (taken_line hs (.inr hl) fun h => by rw [hl] at h; cases h).1

/-- A command keeps the laws of the line: one arm for each row, by the operation that is its meaning. -/
theorem exec_line {c : Instr} {s t : State} (ht : exec c s = .next t) (hs : LineRight s) : LineRight t := by
  have hpins (n : Nat) (x : Pins) : Sends n s { s with pins := x } := pins_sends s x
  cases c with
  | nresetAsserted straps =>
    cases ht
    exact Sends.line (fun _ => pins_sends _ _) (resetNode_line ..)
  | nresetReleased straps =>
    cases ht
    split
    · next h => exact endReset_line (hs.of_same rfl rfl rfl fun _ => rfl) h.2
    · exact hs
  | restartTaken source straps =>
    cases ht
    refine takeFrame_line hs fun u hu _ => ?_
    split
    · exact endReset_line (resetNode_line ..) rfl
    · exact hu
  | joiningIdleReached =>
    cases ht
    split
    · next hl =>
      exact hs.of_line _ rfl rfl (by simp [hl]) (by simp [hl]) nofun nofun (.inl (hs.no_break (by simp [hl]))) (.inl rfl)
    · exact hs
  | attemptStart bits => exact attemptStart_line ht hs
  | arbitrationLost =>
    cases ht
    split
    · next hl => exact leaveSending_line _ hs hl.1 attemptWaits_ends
    · exact hs
  | mismatchTestEnd levels =>
    cases ht
    split
    · next hl =>
      split
      · exact leaveSending_line _ hs hl.1 attemptVoid_ends
      · exact enterSilent_line hs hl.1
    · exact hs
  | codingError bits =>
    cases ht
    split
    · next hl =>
      exact hs.of_line _ rfl rfl (by simp [hl.1]) (by simp [hl.1]) (by simp [hl.1]) (by simp [hl.1]) (.inr ⟨hl.1, rfl⟩)
        (.inr (Nat.succ_pos 8))
    · exact hs
  | frameVoided bits a b =>
    cases ht
    split
    · next hl =>
      split
      · exact hs
      · dsimp only
        split
        · exact hs
        · exact hs.of_line _ rfl rfl (by simp [hl.1]) (by simp [hl.1]) nofun nofun (.inl hl.2) (.inl rfl)
    · exact hs
  | attemptVoided how =>
    cases ht
    split
    · next hl => exact leaveSending_line _ hs hl.1 attemptVoid_ends
    · exact hs
  | linkStuck =>
    cases ht
    split
    · next hl =>
      refine Sends.line (fun _ => guardTake_sends ..) (hs.of_line _ rfl rfl (by simp [hl]) (by simp [hl]) nofun nofun (.inl rfl) ?_)
      exact .inr (Nat.succ_pos 8)
    · exact hs
  | stuckRecovery =>
    cases ht
    split
    · next hl =>
      exact Sends.line (fun _ => produce_sends ..) (hs.of_line _ rfl rfl (by simp [hl]) (by simp [hl]) nofun nofun
        (.inl (hs.no_break (by simp [hl]))) (.inl rfl))
    · exact hs
  | frameTakenNoEffect f =>
    cases ht
    split
    · exact takeFrame_line hs fun u hu _ => hu
    · exact hs
  | ownAnswerTaken =>
    cases ht
    split
    · next h => exact sends_line hs h
    · exact hs
  | ownNoticeTaken =>
    cases ht
    split
    · next h => exact sends_line hs h
    · exact hs
  | haltGroupTaken source group cause mode tag =>
    cases ht
    refine takeFrame_line hs fun u hu hl => Sends.line (fun n => inRun_sends (onGroup_sends fun k => ?_)) hu
    split
    · exact (haltSlot_sends ..).trans (settle_sends _)
    · exact .refl n u
  | haltAllTaken source cause mode tag =>
    cases ht
    refine takeFrame_line hs fun u hu hl => Sends.line (fun n => inRun_sends ?_) hu
    split
    · exact (foldl_sends _ _ (fun v k => haltSlot_sends ..) u).trans ((haltUngrouped_sends ..).trans (guardLatchPeer_sends ..))
    · exact .refl n u
  | clearGroupTaken source group x =>
    cases ht
    refine takeFrame_line hs fun u hu hl => Sends.line_off (inRun_sends (onGroup_sends fun k => ?_)) (by simp [hl]) hu
    dsimp only
    split
    · exact (clearSlot_sends ..).trans (evaluate_sends _)
    · exact clearSlot_sends ..
  | clearAllTaken source x =>
    cases ht
    exact takeFrame_line hs fun u hu hl => Sends.line_off (inRun_sends ((foldl_sends _ _ (fun v k => clearSlot_sends ..) u).trans
      ((guardRemovePeer_sends _).trans (evaluate_sends _)))) (by simp [hl]) hu
  | clearStationTaken source reference =>
    cases ht
    exact serve_line hs fun u => runOnly_sends (clearGuard_sends u)
  | readyTaken source group x tag =>
    cases ht
    exact takeFrame_line hs fun u hu _ => Sends.line (fun n => inRun_sends (onGroup_sends fun k => takeReady_sends ..)) hu
  | markTaken source unit packed position =>
    cases ht
    refine takeFrame_line hs fun u hu _ => Sends.line (fun n => inRun_sends ?_) hu
    split
    · exact hearMark_sends ..
    · exact .refl n u
  | load source reference record =>
    cases ht
    exact serve_line hs fun u => runOnly_sends (loadSegment_sends ..)
  | flushAll source reference value =>
    cases ht
    refine serve_line hs fun u => runOnly_sends ?_
    split
    · exact flushMatching_sends ..
    · exact .refl 0 u
  | flushTag source reference value =>
    cases ht
    refine serve_line hs fun u => runOnly_sends ?_
    split
    · exact .refl 0 u
    · exact flushMatching_sends ..
  | flushSlot source reference value =>
    cases ht
    refine serve_line hs fun u => runOnly_sends ?_
    split
    · exact .refl 0 u
    · exact flushMatching_sends ..
  | stop source reference mode tag =>
    cases ht
    exact serve_line hs fun u => runOnly_sends (stopSegment_sends ..)
  | marksetArm source reference unit sc threshold period =>
    cases ht
    refine serve_line hs fun u => runOnly_sends ?_
    split
    · exact .refl 0 u
    · split
      · exact .refl 0 u
      · split
        · exact .refl 0 u
        · exact armUnit_sends ..
  | marksetDisarm source reference unit unused =>
    cases ht
    refine serve_line hs fun u => runOnly_sends ?_
    split
    · exact .refl 0 u
    · exact disarmUnit_sends ..
  | queryStatus source reference item qi =>
    cases ht
    refine serve_line hs fun u => ?_
    dsimp only
    split <;> exact pins_sends u _
  | queryPosition source reference item =>
    cases ht
    refine serve_line hs fun u => ?_
    split <;> exact .refl 0 u
  | queryQueue source reference item =>
    cases ht
    refine serve_line hs fun u => ?_
    split <;> exact .refl 0 u
  | queryGroup source reference item =>
    cases ht
    refine serve_line hs fun u => ?_
    split <;> exact .refl 0 u
  | queryMarks source reference item =>
    cases ht
    refine serve_line hs fun u => ?_
    split
    · exact .refl 0 u
    · split <;> exact .refl 0 u
  | querySetup source reference item =>
    cases ht
    refine serve_line hs fun u => ?_
    split <;> exact .refl 0 u
  | setup source reference fields =>
    cases ht
    refine serve_line hs fun u => setupOnly_sends fun _ => ?_
    split
    · exact .refl 0 u
    · exact applySettings_sends ..
  | define source reference slot address roster =>
    cases ht
    refine serve_line hs fun u => setupOnly_sends fun _ => ?_
    split
    · exact .refl 0 u
    · split
      · exact .refl 0 u
      · exact ru_sends u _
      · exact ru_sends u _
  | commit source reference =>
    cases ht
    exact serve_line hs fun u => setupOnly_sends commitSetup_sends
  | rendezvousTimeout =>
    cases ht
    split
    · split
      · exact Sends.line (fun _ => localHalt_sends ..) hs
      · exact hs
    · exact hs
  | intervalEnd =>
    have h (n : Nat) : Sends n s t := by
      obtain ⟨u, hu, hk⟩ := intervalEnd_sends (n := n) s
      cases hu.symm.trans ht
      exact hk
    exact Sends.line h hs
  | pulseHighEnd =>
    cases ht
    exact Sends.line (fun _ => lowerPulse_sends s) hs
  | dwellEnd =>
    cases ht
    split
    · exact Sends.line (fun _ => (pg_sends s _).trans (settleIdle_sends _)) hs
    · exact hs
  | driveFaultChange level =>
    cases ht
    split
    · exact hs
    · refine Sends.line (fun n => (hpins n { s.pins with dflt := level }).trans ?_) hs
      dsimp only
      split
      · exact guardTake_sends ..
      · exact .refl n _
  | limitInputChange input level => cases input <;> cases ht <;> exact Sends.line (fun n => hpins n _) hs
  | refChange level =>
    cases ht
    split
    · exact hs
    · refine Sends.line (fun n => (hpins n { s.pins with ref := level }).trans ?_) hs
      dsimp only
      split
      · split
        · exact .refl n _
        · split
          · exact pg_sends _ _
          · split
            · exact referenceEdge_sends ..
            · exact .refl n _
      · exact .refl n _
  | qiRise =>
    cases ht
    refine Sends.line (fun n => (hpins n { s.pins with qi := .high }).trans ?_) hs
    dsimp only
    split
    · split
      · split
        · exact (pg_sends _ _).trans (applyPreset_sends _)
        · exact pg_sends _ _
      · exact .refl n _
    · exact .refl n _
  | quadratureTransition qa qb =>
    cases ht
    have hdecoder (n : Nat) : Sends n s (s.decoded (quadOf qa qb)) := ⟨TxRight.of_same rfl rfl fun _ => rfl, rfl, Iff.rfl⟩
    refine Sends.line (fun n => (hdecoder n).trans ?_) hs
    dsimp only [State.decoded]
    split
    · exact guardTake_sends ..
    · exact stepFeedback_sends ..
  | mismatch =>
    cases ht
    split
    · exact Sends.line (s := s) (fun n => ⟨TxRight.of_same rfl rfl fun _ => rfl, rfl, Iff.rfl⟩) hs
    · exact hs
  | breakEnd =>
    cases ht
    split
    · exact hs
    · next hb =>
      obtain ⟨hl, hr⟩ := hs.breaks.resolve_left hb
      exact hs.of_line _ rfl rfl (by simp [hl]) (by simp [hl]) (by simp [hl]) (by simp [hl]) (.inl rfl) (.inr (Nat.succ_pos 8))

theorem tick_line {s : State} (hs : LineRight s) : LineRight (tick s) := by
  have hline : LineRight { s with tif := lineTick s.tif } := by
    unfold lineTick
    split
    · next h =>
      obtain ⟨hl, hb, -⟩ := h
      exact hs.of_line _ rfl rfl (by simp [hl]) (by simp [hl]) (by simp [hl]) (by simp [hl]) (.inl hb) (.inl rfl)
    · exact hs
  exact hline.of_same rfl rfl rfl fun _ => rfl

/-- One step keeps the laws of the line. -/
theorem step_line {s t : State} (h : step s = .next t) (hs : LineRight s) : LineRight t := by
  unfold step at h
  split at h
  · cases h
    exact tick_line hs
  · exact exec_line h (hs.of_same rfl rfl rfl fun _ => rfl)

/-- Settles O58: the seven laws together are one invariant, for the end of an attempt finds by them what was on the line. -/
theorem stepKeepsTheTransmitQueue : Obligations.StepKeepsTheTransmitQueue := by
  intro s t h1 h2 h3 h4 h5 h6 h7 h
  obtain ⟨k1, k2, k3, k4, k5, k6, k7⟩ := (lineRight_iff t).1 (step_line h ((lineRight_iff s).2 ⟨h1, h2, h3, h4, h5, h6, h7⟩))
  exact ⟨k1, k2, k3, k4, k5, k6, k7⟩

end Sys2Proof.Machine
end

