-- ==== Sys2Proof/Proofs/PlainLaws.lean ====
section
/-! PROOFS. The step, reset, the ends of the link's counts, the plain events of the axis, and the frames that do
nothing. -/

namespace Sys2Proof.Machine

/-! ### The step and reset -/

/-- Settles O1: the definition of a step, at a queue that is not empty. -/
theorem stepRunsTheFrontCommand : Obligations.StepRunsTheFrontCommand := fun _ _ _ => rfl

/-- A count of milliseconds holds at 1 (entry 3). -/
theorem tickDown_eq (n : Nat) : tickDown n = if n ≤ 1 then n else n - 1 := by
  unfold tickDown
  split <;> split <;> omega

theorem hears_iff {s : State} : s.hears = true ↔ s.tif.link = .listening ∧ s.tif.breakLeft = 0 := by
  simp [State.hears]

/-- A broken frame is over for a node that hears and skips it (R3). -/
theorem lineTick_of_skips {s : State} (h : s.hears = true) (hs : s.tif.reception = .skips) :
    lineTick s.tif = { s.tif with reception := .awaits } := by
  obtain ⟨hl, hb⟩ := hears_iff.1 h
  exact if_pos ⟨hl, hb, hs⟩

theorem lineTick_of_not {s : State} (h : s.hears = false ∨ s.tif.reception ≠ .skips) : lineTick s.tif = s.tif := by
  refine if_neg fun ⟨hl, hb, hs⟩ => ?_
  obtain h | h := h
  · rw [hears_iff.2 ⟨hl, hb⟩] at h
    exact Bool.noConfusion h
  · exact h hs

/-- Settles O2: a step with no command waiting is a tick, split on whether a broken frame is over with it. -/
theorem idleStepPassesAMillisecond : Obligations.IdleStepPassesAMillisecond := by
  intro s hs
  refine ⟨tick s, by rw [step, hs], ?_, fun h hr => congrArg Tif.reception (lineTick_of_skips h hr), lineTick_of_not,
    fun h => ?_, fun n h => ?_, fun h => if_neg h, fun h => (if_pos h).trans (tickDown_eq _)⟩
  · by_cases h : s.hears = true ∧ s.tif.reception = .skips
    · simp only [tick, lineTick_of_skips h.1 h.2]
    · have hn : s.hears = false ∨ s.tif.reception ≠ .skips := by
        rw [not_and_or, Bool.not_eq_true] at h
        exact h
      simp only [tick, lineTick_of_not hn]
  · show s.ru.timer.map tickDown = none
    rw [h]
    rfl
  · show s.ru.timer.map tickDown = _
    rw [h, ← tickDown_eq, Option.map_some]

/-- Settles O4: nRESET low gives the reset state field by field. -/
theorem nresetAssertedResetsEveryBlock : Obligations.NresetAssertedResetsEveryBlock := fun _ _ => rfl

/-- The station numbers that a node may have (R41). -/
theorem stationOk_iff (n : StationId) : stationOk n = true ↔ 1 ≤ n.toNat ∧ n.toNat ≤ 62 := by
  have h := n.isLt
  have h0 : n ≠ 0 ↔ n.toNat ≠ 0 := not_congr (BitVec.toNat_eq (y := 0#6))
  have h63 : n ≠ 63 ↔ n.toNat ≠ 63 := not_congr (BitVec.toNat_eq (y := 63#6))
  rw [stationOk, Bool.and_eq_true, bne_iff_ne, bne_iff_ne, h0, h63]
  omega

/-- Settles O5: the end of a reset, split on the station number that the straps give. -/
theorem nresetReleasedEndsReset : Obligations.NresetReleasedEndsReset := by
  intro straps s hn hh
  have hok := stationOk_iff straps.stn
  refine (congrArg Host.Outcome.next (if_pos ⟨hn, hh⟩)).trans ?_
  by_cases h : stationOk straps.stn = true
  · rw [if_pos (hok.1 h), if_pos (hok.1 h)]
    exact congrArg Host.Outcome.next (if_pos h)
  · rw [if_neg (mt hok.2 h), if_neg (mt hok.2 h), ← hh]
    exact congrArg Host.Outcome.next (if_neg h)

/-! ### The link's counts and the mismatch test -/

/-- Settles O15: each end of a count, in the link state in which it runs. -/
theorem joiningStuckAndRecovery : Obligations.JoiningStuckAndRecovery := by
  refine ⟨fun s h => ?_, fun s h => ?_, fun s h => ?_⟩
  · exact congrArg Host.Outcome.next (if_pos h)
  · exact congrArg Host.Outcome.next (if_pos h)
  · exact congrArg Host.Outcome.next (if_pos h)

/-- Settles O56: every law is a finite fact of the reset state but for the limits, which an empty queue keeps. -/
theorem resetKeepsEveryLaw : Obligations.ResetKeepsEveryLaw := by
  refine ⟨by decide, fun f => ?_, by decide, by decide, by decide, by decide, by decide, by decide, by decide, by decide,
    by decide, by decide, by decide, by decide, by decide, by decide, by decide⟩
  cases f <;> exact Nat.zero_le _

/-! ### The plain events of the axis -/

/-- An input is active at the level that its polarity names. -/
theorem isActive_iff (level : Level) (activeHigh : Bool) :
    isActive level activeHigh = true ↔ (level = .high ↔ activeHigh = true) := by
  cases level <;> cases activeHigh <;> decide

/-- Settles O45: each event by its own branch; the DWELL's end finds its head RUNNING. -/
theorem plainAxisEvents : Obligations.PlainAxisEvents := by
  intro level s
  refine ⟨isActive_iff _ _, isActive_iff _ _, isActive_iff _ _, isActive_iff _ _, ?_, fun h rest hq hr hp => ?_,
    fun hd => ?_, rfl, rfl⟩
  · show Host.Outcome.next (lowerPulse s) = _
    unfold lowerPulse
    cases s.ss.settings.form <;> rfl
  · have hc : (s.head?.any (fun h => h.state == .running) && s.pg.phase == .dwell) = true := by
      simp [State.head?, hq, hr, hp]
    exact congrArg Host.Outcome.next (if_pos hc)
  · show Host.Outcome.next (if s.pins.dflt = level then s else _) = _
    rw [if_neg hd]
    exact congrArg Host.Outcome.next (if_congr (isActive_iff level _) rfl rfl)

/-! ### Frames that act nowhere -/

/-- Window bit A at its level: dominant for a complaint. -/
theorem windowBit_eq (b : Bool) : windowBit b = !b := by
  cases b <;> rfl

/-- Settles O14: the node decodes the whole frame, and some window bit is dominant. -/
theorem frameVoidedActsNowhere : Obligations.FrameVoidedActsNowhere := by
  intro gap bits othersA othersB f checks s hr hf a b hc
  obtain ⟨m, hm⟩ := hr.decodes bits
  have hframe : (s.decodes (gap ++ bits)).bind receivedFrame = some (f, checks) := by
    rw [hm, Option.bind_some, receivedFrame_recessives, hf]
  have hb : s.complainsB f checks = b := by
    simp only [State.complainsB, State.busyFor, freeSlot_isNone, b, Bool.and_assoc]
  have hlevel : ¬ (!a && othersA && !b && othersB) = recessive := by
    rw [Bool.not_eq_true]
    obtain h | h | h | h := hc <;> rw [h] <;> simp
  refine congrArg Host.Outcome.next ((if_pos (hears_iff.1 hr.hears)).trans ?_)
  rw [hframe]
  simp only [hb, windowBit_eq]
  exact if_neg hlevel

/-- What an attempt's end tells the producer leaves the receiver alone. -/
theorem attemptWaits_receiver (s : State) : (attemptWaits s).receiver = s.receiver := by
  unfold attemptWaits
  split
  · rfl
  · split
    · rfl
    · split
      · rfl
      · dsimp only
        split
        · rfl
        · exact (receiver_of_outside (foldHeld_outside _ _)).trans rfl
        · rfl
        · exact (receiver_of_outside (noticeWaits_outside _)).trans rfl

theorem abandoned_receiver (f : TxFrame) (s : State) : (abandoned f s).receiver = s.receiver := by
  cases f with
  | ready k g n tag =>
    unfold abandoned
    dsimp only
    split
    · exact receiver_of_outside ((produce_outside _ _ _).trans (localHalt_outside _ _ _ _ _))
    · rfl
  | mark u f => exact receiver_of_outside ((releaseHeld_outside _ _).trans (produce_outside _ _ _))
  | answer i st p => rfl
  | notice d o n => exact receiver_of_outside (noticeAbandoned_outside s)

theorem attemptVoid_receiver (s : State) : (attemptVoid s).receiver = s.receiver := by
  unfold attemptVoid
  dsimp only
  split
  · split
    · rfl
    · split
      · exact receiver_of_outside (guardTake_outside _ _ _)
      · rfl
  · split
    · rfl
    · split
      · rfl
      · split
        · exact abandoned_receiver _ _
        · exact attemptWaits_receiver _

/-- A voided attempt leaves a LISTENING node that decodes as the kind of its end says (R13, R15). -/
theorem attemptVoid_leaveSending (r : Reception) (s : State) :
    (attemptVoid (leaveSending r s)).tif.link = .listening ∧ (attemptVoid (leaveSending r s)).tif.reception = r := by
  have h := attemptVoid_receiver (leaveSending r s)
  simp only [State.receiver, Prod.mk.injEq] at h
  obtain ⟨hl, -, hr, -⟩ := h
  exact ⟨hl, hr⟩

/-- A node that skips a broken frame finds no error while the line does not become idle (R3). -/
theorem codingError_of_skips {s : State} {bits : List TrunkBit} (hr : s.tif.reception = .skips)
    (h : s.tif.breakLeft ≠ 0 ∨ ¬ s.everIdle bits) : exec (.codingError bits) s = .next s := by
  refine congrArg Host.Outcome.next (if_neg fun ⟨_, hb, hd⟩ => ?_)
  obtain h | h := h
  · exact h hb
  · rw [decodes_eq_none hr h] at hd
    exact Bool.noConfusion hd

/-- Settles O11: all levels dominant end the test as a break does, after which the node skips what it reads; the rest is
what the end of an attempt keeps of the line. -/
theorem mismatchTestsForABreak : Obligations.MismatchTestsForABreak := by
  intro s hs
  refine ⟨congrArg Host.Outcome.next (if_pos hs), fun hm => ?_⟩
  have hbreak : exec (.mismatchTestEnd (Vector.replicate 7 dominant)) s = .next (attemptVoid (leaveSending .skips s)) :=
    congrArg Host.Outcome.next ((if_pos ⟨hs, hm⟩).trans (if_pos (by decide)))
  obtain ⟨hl, hr⟩ := attemptVoid_leaveSending .skips s
  exact ⟨hbreak.trans (congrArg Host.Outcome.next (if_pos ⟨hs, rfl⟩)).symm, _, hbreak, hl, hr,
    fun bits hi => codingError_of_skips hr (.inr hi)⟩

/-- The node finds its address's slot, if a live group has it (R37). -/
theorem slotOfAddress_eq_none {s : State} {a : GroupAddr} :
    s.slotOfAddress? a = none ↔ ∀ k g, s.group? k = some g → g.address ≠ a := by
  rw [State.slotOfAddress?, List.find?_eq_none]
  constructor
  · intro h k g hg ha
    exact h k (mem_allSlots k) (by simp [hg, ha])
  · intro h k _ hk
    obtain ⟨g, hg, ha⟩ := (Option.any_eq_true _ _).mp hk
    exact h k g hg (beq_iff_eq.1 ha)

theorem slotOfAddress_eq_some {s : State} {a : GroupAddr} {k : Fin 8} (h : s.slotOfAddress? a = some k) :
    ∃ g, s.group? k = some g ∧ g.address = a := by
  obtain ⟨g, hg, ha⟩ := (Option.any_eq_true _ _).mp (List.find?_some (p := fun k => (s.group? k).any _) h)
  exact ⟨g, hg, beq_iff_eq.1 ha⟩

/-- A destination STATION, taken apart (R27). -/
theorem destType_destStation (n : StationId) : destType (destStation n) = 0 := by
  revert n
  decide

theorem destNumber_destStation (n : StationId) : destNumber (destStation n) = n := by
  revert n
  decide

/-- Only a request with the node's own number can draw the busy complaint (R10). -/
theorem busyFor_eq_false {s : State} {f : Frame} (h : f.dest ≠ destStation s.own ∨ f.isRequest = false) :
    s.busyFor f = false := by
  obtain h | h := h <;> simp [State.busyFor, h]

/-- A well-formed frame to a GROUP is a HALT, a CLEAR or a READY with the payload of its kind (R27, R28). -/
theorem group_frame_cases {f : Frame} (hm : f.malformed = false) (hd : destType f.dest = 1) :
    (f.kind = kindHalt ∧ ∃ c m t, f.payload = [c, m, t]) ∨ (f.kind = kindClear ∧ ∃ n, f.payload = [n])
      ∨ (f.kind = kindReady ∧ ∃ n t, f.payload = [n, t]) := by
  simp only [Frame.malformed, Bool.not_eq_false', Bool.and_eq_true] at hm
  obtain ⟨⟨⟨⟨-, htype⟩, -⟩, hlen⟩, -⟩ := hm
  rw [destTypeOk, hd] at htype
  by_cases h0 : f.kind = kindHalt
  · rw [lengthOk, if_pos h0, beq_iff_eq, List.length_eq_three] at hlen
    exact .inl ⟨h0, hlen⟩
  by_cases h1 : f.kind = kindClear
  · rw [lengthOk, if_neg h0, if_pos h1, beq_iff_eq, List.length_eq_one_iff] at hlen
    exact .inr (.inl ⟨h1, hlen⟩)
  by_cases h3 : f.kind = kindReady
  · have hlen : f.payload.length = 2 := by simpa [lengthOk, h3] using hlen
    exact .inr (.inr ⟨h3, List.length_eq_two.1 hlen⟩)
  simp only [if_neg h0, if_neg h1, if_neg h3] at htype
  split at htype
  · exact absurd htype (by decide)
  · split at htype <;> exact absurd htype (by decide)

/-- The command that a group frame without a slot is, has no effect (R37). -/
theorem noEffect_of_group {s : State} {f : Frame} (hm : f.malformed = false) (hd : destType f.dest = 1)
    (hs : s.slotOfAddress? (destNumber f.dest) = none) : s.noEffect f = true := by
  obtain ⟨hk, c, m, t, hp⟩ | ⟨hk, n, hp⟩ | ⟨hk, n, t, hp⟩ := group_frame_cases hm hd
    <;> simp [State.noEffect, commandOf, hd, hk, hp, hs]

/-- A frame that concerns the node in no way has no effect and draws no busy complaint (R10, R37). -/
theorem noEffect_of_others {s : State} {f : Frame} (hm : f.malformed = false)
    (h : destType f.dest = 0 ∧ destNumber f.dest ≠ s.own
      ∨ destType f.dest = 0 ∧ (f.kind = kindAnswer ∨ f.kind = kindNotice)
      ∨ destType f.dest = 2 ∧ f.kind = kindNotice
      ∨ destType f.dest = 1 ∧ s.slotOfAddress? (destNumber f.dest) = none) :
    s.noEffect f = true ∧ s.busyFor f = false := by
  have hto : destType f.dest ≠ 0 → s.busyFor f = false := fun hd =>
    busyFor_eq_false (.inl fun he => hd (by rw [he, destType_destStation]))
  obtain ⟨hd, hn⟩ | ⟨hd, hk⟩ | ⟨hd, hk⟩ | ⟨hd, hs⟩ := h
  · exact ⟨by simp [State.noEffect, commandOf, hd, hn],
      busyFor_eq_false (.inl fun he => hn (by rw [he, destNumber_destStation]))⟩
  · have hr : f.isRequest = false := by
      obtain hk | hk := hk <;> rw [Frame.isRequest, hk] <;> rfl
    exact ⟨by simp [State.noEffect, commandOf, hd, hr], busyFor_eq_false (.inr hr)⟩
  · exact ⟨by simp [State.noEffect, commandOf, hd, hk], hto (by rw [hd]; decide)⟩
  · exact ⟨noEffect_of_group hm hd hs, hto (by rw [hd]; decide)⟩

/-- Settles O16: the frame is one without effect, and taking it is the end of its window. -/
theorem frameTakenNoEffectChangesNothing : Obligations.FrameTakenNoEffectChangesNothing := by
  refine ⟨fun s a => ⟨slotOfAddress_eq_none, fun k => slotOfAddress_eq_some⟩, fun f s hh hm hc => ?_⟩
  obtain ⟨heffect, hbusy⟩ := noEffect_of_others hm hc
  refine congrArg Host.Outcome.next ((if_pos heffect).trans ?_)
  exact takeFrame_heard id hh (by simp [Instr.wellFormed, frameOf, hm]) rfl hbusy

/-! ### Frames outside the node state that serves them -/

/-- A coordination frame taken outside RUN is taken alone (R39). -/
theorem takeFrame_outside_run {s : State} {c : Instr} (act : State → State) (hn : s.ss.node ≠ .run)
    (ht : s.takesCommand c = true) : takeFrame c (inRun act) s = taken s :=
  (takeFrame_of_takesCommand ht _).trans (if_neg (by rwa [taken_ss]))

/-- A request that acts in RUN draws STATE outside it (R38). -/
theorem serve_runOnly_outside {s : State} {c : Instr} {i : Fin 2} {f : Frame} (st : StationId) (ref : Byte) (kind : BitVec 4)
    (act : State → Reply) (hc : s.canServe c i) (hf : frameOf s.own c = some f) (hn : s.ss.node ≠ .run) :
    serve c st ref kind (runOnly act) s = (s.served i st ref kind).withAnswer i st ref kind .state [] := by
  have hact : runOnly act (s.served i st ref kind) = refuse .state (s.served i st ref kind) := if_neg hn
  rw [serve_eq st ref kind _ hc hf (by rw [hact]; rfl), hact]
  rfl

/-- A request that acts in SETUP draws LOCKED outside it (R38, R51). -/
theorem serve_setupOnly_outside {s : State} {c : Instr} {i : Fin 2} {f : Frame} (st : StationId) (ref : Byte)
    (kind : BitVec 4) (act : State → Reply) (hc : s.canServe c i) (hf : frameOf s.own c = some f) (hn : s.ss.node ≠ .setup) :
    serve c st ref kind (setupOnly act) s = (s.served i st ref kind).withAnswer i st ref kind .locked [] := by
  have hact : setupOnly act (s.served i st ref kind) = refuse .locked (s.served i st ref kind) := if_neg hn
  rw [serve_eq st ref kind _ hc hf (by rw [hact]; rfl), hact]
  rfl

/-- Settles O31: the coordination frames end with their window, the requests with their refusal. -/
theorem framesOutsideTheirNodeStateDoNothing : Obligations.FramesOutsideTheirNodeStateDoNothing := by
  refine fun s => ⟨fun hn c ht hc => ?_, fun c i source reference kind hserve => ⟨fun hn h => ?_, fun hn h => ?_⟩⟩
  · cases c with
    | haltGroupTaken => exact congrArg Host.Outcome.next (takeFrame_outside_run _ hn ht)
    | haltAllTaken => exact congrArg Host.Outcome.next (takeFrame_outside_run _ hn ht)
    | clearGroupTaken => exact congrArg Host.Outcome.next (takeFrame_outside_run _ hn ht)
    | clearAllTaken => exact congrArg Host.Outcome.next (takeFrame_outside_run _ hn ht)
    | readyTaken => exact congrArg Host.Outcome.next (takeFrame_outside_run _ hn ht)
    | markTaken => exact congrArg Host.Outcome.next (takeFrame_outside_run _ hn ht)
    | _ => exact Bool.noConfusion hc
  · obtain ⟨r, rfl, rfl⟩ | ⟨v, rfl, rfl⟩ | ⟨v, rfl, rfl⟩ | ⟨v, rfl, rfl⟩ | ⟨m, t, rfl, rfl⟩ | ⟨u, b, t, p, rfl, rfl⟩
      | ⟨u, r, rfl, rfl⟩ | ⟨rfl, rfl⟩ := h
    all_goals exact congrArg Host.Outcome.next (serve_runOnly_outside _ _ _ _ hserve rfl hn)
  · obtain ⟨f, rfl, rfl⟩ | ⟨k, a, r, rfl, rfl⟩ | ⟨rfl, rfl⟩ := h
    all_goals exact congrArg Host.Outcome.next (serve_setupOnly_outside _ _ _ _ hserve rfl hn)

end Sys2Proof.Machine
end

