-- ==== Sys2Proof/Proofs/AttemptEnds.lean ====
section
/-! PROOFS. The attempts of the Trunk Interface: their start, their ends, and what their ends tell the producer. -/

namespace Sys2Proof.Machine

/-! ### The start of an attempt -/

/-- The lowest slot that passes a test. -/
theorem allSlots_find_lowest {p : Fin 8 → Bool} {k : Fin 8} (hk : p k = true) (hj : ∀ j : Fin 8, j < k → p j = false) :
    allSlots.find? p = some k := by
  have hget : ∀ (i : Nat) (h : i < allSlots.length), allSlots[i] = ⟨i, h⟩ := fun i h =>
    (show ∀ j : Fin 8, allSlots[j] = j by decide) ⟨i, h⟩
  rw [List.find?_eq_some_iff_getElem]
  refine ⟨hk, k.val, k.isLt, hget k k.isLt, fun j hlt => ?_⟩
  rw [hget j (hlt.trans k.isLt), hj _ hlt]
  rfl

theorem firstOwed_eq_some {s : State} {k : Fin 8} {e : HaltEntry} (hk : s.tif.owed[k] = some e)
    (hj : ∀ j : Fin 8, j < k → s.tif.owed[j] = none) : s.firstOwed? = some k :=
  allSlots_find_lowest (by rw [hk]; rfl) fun j hlt => by rw [hj j hlt]; rfl

theorem firstOwed_eq_none {s : State} (h : ∀ k : Fin 8, s.tif.owed[k] = none) : s.firstOwed? = none := by
  rw [State.firstOwed?, List.find?_eq_none]
  intro k _ hk
  rw [h k] at hk
  exact Bool.noConfusion hk

/-- The oldest eligible entry goes on the line (R23). -/
theorem putOnLine_of_split {p : TxFrame → Bool} {pre : List TxEntry} {e : TxEntry} {post : List TxEntry}
    (hp : p e.frame = true) (hw : e.withdrawn = false) (hpre : ∀ x ∈ pre, x.withdrawn = true ∨ p x.frame = false) :
    putOnLine p (pre ++ e :: post) = some (pre ++ { e with onLine := true } :: post) := by
  induction pre with
  | nil => exact if_pos (by rw [hp, hw]; rfl)
  | cons x pre ih =>
    have hx : ¬ (p x.frame && !x.withdrawn) = true := by
      obtain h | h := hpre x (by simp) <;> simp [h]
    rw [List.cons_append, putOnLine, if_neg hx, ih fun y hy => hpre y (by simp [hy])]
    rfl

/-- With no eligible entry nothing goes on the line (R23). -/
theorem putOnLine_eq_none {p : TxFrame → Bool} {q : List TxEntry} (h : ∀ x ∈ q, x.withdrawn = true ∨ p x.frame = false) :
    putOnLine p q = none := by
  cases hq : putOnLine p q with
  | none => rfl
  | some q' =>
    obtain ⟨pre, e, post, rfl, -, hp, hw, -⟩ := putOnLine_eq_some hq
    obtain he | he := h e (by simp)
    · rw [he] at hw
      cases hw
    · rw [he] at hp
      cases hp

/-- Recessive bits after which the line is not idle have no instant at which it is (R4). -/
theorem not_everIdle_recessives {s : State} {n : Nat} (h : ¬ s.idleEnds (List.replicate n recessive)) :
    ¬ s.everIdle (List.replicate n recessive) := by
  rintro ⟨pre, post, hsplit, hpre⟩
  obtain ⟨hlen, hrep, -⟩ := List.append_eq_replicate_iff.1 hsplit.symm
  rw [hrep, idleEnds_recessives] at hpre
  rw [idleEnds_recessives] at h
  omega

/-- After a dominant bit the line becomes idle with the ninth recessive bit alone (R4). -/
theorem not_everIdle_dominant {s : State} {pre : List TrunkBit} {n : Nat} (hpre : ¬ s.everIdle pre)
    (h : ¬ s.idleEnds (pre ++ dominant :: List.replicate n recessive)) :
    ¬ s.everIdle (pre ++ dominant :: List.replicate n recessive) := by
  rintro ⟨x, y, hsplit, hx⟩
  obtain ⟨z, rfl, hz⟩ | ⟨z, hz, -⟩ := List.append_eq_append_iff.1 hsplit
  · cases z with
    | nil => exact hpre ⟨pre, [], by simp, by simpa using hx⟩
    | cons b z =>
      obtain ⟨rfl, hrest⟩ := List.cons_eq_cons.1 hz
      obtain ⟨hlen, hrep, -⟩ := List.append_eq_replicate_iff.1 hrest.symm
      rw [hrep, idleEnds_dominant] at hx
      rw [idleEnds_dominant] at h
      omega
  · exact hpre ⟨x, z, hz, hx⟩

/-- The node after the levels that it has read (R4, R5). -/
def State.onLine (s : State) (n : Nat) (r : Reception) : State :=
  { s with tif := { s.tif with idleCount := n, reception := r } }

theorem readLine_onLine (bits : List TrunkBit) (s : State) :
    readLine bits s = s.onLine (readLine bits s).tif.idleCount (readLine bits s).tif.reception := rfl

/-- No attempt starts on a line that is not idle, or with no frame to send (R5, R23). -/
theorem execAttemptStart_of_none {s : State} {bits : List TrunkBit} (hh : s.hears = true)
    (h : s.idleEnds bits → chooseFrame (readLine bits s) = none) :
    exec (.attemptStart bits) s = .next (readLine bits s) := by
  refine congrArg Host.Outcome.next ((if_pos (hears_iff.1 hh)).trans ?_)
  by_cases hi : s.idleEnds bits
  · exact (if_pos ((lineIdle_readLine s bits).2 hi)).trans (by rw [h hi])
  · exact if_neg (mt (lineIdle_readLine s bits).1 hi)

/-- An attempt starts with the frame that is chosen (R5, R23). -/
theorem execAttemptStart_of_some {s t : State} {bits : List TrunkBit} (hh : s.hears = true) (hi : s.idleEnds bits)
    (h : chooseFrame (readLine bits s) = some t) : exec (.attemptStart bits) s = .next (startSending t) :=
  congrArg Host.Outcome.next ((if_pos (hears_iff.1 hh)).trans
    ((if_pos ((lineIdle_readLine s bits).2 hi)).trans (by rw [h])))

/-- An owed HALT is chosen first (R23). -/
theorem chooseFrame_of_owed {s : State} {k : Fin 8} {e : HaltEntry} (hk : s.tif.owed[k] = some e)
    (hj : ∀ j : Fin 8, j < k → s.tif.owed[j] = none) : chooseFrame s = some (s.setOwed k (some { e with onLine := true })) := by
  rw [chooseFrame, firstOwed_eq_some hk hj]
  dsimp only
  rw [hk]
  rfl

/-- The oldest TIMED frame is chosen next, and then the oldest ROUTINE frame (R23). -/
theorem chooseFrame_of_entry {s : State} {pre : List TxEntry} {e : TxEntry} {post : List TxEntry}
    (ho : ∀ k : Fin 8, s.tif.owed[k] = none) (hq : s.tif.queue = pre ++ e :: post) (hw : e.withdrawn = false)
    (h : e.frame.isTimed = true ∧ (∀ x ∈ pre, x.withdrawn = true ∨ x.frame.isTimed = false)
      ∨ e.frame.isTimed = false ∧ (∀ x ∈ pre, x.withdrawn = true)
        ∧ (∀ x ∈ post, x.withdrawn = true ∨ x.frame.isTimed = false)) :
    chooseFrame s = some { s with tif := { s.tif with queue := pre ++ { e with onLine := true } :: post } } := by
  rw [chooseFrame, firstOwed_eq_none ho, hq]
  obtain ⟨ht, hpre⟩ | ⟨ht, hpre, hpost⟩ := h
  · rw [putOnLine_of_split ht hw hpre]
  · have htimed : putOnLine TxFrame.isTimed (pre ++ e :: post) = none :=
      putOnLine_eq_none fun x hx => by
        obtain hx | hx := List.mem_append.1 hx
        · exact .inl (hpre x hx)
        · obtain rfl | hx := List.mem_cons.1 hx
          · exact .inr ht
          · exact hpost x hx
    rw [htimed, putOnLine_of_split (by rw [ht]; rfl) hw fun x hx => .inl (hpre x hx)]
    rfl

theorem chooseFrame_eq_none {s : State} (ho : ∀ k : Fin 8, s.tif.owed[k] = none)
    (h : ∀ x ∈ s.tif.queue, x.withdrawn = true) : chooseFrame s = none := by
  rw [chooseFrame, firstOwed_eq_none ho, putOnLine_eq_none fun x hx => .inl (h x hx)]
  dsimp only
  rw [putOnLine_eq_none fun x hx => .inl (h x hx)]
  rfl

/-- Settles O7: the line after the bits read decides whether an attempt starts, and the choice of R23 which. -/
theorem attemptStartChoosesByRank : Obligations.AttemptStartChoosesByRank := by
  intro bits s hh line sending
  obtain ⟨hrec, hdom, hidle, hreads, hkeeps⟩ := readLine_eq s bits
  refine ⟨fun hi => ⟨fun n hb => ?_, fun pre n hb => ⟨fun he => ?_, fun he => ?_⟩⟩,
    fun hi => ⟨fun k e hk hj => ?_, fun ho => ⟨fun pre e post hq hw h => ?_, fun h => ?_⟩⟩⟩
  · rw [execAttemptStart_of_none hh fun h => absurd h hi, readLine_onLine, hrec n hb,
      hkeeps (not_everIdle_recessives (hb ▸ hi) ∘ (hb ▸ ·))]
    rfl
  · have hever : s.everIdle bits := by
      obtain ⟨x, y, hxy, hx⟩ := he
      exact ⟨x, y ++ dominant :: List.replicate n recessive, by rw [hb, hxy, List.append_assoc], hx⟩
    rw [execAttemptStart_of_none hh fun h => absurd h hi, readLine_onLine, hdom pre n hb, hreads hi hever]
    rfl
  · have hnever : ¬ s.everIdle bits := by
      rw [hb] at hi ⊢
      exact not_everIdle_dominant he hi
    rw [execAttemptStart_of_none hh fun h => absurd h hi, readLine_onLine, hdom pre n hb, hkeeps hnever]
    rfl
  · refine (execAttemptStart_of_some hh hi (chooseFrame_of_owed hk hj)).trans rfl
  · refine (execAttemptStart_of_some hh hi (chooseFrame_of_entry ho hq hw h)).trans rfl
  · refine ⟨(readLine bits s).tif.idleCount, of_decide_eq_true ((lineIdle_readLine s bits).2 hi), ?_⟩
    rw [execAttemptStart_of_none hh fun _ => chooseFrame_eq_none ho h, readLine_onLine, hidle hi]
    rfl

/-! ### The ends of an attempt -/

section
variable {s : State} {pre : List TxEntry} {e : TxEntry} {post : List TxEntry} {r : Reception}

/-- An attempt that ends leaves the queue as it is. -/
theorem leaveSending_eq (h : s.sendsEntry pre e post) : leaveSending r s = s.ended r (pre ++ e :: post) := by
  rw [← h.queue]
  rfl

theorem dropOnLine_leaveSending (h : s.sendsEntry pre e post) : dropOnLine (leaveSending r s) = s.ended r (pre ++ post) := by
  rw [← h.drop]
  rfl

theorem countVoid_leaveSending (h : s.sendsEntry pre e post) :
    countVoid (leaveSending r s) = s.ended r (pre ++ { e with attempts := e.attempts + 1 } :: post) := by
  have hmap := h.map (fun x => if x.onLine then { x with attempts := x.attempts + 1 } else x) fun x hx => by simp [hx]
  rw [if_pos h.onLine] at hmap
  rw [countVoid, leaveSending]
  dsimp only
  rw [hmap]
  rfl

/-- A withdrawn frame is removed when its attempt ends without it taken (R24). -/
theorem attemptVoid_of_withdrawn (h : s.sendsEntry pre e post) (hw : e.withdrawn = true) :
    attemptVoid (leaveSending r s) = s.ended r (pre ++ post) := by
  have hhalt : (leaveSending r s).onLineHalt? = none := h.onLineHalt
  have hentry : (leaveSending r s).onLineEntry? = some e := h.onLineEntry
  rw [attemptVoid, hhalt, hentry]
  exact (if_pos hw).trans (dropOnLine_leaveSending h)

/-- A void below the retry limit counts, and the frame waits again (R13). -/
theorem attemptVoid_of_below (h : s.sendsEntry pre e post) (hl : s.limitsKept) (hw : e.withdrawn = false)
    (hn : e.attempts + 1 < s.ss.settings.retryLimit) : attemptVoid (leaveSending r s) = s.triesAgain r pre e post 1 := by
  have hhalt : (leaveSending r s).onLineHalt? = none := h.onLineHalt
  have hentry : (leaveSending r s).onLineEntry? = some e := h.onLineEntry
  rw [attemptVoid, hhalt, hentry]
  have hlimit : ¬ (leaveSending r s).ss.settings.retryLimit ≤ e.attempts + 1 := Nat.not_le.2 hn
  dsimp only
  rw [if_neg (by rw [hw]; exact Bool.false_ne_true), if_neg hlimit]
  exact attemptWaits_eq h hl (countVoid_leaveSending h)

/-- The void that reaches the retry limit abandons the frame (R14). -/
theorem attemptVoid_of_limit (h : s.sendsEntry pre e post) (hw : e.withdrawn = false)
    (hn : s.ss.settings.retryLimit ≤ e.attempts + 1) :
    attemptVoid (leaveSending r s) = abandoned e.frame (s.ended r (pre ++ post)) := by
  have hhalt : (leaveSending r s).onLineHalt? = none := h.onLineHalt
  have hentry : (leaveSending r s).onLineEntry? = some e := h.onLineEntry
  have hlimit : (leaveSending r s).ss.settings.retryLimit ≤ e.attempts + 1 := hn
  rw [attemptVoid, hhalt, hentry]
  dsimp only
  rw [if_neg (by rw [hw]; exact Bool.false_ne_true), if_pos hlimit, dropOnLine_leaveSending h]

end

section
variable {s : State} {k : Fin 8} {e : HaltEntry} {r : Reception}

/-- A HALT whose attempt ends without it taken waits again (R8). -/
theorem attemptWaits_halt (h : s.sendsHalt k e) :
    attemptWaits (leaveSending r s) = (s.ended r s.tif.queue).setOwed k (some { e with onLine := false }) := by
  have hhalt : (leaveSending r s).onLineHalt? = some k := h.onLineHalt
  rw [attemptWaits, hhalt]
  dsimp only
  rw [leaveSending_owed, h.entry]
  rfl

/-- A void of a HALT below the retry limit counts, and the HALT waits again (R13). -/
theorem attemptVoid_halt_of_below (h : s.sendsHalt k e) (hn : e.attempts + 1 < s.ss.settings.retryLimit) :
    attemptVoid (leaveSending r s)
      = (s.ended r s.tif.queue).setOwed k (some { e with onLine := false, attempts := e.attempts + 1 }) := by
  have hhalt : (leaveSending r s).onLineHalt? = some k := h.onLineHalt
  rw [attemptVoid, hhalt]
  dsimp only
  rw [leaveSending_owed, h.entry]
  exact if_neg (Nat.not_le.2 hn)

/-- The void that reaches the retry limit abandons the HALT, which is SEND_FAILED (R14, R161). -/
theorem attemptVoid_halt_of_limit (h : s.sendsHalt k e) (hn : s.ss.settings.retryLimit ≤ e.attempts + 1) :
    attemptVoid (leaveSending r s) = guardTake .sendFailed .abrupt ((s.ended r s.tif.queue).setOwed k none) := by
  have hhalt : (leaveSending r s).onLineHalt? = some k := h.onLineHalt
  rw [attemptVoid, hhalt]
  dsimp only
  rw [leaveSending_owed, h.entry]
  exact if_pos hn

end

/-- Settles O8: the attempt ends with nothing counted. -/
theorem arbitrationLostKeepsTheFrame : Obligations.ArbitrationLostKeepsTheFrame := by
  refine fun s hm hl => ⟨fun k e h => ?_, fun pre e post h => ?_⟩
  · exact congrArg Host.Outcome.next ((if_pos ⟨h.sending, hm⟩).trans (attemptWaits_halt h))
  · exact congrArg Host.Outcome.next ((if_pos ⟨h.sending, hm⟩).trans
      (attemptWaits_eq (n := 0) h hl (leaveSending_eq h)))

theorem receptionAfter_eq (how : VoidHow) : receptionAfter how = if how = .broken then .skips else .awaits := by
  cases how <;> rfl

/-- A break voids the attempt, and so does a dominant window bit before a mismatch (R13). -/
theorem exec_attemptVoided {s : State} {how : VoidHow} (hs : s.tif.link = .sending)
    (h : how = .broken ∨ s.tif.mismatchTest = false ∧ ∃ a b, how = .complaint a b ∧ (a = dominant ∨ b = dominant)) :
    exec (.attemptVoided how) s
      = .next (attemptVoid (leaveSending (if how = .broken then .skips else .awaits) s)) := by
  rw [← receptionAfter_eq]
  refine congrArg Host.Outcome.next (if_pos ⟨hs, ?_⟩)
  obtain rfl | ⟨hm, a, b, rfl, hab⟩ := h
  · rfl
  · simp [State.voids, hm, hab]

/-- Settles O9: the void counts below the limit, and a withdrawn frame only leaves. -/
theorem attemptVoidedCountsAndRetries : Obligations.AttemptVoidedCountsAndRetries := by
  intro how s hl hhow r
  refine ⟨fun k e h hn => ?_, fun pre e post h hn => ?_⟩
  · rw [exec_attemptVoided h.sending hhow, attemptVoid_halt_of_below h hn]
  · rw [exec_attemptVoided h.sending hhow]
    by_cases hw : e.withdrawn = true
    · rw [attemptVoid_of_withdrawn h hw]
      exact congrArg Host.Outcome.next (if_pos hw).symm
    · rw [attemptVoid_of_below h hl (Bool.not_eq_true _ ▸ hw) (hn.resolve_left hw)]

/-! ### What the end of an attempt tells the producer -/

/-- Composition adds a NOTICE to the transmit queue at most (R175). -/
theorem mem_composeNotice {s : State} {x : TxEntry} (h : x ∈ (composeNotice s).tif.queue) :
    x.frame.isNotice = true ∨ x ∈ s.tif.queue := by
  unfold composeNotice at h
  split at h
  · exact .inr h
  · split at h
    · exact .inr h
    · split at h
      · exact .inr h
      · unfold enqueue at h
        split at h
        · obtain h | h := List.mem_append.1 h
          · exact .inr h
          · exact .inl (by rw [List.mem_singleton.1 h]; rfl)
        · exact .inr h

/-- A produced notice adds a NOTICE, or changes the one that waits, and leaves every other frame (R174). -/
theorem mem_produce {t : NoticeType} {c : List Byte} {s : State} {x : TxEntry} (h : x ∈ (produce t c s).tif.queue) :
    x.frame.isNotice = true ∨ x ∈ s.tif.queue := by
  unfold produce at h
  split at h
  · exact .inr h
  · split at h
    · exact (mem_composeNotice h).imp_right id
    · unfold discardNotice at h
      dsimp only at h
      split at h
      · exact .inr h
      · obtain ⟨y, hy, rfl⟩ := List.mem_map.1 h
        split
        · next hn =>
          left
          cases hf : y.frame <;> simp_all [TxFrame.isNotice, TxFrame.markOverflow]
        · exact .inr hy

theorem produce_isMark {t : NoticeType} {c : List Byte} {s : State} {u : Fin 4}
    (h : ∀ x ∈ s.tif.queue, x.frame.isMark u = false) : ∀ x ∈ (produce t c s).tif.queue, x.frame.isMark u = false := by
  intro x hx
  obtain hn | hx := mem_produce hx
  · cases hf : x.frame <;> simp_all [TxFrame.isNotice, TxFrame.isMark]
  · exact h x hx

/-- A unit with no held firings releases none (R145). -/
theorem releaseHeld_of_none {s : State} {u : Fin 4} (h : s.pb.units[u].held = none) : releaseHeld u s = s := by
  rw [releaseHeld, h]

/-- Held firings go out in a new MARK when none of the unit is in the queue (R145). -/
theorem releaseHeld_of_some {s : State} {u : Fin 4} {f : Firings} (h : s.pb.units[u].held = some f)
    (hn : ∀ x ∈ s.tif.queue, x.frame.isMark u = false) :
    releaseHeld u s = { s.setUnit u { s.pb.units[u] with held := none } with
      tif := { s.tif with queue := s.tif.queue
        ++ [{ frame := .mark u f, attempts := 0, onLine := false, withdrawn := false }] } } := by
  rw [releaseHeld, h]
  exact enqueue_mark f hn

theorem composeNotice_nil {s : State} (h : s.nb.list = []) : composeNotice s = s := by
  rw [composeNotice, h]
  split <;> rfl

/-- With report station NONE the list is discarded and the overflow flag set (R175). -/
theorem composeNotice_nobody {s : State} {n : Notice} {rest : List Notice} (hs : s.ss.node ≠ .silent)
    (hp : s.noticePending = false) (hl : s.nb.list = n :: rest) (hr : s.ss.settings.report = .nobody) :
    composeNotice s = { s with nb := { s.nb with list := [], overflow := true } } := by
  rw [composeNotice, if_neg (by simp [hs, hp]), hl, hr]
  rfl

/-- Settles O10: the frame is abandoned, and its producer is told by the kind of the frame. -/
theorem attemptVoidedAbandonsAtTheLimit : Obligations.AttemptVoidedAbandonsAtTheLimit := by
  intro how s hhow r
  refine ⟨fun k e h hn => ?_, fun pre e post h hw hn => ?_⟩
  · rw [exec_attemptVoided h.sending hhow, attemptVoid_halt_of_limit h hn]
  · rw [exec_attemptVoided h.sending hhow, attemptVoid_of_limit h hw hn]
    refine ⟨fun k g n tag hf => ?_, fun u f hf => ⟨fun hu => ?_, fun x hu hl => ?_⟩, fun i st p hf => ?_,
      fun d o m hf hns hl => ?_⟩
    · rw [hf]
      rfl
    · rw [hf]
      exact congrArg Host.Outcome.next (releaseHeld_of_none (by rw [linkNotice, produce_pb]; exact hu))
    · rw [hf]
      have hothers : ∀ y ∈ pre ++ post, y.frame.isMark u = false := isMark_others h.queue hf hl
      refine congrArg Host.Outcome.next ((releaseHeld_of_some (f := x) ?_ (produce_isMark hothers)).trans ?_)
      · rw [produce_pb]
        exact hu
      · rw [produce_pb]
        rfl
    · rw [hf]
      rfl
    · rw [hf]
      have hpend : ∀ b : State, b.tif.queue = pre ++ post → b.noticePending = false := by
        intro b hb
        rw [State.noticePending, hb, List.any_eq_false]
        intro y hy
        rw [isNotice_others h.queue hf hl y hy]
        exact Bool.false_ne_true
      refine ⟨fun hnil => ?_, fun n rest hcons hr => ?_, fun n rest dest hcons hd => ?_⟩
      · exact congrArg Host.Outcome.next (composeNotice_nil hnil)
      · exact congrArg Host.Outcome.next (composeNotice_nobody hns (hpend _ rfl) hcons hr)
      · exact congrArg Host.Outcome.next (composeNotice_cons hns (hpend _ rfl) hcons hd)

/-! ### The node's own frame is taken -/
/-- The node after the window of its own frame, with the frame gone from the transmit queue (R12). -/
def State.gone (s : State) (q : List TxEntry) : State := { s.heard with tif := { s.heard.tif with queue := q } }

theorem taken_of_listening {s : State} (h : s.tif.link = .listening) : taken s = s.heard :=
  if_neg (by rw [h]; exact nofun)

section
variable {s : State} {pre : List TxEntry} {e : TxEntry} {post : List TxEntry}

theorem dropOnLine_heard (h : s.sendsEntry pre e post) : dropOnLine s.heard = s.gone (pre ++ post) := by
  rw [← h.drop]
  rfl

/-- The producer of a withdrawn frame is told nothing (R24). -/
theorem taken_of_withdrawn (h : s.sendsEntry pre e post) (hw : e.withdrawn = true) : taken s = s.gone (pre ++ post) := by
  have hhalt : s.heard.onLineHalt? = none := h.onLineHalt
  have hentry : s.heard.onLineEntry? = some e := h.onLineEntry
  refine (if_pos h.sending).trans ?_
  rw [attemptTaken, show windowEnds recessive recessive s = s.heard from rfl, hhalt, hentry]
  exact (if_pos hw).trans (dropOnLine_heard h)

/-- The producer of a frame is told that it has been taken (R12). -/
theorem taken_of_entry (h : s.sendsEntry pre e post) (hw : e.withdrawn = false) :
    taken s = match e.frame with
      | .ready _ _ _ _ => s.gone (pre ++ post)
      | .mark u _ => releaseHeld u (s.gone (pre ++ post))
      | .answer i _ _ => freeSlot i (s.gone (pre ++ post))
      | .notice _ carried _ => noticeTaken carried (s.gone (pre ++ post)) := by
  have hhalt : s.heard.onLineHalt? = none := h.onLineHalt
  have hentry : s.heard.onLineEntry? = some e := h.onLineEntry
  refine (if_pos h.sending).trans ?_
  rw [attemptTaken, show windowEnds recessive recessive s = s.heard from rfl, hhalt, hentry]
  dsimp only
  rw [dropOnLine_heard h, hw]
  cases e.frame <;> rfl

/-- A frame of this kind is on the line, and its attempt can end taken. -/
theorem sends_of_sendsEntry {p : TxFrame → Bool} (hm : s.tif.mismatchTest = false) (h : s.sendsEntry pre e post)
    (hp : p e.frame = true) : s.sends p = true := by
  simp [State.sends, h.sending, hm, h.onLineHalt, h.onLineEntry, hp]

theorem gone_eq_ended (hm : s.tif.mismatchTest = false) (q : List TxEntry) :
    s.gone q = { s.ended .awaits q with
      tif := { (s.ended .awaits q).tif with windowA := recessive, windowB := recessive } } := by
  rw [State.gone, State.heard, windowEnds, State.ended]
  dsimp only
  rw [hm]

theorem gone_not_pending {d : Byte} {o : Bool} {n : Notice} (h : s.sendsEntry pre e post) (hf : e.frame = .notice d o n)
    (hl : s.limitsKept) {t : State} (ht : t.tif.queue = pre ++ post) : t.noticePending = false := by
  rw [State.noticePending, ht, List.any_eq_false]
  intro y hy
  rw [isNotice_others h.queue hf hl y hy]
  exact Bool.false_ne_true

end

/-- The overflow flag after a NOTICE has been taken (R176). -/
theorem overflow_after (carried flag late : Bool) :
    (if carried && !late then false else flag) = (flag && (!carried || late)) := by
  revert carried flag late
  decide

/-- Settles O17: the frame leaves, and its answer slot or the Notice Backlog is told. -/
theorem ownReportsTaken : Obligations.OwnReportsTaken := by
  intro s pre e post hm h hw left
  have hleft : s.gone (pre ++ post) = left := gone_eq_ended hm _
  refine ⟨fun i st p hf => ?_, fun d carried n hf hns hl => ?_⟩
  · refine congrArg Host.Outcome.next ((if_pos (sends_of_sendsEntry hm h (by rw [hf]; rfl))).trans ?_)
    rw [taken_of_entry h hw, hf, hleft]
    rfl
  · intro overflow gone
    have hexec : exec .ownNoticeTaken s = .next (composeNotice gone) := by
      refine congrArg Host.Outcome.next ((if_pos (sends_of_sendsEntry hm h (by rw [hf]; rfl))).trans ?_)
      rw [taken_of_entry h hw, hf, hleft]
      show composeNotice _ = _
      rw [overflow_after]
      rfl
    have hpend : gone.noticePending = false := gone_not_pending h hf hl rfl
    rw [hexec]
    refine ⟨fun hnil => ?_, fun m rest hcons hr => ?_, fun m rest dest hcons hd => ?_⟩
    · exact congrArg Host.Outcome.next (composeNotice_nil (s := gone) hnil)
    · exact congrArg Host.Outcome.next (composeNotice_nobody (s := gone) hns hpend hcons hr)
    · exact congrArg Host.Outcome.next (composeNotice_cons (s := gone) hns hpend hcons hd)

/-- The firings of a MARK as its byte carries them (R30). -/
theorem Firings.packed_eq (f : Firings) :
    f.packed = (if f.saturated then 0x80 else 0) + BitVec.ofNat 8 (f.count % 16) := by
  have hfinite : ∀ (b : Bool) (c : Fin 16),
      BitVec.ofBool b ++ 0#3 ++ BitVec.ofNat 4 c.val = (if b then 0x80 else 0) + BitVec.ofNat 8 c.val := by decide
  have hmod : BitVec.ofNat 4 f.count = BitVec.ofNat 4 (f.count % 16) := BitVec.eq_of_toNat_eq (by simp)
  rw [Firings.packed, hmod]
  exact hfinite f.saturated ⟨f.count % 16, Nat.mod_lt _ (by decide)⟩

theorem flagsByte_eq (o : Bool) : flagsByte o = if o then 0x80 else 0 := by
  cases o <;> rfl

theorem Mode.byte_eq (m : Mode) : m.byte = if m = .smooth then 0 else 1 := by
  cases m <;> rfl

/-- Settles O18: by the frame that is on the line, another station's, a HALT or an entry of the transmit queue. -/
theorem takenFrameLeavesItsQueue : Obligations.TakenFrameLeavesItsQueue := by
  refine ⟨fun s => taken_of_listening, fun s k e hm h => ⟨?_, fun g hg => ?_⟩, fun s pre e post hm h =>
    ⟨?_, taken_of_withdrawn h, fun k g n tag hf => ?_, fun u f hf hw hu => ?_, fun u f x hf hw hu hl => ?_⟩⟩
  · have hhalt : s.heard.onLineHalt? = some k := h.onLineHalt
    refine (if_pos h.sending).trans ?_
    rw [attemptTaken, show windowEnds recessive recessive s = s.heard from rfl, hhalt]
    rfl
  · rw [State.lineFrame?, h.onLineHalt]
    dsimp only
    rw [h.entry, Option.map_some, HaltEntry.wire, State.slotAddress, hg, Mode.byte_eq]
    rfl
  · rw [State.lineFrame?, h.onLineHalt, h.onLineEntry, Option.map_some]
    cases e.frame with
    | ready k g n tag => rfl
    | mark u f => simp only [TxFrame.wire, Firings.packed_eq]
    | answer i st p => rfl
    | notice d o n => simp only [TxFrame.wire, flagsByte_eq]
  · by_cases hw : e.withdrawn = true
    · exact taken_of_withdrawn h hw
    · rw [taken_of_entry h (Bool.not_eq_true _ ▸ hw), hf]
      rfl
  · rw [taken_of_entry h hw, hf]
    exact releaseHeld_of_none hu
  · rw [taken_of_entry h hw, hf]
    exact releaseHeld_of_some hu (isMark_others h.queue hf hl)

end Sys2Proof.Machine
end

