-- ==== Sys2Proof/Proofs/HeadSteps.lean ====
section
/-! PROOFS. The head of the segment queue: its evaluation, its start, its end, and the stop that STOP asks for. -/

namespace Sys2Proof.Machine

/-! ### The evaluation of the head -/

/-- The head that waits is blocked, outside RUN, with the guard not NORMAL or with its slot HALTED (R62). -/
theorem blocked_iff {s : State} {h : Segment} : s.blocked h = true ↔
    s.ss.node ≠ .run ∨ s.gd.state ≠ .normal ∨ ∃ k, h.slot = some k ∧ s.slotHalted k = true := by
  simp [State.blocked, or_assoc, Option.any_eq_true]

theorem not_blocked_of_mayProgress {s : State} {h : Segment} (hp : s.mayProgress h) :
    ¬ (h.state ≠ .waiting ∨ s.blocked h = true) := by
  obtain ⟨hw, hn, hg, hslot⟩ := hp
  rw [blocked_iff]
  rintro (h' | h' | h' | ⟨k, hk, hh⟩)
  · exact h' hw
  · exact h' hn
  · exact h' hg
  · rw [hslot k hk] at hh
    cases hh

section
variable {s : State} {h : Segment} {rest : List Segment}

/-- A head that is blocked or does not wait stays (R61, R62). -/
theorem evalHead_of_not_mayProgress (hq : s.queue = h :: rest)
    (hb : h.state ≠ .waiting ∨ s.ss.node ≠ .run ∨ s.gd.state ≠ .normal ∨ ∃ k, h.slot = some k ∧ s.slotHalted k = true) :
    evalHead s = s := by
  rw [evalHead, hq]
  exact if_pos (hb.imp_right blocked_iff.2)

/-- A head that may progress is treated by its start condition (R63 to R65). -/
theorem evalHead_of_mayProgress (hq : s.queue = h :: rest) (hp : s.mayProgress h) :
    evalHead s = match h.start with
      | .immediate => startHead s
      | .mark m => if s.heardHas m then startHead (consume m s) else s
      | .rendezvous =>
        match h.slot with
        | none => s
        | some k =>
          match s.group? k with
          | some g => if g.state = .opened then announce k g h.tag s else s
          | none => s := by
  rw [evalHead, hq]
  exact if_neg (not_blocked_of_mayProgress hp)

theorem heardHas_of_split {m : MarkRef} {pre : List Heard} {e : Heard} {post : List Heard}
    (hl : s.pb.heard = pre ++ e :: post) (he : e.ref = m) : s.heardHas m = true := by
  simp [State.heardHas, hl, he]

theorem heardHas_eq_false {m : MarkRef} (hn : ∀ e ∈ s.pb.heard, e.ref ≠ m) : s.heardHas m = false := by
  simpa [State.heardHas] using hn

/-- The READY of a head joins a queue that holds none (R21). -/
theorem enqueue_ready {k : Fin 8} {a : GroupAddr} {n tag : Byte} (hn : ∀ e ∈ s.tif.queue, e.frame.isReady = false) :
    enqueue (.ready k a n tag) s = { s with tif := { s.tif with
      queue := s.tif.queue ++ [{ frame := .ready k a n tag, attempts := 0, onLine := false, withdrawn := false }] } } := by
  have hc : (s.tif.queue.countP fun e => sameLimit (.ready k a n tag) e.frame) = 0 := by
    rw [List.countP_eq_zero]
    intro e he
    have hr := hn e he
    cases hf : e.frame <;> simp_all [sameLimit, TxFrame.isReady]
  rw [enqueue, if_pos (by rw [hc]; exact Nat.one_pos)]

/-- The announcement of a head (R65, R84). -/
theorem announce_eq {k : Fin 8} {g : Group} (hq : s.queue = h :: rest) (hn : ∀ e ∈ s.tif.queue, e.frame.isReady = false) :
    announce k g h.tag s = { s with
      queue := { h with state := .announcing } :: rest
      ru := { slots := s.ru.slots.set k (.live { g with state := .armed })
              timer := if s.ss.settings.timeout = 0 then none else some s.ss.settings.timeout }
      tif := { s.tif with queue := s.tif.queue
        ++ [{ frame := .ready k g.address g.sequence h.tag, attempts := 0, onLine := false, withdrawn := false }] } } := by
  rw [announce, enqueue_ready hn]
  simp only [setHeadState, State.setSlot, hq]

end

/-- Settles O20: by whether the head may progress, and then by its start condition. -/
theorem headEvaluationStartsOrAnnounces : Obligations.HeadEvaluationStartsOrAnnounces := by
  intro s h rest hq
  refine ⟨evalHead_of_not_mayProgress hq, fun hp => ⟨fun hs => ?_, fun m hs => ⟨fun hn => ?_, fun pre e post hl he hpre => ?_⟩,
    fun k g hs hk hg ho hn => ?_⟩⟩
  · rw [evalHead_of_mayProgress hq hp, hs]
  · rw [evalHead_of_mayProgress hq hp, hs]
    dsimp only
    rw [heardHas_eq_false hn]
    rfl
  · rw [evalHead_of_mayProgress hq hp, hs]
    dsimp only
    rw [heardHas_of_split hl he, consume, hl, consumeHeard_split he hpre]
    rfl
  · have heval := evalHead_of_mayProgress hq hp
    rw [hs, hk] at heval
    dsimp only at heval
    rw [hg] at heval
    exact heval.trans ((if_pos ho).trans (announce_eq hq hn))

/-! ### The start of a segment -/

theorem dirOfDistance_eq (d : Int) : dirOfDistance d = wayOf d := by
  unfold dirOfDistance wayOf
  split_ifs <;> first | rfl | omega

/-- The speed of a first interval has the first name (R110, R111). -/
theorem nameOf_startSq (p : Profile) : p.nameOf p.startSq p.startSq = p.firstName := by
  obtain ⟨cls, fl, fh, accel, decel⟩ := p
  have hname : ∀ v, Profile.nameOf ⟨cls, fl, fh, accel, decel⟩ v v = if fl * fl < v then .cruise else .creep := fun v =>
    (if_neg (Nat.lt_irrefl v)).trans (if_neg (Nat.lt_irrefl v))
  rw [hname, Profile.firstName, Profile.startSq]
  cases cls with
  | flatLow => exact (if_neg (Nat.lt_irrefl _)).trans (if_neg nofun).symm
  | flatHigh => exact if_congr (and_iff_right rfl).symm rfl rfl
  | ramp => exact (if_neg (Nat.lt_irrefl _)).trans (if_neg nofun).symm

/-- The first interval of a motion (R106, R110, R111, R119). -/
theorem firstInterval_started (p : Profile) (isSeek : Bool) (pg : Pg) (dir : Option Dir) (n : Nat) (x : Option Seek) (s : State) :
    firstInterval p isSeek (setDirLevel dir { s with pg := { pg with dir := dir, remaining := n, seek := x } })
      = { s with pg := { pg.started s.ss.settings.form dir n (if isSeek then .search else p.firstName) p with seek := x } } := by
  rw [firstInterval, nameOf_startSq]
  have hdir : setDirLevel dir { s with pg := { pg with dir := dir, remaining := n, seek := x } }
      = { s with pg := { pg with
          dir := dir, remaining := n, seek := x
          dirCcw := (pg.started s.ss.settings.form dir n .idle p).dirCcw } } := by
    unfold setDirLevel Pg.started
    obtain _ | ⟨⟨⟩ | ⟨⟩⟩ := dir <;> cases s.ss.settings.form <;> rfl
  rw [hdir]
  rfl

/-- The direction level and the progress of a SPAN are set one as well as the other first. -/
theorem setDirLevel_progress (dir : Option Dir) (pg : Pg) (progress acc : Nat) (s : State) :
    { setDirLevel dir { s with pg := pg } with
        pg := { (setDirLevel dir { s with pg := pg }).pg with progress := progress, acc := acc } }
      = setDirLevel dir { s with pg := { pg with progress := progress, acc := acc } } := by
  unfold setDirLevel
  cases dir <;> cases s.ss.settings.form <;> rfl

/-- The generator at the start of a segment of each kind (R66, R106, R116, R122). -/
def Pg.startedFor (pg : Pg) (form : OutputForm) (k : SegKind) (command : Int) (refActive : Bool) : Pg :=
  match k with
  | .move d p => pg.started form (wayOf d) d.natAbs p.firstName p
  | .moveTo x p =>
    if x - command = 0 then { pg with dir := none, remaining := 0 }.resting
    else pg.started form (wayOf (x - command)) (x - command).natAbs p.firstName p
  | .span d n p => { pg with progress := 0, acc := n / 2 }.started form (wayOf d) d.natAbs p.firstName p
  | .run d _ p => pg.started form (some d) 0 p.firstName p
  | .dwell ms => { pg with
      phase := .dwell, speedSq := 0, dir := none, remaining := 0, dwellLeft := ms, stop := none, fromRest := false
      speedName := .dwell, seek := none }
  | .seek spec p => { pg.started form (some spec.dir) 0 .search p with
      seek := some { stage := some .search, reversed := false, qualified := !refActive, counted := 0, latched := none } }

/-- The start of a segment sets the generator alone. -/
theorem pgStart_eq (h : Segment) (s : State) :
    pgStart h s = { s with pg := s.pg.startedFor s.ss.settings.form h.kind s.pb.command s.refActive } := by
  unfold pgStart Pg.startedFor
  cases hk : h.kind with
  | move d p =>
    exact (firstInterval_started p false s.pg (dirOfDistance d) d.natAbs none s).trans (by rw [dirOfDistance_eq]; rfl)
  | moveTo x p =>
    by_cases h0 : x - s.pb.command = 0
    · have hpg : (if x - s.pb.command = 0 then { s.pg with dir := none, remaining := 0 }.resting
          else s.pg.started s.ss.settings.form (wayOf (x - s.pb.command)) (x - s.pb.command).natAbs p.firstName p)
          = { s.pg with dir := none, remaining := 0 }.resting := if_pos h0
      refine Eq.trans (if_pos h0) (Eq.trans ?_ (congrArg (fun pg => { s with pg := pg }) hpg.symm))
      show pgIdle (setDirLevel (dirOfDistance (x - s.pb.command)) { s with pg := { s.pg with
        dir := dirOfDistance (x - s.pb.command), remaining := (x - s.pb.command).natAbs, seek := none } }) = _
      rw [h0]
      rfl
    · have hpg : (if x - s.pb.command = 0 then { s.pg with dir := none, remaining := 0 }.resting
          else s.pg.started s.ss.settings.form (wayOf (x - s.pb.command)) (x - s.pb.command).natAbs p.firstName p)
          = s.pg.started s.ss.settings.form (wayOf (x - s.pb.command)) (x - s.pb.command).natAbs p.firstName p := if_neg h0
      refine Eq.trans (if_neg h0) (Eq.trans ?_ (congrArg (fun pg => { s with pg := pg }) hpg.symm))
      exact (firstInterval_started p false s.pg (dirOfDistance (x - s.pb.command)) (x - s.pb.command).natAbs none s).trans
        (by rw [dirOfDistance_eq]; rfl)
  | span d n p =>
    refine (congrArg (firstInterval p false) (setDirLevel_progress _ _ 0 (n / 2) s)).trans ?_
    exact (firstInterval_started p false { s.pg with progress := 0, acc := n / 2 } (dirOfDistance d) d.natAbs none s).trans
      (by rw [dirOfDistance_eq]; rfl)
  | run d e p => exact (firstInterval_started p false s.pg (some d) 0 none s).trans rfl
  | dwell ms => rfl
  | seek spec p => exact (firstInterval_started p true s.pg (some spec.dir) 0 (some (seekStart false s)) s).trans rfl

/-- The state in which the head has begun and looks for its end mark (R66, R74, R76). -/
def State.begun (s : State) (h : Segment) (rest : List Segment) : State :=
  { s with
    queue := { h with state := .running } :: rest
    pg := s.pg.startedFor s.ss.settings.form h.kind s.pb.command s.refActive
    pb := { s.pb with
      heard := s.pb.heard.filter fun e => ({ h with state := .running } :: rest).any fun x => x.refersTo e.ref } }

theorem startHead_begun {s : State} {h : Segment} {rest : List Segment} (hq : s.queue = h :: rest) :
    startHead s = lookEndMark (s.begun h rest) := by
  have hrun : pruneHeard (setHeadState .running s) = { s with
      queue := { h with state := .running } :: rest
      pb := { s.pb with
        heard := s.pb.heard.filter fun e => ({ h with state := .running } :: rest).any fun x => x.refersTo e.ref } } := by
    rw [setHeadState, hq]
    rfl
  rw [startHead, hq]
  dsimp only
  rw [hrun, pgStart_eq]
  rfl

/-- Settles O21: a head that finds no end mark stays RUNNING, one that does consumes it and stops. -/
theorem startedHeadSetsTheGenerator : Obligations.StartedHeadSetsTheGenerator := by
  intro s h rest hq references
  have hbegun : (s.begun h rest).queue = { h with state := .running } :: rest := rfl
  refine ⟨fun hno => ?_, fun d m p pre e post hk hl he hpre => ?_⟩
  · intro t
    have ht : t = s.begun h rest := by
      refine (startHead_begun hq).trans (lookEndMark_of_no_mark hbegun (.inr fun d m p hk => ?_))
      have hm := hno d m p hk
      simp only [State.heardHas, List.any_eq_false] at hm ⊢
      exact fun e he => hm e (List.mem_of_mem_filter he)
    have hpg : t.pg = s.pg.startedFor s.ss.settings.form h.kind s.pb.command s.refActive := congrArg State.pg ht
    refine ⟨?_, fun d p hk => ?_, fun x p hk hx => ?_, fun x p hk hx => ?_, fun d n p hk => ?_, fun d e p hk => ?_,
      fun ms hk => ?_, fun spec p hk => ?_⟩
    · rw [ht]
      rfl
    · rw [hpg, hk]
      rfl
    · rw [hpg, hk]
      exact if_neg (sub_ne_zero.2 hx)
    · rw [hpg, hk]
      exact if_pos (sub_eq_zero.2 hx)
    · rw [hpg, hk]
      rfl
    · rw [hpg, hk]
      rfl
    · rw [hpg, hk]
      rfl
    · rw [hpg, hk]
      rfl
  · have hrefers : references e = true := by
      simp [references, Segment.refersTo, hk, he]
    have hfilter : (s.begun h rest).pb.heard = pre.filter references ++ e :: post.filter references := by
      show s.pb.heard.filter references = _
      rw [hl, List.filter_append, List.filter_cons_of_pos hrefers]
    have hstart := lookEndMark_of_mark hbegun rfl hk hfilter he fun x hx => hpre x (List.mem_of_mem_filter hx)
    rw [startHead_begun hq, hstart]
    simp only [State.begun, hk]
    rfl
/-! ### The end of the head -/

/-- A segment refers to its start mark while it is QUEUED or WAITING, and a RUN to its end mark (R76). -/
theorem refersTo_iff {h : Segment} {m : MarkRef} : h.refersTo m = true ↔
    h.start = .mark m ∧ (h.state = .queued ∨ h.state = .waiting) ∨ ∃ d p, h.kind = .run d (some m) p := by
  rw [Segment.refersTo, Bool.or_eq_true]
  refine or_congr (by simp) ?_
  split
  · next d e p hk =>
    rw [beq_iff_eq, hk]
    exact ⟨by rintro rfl; exact ⟨d, p, rfl⟩, by rintro ⟨d', p', h'⟩; cases h'; rfl⟩
  · next hno => exact ⟨nofun, fun ⟨d, p, hk⟩ => absurd hk (hno d m p)⟩

/-- Nothing is over exactly if PG's report ends no head (R73, R75). -/
theorem nothingOver_iff {s : State} : s.nothingOver = true ↔ s.headOver? = none := by
  unfold State.nothingOver State.headOver?
  cases hq : s.queue with
  | nil => simp
  | cons h rest =>
    by_cases hp : s.pg.phase = .idle
    · cases hs : h.state <;> simp [hp, hs, SegState.isMoving]
    · simp [hp]

theorem evalHead_length_le (s : State) : (evalHead s).queue.length ≤ s.queue.length := by
  simpa using (evalHead_tame s).tags.length_le

/-- The state in which the DONE notice of a removed head has been produced (R75, R152). -/
def State.toldDone (s : State) (h : Segment) (rest : List Segment) (o : SegOutcome) : State :=
  produce .done ([h.tag, o.byte] ++ signed4 s.pb.command
      ++ bytes3 (BitVec.ofNat 24 (if h.kind.counts then min s.pg.remaining 16777215 else 0))) { s with
    queue := rest
    gd := if s.gd.state = .stopping then { s.gd with state := .stopped, den := .low } else s.gd
    pb := { s.pb with heard := s.pb.heard.filter fun e => rest.any fun x => x.refersTo e.ref } }

theorem toldDone_queue (s : State) (h : Segment) (rest : List Segment) (o : SegOutcome) :
    (s.toldDone h rest o).queue = rest := produce_queue _ _ _

theorem toldDone_pb (s : State) (h : Segment) (rest : List Segment) (o : SegOutcome) :
    (s.toldDone h rest o).pb
      = { s.pb with heard := s.pb.heard.filter fun e => rest.any fun x => x.refersTo e.ref } := produce_pb _ _ _

theorem guardStops_eq (s : State) :
    guardStops s = { s with gd := if s.gd.state = .stopping then { s.gd with state := .stopped, den := .low } else s.gd } := by
  unfold guardStops
  split
  · have hden : ¬ (s.ss.node = .run ∧ GuardState.stopped ≠ .stopped ∧ s.tif.link ≠ .silent) := fun ⟨_, hstate, _⟩ => hstate rfl
    exact congrArg (fun level => { s with gd := { s.gd with state := .stopped, den := level } }) (if_neg hden)
  · rfl

theorem steps3_notEmitted (h : Segment) (pg : Pg) :
    steps3 (h.notEmitted pg) = bytes3 (BitVec.ofNat 24 (if h.kind.counts then min pg.remaining 16777215 else 0)) := by
  rw [steps3, Segment.notEmitted]
  split <;> rfl

/-- The state after the removal of head h (R75): the next one waits, or EMPTY has been told. -/
def State.leftBy (s : State) (h : Segment) (rest : List Segment) (o : SegOutcome) : State :=
  match rest with
  | [] => produce .empty (signed4 s.pb.command) (s.toldDone h rest o)
  | x :: more => { s.toldDone h rest o with queue := { x with state := .waiting } :: more }

section
variable {s : State} {h : Segment} {rest : List Segment} {o : SegOutcome}

/-- The removal of the head (R75): the next one waits, or EMPTY is told. -/
theorem finishHead_eq (hq : s.queue = h :: rest) (o : SegOutcome) :
    finishHead o s = s.leftBy h rest o := by
  have hdone : doneNotice h.tag o (h.notEmitted s.pg) (pruneHeard (guardStops { s with queue := rest })) = s.toldDone h rest o := by
    rw [doneNotice, steps3_notEmitted, guardStops_eq]
    rfl
  have htold := toldDone_queue s h rest o
  have hcommand : (s.toldDone h rest o).commandBytes = signed4 s.pb.command := by
    rw [State.commandBytes, toldDone_pb]
  rw [finishHead, hq]
  dsimp only
  rw [afterRemoval, hdone]
  show (match (s.toldDone h rest o).queue with | [] => _ | _ :: _ => _) = _
  rw [htold, hcommand]
  cases rest <;> rfl

theorem finishHead_queue_eq (hq : s.queue = h :: rest) (o : SegOutcome) : (finishHead o s).queue = promote rest := by
  rw [finishHead_eq hq]
  cases rest with
  | nil => exact (produce_queue _ _ _).trans (toldDone_queue s h [] o)
  | cons x more => rfl

theorem finishHead_nil (hq : s.queue = []) (o : SegOutcome) : finishHead o s = s := by
  rw [finishHead, hq]

theorem promote_length (q : List Segment) : (promote q).length = q.length := by
  cases q <;> rfl

theorem headOver_nil (hq : s.queue = []) : s.headOver? = none := by
  rw [State.headOver?, hq]

/-- The bound on the heads that end is any number that the queue does not exceed. -/
theorem settleFrom_congr {n m : Nat} {s : State} (hn : s.queue.length ≤ n) (hm : s.queue.length ≤ m) :
    settleFrom n s = settleFrom m s := by
  induction n generalizing m s with
  | zero =>
    have hempty := headOver_nil (List.length_eq_zero_iff.1 (Nat.le_zero.1 hn))
    cases m with
    | zero => rfl
    | succ m => rw [settleFrom, settleFrom, hempty]
  | succ n ih =>
    cases hq : s.queue with
    | nil =>
      cases m with
      | zero => rw [settleFrom, settleFrom, headOver_nil hq]
      | succ m => rw [settleFrom, settleFrom, headOver_nil hq]
    | cons h rest =>
      rw [hq, List.length_cons] at hn hm
      obtain ⟨m, rfl⟩ : ∃ k, m = k + 1 := ⟨m - 1, by omega⟩
      rw [settleFrom, settleFrom]
      cases s.headOver? with
      | none => rfl
      | some o =>
        have hle := evalHead_length_le (finishHead o s)
        rw [finishHead_queue_eq hq, promote_length] at hle
        exact ih (by omega) (by omega)

/-- The first head that ends at an instant, and the rest of that instant (R75). -/
theorem settle_of_headOver (h : s.headOver? = some o) : settle s = settle (evalHead (finishHead o s)) := by
  cases hq : s.queue with
  | nil => rw [headOver_nil hq] at h; cases h
  | cons x rest =>
    have hle := evalHead_length_le (finishHead o s)
    rw [finishHead_queue_eq hq, promote_length] at hle
    rw [settle, hq, List.length_cons, settleFrom, h]
    exact settleFrom_congr hle (Nat.le_refl _)

theorem settle_of_nothingOver (h : s.headOver? = none) : settle s = s := by
  unfold settle
  cases s.queue.length with
  | zero => rfl
  | succ n => rw [settleFrom, h]

/-- After an instant no head is left whose work is over (R75). -/
theorem settleFrom_nothingOver {n : Nat} {s : State} (hn : s.queue.length ≤ n) : (settleFrom n s).headOver? = none := by
  induction n generalizing s with
  | zero => exact headOver_nil (List.length_eq_zero_iff.1 (Nat.le_zero.1 hn))
  | succ n ih =>
    rw [settleFrom]
    cases ho : s.headOver? with
    | none => exact ho
    | some o =>
      cases hq : s.queue with
      | nil => rw [headOver_nil hq] at ho; cases ho
      | cons x rest =>
        have hle := evalHead_length_le (finishHead o s)
        rw [finishHead_queue_eq hq, promote_length] at hle
        rw [hq, List.length_cons] at hn
        exact ih (by omega)

theorem headOver_of_idle (hq : s.queue = h :: rest) (hp : s.pg.phase = .idle)
    (ho : h.state = .running ∧ o = .done ∨ ∃ m, h.state = .ending o m) : s.headOver? = some o := by
  rw [State.headOver?, hq]
  refine (if_neg (not_not.2 hp)).trans ?_
  obtain ⟨hs, rfl⟩ | ⟨m, hs⟩ := ho <;> rw [hs]

end

/-- Settles O22: the removal is an equation by what remains, and the instant goes on with the next head. -/
theorem endedHeadLeavesTheQueue : Obligations.EndedHeadLeavesTheQueue := by
  refine fun s => ⟨rfl, fun m => List.any_eq_true, fun h m => refersTo_iff, rfl, fun x more => rfl, rfl,
    nothingOver_iff.2 (settleFrom_nothingOver (Nat.le_refl _)), fun h => settle_of_nothingOver (nothingOver_iff.1 h),
    fun o hq => finishHead_nil hq o, fun h rest o hq => ⟨?_, fun hp ho => ⟨fun hr => ?_, fun x more hr => ?_⟩⟩⟩
  · rw [finishHead_eq hq]
    cases rest <;> rfl
  · rw [settle_of_headOver (headOver_of_idle hq hp ho), finishHead_eq hq]
    subst hr
    have hempty : (produce .empty (signed4 s.pb.command) (s.toldDone h [] o)).queue = [] :=
      (produce_queue _ _ _).trans (toldDone_queue s h [] o)
    show settle (evalHead (produce .empty (signed4 s.pb.command) (s.toldDone h [] o))) = _
    rw [show evalHead _ = produce .empty (signed4 s.pb.command) (s.toldDone h [] o) by rw [evalHead, hempty],
      settle_of_nothingOver (headOver_nil hempty)]
    rfl
  · rw [settle_of_headOver (headOver_of_idle hq hp ho), finishHead_eq hq]
    subst hr
    rfl

/-! ### STOP -/

theorem modeOf_eq_none {b : Byte} (h : 1 < b.toNat) : modeOf b = none := by
  have h0 : b ≠ 0 := by rintro rfl; exact absurd h (by decide)
  have h1 : b ≠ 1 := by rintro rfl; exact absurd h (by decide)
  exact (if_neg h0).trans (if_neg h1)

theorem modeOf_eq_some {b : Byte} (h : b.toNat ≤ 1) : modeOf b = some (if b = 0 then .smooth else .abrupt) := by
  by_cases h0 : b = 0
  · rw [modeOf, if_pos h0, if_pos h0]
  · have h1 : b = 1 := by
      have hne : b.toNat ≠ 0 := fun hz => h0 (BitVec.eq_of_toNat_eq hz)
      exact BitVec.eq_of_toNat_eq (show b.toNat = 1 by omega)
    rw [modeOf, if_neg h0, if_neg h0, if_pos h1]

section
variable {s : State} {h : Segment} {rest : List Segment} {mode tag : Byte} {m : Mode}

/-- With no head that moves STOP finds nothing (R79). -/
theorem stopSegment_of_not_moving (hm : modeOf mode = some m) (hh : s.headMoving = false) :
    stopSegment mode tag s = refuse .notFound s := by
  rw [stopSegment, hm]
  dsimp only
  rw [State.headMoving] at hh
  cases hq : s.head? with
  | none => rfl
  | some x =>
    rw [hq, Option.any_some] at hh
    exact if_pos (.inl (by rw [hh]; rfl))

theorem stopSegment_of_other_tag (hm : modeOf mode = some m) (hq : s.queue = h :: rest) (h0 : tag ≠ 0) (ht : tag ≠ h.tag) :
    stopSegment mode tag s = refuse .notFound s := by
  rw [stopSegment, hm]
  dsimp only
  rw [State.head?, hq]
  exact if_pos (.inr ⟨h0, ht⟩)

theorem stopSegment_of_moving (hm : modeOf mode = some m) (hq : s.queue = h :: rest) (hv : h.state.isMoving = true)
    (ht : tag = 0 ∨ tag = h.tag) :
    stopSegment mode tag s
      = if h.slot ≠ none then refuse .state s else accept (settle (claim .stopped m s)) := by
  have hgo : ¬ ((!h.state.isMoving) = true ∨ (tag ≠ 0 ∧ tag ≠ h.tag)) := by
    rw [hv]
    rintro (h' | ⟨h0, h1⟩)
    · exact Bool.noConfusion h'
    · exact ht.elim h0 h1
  rw [stopSegment, hm]
  dsimp only
  rw [State.head?, hq]
  exact if_neg hgo

end

theorem Pg.stopping_abrupt (pg : Pg) (k : SegKind) : pg.stopping k .abrupt = pg.resting := rfl

theorem Pg.stopping_dwell {pg : Pg} {k : SegKind} {m : Mode} (hk : k.profile? = none) : pg.stopping k m = pg.resting := by
  simp [Pg.stopping, Pg.stopsAtOnce, hk]

/-- Settles O34: the checks in their order, then the claim, by the state of the head and what its stop comes to. -/
theorem stopClaimsTheMovingHead : Obligations.StopClaimsTheMovingHead := by
  intro source reference mode tag i s hc hn t answers
  have hreply : ∀ u x, stopSegment mode tag t = { state := u, result := x, contents := [] } → u.answers = s.answers →
      answers u x := fun u x hr ha =>
    congrArg Host.Outcome.next
      (serve_runOnly (r := { state := u, result := x, contents := [] }) hc rfl hn hr ha)
  refine ⟨fun hm => ?_, fun hm => ⟨fun hh => ?_, fun h rest hq hv => ⟨fun h0 ht => ?_, fun ht hs => ?_, fun ht hs => ?_⟩⟩⟩
  · exact hreply t .range (by rw [stopSegment, modeOf_eq_none hm]; rfl) rfl
  · exact hreply t .notFound (stopSegment_of_not_moving (modeOf_eq_some hm) hh) rfl
  · exact hreply t .notFound (stopSegment_of_other_tag (modeOf_eq_some hm) hq h0 ht) rfl
  · exact hreply t .state ((stopSegment_of_moving (s := t) (modeOf_eq_some hm) hq hv ht).trans (if_pos hs)) rfl
  · intro m stopped
    have hclaim : answers (settle (claim .stopped m t)) .accepted :=
      hreply _ .accepted ((stopSegment_of_moving (s := t) (modeOf_eq_some hm) hq hv ht).trans (if_neg (not_not.2 hs)))
        (congrArg Outside.answers (((settle_outside _).trans (claim_outside _ _ _)) : _ = t.outside))
    refine ⟨fun o m' he => ?_, fun hr hab => ?_, fun hr hsm p hp => ⟨fun hv' => ?_, fun hv' => ?_⟩, fun hr hsm hp => ?_⟩
    · rw [claim_ending (s := t) hq he] at hclaim
      exact hclaim
    · rw [claim_running (s := t) hq hr, hab] at hclaim
      exact hclaim
    · have hpg : t.pg.stopping h.kind .smooth = s.pg.resting := (Pg.stopping_smooth hp).trans (if_pos hv')
      rw [claim_running (s := t) hq hr, hsm, hpg] at hclaim
      exact hclaim
    · have hpg : t.pg.stopping h.kind .smooth = s.pg.decelerating h.kind :=
        (Pg.stopping_smooth hp).trans (if_neg (Nat.not_le.2 hv'))
      rw [claim_running (s := t) hq hr, hsm, hpg] at hclaim
      exact hclaim
    · rw [claim_running (s := t) hq hr, hsm, Pg.stopping_dwell hp] at hclaim
      exact hclaim

end Sys2Proof.Machine
end

