-- ==== Sys2Proof/Proofs/AxisSteps.lean ====
section
/-! PROOFS. The axis: the pulses of an interval, the speed of the next one, and the SEEK with its preset. -/

namespace Sys2Proof.Machine

/-! ### Speeds -/

theorem Profile.flSq_le_rampNext {p : Profile} {v toGo : Nat} (hl : p.flSq ≤ v) (hh : v ≤ p.fhSq) :
    p.flSq ≤ p.rampNext v toGo ∧ p.rampNext v toGo ≤ p.fhSq := by
  unfold Profile.rampNext Profile.accelStep Profile.decelStep
  split_ifs <;> omega

/-- Whichever choice of R111 applies, the way down from the speed it gives fits in the steps after the next. -/
theorem Profile.rampDown_rampNext {p : Profile} {v toGo : Nat} (hd : 0 < p.decel) (hr : p.rampDown v ≤ toGo) :
    p.rampDown (p.rampNext v toGo) ≤ toGo - 1 := by
  unfold Profile.rampNext
  split
  · next h => exact h.2
  · split
    · next h => exact h
    · rw [Profile.rampDown_decelStep hd]
      omega

/-- Settles O52: the speed stays within FL and FH, its ramp-down distance leaves the steps after the next, and a distance
of none is FL. -/
theorem rampLeavesRoomToComeDown : Obligations.RampLeavesRoomToComeDown := by
  intro p v toGo hd hl hh htoGo hr w
  obtain ⟨hlow, hhigh⟩ := Profile.flSq_le_rampNext (toGo := toGo) hl hh
  have hroom : p.rampDown w ≤ toGo - 1 := Profile.rampDown_rampNext hd hr
  refine ⟨hlow, hhigh, hroom, fun h1 => ?_⟩
  rw [h1, Nat.sub_self, Profile.rampDown_le_iff hd, Nat.zero_mul] at hroom
  exact le_antisymm (by unfold Profile.flSq at hroom; omega) hlow

/-! ### The pulses of a SPAN -/

/-- One more progress step on the common line: the accumulator passes the span once or not at all (R113). -/
theorem divMod_add {n m d : Nat} (hn : 1 ≤ n) (hd : d ≤ n) :
    if n ≤ m % n + d then (m + d) / n = m / n + 1 ∧ (m + d) % n = m % n + d - n
    else (m + d) / n = m / n ∧ (m + d) % n = m % n + d := by
  have hmod := Nat.mod_lt m hn
  have hsplit := Nat.div_add_mod m n
  split
  · rw [Nat.div_mod_unique hn]
    refine ⟨?_, by omega⟩
    rw [Nat.mul_add]
    omega
  · rw [Nat.div_mod_unique hn]
    omega

/-- The pulses, the progress and the accumulator after k progress steps of a SPAN (R113). -/
theorem afterProgress_span {d : Int} {n : Nat} {p : Profile} {s : State} (hn : 1 ≤ n) (hd : d.natAbs ≤ n)
    (hp : s.pg.progress = 0) (ha : s.pg.acc = n / 2) (k : Nat) :
    s.afterProgress (.span d n p) k = ((n / 2 + k * d.natAbs) / n,
      { s with pg := { s.pg with progress := k, acc := (n / 2 + k * d.natAbs) % n } }) := by
  induction k with
  | zero =>
    have hhalf : n / 2 < n := Nat.div_lt_self hn (by decide)
    have hs : s = { s with pg := { s.pg with progress := 0, acc := n / 2 } } := by rw [← hp, ← ha]
    rw [Nat.zero_mul, Nat.add_zero, Nat.div_eq_of_lt hhalf, Nat.mod_eq_of_lt hhalf]
    exact congrArg (Prod.mk 0) hs
  | succ k ih =>
    have hstep := divMod_add (m := n / 2 + k * d.natAbs) hn hd
    rw [State.afterProgress, ih, Nat.succ_mul, ← Nat.add_assoc]
    dsimp only
    split at hstep
    · next hc =>
      obtain ⟨hdiv, hmod⟩ := hstep
      rw [hdiv, hmod]
      exact if_pos (decide_eq_true hc)
    · next hc =>
      obtain ⟨hdiv, hmod⟩ := hstep
      rw [hdiv, hmod]
      exact if_neg (mt of_decide_eq_true hc)

/-- Settles O53: the closed form after k progress steps, and its distance from the common line. -/
theorem spanPulsesFollowTheCommonLine : Obligations.SpanPulsesFollowTheCommonLine := by
  intro d n k p s hn hd hp ha r
  have hr : ∀ j, r j = ((n / 2 + j * d.natAbs) / n,
      { s with pg := { s.pg with progress := j, acc := (n / 2 + j * d.natAbs) % n } }) := afterProgress_span hn hd hp ha
  have hhalf : n / 2 < n := Nat.div_lt_self hn (by decide)
  have hsplit := Nat.div_add_mod (n / 2 + k * d.natAbs) n
  have hmod := Nat.mod_lt (n / 2 + k * d.natAbs) hn
  simp only [hr]
  refine ⟨trivial, trivial, hmod, ?_, ?_, ?_⟩
  · rw [Nat.add_mul_div_left _ _ hn, Nat.div_eq_of_lt hhalf, Nat.zero_add]
  · rw [Nat.mul_comm _ n]
    omega
  · rw [Nat.mul_comm _ n]
    omega

/-! ### The preset of a SEEK -/

theorem not_inCounterRange_eq (x : Int) : (!inCounterRange x) = decide (1073741823 < x.natAbs) := by
  rw [Bool.eq_iff_iff, Bool.not_eq_true', decide_eq_true_iff, ← Bool.not_eq_true, inCounterRange_iff, not_le]

theorem SeekVariant.byte_eq (v : SeekVariant) : v.byte = if v = .edge then 0 else 1 := by
  cases v <;> rfl

/-- Settles O46: the rewrite of the counters and the causes after it, with or without an encoder. -/
theorem presetRewritesTheCounters : Obligations.PresetRewritesTheCounters := by
  intro s h rest spec p x lc lf hq hk hx hl c f held far moved judged judged' told ended
  have hjudged : rewriteCounters spec.preset (lc, lf) s = judged' := by
    unfold rewriteCounters
    by_cases he : s.ss.settings.encMode = .off
    · rw [if_pos he]
      simp only [judged', judged, moved, if_pos he]
      rfl
    · rw [if_neg he]
      simp only [judged', judged, moved, f, if_neg he]
      rfl
  have hfar : s.rewriteOutside spec.preset (lc, lf) = far := by
    simp only [State.rewriteOutside, not_inCounterRange_eq, far, c, f]
    by_cases he : s.ss.settings.encMode = .off <;> simp [he]
  rw [applyPreset, hq, hx]
  dsimp only
  rw [hk, hl]
  dsimp only
  rw [hfar, hjudged, seekNotice, SeekVariant.byte_eq]
  rfl

/-! ### REF and the index pulses -/

section
variable {s : State} {h : Segment} {rest : List Segment}

theorem runningSeek_of_seek {spec : SeekSpec} {p : Profile} (hq : s.queue = h :: rest) (hs : h.state = .running)
    (hk : h.kind = .seek spec p) : s.runningSeek? = some (spec, p) := by
  rw [State.runningSeek?, hq]
  dsimp only
  rw [hs, hk]

theorem runningSeek_eq_none (hno : ∀ h rest, s.queue = h :: rest → h.state = .running → h.kind.isSeek = false) :
    s.runningSeek? = none := by
  unfold State.runningSeek?
  split
  · rfl
  · next h rest hq =>
    split
    · next spec p hs hk =>
      have hseek := hno h rest hq hs
      rw [hk] at hseek
      cases hseek
    · rfl

end

/-- The reference edge starts SETTLE only from above FL of a RAMP (R123, R124). -/
theorem referenceEdge_edge {spec : SeekSpec} {p : Profile} {x : Seek} {s : State} (hv : spec.variant = .edge) :
    referenceEdge spec p x s =
      let latched : State := { s with pg := { s.pg with
        seek := some { x with stage := some .settle, latched := some (s.pb.command, s.pb.feedback) } } }
      if p.cls = .ramp ∧ p.fl * p.fl < s.pg.speedSq then { latched with pg := { latched.pg with phase := .decel } }
      else applyPreset latched := by
  have hcond : (p.cls ≠ .ramp ∨ s.pg.speedSq ≤ p.flSq) ↔ ¬ (p.cls = .ramp ∧ p.fl * p.fl < s.pg.speedSq) := by
    rw [not_and_or, Nat.not_lt]
    rfl
  unfold referenceEdge
  rw [hv]
  dsimp only
  by_cases hc : p.cls = .ramp ∧ p.fl * p.fl < s.pg.speedSq
  · rw [if_pos hc]
    exact if_neg fun hn => hcond.1 hn hc
  · rw [if_neg hc]
    exact if_pos (hcond.2 hc)

/-- Settles O47: the levels alone change without a SEEK that runs; with one, by its stage and variant. -/
theorem referenceEdgeAndIndexPulses : Obligations.ReferenceEdgeAndIndexPulses := by
  intro level s r q
  have hstay : s.pins.ref = level → exec (.refChange level) s = .next s := fun he => congrArg Host.Outcome.next (if_pos he)
  refine ⟨fun hno => ⟨?_, ?_⟩, fun h rest spec p x hq hs hk hx => ?_⟩
  · by_cases he : s.pins.ref = level
    · rw [hstay he]
      subst he
      rfl
    · refine congrArg Host.Outcome.next ((if_neg he).trans ?_)
      show (match r.runningSeek?, r.pg.seek with | some (spec, p), some x => _ | _, _ => r) = r
      rw [runningSeek_eq_none (s := r) hno]
  · show Host.Outcome.next (match q.runningSeek?, q.pg.seek with | some (spec, _), some x => _ | _, _ => q) = .next q
    rw [runningSeek_eq_none (s := q) hno]
  · have href : s.pins.ref ≠ level → exec (.refChange level) s = .next (
        if x.stage ≠ some .search then r
        else if !r.refActive then { r with pg := { s.pg with seek := some { x with qualified := true } } }
        else if x.qualified then referenceEdge spec p x r else r) := by
      intro hne
      refine congrArg Host.Outcome.next ((if_neg hne).trans ?_)
      show (match r.runningSeek?, r.pg.seek with | some (spec, p), some x => _ | _, _ => r) = _
      rw [runningSeek_of_seek (s := r) hq hs hk, show r.pg.seek = some x from hx]
    have hqi : exec .qiRise s = .next (match x.stage, spec.variant with
        | some .count, .index n =>
          if n ≤ x.counted + 1 then applyPreset { q with pg := { s.pg with seek := some { x with
            counted := x.counted + 1, latched := some (s.pb.command, s.pb.feedback) } } }
          else { q with pg := { s.pg with seek := some { x with counted := x.counted + 1 } } }
        | _, _ => q) := by
      refine congrArg Host.Outcome.next ?_
      show (match q.runningSeek?, q.pg.seek with | some (spec, _), some x => _ | _, _ => q) = _
      rw [runningSeek_of_seek (s := q) hq hs hk, show q.pg.seek = some x from hx]
      rfl
    refine ⟨fun hne hst => ?_, fun hne hst ha => ?_, fun hne hst ha hqual => ⟨fun n hv => ?_, fun hv => ?_⟩, fun hst => ?_,
      fun n hst hv => ?_⟩
    · rw [href hne, if_pos hst]
    · rw [href hne, if_neg (not_not.2 hst), if_pos (by rw [ha]; rfl)]
    · rw [href hne, if_neg (not_not.2 hst), if_neg (by rw [ha]; exact Bool.false_ne_true), if_pos hqual]
      exact congrArg Host.Outcome.next (by rw [referenceEdge, hv])
    · rw [href hne, if_neg (not_not.2 hst), if_neg (by rw [ha]; exact Bool.false_ne_true), if_pos hqual,
        referenceEdge_edge hv]
    · rw [hqi]
      split
      · next hst' _ => exact absurd hst' hst
      · rfl
    · rw [hqi, hst, hv]
      dsimp only
      by_cases hlt : x.counted + 1 < n
      · rw [if_pos hlt, if_neg (Nat.not_le.2 hlt)]
      · rw [if_neg hlt, if_pos (Nat.not_lt.1 hlt)]

/-! ### The next interval -/

section
variable {s : State} {h : Segment} {rest : List Segment} {p : Profile}

/-- PG's choice at a speed that is not 0 (R111, R112, R118, R124). -/
theorem afterStep_eq (hq : s.queue = h :: rest) (hp : h.kind.profile? = some p) (hv : s.pg.speedSq ≠ 0) :
    afterStep s =
      if endReached h.kind s.pg then settle (pgIdle s)
      else
        match h.state with
        | .ending _ _ => if s.pg.speedSq ≤ p.flSq then settle (pgIdle s) else beginDecel p s.pg.speedSq s
        | _ =>
          if s.pg.seek.any fun x => x.stage == some .settle then
            if s.pg.speedSq ≤ p.flSq then applyPreset s else beginDecel p s.pg.speedSq s
          else beginInterval p s.pg.speedSq (nextSpeed h.kind p s.pg.speedSq s.pg) s := by
  rw [afterStep, hq]
  dsimp only
  rw [hp]
  dsimp only
  exact if_neg hv

/-- The next interval of a segment that is not in SETTLE: its speed, its name and its phase (R111, R126, R130). -/
theorem beginInterval_eq {v w : Nat} (hset : (s.pg.seek.all fun x => x.stage != some .settle) = true) :
    beginInterval p v w s = { s with pg := { s.pg with
      speedSq := w, fromRest := false, speedName := p.nameOf v w
      phase := match s.pg.seek with
        | some x => if x.stage = some .count then .count else if x.stage = some .search then .search else p.nameOf v w
        | none => p.nameOf v w } } := by
  unfold beginInterval
  cases hx : s.pg.seek with
  | none => rfl
  | some x =>
    rw [hx, Option.all_some, bne_iff_ne] at hset
    obtain ⟨stage, r, q, c, l⟩ := x
    cases stage with
    | none => rfl
    | some st => cases st with
      | settle => exact absurd rfl hset
      | _ => rfl

end

/-- Settles O43: the end point first, then the stop, then SETTLE, then the speed by class and kind. -/
theorem nextIntervalIsChosen : Obligations.NextIntervalIsChosen := by
  intro s h rest p hq hp hv v rested slower atEnd
  have hstep := afterStep_eq hq hp hv
  have hend : endReached h.kind s.pg = true ↔ atEnd := by
    simp only [endReached, atEnd]
    cases h.kind <;> simp
  refine ⟨fun ha => ?_, fun ha o m hs => ?_, fun ha hs => ⟨fun x hx hset => ?_, fun w hset hw => ?_⟩⟩
  · exact hstep.trans (if_pos (hend.2 ha))
  · rw [if_neg (mt hend.1 ha), hs] at hstep
    exact ⟨fun hle => hstep.trans (if_pos hle), fun hlt => hstep.trans (if_neg (Nat.not_le.2 hlt))⟩
  · rw [if_neg (mt hend.1 ha), hs, hx] at hstep
    dsimp only at hstep
    rw [Option.any_some, hset, if_pos (beq_self_eq_true _)] at hstep
    exact ⟨fun hle => hstep.trans (if_pos hle), fun hlt => hstep.trans (if_neg (Nat.not_le.2 hlt))⟩
  · have hany : ¬ (s.pg.seek.any fun x => x.stage == some .settle) = true := by
      cases hx : s.pg.seek with
      | none => exact nofun
      | some x =>
        rw [hx, Option.all_some, bne_iff_ne] at hset
        rw [Option.any_some, beq_iff_eq]
        exact hset
    have hspeed : nextSpeed h.kind p v s.pg = w := by
      unfold nextSpeed
      cases hc : p.cls with
      | flatLow => rw [hc] at hw; exact hw.symm
      | flatHigh => rw [hc] at hw; exact hw.symm
      | ramp =>
        rw [hc] at hw
        have hfree : (if (s.pg.seek.any fun x => x.stage == some .count) = true then
              w = max (v - 2 * (10 * p.decel)) (p.fl * p.fl)
            else w = if v < p.fh * p.fh then min (v + 2 * (10 * p.accel)) (p.fh * p.fh) else v) →
            (if (s.pg.seek.any fun x => x.stage == some .count) = true then p.decelStep v else p.rampFree v) = w := by
          intro hf
          split
          · next hcount => rw [if_pos hcount] at hf; exact hf.symm
          · next hcount => rw [if_neg hcount] at hf; exact hf.symm
        cases hk : h.kind with
        | move d p' => rw [hk] at hw; exact hw.symm
        | moveTo x p' => rw [hk] at hw; exact hw.symm
        | span d n p' => rw [hk] at hw; exact hw.symm
        | run d e p' => rw [hk] at hw; exact hfree hw
        | dwell ms => rw [hk] at hw; exact hfree hw
        | seek spec p' => rw [hk] at hw; exact hfree hw
    rw [hstep, if_neg (mt hend.1 ha), hs]
    dsimp only
    rw [if_neg hany, beginInterval_eq hset, hspeed]
    rfl

/-! ### The end of an interval -/

theorem intervalRuns_iff {s : State} : s.intervalRuns = true ↔
    s.headMoving = true ∧ s.pg.speedSq ≠ 0 ∧ s.ss.node = .run ∧ s.gd.state ≠ .stopped ∧ s.tif.link ≠ .silent := by
  simp [State.intervalRuns, and_assoc]

/-- The rise of a pulse line (R107, R119). -/
theorem raisePulse_eq (d : Dir) (s : State) : raisePulse d s = { s with pg := { s.pg with
    stepCw := if s.ss.settings.form = .stepDir ∨ d = .plus then .high else s.pg.stepCw
    dirCcw := if s.ss.settings.form = .cwCcw ∧ d = .minus then .high else s.pg.dirCcw } } := by
  unfold raisePulse
  cases s.ss.settings.form <;> cases d <;> rfl

/-- The progress of a SPAN whose pulse is emitted (R113). -/
theorem spanProgress_emitted (k : SegKind) (s : State) : spanProgress k true s = { s with pg := { s.pg with
    progress := if k.isSpan then s.pg.progress + 1 else s.pg.progress
    acc := match k with
      | .span d n _ => s.pg.acc + d.natAbs - n
      | _ => s.pg.acc } } := by
  cases k <;> rfl

section
variable {s : State} {dir : Dir}

theorem Dir.step_eq (d : Dir) : d.step = if d = .plus then 1 else -1 := by
  cases d <;> rfl

theorem limitRefuses_eq_false (hp : dir = .plus → s.limpActive = false) (hm : dir = .minus → s.limnActive = false) :
    s.limitRefuses dir = false := by
  cases dir with
  | plus => exact hp rfl
  | minus => exact hm rfl

theorem softRefuses_eq_false (h : s.ss.settings.softEnable = true →
    if dir = .plus then s.pb.command + 1 ≤ s.ss.settings.softMax else s.ss.settings.softMin ≤ s.pb.command - 1) :
    s.softRefuses dir = false := by
  unfold State.softRefuses
  cases hs : s.ss.settings.softEnable with
  | false => rfl
  | true =>
    have hlimit := h hs
    cases dir with
    | plus => exact decide_eq_false (not_lt.2 hlimit)
    | minus => exact decide_eq_false (not_lt.2 hlimit)

theorem pulseCauses_eq_nil {k : SegKind} (hl : s.limitRefuses dir = false)
    (hs : k.isSeek = false → s.softRefuses dir = false) (hr : s.rangeRefuses dir = false) : s.pulseCauses k dir = [] := by
  unfold State.pulseCauses
  rw [hl, hr]
  cases hk : k.isSeek with
  | true => rfl
  | false => rw [hs hk]; rfl

end

/-- The end of an interval in progress (R107, R113, R155). -/
theorem execIntervalEnd_of_runs {s : State} {h : Segment} {rest : List Segment} (hq : s.queue = h :: rest)
    (hruns : s.intervalRuns = true) : exec .intervalEnd s = .next (
      if !h.kind.carriesPulse s.pg then afterStep (spanProgress h.kind false s)
      else match s.pg.dir with
        | none => s
        | some d =>
          if s.pulseCauses h.kind d = [] then afterStep (emitPulse h.kind d s)
          else refusePulse h d (s.pulseCauses h.kind d) s) := by
  refine congrArg Host.Outcome.next ?_
  rw [hq]
  exact if_neg (by rw [hruns]; exact Bool.false_ne_true)

/-- Settles O42: an interval without a pulse, or with one that passes every test and is counted. -/
theorem intervalEndEmitsAPassedPulse : Obligations.IntervalEndEmitsAPassedPulse := by
  intro s
  refine ⟨intervalRuns_iff, fun hno => ?_, fun h rest hq hruns => ⟨fun d n p hk hlt => ?_, fun dir hdir hcarry => ?_⟩⟩
  · refine congrArg Host.Outcome.next ?_
    cases hq : s.queue with
    | nil => rfl
    | cons h rest => exact if_pos (by rw [hno]; rfl)
  · have hcarries : h.kind.carriesPulse s.pg = false := by
      rw [hk]
      exact decide_eq_false (Nat.not_le.2 hlt)
    rw [execIntervalEnd_of_runs hq hruns, if_pos (by rw [hcarries]; rfl), hk]
    rfl
  · intro n hlp hlm hsoft hrange pg
    have hn : n = s.pb.command + dir.step := by rw [Dir.step_eq]
    have hcarries : h.kind.carriesPulse s.pg = true := by
      unfold SegKind.carriesPulse
      split
      · next d m p hk => exact decide_eq_true (hcarry d m p hk)
      · rfl
    have hcauses : s.pulseCauses h.kind dir = [] := by
      refine pulseCauses_eq_nil (limitRefuses_eq_false hlp hlm) (fun hk => softRefuses_eq_false fun he => ?_) ?_
      · have hlimit := hsoft hk he
        cases dir with
        | plus => exact hlimit
        | minus => exact hlimit
      · rw [State.rangeRefuses, ← hn, inCounterRange_iff.2 hrange]
        rfl
    have hemit : emitPulse h.kind dir s = evalMarks .command (.step s.pb.command) n
        (followTest (s.pb.command - s.pb.feedback) { s with pg := pg, pb := { s.pb with command := n } }) := by
      rw [emitPulse, raisePulse_eq, spanProgress_emitted, stepCommand, hn]
      rfl
    rw [execIntervalEnd_of_runs hq hruns, if_neg (by rw [hcarries]; exact Bool.false_ne_true), hdir]
    dsimp only
    rw [if_pos hcauses, hemit]

end Sys2Proof.Machine
end

