-- ==== Sys2Proof/Proofs/MarkJudgement.lean ====
section
/-! PROOFS. The judgement of a mark unit is the repeated firing of it. -/

namespace Sys2Proof.Machine

/-! ### One firing -/

theorem MarkCond.way_cases (c : MarkCond) : c.way = 1 ∨ c.way = -1 := by
  cases c <;> decide

/-- A unit with a period stays ARMED with its threshold moved, or is FIRED when the threshold would leave the counter
range (R143). -/
theorem MarkUnit.fireOnce_eq {x : MarkUnit} (hp : x.period ≠ 0) : x.fireOnce =
    if inCounterRange (x.threshold + x.cond.way * x.period) then { x with threshold := x.threshold + x.cond.way * x.period }
    else { x with state := .fired } := by
  obtain ⟨st, src, cond, t, p, held⟩ := x
  have hmoved : ∀ moved : Int, (p = 0 ∨ 1073741823 < moved.natAbs) ↔ ¬ inCounterRange moved = true := by
    intro moved
    rw [inCounterRange_iff, not_le]
    exact or_iff_right hp
  have hif : ∀ (moved : Int) (a b : MarkUnit),
      (if p = 0 ∨ 1073741823 < moved.natAbs then a else b) = if inCounterRange moved then b else a := by
    intro moved a b
    by_cases h : inCounterRange moved = true
    · rw [if_pos h, if_neg fun hn => (hmoved moved).1 hn h]
    · rw [if_neg h, if_pos ((hmoved moved).2 h)]
  unfold MarkUnit.fireOnce
  dsimp only
  rw [hif]
  cases cond <;> simp [MarkCond.way, ← Int.sub_eq_add_neg]

/-- With period 0 a unit is FIRED by its first firing (R143). -/
theorem MarkUnit.fireOnce_of_zero {x : MarkUnit} (hp : x.period = 0) : x.fireOnce = { x with state := .fired } :=
  if_pos (.inl hp)

section
variable {e : CounterEvent} {n : Int} {x : MarkUnit}

theorem MarkUnit.fireWhileMet_of_not (h : x.state ≠ .armed ∨ x.cond.meets e x.threshold n = false) (fuel : Nat) :
    x.fireWhileMet e n fuel = (0, x) := by
  cases fuel with
  | zero => rfl
  | succ fuel =>
    refine if_neg fun ⟨ha, hm⟩ => ?_
    obtain h | h := h
    · exact h ha
    · rw [h] at hm
      cases hm

theorem MarkUnit.fireWhileMet_of_met (ha : x.state = .armed) (hm : x.cond.meets e x.threshold n = true) (fuel : Nat) :
    x.fireWhileMet e n (fuel + 1) = ((x.fireOnce.fireWhileMet e n fuel).1 + 1, (x.fireOnce.fireWhileMet e n fuel).2) :=
  if_pos ⟨ha, hm⟩

/-! ### Firing again and again -/

/-- The condition is met for the thresholds up to the counter, `d` on the unit's way from its own, and for no other that
a period leads to. -/
def MarkUnit.metUpTo (e : CounterEvent) (n : Int) (d : Nat) (x : MarkUnit) : Prop :=
  n = x.threshold + x.cond.way * d
    ∧ ∀ j : Nat, x.cond.meets e (x.threshold + x.cond.way * (j * x.period : Nat)) n = decide (j * x.period ≤ d)

/-- An event that meets the condition meets it for the thresholds up to the counter (Table 8-4): a step of one meets a
crossing at its new value alone. -/
theorem MarkUnit.metUpTo_of_met (hm : x.cond.meets e x.threshold n = true)
    (hstep : ∀ o, e = .step o → n - o = 1 ∨ o - n = 1) : x.metUpTo e n (n - x.threshold).natAbs := by
  obtain ⟨st, src, cond, t, p, held⟩ := x
  unfold MarkUnit.metUpTo
  cases cond with
  | atOrAbove =>
    have ht : t ≤ n := by simpa [MarkCond.meets] using hm
    refine ⟨by simp only [MarkCond.way]; omega, fun j => decide_eq_decide.2 ?_⟩
    dsimp only [MarkCond.way]
    generalize j * p = q
    omega
  | atOrBelow =>
    have ht : n ≤ t := by simpa [MarkCond.meets] using hm
    refine ⟨by simp only [MarkCond.way]; omega, fun j => decide_eq_decide.2 ?_⟩
    dsimp only [MarkCond.way]
    generalize j * p = q
    omega
  | crossUp =>
    cases e with
    | step o =>
      have ht : o < t ∧ t ≤ n := by simpa [MarkCond.meets] using hm
      have ho := hstep o rfl
      refine ⟨by simp only [MarkCond.way]; omega, fun j => decide_eq_decide.2 ?_⟩
      dsimp only [MarkCond.way]
      generalize j * p = q
      omega
    | _ => cases hm
  | crossDown =>
    cases e with
    | step o =>
      have ht : t < o ∧ n ≤ t := by simpa [MarkCond.meets] using hm
      have ho := hstep o rfl
      refine ⟨by simp only [MarkCond.way]; omega, fun j => decide_eq_decide.2 ?_⟩
      dsimp only [MarkCond.way]
      generalize j * p = q
      omega
    | _ => cases hm

/-- What the firings of a unit come to whose condition is met up to `d` (R143). -/
def MarkUnit.firedUpTo (d : Nat) (x : MarkUnit) : Nat × MarkUnit :=
  (d / x.period + 1,
    if inCounterRange (x.threshold + x.cond.way * ((d / x.period + 1) * x.period : Nat)) then
      { x with threshold := x.threshold + x.cond.way * ((d / x.period + 1) * x.period : Nat) }
    else { x with state := .fired, threshold := x.threshold + x.cond.way * (d / x.period * x.period : Nat) })

/-- The unit fires once for each threshold up to the counter, all of which are in range, and then once more moves or is
FIRED. -/
theorem MarkUnit.fireWhileMet_eq (hn : inCounterRange n = true) (fuel : Nat) :
    ∀ (x : MarkUnit) (d : Nat), x.state = .armed → x.period ≠ 0 → inCounterRange x.threshold = true → x.metUpTo e n d →
      d / x.period + 2 ≤ fuel → x.fireWhileMet e n fuel = x.firedUpTo d := by
  induction fuel with
  | zero => exact fun _ _ _ _ _ _ h => absurd h (Nat.not_succ_le_zero _)
  | succ fuel ih =>
    intro x d ha hp ht hmet hfuel
    obtain ⟨hd, hmeets⟩ := hmet
    have hpos : 0 < x.period := Nat.pos_of_ne_zero hp
    have hnow : x.cond.meets e x.threshold n = true := by simpa using hmeets 0
    have hfirst : x.fireOnce = _ := MarkUnit.fireOnce_eq hp
    rw [MarkUnit.fireWhileMet_of_met ha hnow]
    by_cases hlt : d < x.period
    · have hzero : d / x.period = 0 := Nat.div_eq_of_lt hlt
      rw [MarkUnit.firedUpTo, hzero, Nat.zero_add, Nat.one_mul, Nat.zero_mul, Nat.cast_zero, Int.mul_zero, Int.add_zero, hfirst]
      split
      · have hstop : x.cond.meets e (x.threshold + x.cond.way * x.period) n = false := by
          have h1 := hmeets 1
          rw [Nat.one_mul, decide_eq_false (Nat.not_le.2 hlt)] at h1
          exact h1
        rw [MarkUnit.fireWhileMet_of_not (x := { x with threshold := x.threshold + x.cond.way * x.period }) (.inr hstop)]
      · rw [MarkUnit.fireWhileMet_of_not (x := { x with state := .fired }) (.inl nofun)]
    · have hle : x.period ≤ d := Nat.not_lt.1 hlt
      have hdiv : d / x.period = (d - x.period) / x.period + 1 := by
        rw [Nat.div_eq, if_pos ⟨hpos, hle⟩]
      have hmoved : inCounterRange (x.threshold + x.cond.way * x.period) = true := by
        rw [inCounterRange_iff] at hn ht ⊢
        obtain hw | hw := x.cond.way_cases <;> rw [hw] at hd ⊢ <;> omega
      have hnext : MarkUnit.metUpTo e n (d - x.period) { x with threshold := x.threshold + x.cond.way * x.period } := by
        refine ⟨?_, fun j => ?_⟩
        · dsimp only
          obtain hw | hw := x.cond.way_cases <;> rw [hw] at hd ⊢ <;> omega
        · have hj := hmeets (j + 1)
          have hthreshold : x.threshold + x.cond.way * ((j + 1) * x.period : Nat)
              = x.threshold + x.cond.way * x.period + x.cond.way * (j * x.period : Nat) := by
            push_cast
            ring
          rw [hthreshold] at hj
          refine hj.trans (decide_eq_decide.2 ?_)
          rw [Nat.succ_mul]
          dsimp only
          omega
      rw [hfirst, if_pos hmoved, ih { x with threshold := x.threshold + x.cond.way * x.period } (d - x.period) ha hp hmoved
        hnext (by show (d - x.period) / x.period + 2 ≤ fuel; omega)]
      have hk : ∀ k : Nat, x.threshold + x.cond.way * x.period + x.cond.way * (k * x.period : Nat)
          = x.threshold + x.cond.way * ((k + 1) * x.period : Nat) := by
        intro k
        push_cast
        ring
      simp only [MarkUnit.firedUpTo, hk, ← hdiv]

/-- A judged unit whose condition is met fires up to the counter (R143). -/
theorem MarkUnit.judge_of_met (ha : x.state = .armed) (hm : x.cond.meets e x.threshold n = true) (hp : x.period ≠ 0) :
    x.judge e n = x.firedUpTo (n - x.threshold).natAbs := by
  have hback : ∀ k : Nat, x.threshold + x.cond.way * ((k + 1) * x.period : Nat) - x.cond.way * (x.period : Nat)
      = x.threshold + x.cond.way * (k * x.period : Nat) := by
    intro k
    push_cast
    ring
  have hmet : ¬ (x.state ≠ .armed ∨ x.cond.meets e x.threshold n = false) := by simp [ha, hm]
  rw [MarkUnit.judge, if_neg hmet, if_neg hp]
  simp only [MarkUnit.firedUpTo, firingCount, hback]
  split <;> rfl

end

/-- The closed form of a judgement is the repeated firing (R143). -/
theorem MarkUnit.judge_eq_fireWhileMet {x : MarkUnit} {e : CounterEvent} {n : Int} (hn : inCounterRange n = true)
    (ht : inCounterRange x.threshold = true) (hstep : ∀ o, e = .step o → n - o = 1 ∨ o - n = 1) :
    x.judge e n = x.fireWhileMet e n ((n - x.threshold).natAbs + 2) := by
  by_cases hmet : x.state ≠ .armed ∨ x.cond.meets e x.threshold n = false
  · rw [MarkUnit.judge, if_pos hmet, MarkUnit.fireWhileMet_of_not hmet]
  · obtain ⟨ha, hm⟩ : x.state = .armed ∧ x.cond.meets e x.threshold n = true := by
      simpa [not_or] using hmet
    by_cases hp : x.period = 0
    · rw [MarkUnit.judge, if_neg hmet, if_pos hp, MarkUnit.fireWhileMet_of_met ha hm, MarkUnit.fireOnce_of_zero hp,
        MarkUnit.fireWhileMet_of_not (x := { x with state := .fired }) (.inl nofun)]
    · have hfuel := Nat.div_le_self (n - x.threshold).natAbs x.period
      rw [MarkUnit.judge_of_met ha hm hp,
        MarkUnit.fireWhileMet_eq hn _ x _ ha hp ht (MarkUnit.metUpTo_of_met hm hstep) (by omega)]

/-! ### Which units judge -/

/-- A unit judges a change of its own source while it is ARMED (R142). -/
theorem evalUnit_eq {s : State} (src : MarkSource) (e : CounterEvent) (n : Int) (u : Fin 4) (hn : s.ss.node ≠ .silent) :
    evalUnit src e n s u = if s.pb.units[u].state = .armed ∧ s.pb.units[u].source = src then
      handFirings u (s.pb.units[u].judge e n).1 n (s.setUnit u (s.pb.units[u].judge e n).2) else s := by
  unfold evalUnit
  dsimp only
  by_cases hs : s.pb.units[u].source = src
  · rw [if_neg (not_or.2 ⟨not_not.2 hs, hn⟩)]
    by_cases ha : s.pb.units[u].state = .armed
    · rw [if_pos ⟨ha, hs⟩]
    · rw [if_neg fun h => ha h.1, MarkUnit.judge, if_pos (.inl ha), setUnit_self]
      exact handFirings_zero ..
  · rw [if_pos (.inl hs), if_neg fun h => hs h.2]

/-- Settles O50: the closed form by induction on the firings, and each unit of the changed source in turn. -/
theorem judgedUnitFiresWhileItsConditionIsMet : Obligations.JudgedUnitFiresWhileItsConditionIsMet := by
  refine ⟨fun x e n => MarkUnit.judge_eq_fireWhileMet, fun x e n ha => if_pos (.inl ha), fun cond e T n => ?_,
    fun src e n s => ?_⟩
  · cases cond <;> cases e <;> simp [MarkCond.meets]
  · split
    · next hn =>
      have hstay : ∀ u, evalUnit src e n s u = s := fun u => if_pos (.inr hn)
      simp only [evalMarks, allUnits, List.foldl_cons, List.foldl_nil, hstay]
    · next hn =>
      rw [evalMarks, show allUnits = List.finRange 4 from rfl]
      generalize List.finRange 4 = us
      induction us generalizing s with
      | nil => rfl
      | cons u us ih =>
        rw [List.foldl_cons, List.foldl_cons, ih _ (by rwa [evalUnit_ss]), evalUnit_eq src e n u hn]
        rfl

end Sys2Proof.Machine
end

