-- ==== Sys2Proof/Proofs/SetupFields.lean ====
section
/-! PROOFS. SETUP: the ranges of its fields, and the settings that read back. -/

namespace Sys2Proof.Machine

/-! ### The fields of a SETUP -/

theorem mask_within (b : Byte) : b &&& 0xC0 = 0 ↔ b.toNat < 64 := by
  revert b
  decide

theorem stopOutput_within (b : Byte) : b &&& 0xFC = 0 ↔ b.toNat < 4 := by
  revert b
  decide

theorem polarity_within (b : Byte) : b &&& 0xF0 = 0 ↔ b.toNat < 16 := by
  revert b
  decide

/-- The report station that a byte within its range names (Table 2-9). -/
def reportNamed (b : Byte) : ReportTo := if b = 0 then .nobody else if b = 63 then .everyone else .station (b.setWidth 6)

theorem reportOf_eq (b : Byte) : reportOf b = if b.toNat ≤ 63 then some (reportNamed b) else none := by
  revert b
  decide

theorem reportNamed_byte (b : Byte) (h : b.toNat ≤ 63) : (reportNamed b).byte = b := by
  revert b
  decide

theorem yesNoOf_eq (b : Byte) : yesNoOf b = if b.toNat ≤ 1 then some (b == 1) else none := by
  revert b
  decide

theorem yesNo_byte (b : Byte) (h : b.toNat ≤ 1) : (if (b == 1) = true then (1 : Byte) else 0) = b := by
  revert b
  decide

/-- The encoder mode of a byte's two lowest bits (Table 2-9). -/
def encModeNamed (b : Byte) : EncMode :=
  match b.toNat % 4 with
  | 0 => .off
  | 1 => .x1
  | 2 => .x2
  | _ => .x4

theorem encModeOf_eq (b : Byte) : encModeOf (b.extractLsb' 0 2) = encModeNamed b := by
  revert b
  decide

theorem stopOutput_byte (b : Byte) (h : b.toNat < 4) :
    0#6 ++ BitVec.ofBool ((if b.getLsbD 1 then OutputForm.cwCcw else .stepDir) == .cwCcw)
      ++ BitVec.ofBool ((if b.getLsbD 0 then Mode.abrupt else .smooth) == .abrupt) = b := by
  revert b
  decide

theorem encoder_byte (b : Byte) (h : b &&& 0x7C = 0) :
    BitVec.ofBool (b.getLsbD 7) ++ 0#5 ++ (encModeNamed b).code = b := by
  revert b
  decide

theorem polarity_byte (b : Byte) (h : b.toNat < 16) :
    0#4 ++ BitVec.ofBool (b.getLsbD 3) ++ BitVec.ofBool (b.getLsbD 2) ++ BitVec.ofBool (b.getLsbD 1)
      ++ BitVec.ofBool (b.getLsbD 0) = b := by
  revert b
  decide

/-- Every field is within its range (R46, Table 2-9). -/
def fieldsValid (f : SetupFields) : Prop :=
  f.report.toNat ≤ 63 ∧ f.mask.toNat < 64 ∧ 1 ≤ f.retry.toNat ∧ f.retry.toNat ≤ 15
    ∧ f.timeout.toNat ≤ 60000 ∧ f.softEnable.toNat ≤ 1 ∧ f.softMin.toInt.natAbs ≤ 1073741823
    ∧ f.softMax.toInt.natAbs ≤ 1073741823 ∧ f.stopOutput.toNat < 4 ∧ f.encoder &&& 0x7C = 0 ∧ f.polarity.toNat < 16

/-- The settings that valid fields name (Table 2-9). -/
def settingsNamed (f : SetupFields) : Settings where
  report := reportNamed f.report
  mask := f.mask
  retryLimit := f.retry.toNat
  timeout := f.timeout.toNat
  following := f.following.toNat
  softEnable := f.softEnable == 1
  softMin := f.softMin.toInt
  softMax := f.softMax.toInt
  limitMode := if f.stopOutput.getLsbD 0 then .abrupt else .smooth
  form := if f.stopOutput.getLsbD 1 then .cwCcw else .stepDir
  encMode := encModeNamed f.encoder
  encInvert := f.encoder.getLsbD 7
  limpHigh := f.polarity.getLsbD 0
  limnHigh := f.polarity.getLsbD 1
  dfltHigh := f.polarity.getLsbD 2
  refRising := f.polarity.getLsbD 3

/-- Valid fields give their settings (R46). -/
theorem settingsOf_of_valid {f : SetupFields} (h : fieldsValid f) : settingsOf f = some (settingsNamed f) := by
  obtain ⟨hreport, hmask, hr1, hr2, ht, hsoft, hmin, hmax, hstop, henc, hpol⟩ := h
  simp only [settingsOf, reportOf_eq, yesNoOf_eq, if_pos hreport, if_pos hsoft, positionOf_eq_some hmin,
    positionOf_eq_some hmax, encModeOf_eq, mask_within, stopOutput_within, polarity_within]
  exact if_pos ⟨hmask, hr1, hr2, ht, hstop, henc, hpol⟩

/-- Fields of which settings come are valid (R46). -/
theorem settingsOf_of_not_valid {f : SetupFields} (h : ¬ fieldsValid f) : settingsOf f = none := by
  by_contra hne
  obtain ⟨x, hx⟩ := Option.ne_none_iff_exists'.1 hne
  simp only [settingsOf, reportOf_eq, yesNoOf_eq, positionOf, inCounterRange_iff, mask_within, stopOutput_within,
    polarity_within, Option.bind_eq_bind, Option.bind_eq_some_iff, Option.ite_none_right_eq_some] at hx
  obtain ⟨report, ⟨hreport, -⟩, soft, ⟨hsoft, -⟩, smin, ⟨hmin, -⟩, smax, ⟨hmax, -⟩, ⟨hmask, hr1, hr2, ht, hstop, henc, hpol⟩, -⟩ := hx
  exact h ⟨hreport, hmask, hr1, hr2, ht, hsoft, hmin, hmax, hstop, henc, hpol⟩

/-- Settings from valid fields read back as those fields (R33). -/
theorem fieldsOf_named {f : SetupFields} (h : fieldsValid f) : fieldsOf (settingsNamed f) = f := by
  obtain ⟨hreport, -, -, -, -, hsoft, -, -, hstop, henc, hpol⟩ := h
  obtain ⟨report, mask, retry, timeout, following, softEnable, softMin, softMax, stopOutput, encoder, polarity⟩ := f
  simp only [fieldsOf, settingsNamed, reportNamed_byte _ hreport, stopOutput_byte _ hstop,
    encoder_byte _ henc, polarity_byte _ hpol, BitVec.ofNat_toNat, BitVec.setWidth_eq, BitVec.ofInt_toInt]
  congr 1
  exact yesNo_byte softEnable hsoft

/-- Settles O39: invalid fields draw RANGE, valid ones are the settings that they name. -/
theorem setupReplacesTheSettings : Obligations.SetupReplacesTheSettings := by
  intro source reference f i s hc hn t valid x
  have hx : x = settingsNamed f := rfl
  refine ⟨fun hv => ?_, fun hv => ⟨by rw [hx, fieldsOf_named hv], ?_⟩⟩
  · refine congrArg Host.Outcome.next (serve_setupOnly (r := refuse .range t) hc rfl hn ?_ rfl)
    show (match settingsOf f with | none => refuse .range t | some x => accept (applySettings x t)) = _
    rw [settingsOf_of_not_valid hv]
  · refine congrArg Host.Outcome.next (serve_setupOnly (r := accept (applySettings x t)) hc rfl hn ?_ rfl)
    show (match settingsOf f with | none => refuse .range t | some x => accept (applySettings x t)) = _
    rw [settingsOf_of_valid hv, hx]

end Sys2Proof.Machine
end

