-- ==== Sys2Proof/Proofs/LoadRecords.lean ====
section
/-! PROOFS. LOAD: the ranges of its record, the segment that it names, and its checks. -/

namespace Sys2Proof.Machine

/-! ### The fields of a LOAD -/

/-- The profile block is within its ranges (Table 2-7, R56). -/
def profileWithin (p : RawProfile) : Prop :=
  p.cls.toNat ≤ 2 ∧ 10 ≤ p.fl.toNat ∧ p.fl.toNat ≤ 100000 ∧ p.fl.toNat ≤ p.fh.toNat ∧ p.fh.toNat ≤ 250000
    ∧ 1 ≤ p.accel.toNat ∧ p.accel.toNat ≤ 1000000 ∧ 1 ≤ p.decel.toNat ∧ p.decel.toNat ≤ 1000000

/-- The profile that a profile block names (Table 2-7). -/
def profileNamed (p : RawProfile) : Profile :=
  { cls := if p.cls = 0 then .flatLow else if p.cls = 1 then .flatHigh else .ramp, fl := p.fl.toNat
    fh := p.fh.toNat, accel := p.accel.toNat, decel := p.decel.toNat }

theorem profileClassOf_eq (b : Byte) : profileClassOf b
    = if b.toNat ≤ 2 then some (if b = 0 then .flatLow else if b = 1 then .flatHigh else .ramp) else none := by
  revert b
  decide

theorem profileOf_eq_some {r : RawProfile} {p : Profile} : profileOf r = some p ↔ profileWithin r ∧ p = profileNamed r := by
  rw [profileOf, profileClassOf_eq, profileWithin, profileNamed]
  by_cases hc : r.cls.toNat ≤ 2
  · rw [if_pos hc]
    dsimp only
    rw [Option.ite_none_right_eq_some, Option.some_inj, and_iff_right hc, eq_comm (b := p)]
  · rw [if_neg hc]
    exact ⟨nofun, fun h => absurd h.1.1 hc⟩

/-- A mark reference names a station (R26). -/
def markWithin (b : Byte) : Prop := 1 ≤ b.toNat / 4 ∧ b.toNat / 4 ≤ 62

def markNamed (b : Byte) : MarkRef := { station := BitVec.ofNat 6 (b.toNat / 4), unit := Fin.ofNat 4 b.toNat }

theorem markRefOf_eq_some {b : Byte} {m : MarkRef} : markRefOf b = some m ↔ markWithin b ∧ m = markNamed b := by
  have h : ∀ b : Byte, markRefOf b = if 1 ≤ b.toNat / 4 ∧ b.toNat / 4 ≤ 62 then
      some { station := BitVec.ofNat 6 (b.toNat / 4), unit := Fin.ofNat 4 b.toNat } else none := by decide
  rw [h, Option.ite_none_right_eq_some, Option.some_inj, eq_comm (b := m)]
  rfl

theorem endMarkOf_eq_some {b : Byte} {m : Option MarkRef} :
    endMarkOf b = some m ↔ (b = 0 ∨ markWithin b) ∧ m = if b = 0 then none else some (markNamed b) := by
  unfold endMarkOf
  split
  · next h0 => simp [h0, eq_comm]
  · next h0 =>
    rw [Option.map_eq_some_iff]
    constructor
    · rintro ⟨x, hx, rfl⟩
      obtain ⟨hw, rfl⟩ := markRefOf_eq_some.1 hx
      exact ⟨.inr hw, rfl⟩
    · rintro ⟨hw, rfl⟩
      exact ⟨_, markRefOf_eq_some.2 ⟨hw.resolve_left h0, rfl⟩, rfl⟩

/-- The direction that a direction byte names (R56). -/
def dirNamed (b : Byte) : Dir := if b = 0 then .plus else .minus

theorem dirOf_eq_some {b : Byte} {d : Dir} : dirOf b = some d ↔ b.toNat ≤ 1 ∧ d = dirNamed b := by
  have h : ∀ b : Byte, dirOf b = if b.toNat ≤ 1 then some (if b = 0 then .plus else .minus) else none := by decide
  rw [h, Option.ite_none_right_eq_some, Option.some_inj, eq_comm (b := d)]
  rfl

theorem slotOf_eq_some {b : Byte} {x : Option (Fin 8)} : slotOf b = some x ↔
    (b.toNat ≤ 7 ∨ b = 0xFF) ∧ x = if b = 0xFF then none else some (Fin.ofNat 8 b.toNat) := by
  have h : ∀ b : Byte, slotOf b = if b.toNat ≤ 7 ∨ b = 0xFF then
      some (if b = 0xFF then none else some (Fin.ofNat 8 b.toNat)) else none := by decide
  rw [h, Option.ite_none_right_eq_some, Option.some_inj, eq_comm (b := x)]

theorem startOf_eq_some {start mark : Byte} {x : StartCond} : startOf start mark = some x ↔
    (start = 0 ∧ mark = 0 ∨ start = 1 ∧ mark = 0 ∨ start = 2 ∧ markWithin mark)
      ∧ x = if start = 0 then .immediate else if start = 1 then .rendezvous else .mark (markNamed mark) := by
  by_cases h0 : start = 0
  · have hok : (start = 0 ∧ mark = 0 ∨ start = 1 ∧ mark = 0 ∨ start = 2 ∧ markWithin mark) ↔ mark = 0 := by
      subst h0
      refine ⟨?_, fun hm => .inl ⟨rfl, hm⟩⟩
      rintro (⟨-, hm⟩ | ⟨h, -⟩ | ⟨h, -⟩)
      · exact hm
      · exact absurd h (by decide)
      · exact absurd h (by decide)
    rw [startOf, hok, if_pos h0, if_pos h0, Option.ite_none_right_eq_some, Option.some_inj, eq_comm (b := x)]
  by_cases h1 : start = 1
  · have hok : (start = 0 ∧ mark = 0 ∨ start = 1 ∧ mark = 0 ∨ start = 2 ∧ markWithin mark) ↔ mark = 0 := by
      subst h1
      refine ⟨?_, fun hm => .inr (.inl ⟨rfl, hm⟩)⟩
      rintro (⟨-, hm⟩ | ⟨-, hm⟩ | ⟨h, -⟩)
      · exact hm
      · exact hm
      · exact absurd h (by decide)
    rw [startOf, hok, if_neg h0, if_pos h1, if_neg h0, if_pos h1, Option.ite_none_right_eq_some, Option.some_inj,
      eq_comm (b := x)]
  rw [startOf, if_neg h0, if_neg h1, if_neg h0, if_neg h1]
  constructor
  · intro h
    obtain ⟨h2, h⟩ := Option.ite_none_right_eq_some.1 h
    obtain ⟨m, hm, rfl⟩ := Option.map_eq_some_iff.1 h
    obtain ⟨hw, rfl⟩ := markRefOf_eq_some.1 hm
    exact ⟨.inr (.inr ⟨h2, hw⟩), rfl⟩
  · rintro ⟨⟨h, -⟩ | ⟨h, -⟩ | ⟨h2, hw⟩, rfl⟩
    · exact absurd h h0
    · exact absurd h h1
    · rw [if_pos h2, markRefOf_eq_some.2 ⟨hw, rfl⟩]
      rfl

theorem options_within (b : Byte) : b &&& 0xFC = 0 ↔ b.toNat ≤ 3 := by
  revert b
  decide

theorem variantOf_eq_some {options count : Byte} {v : SeekVariant} : variantOf options count = some v ↔
    (options.toNat ≤ 3 ∧ (options.getLsbD 0 = true → 1 ≤ count.toNat ∧ count.toNat ≤ 16))
      ∧ v = if options.getLsbD 0 then .index count.toNat else .edge := by
  by_cases ho : options.toNat ≤ 3
  · rw [variantOf, if_neg (not_not.2 ((options_within options).2 ho))]
    by_cases hi : options.getLsbD 0 = true
    · rw [if_pos hi, if_pos hi, Option.ite_none_right_eq_some, Option.some_inj, eq_comm (b := v)]
      exact ⟨fun ⟨hc, hv⟩ => ⟨⟨ho, fun _ => hc⟩, hv⟩, fun ⟨⟨_, hc⟩, hv⟩ => ⟨hc hi, hv⟩⟩
    · rw [if_neg hi, if_neg hi, Option.some_inj, eq_comm (b := v)]
      exact ⟨fun hv => ⟨⟨ho, fun h => absurd h hi⟩, hv⟩, fun ⟨_, hv⟩ => hv⟩
  · rw [variantOf, if_pos (mt (options_within options).1 ho)]
    exact ⟨nofun, fun h => absurd h.1.1 ho⟩

theorem distanceOf_eq_some {x : BitVec 32} {d : Int} : distanceOf x = some d ↔ x.toInt.natAbs ≤ 16777215 ∧ d = x.toInt := by
  rw [distanceOf, Option.ite_none_right_eq_some, Option.some_inj, eq_comm (b := d)]
  rfl

theorem positionOf_eq_some_iff {x : BitVec 32} {d : Int} : positionOf x = some d ↔ x.toInt.natAbs ≤ 1073741823 ∧ d = x.toInt := by
  rw [positionOf, Option.ite_none_right_eq_some, inCounterRange_iff, Option.some_inj, eq_comm (b := d)]

/-! ### The segment of a LOAD -/

/-- The kind-specific part is within its ranges, but for what a SPAN asks of slot and start (R56). -/
def bodyWithin : LoadBody → Prop
  | .move d p => d.toInt ≠ 0 ∧ d.toInt.natAbs ≤ 16777215 ∧ profileWithin p
  | .moveTo x p => x.toInt.natAbs ≤ 1073741823 ∧ profileWithin p
  | .span d n p => d.toInt.natAbs ≤ 16777215 ∧ 1 ≤ n.toNat ∧ d.toInt.natAbs ≤ n.toNat ∧ profileWithin p
  | .run dir e p => dir.toNat ≤ 1 ∧ (e = 0 ∨ markWithin e) ∧ profileWithin p
  | .dwell ms => 1 ≤ ms.toNat
  | .seek dir options count preset p => dir.toNat ≤ 1 ∧ options.toNat ≤ 3
      ∧ (options.getLsbD 0 = true → 1 ≤ count.toNat ∧ count.toNat ≤ 16) ∧ preset.toInt.natAbs ≤ 1073741823
      ∧ profileWithin p

/-- The kind that a kind-specific part names (Table 4-1). -/
def kindNamed : LoadBody → SegKind
  | .move d p => .move d.toInt (profileNamed p)
  | .moveTo x p => .moveTo x.toInt (profileNamed p)
  | .span d n p => .span d.toInt n.toNat (profileNamed p)
  | .run dir e p => .run (dirNamed dir) (if e = 0 then none else some (markNamed e)) (profileNamed p)
  | .dwell ms => .dwell ms.toNat
  | .seek dir options count preset p => .seek
    { dir := dirNamed dir, variant := if options.getLsbD 0 then .index count.toNat else .edge
      reverse := options.getLsbD 1, preset := preset.toInt } (profileNamed p)

theorem kindOf_eq_some {b : LoadBody} {k : SegKind} : kindOf b = some k ↔ bodyWithin b ∧ k = kindNamed b := by
  cases b with
  | move d p =>
    simp only [kindOf, Option.bind_eq_bind, Option.bind_eq_some_iff, distanceOf_eq_some, profileOf_eq_some, bodyWithin, kindNamed]
    constructor
    · rintro ⟨_, ⟨hd, rfl⟩, _, ⟨hp, rfl⟩, hk⟩
      obtain ⟨h0, hk⟩ := Option.ite_none_left_eq_some.1 hk
      exact ⟨⟨h0, hd, hp⟩, (Option.some.inj hk).symm⟩
    · rintro ⟨⟨h0, hd, hp⟩, rfl⟩
      exact ⟨_, ⟨hd, rfl⟩, _, ⟨hp, rfl⟩, if_neg h0⟩
  | moveTo x p =>
    simp only [kindOf, Option.bind_eq_bind, Option.bind_eq_some_iff, positionOf_eq_some_iff, profileOf_eq_some, bodyWithin,
      kindNamed]
    constructor
    · rintro ⟨_, ⟨hx, rfl⟩, _, ⟨hp, rfl⟩, hk⟩
      exact ⟨⟨hx, hp⟩, (Option.some.inj hk).symm⟩
    · rintro ⟨⟨hx, hp⟩, rfl⟩
      exact ⟨_, ⟨hx, rfl⟩, _, ⟨hp, rfl⟩, rfl⟩
  | span d n p =>
    simp only [kindOf, Option.bind_eq_bind, Option.bind_eq_some_iff, distanceOf_eq_some, profileOf_eq_some, bodyWithin, kindNamed]
    constructor
    · rintro ⟨_, ⟨hd, rfl⟩, _, ⟨hp, rfl⟩, hk⟩
      obtain ⟨⟨h1, hn⟩, hk⟩ := Option.ite_none_right_eq_some.1 hk
      exact ⟨⟨hd, h1, hn, hp⟩, (Option.some.inj hk).symm⟩
    · rintro ⟨⟨hd, h1, hn, hp⟩, rfl⟩
      exact ⟨_, ⟨hd, rfl⟩, _, ⟨hp, rfl⟩, if_pos ⟨h1, hn⟩⟩
  | run dir e p =>
    simp only [kindOf, Option.bind_eq_bind, Option.bind_eq_some_iff, dirOf_eq_some, endMarkOf_eq_some, profileOf_eq_some,
      bodyWithin, kindNamed]
    constructor
    · rintro ⟨_, ⟨hd, rfl⟩, _, ⟨he, rfl⟩, _, ⟨hp, rfl⟩, hk⟩
      exact ⟨⟨hd, he, hp⟩, (Option.some.inj hk).symm⟩
    · rintro ⟨⟨hd, he, hp⟩, rfl⟩
      exact ⟨_, ⟨hd, rfl⟩, _, ⟨he, rfl⟩, _, ⟨hp, rfl⟩, rfl⟩
  | dwell ms =>
    rw [kindOf, Option.ite_none_right_eq_some, Option.some_inj, eq_comm (b := k)]
    rfl
  | seek dir options count preset p =>
    simp only [kindOf, Option.bind_eq_bind, Option.bind_eq_some_iff, dirOf_eq_some, variantOf_eq_some, positionOf_eq_some_iff,
      profileOf_eq_some, bodyWithin, kindNamed]
    constructor
    · rintro ⟨_, ⟨hd, rfl⟩, _, ⟨⟨ho, hc⟩, rfl⟩, _, ⟨hx, rfl⟩, _, ⟨hp, rfl⟩, hk⟩
      exact ⟨⟨hd, ho, hc, hx, hp⟩, (Option.some.inj hk).symm⟩
    · rintro ⟨⟨hd, ho, hc, hx, hp⟩, rfl⟩
      exact ⟨_, ⟨hd, rfl⟩, _, ⟨⟨ho, hc⟩, rfl⟩, _, ⟨hx, rfl⟩, _, ⟨hp, rfl⟩, rfl⟩

/-- The common part of a record is within its ranges (R55). -/
def commonWithin (r : LoadRecord) : Prop :=
  r.tag ≠ 0 ∧ (r.slot.toNat ≤ 7 ∨ r.slot = 0xFF)
    ∧ (r.start = 0 ∧ r.startMark = 0 ∨ r.start = 1 ∧ r.startMark = 0 ∧ r.slot ≠ 0xFF ∨ r.start = 2 ∧ markWithin r.startMark)

/-- What a SPAN asks of slot and start (R56). -/
def spanWithin (r : LoadRecord) : Prop := (kindNamed r.body).isSpan = true → r.slot ≠ 0xFF ∧ r.start = 1

/-- The segment that a record names (Tables 2-5 to 2-7, 4-1). -/
def segmentNamed (r : LoadRecord) : Segment where
  tag := r.tag
  slot := if r.slot = 0xFF then none else some (Fin.ofNat 8 r.slot.toNat)
  start := if r.start = 0 then .immediate else if r.start = 1 then .rendezvous else .mark (markNamed r.startMark)
  state := .queued
  kind := kindNamed r.body

theorem segmentNamed_slot (r : LoadRecord) : (segmentNamed r).slot = none ↔ r.slot = 0xFF := by
  rw [segmentNamed]
  dsimp only
  split
  · next h => exact ⟨fun _ => h, fun _ => rfl⟩
  · next h => exact ⟨nofun, fun h' => absurd h' h⟩

theorem segmentNamed_start (r : LoadRecord) : (segmentNamed r).start = .rendezvous ↔ r.start = 1 := by
  rw [segmentNamed]
  dsimp only
  split
  · next h => exact ⟨nofun, fun h' => by rw [h] at h'; exact absurd h' (by decide)⟩
  · split
    · next h => exact ⟨fun _ => h, fun _ => rfl⟩
    · next h => exact ⟨nofun, fun h' => absurd h' h⟩

/-- A record within its ranges is the segment that it names, and no other record is one (R55, R56). -/
theorem segmentOf_eq_some {r : LoadRecord} {h : Segment} :
    segmentOf r = some h ↔ (commonWithin r ∧ bodyWithin r.body ∧ spanWithin r) ∧ h = segmentNamed r := by
  have hslot := segmentNamed_slot r
  have hstart := segmentNamed_start r
  simp only [segmentOf, Option.bind_eq_bind, Option.bind_eq_some_iff, slotOf_eq_some, startOf_eq_some, kindOf_eq_some]
  constructor
  · rintro ⟨_, ⟨hs, rfl⟩, _, ⟨hst, rfl⟩, _, ⟨hb, rfl⟩, hk⟩
    obtain ⟨h0, hk⟩ := Option.ite_none_left_eq_some.1 hk
    obtain ⟨hr, hk⟩ := Option.ite_none_left_eq_some.1 hk
    obtain ⟨hsp, hk⟩ := Option.ite_none_left_eq_some.1 hk
    refine ⟨⟨⟨h0, hs, ?_⟩, hb, ?_⟩, (Option.some.inj hk).symm⟩
    · obtain h | ⟨h1, hm⟩ | h := hst
      · exact .inl h
      · exact .inr (.inl ⟨h1, hm, fun hn => hr ⟨hstart.2 h1, hslot.2 hn⟩⟩)
      · exact .inr (.inr h)
    · intro hspan
      rw [not_and, not_or, not_not] at hsp
      obtain ⟨hn, h1⟩ := hsp hspan
      exact ⟨mt hslot.2 hn, hstart.1 h1⟩
  · rintro ⟨⟨⟨h0, hs, hst⟩, hb, hsp⟩, rfl⟩
    refine ⟨_, ⟨hs, rfl⟩, _, ⟨?_, rfl⟩, _, ⟨hb, rfl⟩, ?_⟩
    · obtain h | ⟨h1, hm, -⟩ | h := hst
      · exact .inl h
      · exact .inr (.inl ⟨h1, hm⟩)
      · exact .inr (.inr h)
    · refine (if_neg h0).trans ((if_neg ?_).trans ((if_neg ?_).trans rfl))
      · rintro ⟨h1, hn⟩
        obtain ⟨h, -⟩ | ⟨-, -, h⟩ | ⟨h, -⟩ := hst
        · rw [hstart.1 h1] at h
          exact absurd h (by decide)
        · exact h (hslot.1 hn)
        · rw [hstart.1 h1] at h
          exact absurd h (by decide)
      · rintro ⟨hspan, hn | h1⟩
        · exact (hsp hspan).1 (hslot.1 hn)
        · exact h1 (hstart.2 (hsp hspan).2)

/-! ### The checks of LOAD -/

section
variable {s : State} {r : LoadRecord} {h : Segment}

theorem loadSegment_of_room (hl : s.queue.length < 16) (hr : segmentOf r = some h) :
    loadSegment r s = if s.slotUndefined h then refuse .slotUndefined s
      else if s.queue.any fun x => x.tag == h.tag then refuse .duplicateTag s else accept (append h s) := by
  have hroom : ¬ Config.queueCapacity ≤ s.queue.length := Nat.not_le.2 hl
  rw [loadSegment, if_neg hroom, hr]

theorem slotUndefined_iff : s.slotUndefined h = true ↔ ∃ k, h.slot = some k ∧ s.group? k = none := by
  simp [State.slotUndefined, Option.any_eq_true]

theorem append_of_ne_nil (hq : s.queue ≠ []) : append h s = { s with queue := s.queue ++ [{ h with state := .queued }] } := by
  unfold append
  split
  · next hn => exact absurd hn hq
  · rfl

theorem append_of_nil (hq : s.queue = []) : append h s = evaluate { s with queue := [{ h with state := .waiting }] } := by
  rw [append, hq]

theorem append_answers (h : Segment) (s : State) : (append h s).answers = s.answers := by
  unfold append
  split
  · exact congrArg Outside.answers (evaluate_outside _)
  · rfl

end

/-- Settles O32: the checks in their order, and a record that is a segment exactly within its ranges. -/
theorem loadIsCheckedAndAppended : Obligations.LoadIsCheckedAndAppended := by
  refine ⟨fun source reference r i s hc hn => ?_, fun r => ?_⟩
  · intro t answers
    have hreply : ∀ u x, loadSegment r t = { state := u, result := x, contents := [] } → u.answers = s.answers →
        answers u x := fun u x hr ha =>
      congrArg Host.Outcome.next (serve_runOnly (r := { state := u, result := x, contents := [] }) hc rfl hn hr ha)
    refine ⟨fun hfull => ?_, fun hl hr => ?_, fun h hl hr => ⟨fun hs => ?_, fun hs => ⟨fun ht => ?_, fun ht => ?_⟩⟩⟩
    · exact hreply t .full (if_pos hfull) rfl
    · refine hreply t .range ?_ rfl
      have hroom : ¬ Config.queueCapacity ≤ t.queue.length := Nat.not_le.2 hl
      rw [loadSegment, if_neg hroom, hr]
      rfl
    · refine hreply t .slotUndefined ?_ rfl
      rw [loadSegment_of_room (s := t) hl hr, if_pos (slotUndefined_iff (s := t) |>.2 hs)]
      rfl
    · have hdefined : ¬ t.slotUndefined h = true := fun hu => by
        obtain ⟨k, hk, hg⟩ := slotUndefined_iff.1 hu
        exact hs k hk hg
      refine hreply t .duplicateTag ?_ rfl
      rw [loadSegment_of_room (s := t) hl hr, if_neg hdefined]
      exact if_pos (by simpa using show ∃ x ∈ t.queue, x.tag = h.tag from ht)
    · have hdefined : ¬ t.slotUndefined h = true := fun hu => by
        obtain ⟨k, hk, hg⟩ := slotUndefined_iff.1 hu
        exact hs k hk hg
      have happend : answers (append h t) .accepted := by
        refine hreply _ .accepted ?_ (append_answers h t)
        rw [loadSegment_of_room (s := t) hl hr, if_neg hdefined]
        exact if_neg (by simpa using show ∀ x ∈ t.queue, ¬ x.tag = h.tag from ht)
      refine ⟨fun hq => ?_, fun hq => ?_⟩
      · rw [append_of_ne_nil (s := t) hq] at happend
        exact happend
      · rw [append_of_nil (s := t) hq] at happend
        exact happend
  · intro profileOk markOk commonOk kindOk profile mark dirOf
    have hall : (commonOk ∧ kindOk) ↔ (commonWithin r ∧ bodyWithin r.body ∧ spanWithin r) := by
      refine and_congr Iff.rfl ?_
      simp only [kindOk, spanWithin]
      cases r.body with
      | span d n p =>
        constructor
        · rintro ⟨hs, h1, hd, hn, hle, hp⟩
          exact ⟨⟨hd, hn, hle, hp⟩, fun _ => ⟨hs, h1⟩⟩
        · rintro ⟨⟨hd, hn, hle, hp⟩, hspan⟩
          obtain ⟨hs, h1⟩ := hspan rfl
          exact ⟨hs, h1, hd, hn, hle, hp⟩
      | _ => exact ⟨fun h => ⟨h, nofun⟩, fun h => h.1⟩
    refine ⟨fun hn => ?_, fun hok => ?_⟩
    · by_contra hsome
      obtain ⟨h, hh⟩ := Option.ne_none_iff_exists'.1 hsome
      exact hn (hall.2 (segmentOf_eq_some.1 hh).1)
    · refine segmentOf_eq_some.2 ⟨hall.1 hok, ?_⟩
      rw [segmentNamed]
      cases r.body <;> rfl

end Sys2Proof.Machine
end

