-- ==== Sys2Proof/Proofs/FlushRules.lean ====
section
/-! PROOFS. FLUSH: the segments it removes and what they leave behind. -/

namespace Sys2Proof.Machine
open scoped Host.Outcome

/-! ### What FLUSH removes -/

/-- FLUSH removes a matching segment that has not begun (R77). -/
def flushGoes (p : Segment → Bool) (h : Segment) : Bool :=
  p h && (h.state == .queued || h.state == .waiting || h.state == .announcing)

theorem flushes_eq (p : Segment → Bool) : flushes p = flushGoes p := by
  funext h
  rw [flushes, flushGoes]
  cases h.state <;> rfl

theorem kept_eq (p : Segment → Bool) : (fun h => p h && h.state.keptByFlush) = fun h : Segment => p h && !flushGoes p h := by
  funext h
  rw [flushGoes]
  cases p h <;> cases h.state <;> rfl

/-- The queue without the node's READY: one on the line stays, withdrawn (R24). -/
def readyWithdrawnFrom (q : List TxEntry) : List TxEntry :=
  q.filterMap fun e =>
    if e.frame.isReady = false then some e
    else if e.onLine then some { e with withdrawn := true } else none

theorem withdrawReady_eq (s : State) :
    withdrawReady s = { s with tif := { s.tif with queue := readyWithdrawnFrom s.tif.queue } } := by
  have hentry : (fun e : TxEntry => if e.frame.isReady then (if e.onLine then some { e with withdrawn := true } else none) else some e)
      = fun e : TxEntry => if e.frame.isReady = false then some e
        else if e.onLine then some { e with withdrawn := true } else none := by
    funext e
    cases e.frame.isReady <;> rfl
  exact congrArg (fun f => { s with tif := { s.tif with queue := s.tif.queue.filterMap f } }) hentry

/-- What an ANNOUNCING segment among the removed ones gives back (R102). -/
theorem flushAnnouncing_eq (removed : List Segment) (u : State) :
    flushAnnouncing removed u = match removed.find? fun h => h.state == .announcing with
      | none => u
      | some h =>
        match h.slot with
        | none => u
        | some k =>
          match u.group? k with
          | none => u
          | some g => { u with
              ru := { slots := u.ru.slots.set k (.live { g with state := .opened }), timer := none }
              tif := { u.tif with queue := readyWithdrawnFrom u.tif.queue } } := by
  unfold flushAnnouncing
  simp only [withdrawReady_eq]
  rfl

theorem flushAnnouncing_queue (removed : List Segment) (u : State) : (flushAnnouncing removed u).queue = u.queue := by
  unfold flushAnnouncing
  repeat' split
  all_goals rfl

theorem flushAnnouncing_pb (removed : List Segment) (u : State) : (flushAnnouncing removed u).pb = u.pb := by
  unfold flushAnnouncing
  repeat' split
  all_goals rfl

theorem pruneHeard_eq {u : State} {stays : List Segment} (hq : u.queue = stays) :
    pruneHeard u = { u with pb := { u.pb with heard := u.pb.heard.filter fun e => stays.any fun h => h.refersTo e.ref } } := by
  subst hq
  rfl

/-! ### The notices of FLUSH -/

theorem steps3_flushed (h : Segment) : steps3 h.kind.flushedSteps = bytes3 (BitVec.ofNat 24 (match h.kind with
    | .move d _ => min d.natAbs 16777215
    | .span d _ _ => min d.natAbs 16777215
    | _ => 0)) := by
  cases h.kind <;> rfl

/-- The DONE notices of the removed segments, each with the command counter (R78). -/
theorem flushNotices_eq (position : Int) (l : List Segment) :
    ∀ {u : State}, u.pb.command = position →
      l.foldl (fun s h => doneNotice h.tag .flushed h.kind.flushedSteps s) u
        = l.foldl (fun u h => produce .done ([h.tag, 5] ++ signed4 position
            ++ bytes3 (BitVec.ofNat 24 (match h.kind with
              | .move d _ => min d.natAbs 16777215
              | .span d _ _ => min d.natAbs 16777215
              | _ => 0))) u) u := by
  induction l with
  | nil => exact fun _ => rfl
  | cons h l ih =>
    intro u hu
    have hfirst : doneNotice h.tag .flushed h.kind.flushedSteps u = produce .done ([h.tag, 5] ++ signed4 position
        ++ bytes3 (BitVec.ofNat 24 (match h.kind with
          | .move d _ => min d.natAbs 16777215
          | .span d _ _ => min d.natAbs 16777215
          | _ => 0))) u := by
      rw [doneNotice, steps3_flushed, State.commandBytes, hu]
      rfl
    simp only [List.foldl_cons]
    rw [hfirst]
    exact ih (by simpa using hu)

theorem flushNotices_queue (l : List Segment) (u : State) :
    (l.foldl (fun s h => doneNotice h.tag .flushed h.kind.flushedSteps s) u).queue = u.queue := by
  induction l generalizing u with
  | nil => rfl
  | cons h l ih => exact (ih _).trans (produce_queue _ _ _)

theorem flushNotices_pb (l : List Segment) (u : State) :
    (l.foldl (fun s h => doneNotice h.tag .flushed h.kind.flushedSteps s) u).pb = u.pb := by
  induction l generalizing u with
  | nil => rfl
  | cons h l ih => exact (ih _).trans (produce_pb _ _ _)

theorem afterFlush_eq (b : Bool) (u : State) :
    afterFlush b u = match u.queue with
      | [] => produce .empty (signed4 u.pb.command) u
      | x :: more => if b then evaluate { u with queue := { x with state := .waiting } :: more } else u := by
  unfold afterFlush
  cases u.queue <;> rfl

/-! ### The whole of FLUSH -/

/-- The state after a FLUSH that removes the segments `goes` tells, from queue `t.queue` (R77, R78, R102). -/
theorem flushMatching_of_any {p : Segment → Bool} {t pruned : State} (hp : t.queue.any p = true)
    (hpruned : pruneHeard (flushAnnouncing (t.queue.filter (flushGoes p))
      { t with queue := t.queue.filter fun h => !flushGoes p h }) = pruned) :
    let goes := flushGoes p
    let stays := t.queue.filter fun h => !goes h
    let told := (t.queue.filter goes).foldl (fun u h => produce .done ([h.tag, 5] ++ signed4 t.pb.command
      ++ bytes3 (BitVec.ofNat 24 (match h.kind with
        | .move d _ => min d.natAbs 16777215
        | .span d _ _ => min d.natAbs 16777215
        | _ => 0))) u) pruned
    flushMatching p t = {
      state := match stays with
        | [] => produce .empty (signed4 t.pb.command) told
        | x :: more => if t.queue.head?.any goes then evaluate { told with queue := { x with state := .waiting } :: more } else told
      result := .accepted
      contents := BitVec.ofNat 8 (t.queue.filter goes).length ::
        keptBytes (t.queue.find? fun h => p h && !goes h) } := by
  intro goes stays told
  have hopened : pruned.pb.command = t.pb.command := by
    rw [← hpruned]
    show (flushAnnouncing _ _).pb.command = _
    rw [flushAnnouncing_pb]
  have htold : _ = told := flushNotices_eq t.pb.command (t.queue.filter goes) hopened
  have hqueue : told.queue = stays := by
    rw [← htold, flushNotices_queue, ← hpruned]
    exact flushAnnouncing_queue _ _
  have hcommand : told.pb.command = t.pb.command := by
    rw [← htold, flushNotices_pb]
    exact hopened
  have hafter := afterFlush_eq (t.queue.head?.any goes) told
  rw [hqueue, hcommand] at hafter
  rw [← hafter]
  show flushMatching p t = { state := afterFlush _ told, result := .accepted, contents := _ }
  unfold flushMatching
  rw [flushes_eq, kept_eq, if_neg (by rw [hp]; decide)]
  rw [← htold, ← hpruned]
  rfl

theorem flushMatching_of_none {p : Segment → Bool} {t : State} (hp : t.queue.any p = false) :
    flushMatching p t = { state := t, result := .notFound, contents := [] } := by
  rw [flushMatching, hp]
  rfl

theorem flushAnnouncing_answers (removed : List Segment) (u : State) : (flushAnnouncing removed u).answers = u.answers := by
  unfold flushAnnouncing
  split
  · rfl
  · split
    · rfl
    · split
      · rfl
      · exact congrArg Outside.answers (withdrawReady_outside u)

theorem flushNotices_answers (l : List Segment) (u : State) :
    (l.foldl (fun s h => doneNotice h.tag .flushed h.kind.flushedSteps s) u).answers = u.answers := by
  induction l generalizing u with
  | nil => rfl
  | cons h l ih => exact (ih _).trans (congrArg Outside.answers (produce_outside ..))

theorem afterFlush_answers (b : Bool) (u : State) : (afterFlush b u).answers = u.answers := by
  rw [afterFlush_eq]
  split
  · exact congrArg Outside.answers (produce_outside ..)
  · split
    · exact congrArg Outside.answers (evaluate_outside _)
    · rfl

theorem flushMatching_answers (p : Segment → Bool) (t : State) : (flushMatching p t).state.answers = t.answers := by
  rw [flushMatching_state]
  split
  · exact (afterFlush_answers _ _).trans ((flushNotices_answers _ _).trans (flushAnnouncing_answers _ _))
  · rfl

/-! ### FLUSH ALL, TAG and SLOT -/

theorem slotMatches_iff {value : Byte} {k : Fin 8} (hk : value.toNat = k.val) :
    (fun h : Segment => h.slot == some k) = fun h => h.slot.any fun j => j.val == value.toNat := by
  funext h
  cases hs : h.slot with
  | none => rfl
  | some j => simp [hk, Fin.ext_iff]

/-- Settles O33: the value is checked, and what matches and has not begun leaves the queue. -/
theorem flushRemovesTheMatchingSegments : Obligations.FlushRemovesTheMatchingSegments := by
  intro source reference value c i s hc hn t answers
  have hreply : ∀ (act : State → Reply) u x contents, frameOf s.own c ≠ none →
      exec c s = .next (serve c source reference kindFlush (runOnly act) s) →
      act t = { state := u, result := x, contents := contents } → u.answers = s.answers → answers u x contents := by
    intro act u x contents hf he hr ha
    obtain ⟨f, hf⟩ := Option.ne_none_iff_exists'.1 hf
    exact he.trans (congrArg Host.Outcome.next (serve_runOnly (r := { state := u, result := x, contents := contents }) hc hf hn hr ha))
  have hmatch : ∀ (act : State → Reply) (p : Segment → Bool), frameOf s.own c ≠ none →
      exec c s = .next (serve c source reference kindFlush (runOnly act) s) → act t = flushMatching p t →
      answers (flushMatching p t).state (flushMatching p t).result (flushMatching p t).contents :=
    fun act p hf he hr => hreply act _ _ _ hf he hr (flushMatching_answers p t)
  refine ⟨?_, fun p hp => ?_⟩
  · rintro (⟨rfl, hv⟩ | ⟨rfl, hv⟩ | ⟨rfl, hv⟩)
    · exact hreply _ t .range [] nofun rfl (if_neg hv) rfl
    · exact hreply _ t .range [] nofun rfl (if_pos hv) rfl
    · refine hreply _ t .range [] nofun rfl ?_ rfl
      rw [slotIndexOf_eq_none hv]
      rfl
  · have hflush : answers (flushMatching p t).state (flushMatching p t).result (flushMatching p t).contents := by
      obtain ⟨rfl, hv, rfl⟩ | ⟨rfl, hv, rfl⟩ | ⟨rfl, hv, rfl⟩ := hp
      · exact hmatch _ _ nofun rfl (if_pos hv)
      · exact hmatch _ _ nofun rfl (if_neg hv)
      · refine hmatch _ _ nofun rfl ?_
        rw [slotIndexOf_eq_some (k := ⟨value.toNat, hv⟩) rfl]
        exact congrArg (flushMatching · t) (slotMatches_iff rfl)
    intro goes stays left opened pruned told done
    refine ⟨fun hany => ?_, fun hany => ?_⟩
    · rw [flushMatching_of_none (t := t) hany] at hflush
      exact hflush
    · have hopened : flushAnnouncing (s.queue.filter goes) left = opened := flushAnnouncing_eq _ _
      have hqueue : opened.queue = stays := hopened ▸ flushAnnouncing_queue _ _
      have hpb : opened.pb = s.pb := hopened ▸ flushAnnouncing_pb _ _
      have hpruned : pruneHeard (flushAnnouncing (s.queue.filter goes) left) = pruned := by
        rw [hopened, pruneHeard_eq hqueue, hpb]
      rw [flushMatching_of_any (t := t) hany hpruned] at hflush
      exact hflush

end Sys2Proof.Machine
end

