-- ==== Sys2Proof/Proofs/SlotHalts.lean ====
section
/-! PROOFS. The halt of a group slot: what a taken frame leaves alone, the head under a halt, and the record (R92 to
R95). -/

namespace Sys2Proof.Machine
open scoped Host.Outcome

/-! ### What the taking of a frame leaves alone -/

/-- What the producer of a taken frame does leaves the Rendezvous Unit, the Guard and the generator (R12). -/
theorem attemptTaken_steers (s : State) :
    (attemptTaken s).ru = s.ru ∧ (attemptTaken s).gd = s.gd ∧ (attemptTaken s).pg = s.pg := by
  unfold attemptTaken
  split
  · exact ⟨rfl, rfl, rfl⟩
  · split
    · exact ⟨rfl, rfl, rfl⟩
    · dsimp only
      split
      · exact ⟨rfl, rfl, rfl⟩
      · split <;> simp [dropOnLine, noticeTaken]

theorem taken_steers (s : State) : (taken s).ru = s.ru ∧ (taken s).gd = s.gd ∧ (taken s).pg = s.pg := by
  unfold taken
  split
  · exact attemptTaken_steers _
  · exact ⟨rfl, rfl, rfl⟩

@[simp] theorem taken_ru (s : State) : (taken s).ru = s.ru :=
  have ⟨h, _, _⟩ := taken_steers s
  h

@[simp] theorem taken_gd (s : State) : (taken s).gd = s.gd :=
  have ⟨_, h, _⟩ := taken_steers s
  h

@[simp] theorem taken_pg (s : State) : (taken s).pg = s.pg :=
  have ⟨_, _, h⟩ := taken_steers s
  h

/-- What the producer of a taken frame does leaves the state of the link (R12). -/
theorem attemptTaken_link (s : State) : (attemptTaken s).tif.link = s.tif.link := by
  unfold attemptTaken
  split
  · rfl
  · split
    · rfl
    · dsimp only
      split
      · rfl
      · split
        · rfl
        · exact congrArg Outside.link (releaseHeld_outside _ _)
        · rfl
        · exact congrArg Outside.link (noticeTaken_outside _ _)

/-- A node that takes a frame is LISTENING from then on (R12). -/
theorem taken_link (s : State) : (taken s).tif.link = .listening := by
  unfold taken
  split
  · exact attemptTaken_link _
  · rfl

theorem taken_group (s : State) (k : Fin 8) : (taken s).group? k = s.group? k := group_congr (by rw [taken_ru]) k

theorem taken_slotHalted (s : State) (k : Fin 8) : (taken s).slotHalted k = s.slotHalted k := by
  rw [State.slotHalted, taken_group, State.slotHalted]

theorem taken_headOfSlot (s : State) (k : Fin 8) : (taken s).headOfSlot? k = s.headOfSlot? k := headOfSlot_congr (taken_queue s) k

theorem taken_slotOfAddress (s : State) (a : GroupAddr) : (taken s).slotOfAddress? a = s.slotOfAddress? a := by
  simp only [State.slotOfAddress?, taken_group]

/-- A frame taken in RUN acts on the node that has taken it (R37). -/
theorem takeFrame_inRun {s : State} {c : Instr} (h : s.takesCommand c = true) (hn : s.ss.node = .run) (act : State → State) :
    takeFrame c (inRun act) s = act (taken s) := by
  rw [takeFrame_of_takesCommand h, inRun, taken_ss, if_pos hn]

/-- A group frame taken in RUN acts on the slot that holds its address (R37). -/
theorem takeFrame_onGroup {s : State} {c : Instr} {a : GroupAddr} {k : Fin 8} (h : s.takesCommand c = true)
    (hn : s.ss.node = .run) (hk : s.slotOfAddress? a = some k) (act : Fin 8 → State → State) :
    takeFrame c (inRun (onGroup a act)) s = act k (taken s) := by
  rw [takeFrame_inRun h hn, onGroup, taken_slotOfAddress, hk]

/-! ### The head under a halt -/

section
variable {s : State} {k : Fin 8} {h : Segment} {rest : List Segment} {m : Mode} {b : Bool}

theorem haltHead_of_none (hk : s.headOfSlot? k = none) (m : Mode) (b : Bool) : haltHead k m b s = s := by
  rw [haltHead, hk]

theorem haltHead_of_running (hk : s.headOfSlot? k = some h) (hs : h.state = .running) (m : Mode) (b : Bool) :
    haltHead k m b s = if b then s else claim .halted m s := by
  simp only [haltHead, hk, hs]

theorem haltHead_of_ending {o : SegOutcome} {m' : Mode} (hk : s.headOfSlot? k = some h) (hs : h.state = .ending o m')
    (m : Mode) (b : Bool) : haltHead k m b s = claim .halted m s := by
  simp only [haltHead, hk, hs]

theorem haltHead_of_waits (hk : s.headOfSlot? k = some h) (hs : h.state = .waiting ∨ h.state = .queued) (m : Mode) (b : Bool) :
    haltHead k m b s = s := by
  obtain hs | hs := hs <;> simp [haltHead, returnHead, hk, hs, SegState.isAnnounce]

@[simp] theorem returnHead_owed (k : Fin 8) (s : State) : (returnHead k s).tif.owed = s.tif.owed := by
  unfold returnHead
  repeat' split
  all_goals simp

@[simp] theorem returnHead_otherFrames (k : Fin 8) (s : State) : (returnHead k s).otherFrames = s.otherFrames := by
  unfold returnHead
  split
  · split
    · rw [withdrawReady_otherFrames, State.otherFrames, setHeadState_tif, State.otherFrames]
    · rfl
  · rfl

/-- A halt of the head leaves the HALTs owed, and every frame but a READY (R92). -/
theorem haltHead_frames (k : Fin 8) (m : Mode) (b : Bool) (s : State) :
    (haltHead k m b s).tif.owed = s.tif.owed ∧ (haltHead k m b s).otherFrames = s.otherFrames := by
  obtain heq | heq := haltHead_eq k m b s <;> rw [heq]
  · exact ⟨returnHead_owed k s, returnHead_otherFrames k s⟩
  · rw [State.otherFrames, claim_tif]
    exact ⟨returnHead_owed k s, returnHead_otherFrames k s⟩

/-- Unless the head is announcing, a halt of it leaves the transmit queue (R92). -/
theorem haltHead_tif (ha : (s.headOfSlot? k).any (fun h => h.state.isAnnounce) = false) (m : Mode) (b : Bool) :
    (haltHead k m b s).tif = s.tif := by
  have hstay : returnHead k s = s := by
    unfold returnHead
    cases hk : s.headOfSlot? k with
    | none => rfl
    | some h =>
      rw [hk, Option.any_some] at ha
      simp [ha]
  obtain heq | heq := haltHead_eq k m b s <;> rw [heq, hstay]
  exact claim_tif _ _ s

/-- An ENDING head keeps its outcome, and ABRUPT hastens it (R60, R70). -/
theorem claim_ending_result {o' : SegOutcome} {m' : Mode} (hq : s.queue = h :: rest) (hs : h.state = .ending o' m')
    (o : SegOutcome) (m : Mode) :
    (claim o m s).queue = { h with state := .ending o' (if m = .abrupt then .abrupt else m') } :: rest
      ∧ (claim o m s).pg = if m = .abrupt then s.pg.resting else s.pg := by
  rw [claim_ending hq hs]
  by_cases hm : m = .abrupt
  · simp only [if_pos hm, and_self]
  · refine ⟨?_, by simp only [if_neg hm]⟩
    simp only [if_neg hm, ← hs]
    exact hq

end

/-! ### The halt of a slot -/

/-- Slot k is HALTED with its record, and the HALT notice has been produced; its head is not halted yet (R92). -/
def State.haltTold (s : State) (k : Fin 8) (g : Group) (c : Cause) (o : StationId) : State :=
  haltNotice k g.address c o { s with ru := s.ru.halting k g c o }

section
variable (s : State) (k : Fin 8) (g : Group) (c : Cause) (o : StationId)

@[simp] theorem haltTold_queue : (s.haltTold k g c o).queue = s.queue := haltNotice_queue ..
@[simp] theorem haltTold_pg : (s.haltTold k g c o).pg = s.pg := haltNotice_pg ..
@[simp] theorem haltTold_pb : (s.haltTold k g c o).pb = s.pb := haltNotice_pb ..
@[simp] theorem haltTold_ru : (s.haltTold k g c o).ru = s.ru.halting k g c o := haltNotice_ru ..
@[simp] theorem haltTold_gd : (s.haltTold k g c o).gd = s.gd := haltNotice_gd ..
@[simp] theorem haltTold_ss : (s.haltTold k g c o).ss = s.ss := haltNotice_ss ..
@[simp] theorem haltTold_owed : (s.haltTold k g c o).tif.owed = s.tif.owed := produce_owed ..

theorem haltTold_outgoing :
    (s.haltTold k g c o).outgoing = (produce .halt [BitVec.ofNat 8 k.val, g.address.setWidth 8, c.byte, o.setWidth 8] s).outgoing :=
  produce_outgoing_congr (s := s) (t := { s with ru := s.ru.halting k g c o }) rfl rfl ..

theorem haltTold_headOfSlot (j : Fin 8) : (s.haltTold k g c o).headOfSlot? j = s.headOfSlot? j :=
  headOfSlot_congr (haltTold_queue ..) j

end

section
variable {s : State} {k : Fin 8} {g : Group}

theorem haltSlot_of_empty (hg : s.group? k = none) (c : Cause) (o : StationId) (m : Mode) (b : Bool) :
    haltSlot k c o m b s = s := by
  simp only [haltSlot, hg]

/-- The halt of a slot that is not HALTED: its record and the notice, then its head (R92). -/
theorem haltSlot_told (hg : s.group? k = some g) (hh : s.slotHalted k = false) (c : Cause) (o : StationId) (m : Mode) (b : Bool) :
    haltSlot k c o m b s = haltHead k m b (s.haltTold k g c o) := haltSlot_of_not_halted hg hh c o m b

/-- A slot already HALTED keeps its record, and only an ENDING head of it is hastened (R92). -/
theorem haltSlot_of_halted (hg : s.group? k = some g) (hh : s.slotHalted k = true) (c : Cause) (o : StationId) (m : Mode) (b : Bool) :
    haltSlot k c o m b s
      = if (s.headOfSlot? k).any (fun h => h.state.isMoving) then claim .halted m s else s := by
  rw [State.slotHalted, hg] at hh
  cases hx : g.state with
  | halted c' o' => simp only [haltSlot, hg, hx]
  | opened => rw [Option.any_some, hx] at hh; cases hh
  | armed => rw [Option.any_some, hx] at hh; cases hh

@[simp] theorem haltSlot_owed (k : Fin 8) (c : Cause) (o : StationId) (m : Mode) (b : Bool) (s : State) :
    (haltSlot k c o m b s).tif.owed = s.tif.owed := by
  cases hg : s.group? k with
  | none => rw [haltSlot_of_empty hg]
  | some g =>
    by_cases hh : s.slotHalted k = true
    · rw [haltSlot_of_halted hg hh]
      split <;> simp
    · have ⟨howed, _⟩ := haltHead_frames k m b (s.haltTold k g c o)
      rw [haltSlot_told hg (Bool.eq_false_of_not_eq_true hh), howed, haltTold_owed]

/-- The group table after the halt of slot k (R92). -/
theorem haltSlot_ru (hg : s.group? k = some g) (c : Cause) (o : StationId) (m : Mode) (b : Bool) :
    (haltSlot k c o m b s).ru = if s.slotHalted k then s.ru else s.ru.halting k g c o := by
  by_cases hh : s.slotHalted k = true
  · rw [haltSlot_of_halted hg hh, if_pos hh]
    split <;> simp
  · rw [haltSlot_told hg (Bool.eq_false_of_not_eq_true hh), haltHead_ru, haltTold_ru, if_neg hh]

theorem halting_slots_other (ru : Ru) (g : Group) (c : Cause) (o : StationId) {j : Fin 8} (hj : j ≠ k) :
    (ru.halting k g c o).slots[j] = ru.slots[j] :=
  Vector.getElem_set_ne k.isLt j.isLt fun h => hj (Fin.ext h.symm)

theorem haltSlot_slots_other (c : Cause) (o : StationId) (m : Mode) (b : Bool) {j : Fin 8} (hj : j ≠ k) (s : State) :
    (haltSlot k c o m b s).ru.slots[j] = s.ru.slots[j] := by
  cases hg : s.group? k with
  | none => rw [haltSlot_of_empty hg]
  | some g =>
    rw [haltSlot_ru hg]
    split
    · rfl
    · exact halting_slots_other _ _ _ _ hj

/-- An ENDING head of a slot meets the claim of every halt of it (R92). -/
theorem haltSlot_ending {h : Segment} {o' : SegOutcome} {m' : Mode} (hg : s.group? k = some g)
    (hk : s.headOfSlot? k = some h) (hs : h.state = .ending o' m') (c : Cause) (o : StationId) (m : Mode) (b : Bool) :
    (haltSlot k c o m b s).queue = { h with state := .ending o' (if m = .abrupt then .abrupt else m') } :: s.queue.tail
      ∧ (haltSlot k c o m b s).pg = if m = .abrupt then s.pg.resting else s.pg := by
  obtain ⟨-, rest, hq⟩ := queue_of_headOfSlot hk
  rw [hq, List.tail_cons]
  by_cases hh : s.slotHalted k = true
  · rw [haltSlot_of_halted hg hh, hk, if_pos (by rw [Option.any_some, hs]; rfl)]
    exact claim_ending_result hq hs _ _
  · rw [haltSlot_told hg (Bool.eq_false_of_not_eq_true hh),
      haltHead_of_ending ((haltTold_headOfSlot ..).trans hk) hs, ← haltTold_pg s k g c o]
    exact claim_ending_result ((haltTold_queue ..).trans hq) hs _ _

/-- The tag of an owed HALT: that of a head of the slot that is under way, else 0 (R93). -/
theorem haltTag_eq (s : State) (k : Fin 8) : s.haltTag k = match s.queue with
    | [] => 0
    | h :: _ => if h.slot = some k ∧ (h.state.isAnnounce = true ∨ h.state.isMoving = true) then h.tag else 0 := by
  unfold State.haltTag
  cases hq : s.queue with
  | nil => simp [State.headOfSlot?, hq]
  | cons h rest =>
    by_cases hk : h.slot = some k
    · simp [headOfSlot_of_queue hq hk, hk, SegState.isUnderWay]
    · have hnone : s.headOfSlot? k = none := by simp [State.headOfSlot?, hq, hk]
      simp [hnone, hk]

end

/-- Settles O24: the record and the notice, then the head of the slot by its state. -/
theorem haltedSlotRecordsAndStopsItsHead : Obligations.HaltedSlotRecordsAndStopsItsHead := by
  refine ⟨fun source group cause mode tag c m k s ht hn hc hm hk => ?_, fun k c m b s => ?_,
    fun k c o m b s g hg => ?_⟩
  · refine (congrArg Host.Outcome.next (takeFrame_onGroup ht hn hk _)).trans ?_
    rw [hc, hm]
  · intro tag
    rw [localHalt, haltTag_eq]
    rfl
  · intro t ofSlot
    refine ⟨haltSlot_outside .., haltSlot_gd .., haltSlot_pb .., haltSlot_owed .., fun j hj => haltSlot_slots_other _ _ _ _ hj _,
      fun hh => ?_, fun hh => ?_, fun h o' m' hk hs => haltSlot_ending hg hk hs ..⟩
    · have heq : t = _ := haltSlot_of_halted hg hh c o m b
      refine ⟨by rw [heq]; split <;> simp, by rw [heq]; split <;> simp, by rw [heq]; split <;> simp, fun hidle => ?_⟩
      refine heq.trans (if_neg ?_)
      rw [Option.all_eq_true] at hidle
      rw [Option.any_eq_true]
      rintro ⟨h, hk, hv⟩
      have := hidle h hk
      rw [hv] at this
      cases this
    · intro told
      have heq : t = _ := haltSlot_told hg hh c o m b
      have ⟨_, hother⟩ := haltHead_frames k m b (s.haltTold k g c o)
      have hofSlot : (s.haltTold k g c o).headOfSlot? k = ofSlot := haltTold_headOfSlot ..
      obtain ⟨hnb, htx⟩ := Prod.mk.inj (haltTold_outgoing s k g c o)
      rw [heq]
      refine ⟨?_, ?_, ?_, ?_, fun hk => ?_, fun h hk ha => ?_, fun h hk hs => ?_, fun h hk hs => ?_, fun ha => ?_⟩
      · rw [group_eq_some, haltHead_ru, haltTold_ru]
        exact Vector.getElem_set_self k.isLt
      · rw [haltHead_ru, haltTold_ru]
        rfl
      · rw [haltHead_nb]
        exact hnb
      · rw [hother]
        exact congrArg (List.filter fun e => !e.frame.isReady) htx
      · rw [haltHead_of_none (hofSlot.trans hk)]
        exact ⟨haltTold_queue .., haltTold_pg ..⟩
      · obtain ⟨hslot, rest, hq⟩ := queue_of_headOfSlot hk
        rw [haltHead_of_announce ((haltTold_queue ..).trans hq) hslot ha, hq]
        exact ⟨rfl, haltTold_pg .., withdrawReady_readyWithdrawn _⟩
      · obtain ⟨hslot, rest, hq⟩ := queue_of_headOfSlot hk
        rw [haltHead_of_running (hofSlot.trans hk) hs, hq]
        cases b
        · rw [if_neg Bool.false_ne_true, claim_running ((haltTold_queue ..).trans hq) hs, haltTold_pg]
          exact ⟨rfl, rfl⟩
        · exact ⟨(haltTold_queue ..).trans hq, haltTold_pg ..⟩
      · rw [haltHead_of_waits (hofSlot.trans hk) hs]
        exact ⟨haltTold_queue .., haltTold_pg .., htx⟩
      · rw [haltHead_tif (by rw [hofSlot]; exact ha)]
        exact htx

end Sys2Proof.Machine
end

