-- ==== Sys2Proof/Proofs/SlotClears.lean ====
section
/-! PROOFS. CLEAR(GROUP) and CLEAR(ALL): the slot opened, all slots opened, and the Guard's release (R99, R101, R163). -/

namespace Sys2Proof.Machine
open scoped Host.Outcome

/-! ### One slot cleared -/

/-- Slot k opened with sequence number n, its timer and its owed HALT gone; its head has not gone back yet (R99). -/
def State.cleared (s : State) (k : Fin 8) (g : Group) (n : Byte) : State := { s with
  ru := { slots := s.ru.slots.set k (.live { g with state := .opened, ready := 0, sequence := n })
          timer := if g.state = .armed then none else s.ru.timer }
  tif := { s.tif with owed := s.tif.owed.set k none } }

section
variable {s : State} {k : Fin 8} {g : Group} {h : Segment} {rest : List Segment}

theorem clearSlot_of_empty (hg : s.group? k = none) (n : Byte) : clearSlot k n s = s := by
  simp only [clearSlot, hg]

theorem clearSlot_eq (hg : s.group? k = some g) (n : Byte) : clearSlot k n s = returnHead k (s.cleared k g n) := by
  simp only [clearSlot, hg]
  by_cases ha : g.state = .armed <;> simp only [ha, if_true, if_false, State.cleared] <;> rfl

/-- A head of the slot that is not announcing stays as it is (R99). -/
theorem returnHead_of_calm (ha : (s.headOfSlot? k).any (fun h => h.state.isAnnounce) = false) : returnHead k s = s := by
  unfold returnHead
  cases hk : s.headOfSlot? k with
  | none => rfl
  | some h =>
    rw [hk, Option.any_some] at ha
    simp [ha]

/-- An announcing head of the slot is back in WAITING, and its READY is withdrawn (R99). -/
theorem returnHead_of_announce (hq : s.queue = h :: rest) (hk : h.slot = some k) (ha : h.state.isAnnounce = true) :
    returnHead k s = withdrawReady { s with queue := { h with state := .waiting } :: rest } := by
  simp [returnHead, headOfSlot_of_queue hq hk, ha, setHeadState, hq]

/-- A CLEAR of slot k leaves the queue and the frames unless the head announces for it (R99). -/
theorem clearSlot_of_calm (ha : (s.headOfSlot? k).any (fun h => h.state.isAnnounce) = false) (n : Byte) :
    (clearSlot k n s).queue = s.queue ∧ (clearSlot k n s).tif.queue = s.tif.queue := by
  cases hg : s.group? k with
  | none => rw [clearSlot_of_empty hg]; exact ⟨rfl, rfl⟩
  | some g => rw [clearSlot_eq hg, returnHead_of_calm (s := s.cleared k g n) ha]; exact ⟨rfl, rfl⟩

/-- A CLEAR of the slot for which the head announces frees the head (R99). -/
theorem clearSlot_of_announce (hg : s.group? k = some g) (hq : s.queue = h :: rest) (hk : h.slot = some k)
    (ha : h.state.isAnnounce = true) (n : Byte) :
    (clearSlot k n s).queue = { h with state := .waiting } :: rest ∧ (clearSlot k n s).readyWithdrawn := by
  rw [clearSlot_eq hg, returnHead_of_announce (s := s.cleared k g n) hq hk ha]
  exact ⟨rfl, withdrawReady_readyWithdrawn _⟩

/-- The head stands with the slot it stands with (R99). -/
theorem clearSlot_headOfSlot_isSome (j k : Fin 8) (n : Byte) (s : State) :
    ((clearSlot j n s).headOfSlot? k).isSome = (s.headOfSlot? k).isSome := by
  by_cases ha : (s.headOfSlot? j).any (fun h => h.state.isAnnounce) = true
  · obtain ⟨h, hh, ha⟩ := (Option.any_eq_true ..).1 ha
    obtain ⟨hj, rest, hq⟩ := queue_of_headOfSlot hh
    cases hg : s.group? j with
    | none => rw [clearSlot_of_empty hg]
    | some g =>
      have ⟨hq', _⟩ := clearSlot_of_announce hg hq hj ha n
      rw [State.headOfSlot?, hq', State.headOfSlot?, hq]
      simp only [List.head?_cons, Option.filter]
      split <;> rfl
  · have ⟨hq', _⟩ := clearSlot_of_calm (Bool.eq_false_of_not_eq_true ha) n
    rw [headOfSlot_congr hq']

theorem clearSlot_otherFrames (k : Fin 8) (n : Byte) (s : State) : (clearSlot k n s).otherFrames = s.otherFrames := by
  cases hg : s.group? k with
  | none => rw [clearSlot_of_empty hg]
  | some g => rw [clearSlot_eq hg, returnHead_otherFrames]; rfl

theorem clearSlot_ru (hg : s.group? k = some g) (n : Byte) : (clearSlot k n s).ru = (s.cleared k g n).ru := by
  rw [clearSlot_eq hg, returnHead_ru]

theorem clearSlot_owed (hg : s.group? k = some g) (n : Byte) : (clearSlot k n s).tif.owed = s.tif.owed.set k none := by
  rw [clearSlot_eq hg, returnHead_owed]
  rfl

end

/-- Settles O26: the slot is opened, its head goes back, and is evaluated if the slot has one. -/
theorem clearGroupTakenOpensTheSlot : Obligations.ClearGroupTakenOpensTheSlot := by
  intro source group n k g s ht hn hk hg
  have hgt : (taken s).group? k = some g := (taken_group s k).trans hg
  refine ⟨clearSlot k n (taken s), ?_, clearSlot_outside .., clearSlot_gd .., clearSlot_pb .., clearSlot_pg .., clearSlot_nb ..,
    ?_, clearSlot_owed hgt n, clearSlot_otherFrames .., fun h rest hq hs ha => ?_, fun ha => ?_⟩
  · refine (congrArg Host.Outcome.next (takeFrame_onGroup ht hn hk _)).trans ?_
    have hhead : ((clearSlot k n (taken s)).headOfSlot? k).isSome = (s.headOfSlot? k).isSome := by
      rw [clearSlot_headOfSlot_isSome, taken_headOfSlot]
    rw [← hhead]
  · rw [clearSlot_ru hgt, State.cleared, taken_ru]
  · exact clearSlot_of_announce hgt ((taken_queue s).trans hq) hs ha n
  · rw [← taken_queue s]
    exact clearSlot_of_calm (by rw [taken_headOfSlot]; exact ha) n

/-! ### All slots cleared -/

/-- The slots of a list cleared in its order (R101). -/
def clearSlots (l : List (Fin 8)) (n : Byte) (s : State) : State := l.foldl (fun s k => clearSlot k n s) s

theorem clearSlots_cons (k : Fin 8) (l : List (Fin 8)) (n : Byte) (s : State) :
    clearSlots (k :: l) n s = clearSlots l n (clearSlot k n s) := rfl

/-- A live slot opened with sequence number n (R99). -/
def Group.openedWith (g : Group) (n : Byte) : Group := { g with state := .opened, ready := 0, sequence := n }

@[simp] theorem Group.openedWith_openedWith (g : Group) (n : Byte) : (g.openedWith n).openedWith n = g.openedWith n := rfl

section
variable {s : State} {k : Fin 8}

theorem clearSlot_group (j k : Fin 8) (n : Byte) (s : State) :
    (clearSlot j n s).group? k = if k = j then (s.group? k).map fun g => g.openedWith n else s.group? k := by
  cases hg : s.group? j with
  | none =>
    rw [clearSlot_of_empty hg]
    split
    · next he => rw [he, hg]; rfl
    · rfl
  | some g =>
    have hslots : (clearSlot j n s).ru.slots = s.ru.slots.set j (.live (g.openedWith n)) :=
      congrArg Ru.slots (clearSlot_ru hg n)
    split
    · next he =>
      rw [he, hg, Option.map_some, group_eq_some, hslots]
      exact Vector.getElem_set_self j.isLt
    · next he =>
      rw [State.group?, hslots, State.group?]
      exact congrArg (fun x : Slot => match x with | .live g => some g | _ => none)
        (Vector.getElem_set_ne j.isLt k.isLt fun h => he (Fin.ext h.symm))

/-- A slot with no live group stands through every CLEAR, and so does a HALT owed for it (R99). -/
theorem clearSlot_empty_stands (hk : s.group? k = none) (j : Fin 8) (n : Byte) :
    (clearSlot j n s).ru.slots[k] = s.ru.slots[k] ∧ (clearSlot j n s).tif.owed[k] = s.tif.owed[k] := by
  cases hg : s.group? j with
  | none => rw [clearSlot_of_empty hg]; exact ⟨rfl, rfl⟩
  | some g =>
    have hne : j.val ≠ k.val := fun h => by
      rw [Fin.ext h, hk] at hg
      cases hg
    rw [clearSlot_ru hg, clearSlot_owed hg]
    exact ⟨Vector.getElem_set_ne j.isLt k.isLt hne, Vector.getElem_set_ne j.isLt k.isLt hne⟩

theorem clearSlot_owed_live (hk : s.group? k ≠ none) (j : Fin 8) (n : Byte) :
    (clearSlot j n s).tif.owed[k] = if k = j then none else s.tif.owed[k] := by
  cases hg : s.group? j with
  | none =>
    rw [clearSlot_of_empty hg, if_neg]
    rintro rfl
    exact hk hg
  | some g =>
    rw [clearSlot_owed hg]
    split
    · next he => rw [he]; exact Vector.getElem_set_self j.isLt
    · next he => exact Vector.getElem_set_ne j.isLt k.isLt fun h => he (Fin.ext h.symm)

end

/-- Slot k is ARMED (R82). -/
def State.armedAt (s : State) (k : Fin 8) : Bool := (s.group? k).any fun g => g.state == .armed

theorem clearSlot_timer (k : Fin 8) (n : Byte) (s : State) :
    (clearSlot k n s).ru.timer = if s.armedAt k then none else s.ru.timer := by
  unfold State.armedAt
  cases hg : s.group? k with
  | none => rw [clearSlot_of_empty hg]; rfl
  | some g =>
    rw [clearSlot_ru hg]
    simp [State.cleared]

theorem clearSlot_armedAt (j k : Fin 8) (n : Byte) (s : State) :
    (clearSlot j n s).armedAt k = (decide (k ≠ j) && s.armedAt k) := by
  rw [State.armedAt, clearSlot_group, State.armedAt]
  by_cases h : k = j
  · rw [if_pos h]
    cases s.group? k <;> simp [h, Group.openedWith]
  · rw [if_neg h]
    simp [h]

section
variable {s : State}

/-- What the clearing of slots leaves alone (R99, R101). -/
theorem clearSlots_frame (l : List (Fin 8)) (n : Byte) (s : State) :
    (clearSlots l n s).outside = s.outside ∧ (clearSlots l n s).ss = s.ss ∧ (clearSlots l n s).pb = s.pb
      ∧ (clearSlots l n s).pg = s.pg ∧ (clearSlots l n s).nb = s.nb ∧ (clearSlots l n s).gd = s.gd
      ∧ (clearSlots l n s).otherFrames = s.otherFrames := by
  induction l generalizing s with
  | nil => exact ⟨rfl, rfl, rfl, rfl, rfl, rfl, rfl⟩
  | cons k l ih =>
    obtain ⟨hout, hss, hpb, hpg, hnb, hgd, hother⟩ := ih (clearSlot k n s)
    exact ⟨hout.trans (clearSlot_outside ..), hss.trans (clearSlot_ss ..), hpb.trans (clearSlot_pb ..), hpg.trans (clearSlot_pg ..),
      hnb.trans (clearSlot_nb ..), hgd.trans (clearSlot_gd ..), hother.trans (clearSlot_otherFrames ..)⟩

theorem clearSlots_group (l : List (Fin 8)) (k : Fin 8) (n : Byte) (s : State) :
    (clearSlots l n s).group? k = if k ∈ l then (s.group? k).map fun g => g.openedWith n else s.group? k := by
  induction l generalizing s with
  | nil => exact (if_neg (by simp)).symm
  | cons j l ih =>
    rw [clearSlots_cons, ih, clearSlot_group]
    by_cases hj : k = j
    · subst hj
      by_cases hl : k ∈ l <;> simp [hl, Function.comp_def]
    · simp [hj]

theorem clearSlots_empty_stands {k : Fin 8} (l : List (Fin 8)) (n : Byte) (hk : s.group? k = none) :
    (clearSlots l n s).ru.slots[k] = s.ru.slots[k] ∧ (clearSlots l n s).tif.owed[k] = s.tif.owed[k] := by
  induction l generalizing s with
  | nil => exact ⟨rfl, rfl⟩
  | cons j l ih =>
    obtain ⟨hslots, howed⟩ := clearSlot_empty_stands hk j n
    obtain ⟨hslots', howed'⟩ := ih (s := clearSlot j n s) (by rw [clearSlot_group, hk]; split <;> rfl)
    exact ⟨hslots'.trans hslots, howed'.trans howed⟩

theorem clearSlots_owed_live {k : Fin 8} (l : List (Fin 8)) (n : Byte) (hk : s.group? k ≠ none) :
    (clearSlots l n s).tif.owed[k] = if k ∈ l then none else s.tif.owed[k] := by
  induction l generalizing s with
  | nil => exact (if_neg (by simp)).symm
  | cons j l ih =>
    have hk' : (clearSlot j n s).group? k ≠ none := by
      rw [clearSlot_group]
      split
      · simpa using hk
      · exact hk
    rw [clearSlots_cons, ih hk', clearSlot_owed_live hk]
    by_cases hj : k = j <;> by_cases hl : k ∈ l <;> simp [hj, hl]

theorem clearSlots_timer (l : List (Fin 8)) (n : Byte) (s : State) :
    (clearSlots l n s).ru.timer = if l.any s.armedAt then none else s.ru.timer := by
  induction l generalizing s with
  | nil => rfl
  | cons j l ih =>
    rw [clearSlots_cons, ih, clearSlot_timer, List.any_cons]
    cases hj : s.armedAt j with
    | true => simp
    | false =>
      have hsame : (clearSlot j n s).armedAt = s.armedAt := by
        funext k
        rw [clearSlot_armedAt]
        by_cases h : k = j
        · rw [h, hj, Bool.and_false]
        · simp [h]
      rw [hsame]
      rfl

/-- The slots cleared leave the queue and the frames unless the head announces for one of them (R99). -/
theorem clearSlots_of_calm (l : List (Fin 8)) (n : Byte)
    (ha : ∀ j ∈ l, (s.headOfSlot? j).any (fun h => h.state.isAnnounce) = false) :
    (clearSlots l n s).queue = s.queue ∧ (clearSlots l n s).tif.queue = s.tif.queue := by
  induction l generalizing s with
  | nil => exact ⟨rfl, rfl⟩
  | cons j l ih =>
    obtain ⟨hq, ht⟩ := clearSlot_of_calm (ha j List.mem_cons_self) n
    obtain ⟨hq', ht'⟩ := ih (s := clearSlot j n s) fun k hk => by
      rw [headOfSlot_congr hq]
      exact ha k (List.mem_cons_of_mem _ hk)
    exact ⟨hq'.trans hq, ht'.trans ht⟩

/-- An announcing head of a live slot goes back when its slot's turn comes (R99, R101). -/
theorem clearSlots_of_announce {k : Fin 8} {h : Segment} {rest : List Segment} {l : List (Fin 8)} (n : Byte) (hl : k ∈ l)
    (hg : s.group? k ≠ none) (hq : s.queue = h :: rest) (hk : h.slot = some k) (ha : h.state.isAnnounce = true) :
    (clearSlots l n s).queue = { h with state := .waiting } :: rest ∧ (clearSlots l n s).readyWithdrawn := by
  obtain ⟨before, after, rfl, hbefore⟩ := List.eq_append_cons_of_mem hl
  have hfold : clearSlots (before ++ k :: after) n s = clearSlots after n (clearSlot k n (clearSlots before n s)) := by
    rw [clearSlots, List.foldl_append]
    rfl
  obtain ⟨hq1, -⟩ := clearSlots_of_calm (s := s) before n fun j hj => by
    have hne : k ≠ j := fun h => hbefore (h ▸ hj)
    simp [State.headOfSlot?, hq, hk, hne]
  obtain ⟨g, hg1⟩ : ∃ g, (clearSlots before n s).group? k = some g := by
    rw [clearSlots_group, if_neg hbefore]
    exact Option.ne_none_iff_exists'.1 hg
  obtain ⟨hq2, hr2⟩ := clearSlot_of_announce hg1 (hq1.trans hq) hk ha n
  obtain ⟨hq3, ht3⟩ := clearSlots_of_calm (s := clearSlot k n (clearSlots before n s)) after n fun j _ => by
    rw [State.headOfSlot?, hq2]
    simp only [List.head?_cons, Option.filter]
    split <;> rfl
  rw [hfold]
  refine ⟨hq3.trans hq2, ?_⟩
  rw [State.readyWithdrawn, ht3]
  exact hr2

end

/-! ### The causes of a set -/

theorem Cause.byte_injective {c d : Cause} (h : c.byte.toNat = d.byte.toNat) : c = d := by
  revert h
  cases c <;> cases d <;> decide

/-- The lowest-coded cause of a set (R163). -/
theorem lowestCause_eq_some {set : BitVec 16} {c : Cause} : lowestCause set = some c ↔
    hasCause set c = true ∧ ∀ d : Cause, hasCause set d = true → c.byte.toNat ≤ d.byte.toNat := by
  have hlowest {c : Cause} (h : lowestCause set = some c) :
      hasCause set c = true ∧ ∀ d : Cause, hasCause set d = true → c.byte.toNat ≤ d.byte.toNat := by
    obtain ⟨hc, before, after, hall, hbefore⟩ := List.find?_eq_some_iff_append.1 h
    refine ⟨hc, fun d hd => ?_⟩
    have hsorted : allCauses.Pairwise fun a b => a.byte.toNat < b.byte.toNat := by decide
    have hmem : d ∈ before ++ c :: after := hall ▸ (by cases d <;> decide : d ∈ allCauses)
    rw [hall, List.pairwise_append] at hsorted
    obtain ⟨-, hafter, -⟩ := hsorted
    obtain hm | hm := List.mem_append.1 hmem
    · have := hbefore d hm
      rw [hd] at this
      cases this
    · obtain rfl | hm := List.mem_cons.1 hm
      · exact Nat.le_refl _
      · exact Nat.le_of_lt ((List.pairwise_cons.1 hafter).1 d hm)
  refine ⟨hlowest, fun ⟨hc, hmin⟩ => ?_⟩
  cases hl : lowestCause set with
  | none =>
    exact absurd hl (lowestCause_ne_none fun h => by rw [h, hasCause_zero] at hc; cases hc)
  | some d =>
    obtain ⟨hd, hdmin⟩ := hlowest hl
    rw [Cause.byte_injective (Nat.le_antisymm (hdmin c hc) (hmin d hd))]

/-! ### The Guard's part of CLEAR(ALL) -/

section
variable {s : State}

theorem guardRemovePeer_of_not_held (h : hasCause s.gd.causes .peerAllHalt = false) : guardRemovePeer s = s := by
  rw [guardRemovePeer, if_neg (by rw [h]; exact Bool.false_ne_true)]

theorem hasCause_and_not_bit (set : BitVec 16) (c d : Cause) :
    hasCause (set &&& ~~~c.bit) d = (hasCause set d && decide (d ≠ c)) := by
  have hlt := d.code_pred_lt
  have hbit : c.bit.getLsbD (d.code - 1) = decide (d = c) := hasCause_bit c d
  rw [hasCause, BitVec.getLsbD_and, BitVec.getLsbD_not, hbit, decide_eq_true hlt]
  simp [hasCause]

/-- A set without one of its causes is empty exactly if it held no other (R163). -/
theorem and_not_bit_eq_zero {set : BitVec 16} {c : Cause} (h : hasCause set c = true) : set &&& ~~~c.bit = 0 ↔ set = c.bit := by
  constructor
  · intro hzero
    by_contra hne
    obtain ⟨d, hd⟩ := exists_cause_of_ne_zero (set := set ^^^ c.bit) fun h => hne (BitVec.xor_eq_zero_iff.1 h)
    have hxor : hasCause (set ^^^ c.bit) d = (hasCause set d ^^ hasCause c.bit d) := BitVec.getLsbD_xor
    have hnone := hasCause_and_not_bit set c d
    rw [hzero, hasCause_zero] at hnone
    rw [hxor, hasCause_bit] at hd
    by_cases he : d = c
    · rw [he, h] at hd
      simp at hd
    · simp [he] at hd hnone
      rw [hd] at hnone
      cases hnone
  · rintro rfl
    exact BitVec.and_not_self _

theorem guardRemovePeer_of_alone (hn : s.ss.node = .run) (hl : s.tif.link ≠ .silent) (h : s.gd.causes = Cause.peerAllHalt.bit) :
    guardRemovePeer s = { s with
      gd := { state := .normal, first := none, causes := 0, originator := none, stopMode := none, den := .high } } := by
  have hheld : hasCause s.gd.causes .peerAllHalt = true := by rw [h, hasCause_bit]; rfl
  rw [guardRemovePeer, if_pos hheld]
  exact (if_pos ((and_not_bit_eq_zero hheld).2 h)).trans (guardEmpty_eq hn hl)

theorem guardRemovePeer_of_others (hheld : hasCause s.gd.causes .peerAllHalt = true) (h : s.gd.causes ≠ Cause.peerAllHalt.bit) :
    guardRemovePeer s = { s with gd := { s.gd with
      causes := s.gd.causes &&& ~~~Cause.peerAllHalt.bit
      originator := none
      first := if s.gd.first = some .peerAllHalt then lowestCause (s.gd.causes &&& ~~~Cause.peerAllHalt.bit)
        else s.gd.first } } := by
  rw [guardRemovePeer, if_pos hheld]
  exact if_neg ((and_not_bit_eq_zero hheld).not.2 h)

/-- The Guard's part of a CLEAR(ALL) is its own (R163). -/
theorem guardRemovePeer_eq (s : State) : guardRemovePeer s = { s with gd := (guardRemovePeer s).gd } := by
  unfold guardRemovePeer
  split
  · dsimp only
    split <;> rfl
  · rfl

end

/-- Settles O27: all slots cleared in order, then the Guard's part by its set of causes. -/
theorem clearAllTakenClearsEverySlot : Obligations.ClearAllTakenClearsEverySlot := by
  refine ⟨fun set c => lowestCause_eq_some, fun source n s ht hn => ?_⟩
  obtain ⟨hout, hss, hpb, hpg, hnb, hgd, hother⟩ := clearSlots_frame allSlots n (taken s)
  have hgroup (k : Fin 8) := clearSlots_group allSlots k n (taken s)
  have hempty (k : Fin 8) := clearSlots_empty_stands (s := taken s) (k := k) allSlots n
  have howed (k : Fin 8) := clearSlots_owed_live (s := taken s) (k := k) allSlots n
  have htimer := clearSlots_timer allSlots n (taken s)
  have hcalm := clearSlots_of_calm (s := taken s) allSlots n
  have hannounce (k : Fin 8) (h : Segment) (rest : List Segment) :=
    clearSlots_of_announce (s := taken s) (k := k) (h := h) (rest := rest) n (mem_allSlots k)
  have hexec : exec (.clearAllTaken source n) s = .next (evaluate (guardRemovePeer (clearSlots allSlots n (taken s)))) :=
    congrArg Host.Outcome.next
      (takeFrame_inRun ht hn fun s => evaluate (guardRemovePeer (clearSlots allSlots n s)))
  generalize clearSlots allSlots n (taken s) = v at *
  simp only [taken_gd, taken_ss, taken_group, taken_queue, taken_ru, taken_headOfSlot, mem_allSlots, if_true] at *
  have hlink : v.tif.link ≠ .silent := by
    rw [show v.tif.link = _ from congrArg Outside.link hout]
    exact (taken_link s).trans_ne nofun
  refine ⟨guardRemovePeer v, hexec, (guardRemovePeer_outside _).trans hout, ?_⟩
  have hpeer := guardRemovePeer_eq v
  have hru : (guardRemovePeer v).ru = v.ru := (congrArg State.ru hpeer).trans rfl
  have htif : (guardRemovePeer v).tif = v.tif := (congrArg State.tif hpeer).trans rfl
  have hqueue : (guardRemovePeer v).queue = v.queue := (congrArg State.queue hpeer).trans rfl
  refine ⟨(congrArg State.pb hpeer).trans hpb, (congrArg State.pg hpeer).trans hpg, (congrArg State.nb hpeer).trans hnb,
    fun k g hg => ⟨?_, ?_⟩, fun k hg => ?_, ?_, ?_, fun h rest k hq ha hk hg => ?_, fun ha => ?_, fun hno => ?_,
    fun halone => ?_, fun hheld hothers => ?_⟩
  · rw [State.group?, hru]
    exact (hgroup k).trans (by rw [hg]; rfl)
  · rw [htif, howed k (by rw [hg]; nofun)]
  · rw [hru, htif]
    exact hempty k hg
  · have hsame : (taken s).armedAt = s.armedAt := by
      funext k
      rw [State.armedAt, taken_group, State.armedAt]
    rw [hru, htimer, hsame]
    rfl
  · rw [State.otherFrames, htif]
    exact hother
  · rw [hqueue, State.readyWithdrawn, htif]
    exact hannounce k h rest hg hq hk ha
  · rw [hqueue, htif]
    refine hcalm fun j _ => ?_
    cases hq : s.queue with
    | nil => simp [State.headOfSlot?, hq]
    | cons h rest =>
      rw [hq, List.head?_cons, Option.any_some] at ha
      simp only [State.headOfSlot?, hq, List.head?_cons, Option.filter]
      split
      · exact ha
      · rfl
  · rw [guardRemovePeer_of_not_held (by rw [hgd]; exact hno), hgd]
  · rw [guardRemovePeer_of_alone (by rw [hss, hn]) hlink (by rw [hgd]; exact halone)]
  · rw [guardRemovePeer_of_others (by rw [hgd]; exact hheld) (by rw [hgd]; exact hothers), hgd]

end Sys2Proof.Machine
end

