-- ==== Sys2Proof/Proofs/ReadyTaken.lean ====
section
/-! PROOFS. A taken READY: ignored, a local halt, recorded, or the slot fires (R85 to R88). -/

namespace Sys2Proof.Machine
open scoped Host.Outcome

@[simp] theorem taken_own (s : State) : (taken s).own = s.own := by rw [State.own, taken_ss, State.own]

/-! ### What ends at an instant leaves a HALTED slot and the HALTs owed -/

/-- A change that leaves slot k if it is HALTED, and every HALT owed. -/
structure HaltStands (k : Fin 8) (s t : State) : Prop where
  slot : s.slotHalted k = true → t.ru.slots[k] = s.ru.slots[k]
  owed : t.tif.owed = s.tif.owed

theorem slotHalted_congr {s t : State} {k : Fin 8} (h : t.ru.slots[k] = s.ru.slots[k]) : t.slotHalted k = s.slotHalted k := by
  rw [State.slotHalted, State.group?, h, State.slotHalted, State.group?]

theorem HaltStands.refl (k : Fin 8) (s : State) : HaltStands k s s := ⟨fun _ => rfl, rfl⟩

theorem HaltStands.trans {k : Fin 8} {s t u : State} (h : HaltStands k s t) (h' : HaltStands k t u) : HaltStands k s u where
  slot hh := (h'.slot ((slotHalted_congr (h.slot hh)).trans hh)).trans (h.slot hh)
  owed := h'.owed.trans h.owed

theorem HaltStands.of_same {k : Fin 8} {s t : State} (hr : t.ru = s.ru) (ho : t.tif.owed = s.tif.owed) : HaltStands k s t :=
  ⟨fun _ => by rw [hr], ho⟩

theorem announce_haltStands {s : State} {j k : Fin 8} {g : Group} (hj : s.slotHalted j = false) (tag : Byte) :
    HaltStands k s (announce j g tag s) where
  slot hk := by
    have hne : j.val ≠ k.val := fun h => by
      rw [Fin.ext h, hk] at hj
      cases hj
    rw [announce, setHeadState_ru]
    simp only [State.setSlot, enqueue_ru]
    exact Vector.getElem_set_ne j.isLt k.isLt hne
  owed := by
    rw [announce, setHeadState_tif]
    exact enqueue_owed ..

theorem evalHead_haltStands (k : Fin 8) (s : State) : HaltStands k s (evalHead s) := by
  unfold evalHead
  split
  · exact .refl k s
  · next h rest hq =>
    split
    · exact .refl k s
    · next hgo =>
      have hblocked : ¬ s.blocked h = true := fun hb => hgo (.inr hb)
      split
      · exact .of_same (by simp) (by simp)
      · split
        · exact .of_same (startHead_ru _) (congrArg Tif.owed (startHead_tif _))
        · exact .refl k s
      · split
        · exact .refl k s
        · next j hslot =>
          split
          · split
            · refine announce_haltStands (Bool.eq_false_of_not_eq_true fun hh => hblocked ?_) _
              exact blocked_iff.2 (.inr (.inr ⟨j, hslot, hh⟩))
            · exact .refl k s
          · exact .refl k s

theorem leftBy_ru (s : State) (h : Segment) (rest : List Segment) (o : SegOutcome) : (s.leftBy h rest o).ru = s.ru := by
  cases rest with
  | nil => exact (produce_ru _ _ _).trans (produce_ru _ _ _)
  | cons x more => exact produce_ru _ _ _

theorem leftBy_owed (s : State) (h : Segment) (rest : List Segment) (o : SegOutcome) :
    (s.leftBy h rest o).tif.owed = s.tif.owed := by
  cases rest with
  | nil => exact (produce_owed _ _ _).trans (produce_owed _ _ _)
  | cons x more => exact produce_owed _ _ _

theorem finishHead_haltStands (k : Fin 8) (o : SegOutcome) (s : State) : HaltStands k s (finishHead o s) := by
  cases hq : s.queue with
  | nil => rw [finishHead_nil hq]; exact .refl k s
  | cons h rest => rw [finishHead_eq hq]; exact .of_same (leftBy_ru ..) (leftBy_owed ..)

theorem settleFrom_haltStands (k : Fin 8) (n : Nat) (s : State) : HaltStands k s (settleFrom n s) := by
  induction n generalizing s with
  | zero => exact .refl k s
  | succ n ih =>
    rw [settleFrom]
    split
    · exact (finishHead_haltStands k _ s).trans ((evalHead_haltStands k _).trans (ih _))
    · exact .refl k s

/-- The heads that end at an instant leave a HALTED slot and every HALT owed (R75). -/
theorem settle_haltStands (k : Fin 8) (s : State) : HaltStands k s (settle s) := settleFrom_haltStands k _ s

/-! ### The local halt that a READY draws -/

section
variable {s : State} {k : Fin 8} {g : Group}

theorem oweHalt_group (j k : Fin 8) (c : Cause) (m : Mode) (tag : Byte) (s : State) :
    (oweHalt j c m tag s).group? k = s.group? k := group_congr (by rw [oweHalt_ru]) k

/-- A local halt of a slot that is not HALTED: its record (R92, R93). -/
theorem localHalt_ru (hg : s.group? k = some g) (hh : s.slotHalted k = false) (c : Cause) (m : Mode) (b : Bool) :
    (localHalt k c m b s).ru = s.ru.halting k g c s.own := by
  have hh' : (oweHalt k c m (s.haltTag k) s).slotHalted k = false := by
    rw [slotHalted_congr (s := s) (by rw [oweHalt_ru]), hh]
  rw [localHalt, haltSlot_ru ((oweHalt_group ..).trans hg), if_neg (by rw [hh']; exact Bool.false_ne_true), oweHalt_ru]

/-- The HALT that a local halt owes (R25, R93). -/
theorem localHalt_owed (k : Fin 8) (c : Cause) (m : Mode) (b : Bool) (s : State) :
    (localHalt k c m b s).tif.owed = if s.tif.link = .silent ∨ (s.tif.owed[k]).isSome then s.tif.owed
      else s.tif.owed.set k (some { cause := c, mode := m, tag := s.haltTag k, attempts := 0, onLine := false }) := by
  rw [localHalt, haltSlot_owed, oweHalt]
  split <;> rfl

theorem halting_slot (ru : Ru) (k : Fin 8) (g : Group) (c : Cause) (o : StationId) :
    (ru.halting k g c o).slots[k] = .live { g with state := .halted c o, ready := 0 } := Vector.getElem_set_self k.isLt

/-! ### The READY is recorded -/

/-- The node's own READY, taken, makes an ANNOUNCING head of the slot ANNOUNCED (R67, R87). -/
theorem announced_eq (k : Fin 8) (s : State) : announced k s = { s with
    queue := match s.queue with
      | [] => []
      | h :: rest => if h.slot = some k ∧ h.state = .announcing then { h with state := .announced } :: rest else h :: rest } := by
  obtain ⟨pins, ss, tif, fh, queue, ru, pg, pb, gd, nb, pending⟩ := s
  cases queue with
  | nil => rfl
  | cons h rest =>
    by_cases hk : h.slot = some k <;> by_cases ha : h.state = .announcing
      <;> simp [announced, State.headOfSlot?, setHeadState, hk, ha]

/-- A recorded READY joins the ready set, and the node's own makes an ANNOUNCING head ANNOUNCED (R87). -/
theorem readyRecorded_eq (k : Fin 8) (g : Group) (source : StationId) (s : State) :
    readyRecorded k g source s = { s with
      ru := { s.ru with slots := s.ru.slots.set k (.live (g.recording source)) }
      queue := match s.queue with
        | [] => []
        | h :: rest =>
          if source = s.own ∧ g.state = .armed ∧ h.slot = some k ∧ h.state = .announcing then
            { h with state := .announced } :: rest
          else h :: rest } := by
  unfold readyRecorded
  dsimp only
  rw [announced_eq]
  by_cases hown : source = s.own ∧ g.state = .armed
  · rw [if_pos hown]
    simp only [hown, true_and]
    rfl
  · have hno (h : Segment) : ¬ (source = s.own ∧ g.state = .armed ∧ h.slot = some k ∧ h.state = .announcing) :=
      fun ⟨h1, h2, _⟩ => hown ⟨h1, h2⟩
    have hqueue : (match s.queue with | [] => [] | h :: rest => h :: rest) = s.queue := by split <;> simp [*]
    rw [if_neg hown]
    simp only [hno, if_false, hqueue]
    rfl

/-- A READY that does not complete the roster of an ARMED slot is recorded alone (R87). -/
theorem recordReady_of_short {source : StationId} (hn : addStation g.ready source ≠ g.roster ∨ g.state ≠ .armed) :
    recordReady k g source s = readyRecorded k g source s := by
  rw [recordReady_eq, if_neg]
  rintro ⟨hr, ha, -⟩
  exact hn.elim (fun h => h hr) fun h => h ha

/-- The READY that completes the roster fires the slot (R68, R88). -/
theorem recordReady_of_full {source : StationId} {h : Segment} {rest : List Segment} (ha : g.state = .armed)
    (hr : addStation g.ready source = g.roster) (hq : s.queue = h :: rest) (hk : h.slot = some k)
    (hs : h.state = .announced ∨ source = s.own ∧ h.state = .announcing) :
    recordReady k g source s = settle (startHead { s with
      ru := { slots := s.ru.slots.set k (.live { g with ready := 0, sequence := g.sequence + 1, state := .opened })
              timer := none }
      queue := { h with state := .announced } :: rest }) := by
  have hrecorded : readyRecorded k g source s = { s with
      ru := { s.ru with slots := s.ru.slots.set k (.live (g.recording source)) }
      queue := { h with state := .announced } :: rest } := by
    rw [readyRecorded_eq, hq]
    dsimp only
    split
    · rfl
    · next hno =>
      obtain hs | ⟨hown, hs⟩ := hs
      · rw [← hs]
      · exact absurd ⟨hown, ha, hk, hs⟩ hno
  have hannounced : (readyRecorded k g source s).headAnnounced k = true := by
    rw [hrecorded]
    simp [State.headAnnounced, State.headOfSlot?, hk]
  rw [recordReady_eq, if_pos ⟨hr, ha, hannounced⟩, hrecorded]
  simp only [fire, State.setSlot, stopTimer, Vector.set_set]
  rfl

end

/-- Settles O28: HALTED, the roster, the sequence number, then the record, which fires a complete slot. -/
theorem readyTakenIsRecordedOrFires : Obligations.ReadyTakenIsRecordedOrFires := by
  intro source group n tag k g s ht hn hk hg
  have hexec : exec (.readyTaken source group n tag) s = .next (takeReady k source n (taken s)) :=
    congrArg Host.Outcome.next (takeFrame_onGroup ht hn hk fun k s => takeReady k source n s)
  have hgt : (taken s).group? k = some g := (taken_group s k).trans hg
  have hht (hh : s.slotHalted k = false) : (taken s).slotHalted k = false := (taken_slotHalted s k).trans hh
  have htake : takeReady k source n (taken s) = if s.slotHalted k then taken s
      else if !hasStation g.roster source then settle (localHalt k .rosterMismatch .abrupt false (taken s))
      else if n ≠ g.sequence then settle (localHalt k .sequenceFault .abrupt false (taken s))
      else recordReady k g source (taken s) := by
    rw [takeReady, hgt, taken_slotHalted]
  have hroster (hh : s.slotHalted k = false) (hr : hasStation g.roster source = false) :
      exec (.readyTaken source group n tag) s = .next (settle (localHalt k .rosterMismatch .abrupt false (taken s))) := by
    rw [hexec, htake, hh, hr]
    rfl
  have hsequence (hh : s.slotHalted k = false) (hr : hasStation g.roster source = true) (hs : n ≠ g.sequence) :
      exec (.readyTaken source group n tag) s = .next (settle (localHalt k .sequenceFault .abrupt false (taken s))) := by
    rw [hexec, htake, hh, hr]
    exact congrArg Host.Outcome.next (if_pos hs)
  have hrecord (hh : s.slotHalted k = false) (hr : hasStation g.roster source = true) (hs : n = g.sequence) :
      exec (.readyTaken source group n tag) s = .next (recordReady k g source (taken s)) := by
    rw [hexec, htake, hh, hr]
    exact congrArg Host.Outcome.next (if_neg (not_not.2 hs))
  refine ⟨fun hh => ?_, hroster, hsequence, fun c hh hc => ?_, fun hh hr hs hshort => ?_, fun h rest ha hr hs hfull hq hslot hann => ?_⟩
  · rw [hexec, htake, hh]
    rfl
  · refine ⟨settle (localHalt k c .abrupt false (taken s)), ?_, ?_, ?_⟩
    · obtain ⟨rfl, hr⟩ | ⟨rfl, hr, hs⟩ := hc
      · exact hroster hh hr
      · exact hsequence hh hr hs
    · have hrecord : (localHalt k c .abrupt false (taken s)).ru = _ := localHalt_ru hgt (hht hh) c .abrupt false
      have hhalted : (localHalt k c .abrupt false (taken s)).slotHalted k = true := by
        rw [State.slotHalted, State.group?, hrecord, halting_slot]
        rfl
      rw [group_eq_some, (settle_haltStands k _).slot hhalted, hrecord, halting_slot]
      exact congrArg (fun own : StationId => Slot.live { g with state := .halted c own, ready := 0 }) (taken_own s)
    · rw [(settle_haltStands k _).owed, localHalt_owed, haltTag_eq, taken_queue]
      simp only [taken_link, reduceCtorEq, false_or] <;> rfl
  · have hqueue := readyRecorded_eq k g source (taken s)
    rw [taken_queue, taken_ru, taken_own] at hqueue
    rw [hrecord hh hr hs, recordReady_of_short hshort, hqueue]
    rfl
  · have hh : s.slotHalted k = false := by simp [State.slotHalted, hg, ha]
    have hfire := recordReady_of_full (s := taken s) ha hfull ((taken_queue s).trans hq) hslot (by rw [taken_own]; exact hann)
    rw [taken_ru] at hfire
    rw [hrecord hh hr hs, hfire]

end Sys2Proof.Machine
end

