-- ==== Sys2Proof/Proofs/NoticePlaces.lean ====
section
/-! PROOFS. Where notices go: what a produced notice rests on, and the notices of the end of a head (R75, R173 to
R175). -/

namespace Sys2Proof.Machine

/-! ### A produced notice and the READY -/

/-- Two states with the same Notice Backlog and the same frames but for a READY. -/
def State.agreesOnNotices (t s : State) : Prop := t.ss = s.ss ∧ t.notices = s.notices

section
variable {s t : State}

theorem noticePending_eq (s : State) : s.noticePending = s.otherFrames.any fun e => e.frame.isNotice := by
  rw [State.noticePending, State.otherFrames, List.any_filter]
  refine congrArg (fun p => s.tif.queue.any p) (funext fun e => ?_)
  cases e.frame <;> rfl

theorem noticeOnLine_eq (s : State) :
    s.tif.queue.any (fun e => e.frame.isNotice && e.onLine) = s.otherFrames.any fun e => e.frame.isNotice && e.onLine := by
  rw [State.otherFrames, List.any_filter]
  refine congrArg (fun p => s.tif.queue.any p) (funext fun e => ?_)
  cases e.frame <;> rfl

/-- The admission of a NOTICE rests on the frames that are no READY (R21). -/
theorem enqueue_notice_otherFrames (d : Byte) (o : Bool) (n : Notice) (s : State) :
    (enqueue (.notice d o n) s).otherFrames
      = if (s.otherFrames.countP fun e => sameLimit (.notice d o n) e.frame) < txLimit (.notice d o n) then
          s.otherFrames ++ [{ frame := .notice d o n, attempts := 0, onLine := false, withdrawn := false }]
        else s.otherFrames := by
  have hcount : (s.otherFrames.countP fun e => sameLimit (.notice d o n) e.frame)
      = s.tif.queue.countP fun e => sameLimit (.notice d o n) e.frame := by
    rw [State.otherFrames, List.countP_filter]
    refine congrArg (fun p => s.tif.queue.countP p) (funext fun e => ?_)
    cases e.frame <;> rfl
  rw [hcount, enqueue]
  split
  · exact List.filter_append _ _
  · rfl

theorem enqueue_notice_notices_congr (h : t.notices = s.notices) (d : Byte) (o : Bool) (n : Notice) :
    (enqueue (.notice d o n) t).notices = (enqueue (.notice d o n) s).notices := by
  obtain ⟨hnb, hq⟩ := Prod.mk.inj h
  simp only [State.notices, enqueue_notice_otherFrames, enqueue_nb, hnb, hq]

theorem composeNotice_notices_congr (h : t.agreesOnNotices s) : (composeNotice t).notices = (composeNotice s).notices := by
  obtain ⟨hs, ho⟩ := h
  obtain ⟨hnb, hq⟩ := Prod.mk.inj ho
  have hpending : t.noticePending = s.noticePending := by rw [noticePending_eq, noticePending_eq, hq]
  by_cases hc : (s.ss.node = .silent || s.noticePending) = true
  · rw [composeNotice, composeNotice, if_pos hc, if_pos (by rwa [hs, hpending])]
    exact ho
  · rw [composeNotice, composeNotice, if_neg hc, if_neg (by rwa [hs, hpending]), hnb, hs]
    split
    · exact ho
    · split
      · exact congrArg (Prod.mk _) hq
      · refine enqueue_notice_notices_congr ?_ ..
        exact congrArg (Prod.mk _) hq

theorem changeWaiting_otherFrames (p : TxFrame → Bool) (g : TxFrame → TxFrame) (s : State) (hg : ∀ f, (g f).isReady = f.isReady) :
    (changeWaiting p g s).otherFrames
      = s.otherFrames.map fun e => if p e.frame && !e.onLine then { e with frame := g e.frame } else e := by
  rw [State.otherFrames, changeWaiting, List.filter_map, State.otherFrames]
  refine congrArg (fun p => (s.tif.queue.filter p).map _) (funext fun e => ?_)
  simp only [Function.comp_apply]
  split
  · exact congrArg not (hg _)
  · rfl

theorem markOverflow_isReady (f : TxFrame) : f.markOverflow.isReady = f.isReady := by
  cases f <;> rfl

theorem discardNotice_notices_congr (h : t.agreesOnNotices s) : (discardNotice t).notices = (discardNotice s).notices := by
  obtain ⟨-, ho⟩ := h
  obtain ⟨hnb, hq⟩ := Prod.mk.inj ho
  have hon : t.tif.queue.any (fun e => e.frame.isNotice && e.onLine) = s.tif.queue.any fun e => e.frame.isNotice && e.onLine := by
    rw [noticeOnLine_eq, noticeOnLine_eq, hq]
  unfold discardNotice
  dsimp only
  rw [hon, hnb]
  split
  · exact congrArg (Prod.mk _) hq
  · refine Prod.ext rfl ?_
    show (changeWaiting _ _ _).otherFrames = (changeWaiting _ _ _).otherFrames
    rw [changeWaiting_otherFrames _ _ _ markOverflow_isReady, changeWaiting_otherFrames _ _ _ markOverflow_isReady]
    exact congrArg (List.map _) hq

/-- A produced notice goes to one place from states that differ in a READY alone (R173 to R175). -/
theorem produce_notices_congr (h : t.agreesOnNotices s) (n : NoticeType) (c : List Byte) :
    (produce n c t).notices = (produce n c s).notices := by
  obtain ⟨hs, ho⟩ := h
  obtain ⟨hnb, hq⟩ := Prod.mk.inj ho
  simp only [produce, State.reports, hs, hnb]
  split
  · exact ho
  · split
    · exact composeNotice_notices_congr ⟨rfl, congrArg (Prod.mk _) hq⟩
    · exact discardNotice_notices_congr ⟨hs, ho⟩

theorem notices_of_outgoing (h : t.outgoing = s.outgoing) : t.notices = s.notices := by
  obtain ⟨hnb, hq⟩ := Prod.mk.inj h
  exact Prod.ext hnb (congrArg (List.filter fun e : TxEntry => !e.frame.isReady) hq)

end

/-! ### The end of a head -/

section
variable {s t : State} {h : Segment} {rest : List Segment} {o : SegOutcome}

theorem leftBy_pb (s : State) (h : Segment) (rest : List Segment) (o : SegOutcome) : (s.leftBy h rest o).pb = s.pb.referredBy rest := by
  cases rest with
  | nil => exact (produce_pb _ _ _).trans (toldDone_pb s h [] o)
  | cons x more => exact toldDone_pb s h (x :: more) o

theorem leftBy_pg (s : State) (h : Segment) (rest : List Segment) (o : SegOutcome) : (s.leftBy h rest o).pg = s.pg := by
  cases rest with
  | nil => exact (produce_pg _ _ _).trans (produce_pg _ _ _)
  | cons x more => exact produce_pg _ _ _

theorem leftBy_gd (s : State) (h : Segment) (rest : List Segment) (o : SegOutcome) :
    (s.leftBy h rest o).gd = if s.gd.state = .stopping then { s.gd with state := .stopped, den := .low } else s.gd := by
  cases rest with
  | nil => exact (produce_gd _ _ _).trans (produce_gd _ _ _)
  | cons x more => exact produce_gd _ _ _

theorem leftBy_queue (s : State) (h : Segment) (rest : List Segment) (o : SegOutcome) : (s.leftBy h rest o).queue = promote rest := by
  cases rest with
  | nil => exact (produce_queue _ _ _).trans (toldDone_queue s h [] o)
  | cons x more => rfl

/-- The notices of the end of a head are those that the state before it produces (R75). -/
theorem leftBy_outgoing (s : State) (h : Segment) (rest : List Segment) (o : SegOutcome) :
    (s.leftBy h rest o).outgoing = (s.tellsOfEnd h o rest).outgoing := by
  have htold : (s.toldDone h rest o).outgoing = (produce .done ([h.tag, o.byte] ++ signed4 s.pb.command
      ++ bytes3 (BitVec.ofNat 24 (if h.kind.counts then min s.pg.remaining 16777215 else 0))) s).outgoing :=
    produce_outgoing_congr (s := s) (t := { s with
      queue := rest
      gd := if s.gd.state = .stopping then { s.gd with state := .stopped, den := .low } else s.gd
      pb := { s.pb with heard := s.pb.heard.filter fun e => rest.any fun x => x.refersTo e.ref } }) rfl rfl ..
  cases rest with
  | nil => exact produce_outgoing_congr (by simp [State.toldDone]) htold ..
  | cons x more => exact htold

/-- The notices of the end of a head rest on the counters, the notices and the transmit queue (R75). -/
theorem tellsOfEnd_outgoing_congr (hs : t.ss = s.ss) (ho : t.outgoing = s.outgoing) (hp : t.pb.command = s.pb.command)
    (hr : t.pg.remaining = s.pg.remaining) (h : Segment) (o : SegOutcome) (rest : List Segment) :
    (t.tellsOfEnd h o rest).outgoing = (s.tellsOfEnd h o rest).outgoing := by
  simp only [State.tellsOfEnd, hp, hr]
  have hdone := fun c => produce_outgoing_congr hs ho .done c
  split
  · exact produce_outgoing_congr (by simp [hs]) (hdone _) ..
  · exact hdone _

/-- A head whose work is over leaves with its outcome (R75). -/
theorem finishIfOver_of_over (hq : s.queue = h :: rest) (ho : s.headOver? = some o) : finishIfOver s = s.leftBy h rest o := by
  rw [finishIfOver, ho]
  exact finishHead_eq hq o

theorem finishIfOver_of_not (ho : s.headOver? = none) : finishIfOver s = s := by
  rw [finishIfOver, ho]

/-- An ENDING head with the generator at rest leaves with its outcome (R75, R117). -/
theorem finishIfOver_of_ended {m : Mode} (hq : s.queue = h :: rest) (hs : h.state = .ending o m) (hp : s.pg.phase = .idle) :
    finishIfOver s = s.leftBy h rest o :=
  finishIfOver_of_over hq (headOver_of_idle hq hp (.inr ⟨m, hs⟩))

/-- A head that does not move is not over (R75). -/
theorem headOver_of_not_moving (hv : s.headMoving = false) : s.headOver? = none := by
  refine nothingOver_iff.1 (Bool.or_eq_true_iff.2 (.inr ?_))
  rw [State.headMoving, State.head?] at hv
  cases hq : s.queue.head? with
  | none => rfl
  | some h =>
    rw [hq, Option.any_some] at hv
    rw [Option.all_some, hv]
    rfl

@[simp] theorem finishIfOver_ru (s : State) : (finishIfOver s).ru = s.ru := by
  unfold finishIfOver
  split
  · cases hq : s.queue with
    | nil => rw [finishHead_nil hq]
    | cons h rest => rw [finishHead_eq hq, leftBy_ru]
  · rfl

@[simp] theorem finishIfOver_owed (s : State) : (finishIfOver s).tif.owed = s.tif.owed := by
  unfold finishIfOver
  split
  · cases hq : s.queue with
    | nil => rw [finishHead_nil hq]
    | cons h rest => rw [finishHead_eq hq, leftBy_owed]
  · rfl

/-- The end of a head leaves the Guard's record (R152). -/
theorem finishIfOver_record (s : State) :
    (finishIfOver s).gd.first = s.gd.first ∧ (finishIfOver s).gd.causes = s.gd.causes
      ∧ (finishIfOver s).gd.stopMode = s.gd.stopMode ∧ (finishIfOver s).gd.originator = s.gd.originator := by
  unfold finishIfOver
  split
  · cases hq : s.queue with
    | nil => rw [finishHead_nil hq]; exact ⟨rfl, rfl, rfl, rfl⟩
    | cons h rest =>
      rw [finishHead_eq hq, leftBy_gd]
      split <;> exact ⟨rfl, rfl, rfl, rfl⟩
  · exact ⟨rfl, rfl, rfl, rfl⟩

end

end Sys2Proof.Machine
end

