-- ==== Sys2Proof/Proofs/GuardDepartures.lean ====
section
/-! PROOFS. The Guard takes a cause: the departure from NORMAL, its notices and its head (R151 to R154). -/

namespace Sys2Proof.Machine

/-! ### The record -/

/-- The record of a departure from NORMAL (R151, R168). -/
theorem guardRecord_gd (c : Cause) (m : Mode) (s : State) : (guardRecord c m s).gd = { s.gd with
    state := if s.headMoving then .stopping else .stopped
    first := some c, causes := c.bit, stopMode := some m
    den := if s.ss.node = .run ∧ s.headMoving = true ∧ s.tif.link ≠ .silent then .high else .low } := by
  unfold guardRecord driveDen
  cases s.headMoving <;> simp

/-! ### The local halt under a departure -/

section
variable {u : State} {k : Fin 8} {g : Group} {h : Segment} {rest : List Segment}

theorem oweHalt_outgoing (k : Fin 8) (c : Cause) (m : Mode) (tag : Byte) (s : State) : (oweHalt k c m tag s).outgoing = s.outgoing := by
  unfold oweHalt
  split <;> rfl

theorem oweHalt_slotHalted (j k : Fin 8) (c : Cause) (m : Mode) (tag : Byte) (s : State) :
    (oweHalt j c m tag s).slotHalted k = s.slotHalted k := slotHalted_congr (by rw [oweHalt_ru])

theorem oweHalt_headOfSlot (j k : Fin 8) (c : Cause) (m : Mode) (tag : Byte) (s : State) :
    (oweHalt j c m tag s).headOfSlot? k = s.headOfSlot? k := headOfSlot_congr (oweHalt_queue ..) k

/-- The HALT notice of a slot as the state before its halt produces it (R92). -/
theorem oweHalt_haltTold_outgoing (hg : u.group? k = some g) (hh : u.slotHalted k = false) (c : Cause) (m : Mode) (tag : Byte)
    (o : StationId) : ((oweHalt k c m tag u).haltTold k g c o).outgoing = (u.tellsOfHalt k c o).outgoing := by
  rw [State.tellsOfHalt, hg]
  dsimp only
  rw [hh]
  exact haltNotice_outgoing ..

/-- The Guard's halt of the slot of a RUNNING head leaves the head to the Guard (R92, R94). -/
theorem localHalt_of_running (hq : u.queue = h :: rest) (hk : h.slot = some k) (hs : h.state = .running)
    (hh : u.slotHalted k = false) (c : Cause) (m : Mode) :
    (localHalt k c m true u).queue = u.queue ∧ (localHalt k c m true u).pg = u.pg
      ∧ (localHalt k c m true u).outgoing = (u.tellsOfHalt k c u.own).outgoing := by
  cases hg : u.group? k with
  | none =>
    rw [localHalt, haltSlot_of_empty ((oweHalt_group ..).trans hg), State.tellsOfHalt, hg]
    exact ⟨oweHalt_queue .., oweHalt_pg .., oweHalt_outgoing ..⟩
  | some g =>
    rw [localHalt, haltSlot_told ((oweHalt_group ..).trans hg) ((oweHalt_slotHalted ..).trans hh),
      haltHead_of_running ((haltTold_headOfSlot ..).trans ((oweHalt_headOfSlot ..).trans (headOfSlot_of_queue hq hk))) hs,
      if_pos rfl]
    exact ⟨(haltTold_queue ..).trans (oweHalt_queue ..), (haltTold_pg ..).trans (oweHalt_pg ..),
      oweHalt_haltTold_outgoing hg hh ..⟩

/-- A local halt of a slot already HALTED, whose head runs, is a claim on the head (R92). -/
theorem localHalt_of_halted_running (hq : u.queue = h :: rest) (hk : h.slot = some k) (hs : h.state = .running)
    (hh : u.slotHalted k = true) (c : Cause) (m : Mode) (b : Bool) :
    (localHalt k c m b u).queue = { h with state := .ending .halted m } :: rest
      ∧ (localHalt k c m b u).pg = u.pg.stopping h.kind m := by
  cases hg : u.group? k with
  | none =>
    rw [State.slotHalted, hg] at hh
    cases hh
  | some g =>
    have hhead := (oweHalt_headOfSlot k k c m (u.haltTag k) u).trans (headOfSlot_of_queue hq hk)
    rw [localHalt, haltSlot_of_halted ((oweHalt_group ..).trans hg) ((oweHalt_slotHalted ..).trans hh), hhead,
      if_pos (by rw [Option.any_some, hs]; rfl), claim_running ((oweHalt_queue ..).trans hq) hs]
    exact ⟨rfl, congrArg (fun pg : Pg => pg.stopping h.kind m) (oweHalt_pg ..)⟩

theorem not_moving_of_announce {x : SegState} (ha : x.isAnnounce = true) : x.isMoving = false := by
  cases x <;> first | rfl | cases ha

/-- A halt of the slot of an announcing head leaves the generator, and its notice goes where the state before it
produces it (R92). -/
theorem localHalt_of_announcing (hq : u.queue = h :: rest) (hk : h.slot = some k) (ha : h.state.isAnnounce = true)
    (c : Cause) (m : Mode) (b : Bool) :
    ((localHalt k c m b u).queue = u.queue ∨ (localHalt k c m b u).queue = { h with state := .waiting } :: rest)
      ∧ (localHalt k c m b u).pg = u.pg ∧ (localHalt k c m b u).notices = (u.tellsOfHalt k c u.own).notices := by
  cases hg : u.group? k with
  | none =>
    rw [localHalt, haltSlot_of_empty ((oweHalt_group ..).trans hg), State.tellsOfHalt, hg]
    exact ⟨.inl (oweHalt_queue ..), oweHalt_pg .., notices_of_outgoing (oweHalt_outgoing ..)⟩
  | some g =>
    cases hh : u.slotHalted k with
    | true =>
      have hidle : h.state.isMoving = false := not_moving_of_announce ha
      have hhead := (oweHalt_headOfSlot k k c m (u.haltTag k) u).trans (headOfSlot_of_queue hq hk)
      rw [localHalt, haltSlot_of_halted ((oweHalt_group ..).trans hg) ((oweHalt_slotHalted ..).trans hh), hhead,
        if_neg (by rw [Option.any_some, hidle]; exact Bool.false_ne_true), State.tellsOfHalt, hg]
      dsimp only
      rw [hh]
      exact ⟨.inl (oweHalt_queue ..), oweHalt_pg .., notices_of_outgoing (oweHalt_outgoing ..)⟩
    | false =>
      obtain ⟨hnb, hother⟩ := Prod.mk.inj (notices_of_outgoing (oweHalt_haltTold_outgoing hg hh c m (u.haltTag k) u.own))
      rw [localHalt, haltSlot_told ((oweHalt_group ..).trans hg) ((oweHalt_slotHalted ..).trans hh),
        haltHead_of_announce ((haltTold_queue ..).trans ((oweHalt_queue ..).trans hq)) hk ha]
      exact ⟨.inr rfl, (haltTold_pg ..).trans (oweHalt_pg ..), Prod.ext hnb ((withdrawReady_otherFrames _).trans hother)⟩

/-- A halt of a slot that is live and not HALTED, whose head announces: the head waits again (R92). -/
theorem localHalt_of_announcing_live (hg : u.group? k = some g) (hh : u.slotHalted k = false) (hq : u.queue = h :: rest)
    (hk : h.slot = some k) (ha : h.state.isAnnounce = true) (c : Cause) (m : Mode) (b : Bool) :
    (localHalt k c m b u).queue = { h with state := .waiting } :: rest ∧ (localHalt k c m b u).readyWithdrawn := by
  rw [localHalt_of_announce hg hh hq hk ha]
  exact ⟨rfl, withdrawReady_readyWithdrawn _⟩

/-- The HALT owed for a head under way carries its tag (R93). -/
theorem haltTag_of_underWay (hq : u.queue = h :: rest) (hk : h.slot = some k) (hs : h.state.isAnnounce = true ∨ h.state = .running) :
    u.haltTag k = h.tag := by
  rw [haltTag_eq, hq]
  refine if_pos ⟨hk, hs.imp_right fun hr => ?_⟩
  rw [hr]
  rfl

end

/-! ### A claim that ends the head at once -/

/-- The outcome with which a head leaves under a claim: an ENDING one keeps its own (R60, R70). -/
def SegState.leavesWith (x : SegState) (o : SegOutcome) : SegOutcome :=
  match x with
  | .ending o' _ => o'
  | _ => o

/-- The node with its generator at rest (R112, R117). -/
def State.atRest (s : State) : State := { s with pg := s.pg.resting }

@[simp] theorem atRest_ss (s : State) : s.atRest.ss = s.ss := rfl
@[simp] theorem atRest_tif (s : State) : s.atRest.tif = s.tif := rfl
@[simp] theorem atRest_ru (s : State) : s.atRest.ru = s.ru := rfl
@[simp] theorem atRest_pg (s : State) : s.atRest.pg = s.pg.resting := rfl
@[simp] theorem atRest_pb (s : State) : s.atRest.pb = s.pb := rfl
@[simp] theorem atRest_gd (s : State) : s.atRest.gd = s.gd := rfl
@[simp] theorem atRest_outgoing (s : State) : s.atRest.outgoing = s.outgoing := rfl

section
variable {v : State} {h : Segment} {rest : List Segment}

theorem claim_of_not_moving (hv : v.headMoving = false) (o : SegOutcome) (m : Mode) : claim o m v = v := by
  unfold claim
  rw [State.headMoving, State.head?] at hv
  cases hq : v.queue with
  | nil => rfl
  | cons h rest =>
    rw [hq, List.head?_cons, Option.any_some] at hv
    dsimp only
    cases hs : h.state <;> first | rfl | (rw [hs] at hv; cases hv)

/-- A claim with ABRUPT on a head that moves ends it (R70, R117). -/
theorem finishIfOver_claim_abrupt (hq : v.queue = h :: rest) (hv : h.state.isMoving = true) (o : SegOutcome) :
    finishIfOver (claim o .abrupt v) = v.atRest.leftBy h rest (h.state.leavesWith o) := by
  cases hs : h.state with
  | running =>
    rw [claim_running hq hs, Pg.stopping_abrupt]
    exact finishIfOver_of_ended (h := { h with state := .ending o .abrupt }) rfl rfl rfl
  | ending o' m' =>
    rw [claim_ending hq hs, if_pos rfl]
    exact finishIfOver_of_ended (h := { h with state := .ending o' .abrupt }) rfl rfl rfl
  | _ => rw [hs] at hv; cases hv

/-- A claim on a RUNNING head that stops at once ends it (R116 to R118). -/
theorem finishIfOver_claim_atOnce (hq : v.queue = h :: rest) (hs : h.state = .running) (o : SegOutcome) (m : Mode)
    (ho : v.pg.stopsAtOnce h.kind m = true) :
    finishIfOver (claim o m v) = v.atRest.leftBy h rest o := by
  rw [claim_running hq hs, Pg.stopping, if_pos ho]
  exact finishIfOver_of_ended (h := { h with state := .ending o m }) rfl rfl rfl

/-- A generator that decelerates is at work (R118). -/
theorem decelerating_phase {pg : Pg} {k : SegKind} (hseek : k.isSeek = true → pg.speedName ≠ .idle) :
    (pg.decelerating k).phase ≠ .idle := by
  unfold Pg.decelerating
  dsimp only
  split
  · next hk => exact hseek hk
  · nofun

/-- A claim with SMOOTH on a RUNNING head above FL begins its deceleration (R118). -/
theorem finishIfOver_claim_decelerating (hq : v.queue = h :: rest) (hs : h.state = .running) (o : SegOutcome) (m : Mode)
    (ho : v.pg.stopsAtOnce h.kind m = false) (hseek : h.kind.isSeek = true → v.pg.speedName ≠ .idle) :
    finishIfOver (claim o m v) = { v with queue := { h with state := .ending o m } :: rest, pg := v.pg.decelerating h.kind } := by
  rw [claim_running hq hs, Pg.stopping, if_neg (by rw [ho]; exact Bool.false_ne_true)]
  refine finishIfOver_of_not ?_
  rw [State.headOver?]
  exact if_pos (decelerating_phase hseek)

end

/-! ### The departure from NORMAL, before its head ends -/

/-- The departure from NORMAL up to the claim on the head: the record, the halt of the head's slot, FAULT (R151). -/
def departure (c : Cause) (m : Mode) (s : State) : State :=
  faultNotice c m (guardHaltsGroup c m (guardRecord c m s))

theorem guardLeave_eq (c : Cause) (m : Mode) (s : State) :
    guardLeave c m s = finishIfOver (claim .faulted m (departure c m s)) := rfl

section
variable {s t u x : State} {k : Fin 8} {g : Group} {h : Segment} {rest : List Segment} {c : Cause} {m : Mode}

@[simp] theorem departure_gd (c : Cause) (m : Mode) (s : State) : (departure c m s).gd = (guardRecord c m s).gd := by
  simp [departure]

@[simp] theorem departure_pb (c : Cause) (m : Mode) (s : State) : (departure c m s).pb = s.pb := by
  simp [departure]

@[simp] theorem departure_ss (c : Cause) (m : Mode) (s : State) : (departure c m s).ss = s.ss := by
  simp [departure]

@[simp] theorem tellsOfHalt_ss (s : State) (k : Fin 8) (c : Cause) (o : StationId) : (s.tellsOfHalt k c o).ss = s.ss := by
  unfold State.tellsOfHalt
  split
  · rfl
  · split
    · rfl
    · exact produce_ss ..

@[simp] theorem tellsOfHalt_pg (s : State) (k : Fin 8) (c : Cause) (o : StationId) : (s.tellsOfHalt k c o).pg = s.pg := by
  unfold State.tellsOfHalt
  split
  · rfl
  · split
    · rfl
    · exact produce_pg ..

@[simp] theorem tellsOfHalt_pb (s : State) (k : Fin 8) (c : Cause) (o : StationId) : (s.tellsOfHalt k c o).pb = s.pb := by
  unfold State.tellsOfHalt
  split
  · rfl
  · split
    · rfl
    · exact produce_pb ..

/-- The notices of a departure leave all that they tell of (R151). -/
theorem tellsOfDeparture_frame (c : Cause) (m : Mode) (s : State) :
    (s.tellsOfDeparture c m).ss = s.ss ∧ (s.tellsOfDeparture c m).pb = s.pb ∧ (s.tellsOfDeparture c m).pg = s.pg := by
  unfold State.tellsOfDeparture State.tellsOfFault
  dsimp only
  repeat' split
  all_goals simp

theorem tellsOfHalt_outgoing_congr (hs : t.ss = s.ss) (hr : t.ru = s.ru) (ho : t.outgoing = s.outgoing) (k : Fin 8) (c : Cause)
    (o : StationId) : (t.tellsOfHalt k c o).outgoing = (s.tellsOfHalt k c o).outgoing := by
  have hg : t.group? k = s.group? k := group_congr (by rw [hr]) k
  have hh : t.slotHalted k = s.slotHalted k := slotHalted_congr (by rw [hr])
  simp only [State.tellsOfHalt, hg, hh]
  split
  · exact ho
  · split
    · exact ho
    · exact produce_outgoing_congr hs ho ..

/-- The FAULT notice as the state before the departure produces it (R151, Table 2-16). -/
theorem faultNotice_eq (c : Cause) (m : Mode) (u : State) : faultNotice c m u = u.tellsOfFault c m u.movingTag := by
  rw [faultNotice, Mode.byte_eq]
  rfl

theorem tellsOfFault_outgoing_congr (hs : u.ss = x.ss) (ho : u.outgoing = x.outgoing) (hp : u.pb.command = x.pb.command) (c : Cause) (m : Mode)
    (tag : Byte) : (u.tellsOfFault c m tag).outgoing = (x.tellsOfFault c m tag).outgoing := by
  rw [State.tellsOfFault, State.tellsOfFault, hp]
  exact produce_outgoing_congr hs ho ..

theorem tellsOfFault_notices_congr (hs : u.ss = x.ss) (ho : u.notices = x.notices) (hp : u.pb.command = x.pb.command) (c : Cause) (m : Mode)
    (tag : Byte) : (u.tellsOfFault c m tag).notices = (x.tellsOfFault c m tag).notices := by
  rw [State.tellsOfFault, State.tellsOfFault, hp]
  exact produce_notices_congr ⟨hs, ho⟩ ..

theorem movingTag_of_queue (hq : u.queue = h :: rest) : u.movingTag = if h.state.isMoving then h.tag else 0 := by
  rw [State.movingTag, State.head?, hq]
  rfl

/-- The head is one whose slot a departure halts: it is announcing or RUNNING, and belongs to a slot (R94). -/
def State.departsWithSlot (s : State) : Prop :=
  ∃ h ∈ s.queue.head?, h.slot ≠ none ∧ (h.state.isAnnounce = true ∨ h.state = .running)

theorem guardHaltsGroup_stays (hno : ¬ u.departsWithSlot) (c : Cause) (m : Mode) : guardHaltsGroup c m u = u := by
  unfold guardHaltsGroup
  split
  · next h hh =>
    split
    · next k hk =>
      refine if_neg fun hs => hno ⟨h, hh, by rw [hk]; nofun, ?_⟩
      simpa using hs
    · rfl
  · rfl

theorem guardHaltsGroup_of_slot (hq : u.queue = h :: rest) (hk : h.slot = some k)
    (hs : h.state.isAnnounce = true ∨ h.state = .running) (c : Cause) (m : Mode) :
    guardHaltsGroup c m u = localHalt k c m true u := by
  simp only [guardHaltsGroup, State.head?, hq, List.head?_cons, hk]
  exact if_pos (by simpa using hs)

theorem tellsOfDeparture_stays (hno : ¬ s.departsWithSlot) (c : Cause) (m : Mode) :
    s.tellsOfDeparture c m = s.tellsOfFault c m s.movingTag := by
  unfold State.tellsOfDeparture State.movingTag
  cases hq : s.queue with
  | nil => simp [State.head?, hq]
  | cons h rest =>
    have hhead : h ∈ s.queue.head? := by rw [hq]; rfl
    simp only [State.head?, hq, List.head?_cons]
    cases hk : h.slot with
    | none => rfl
    | some k =>
      dsimp only
      rw [if_neg fun hs => hno ⟨h, hhead, by rw [hk]; nofun, hs⟩]

theorem tellsOfDeparture_of_slot (hq : s.queue = h :: rest) (hk : h.slot = some k)
    (hs : h.state.isAnnounce = true ∨ h.state = .running) (c : Cause) (m : Mode) :
    s.tellsOfDeparture c m = (s.tellsOfHalt k c s.own).tellsOfFault c m (if h.state.isMoving then h.tag else 0) := by
  simp only [State.tellsOfDeparture, hq, hk, if_pos hs]

/-- A departure that halts no slot (R151). -/
theorem departure_stays (hno : ¬ s.departsWithSlot) (c : Cause) (m : Mode) :
    (departure c m s).queue = s.queue ∧ (departure c m s).pg = s.pg ∧ (departure c m s).ru = s.ru
      ∧ (departure c m s).tif.owed = s.tif.owed ∧ (departure c m s).outgoing = (s.tellsOfDeparture c m).outgoing := by
  rw [departure, guardHaltsGroup_stays (u := guardRecord c m s) hno, tellsOfDeparture_stays hno, faultNotice_eq]
  exact ⟨produce_queue _ _ _, produce_pg _ _ _, produce_ru _ _ _, produce_owed _ _ _,
    tellsOfFault_outgoing_congr (u := guardRecord c m s) (x := s) rfl rfl rfl ..⟩

/-- A departure with a RUNNING head whose slot, if it has one, is not HALTED (R94, R151). -/
theorem departure_of_running (hq : s.queue = h :: rest) (hs : h.state = .running)
    (hok : ∀ k, h.slot = some k → s.slotHalted k = false) (c : Cause) (m : Mode) :
    (departure c m s).queue = s.queue ∧ (departure c m s).pg = s.pg
      ∧ (departure c m s).outgoing = (s.tellsOfDeparture c m).outgoing := by
  cases hk : h.slot with
  | none =>
    have hno : ¬ s.departsWithSlot := by
      rintro ⟨x, hx, hslot, -⟩
      rw [hq] at hx
      cases hx
      exact hslot hk
    obtain ⟨h1, h2, -, -, h5⟩ := departure_stays hno c m
    exact ⟨h1, h2, h5⟩
  | some k =>
    obtain ⟨hq', hpg, ho⟩ := localHalt_of_running (u := guardRecord c m s) hq hk hs (hok k hk) c m
    rw [departure, guardHaltsGroup_of_slot (u := guardRecord c m s) hq hk (.inr hs), tellsOfDeparture_of_slot hq hk (.inr hs)]
    refine ⟨(faultNotice_queue ..).trans hq', (faultNotice_pg ..).trans hpg, ?_⟩
    rw [faultNotice_eq, movingTag_of_queue (hq'.trans hq)]
    exact tellsOfFault_outgoing_congr (x := s.tellsOfHalt k c s.own) (by simp)
      (ho.trans (tellsOfHalt_outgoing_congr (t := guardRecord c m s) (s := s) rfl rfl rfl ..)) (by simp) ..

/-- A departure with a RUNNING head whose slot is HALTED already: the halt claims the head (R92, R94). -/
theorem departure_of_halted_running (hq : s.queue = h :: rest) (hs : h.state = .running) (hk : h.slot = some k)
    (hh : s.slotHalted k = true) (c : Cause) (m : Mode) :
    (departure c m s).queue = { h with state := .ending .halted m } :: rest ∧ (departure c m s).pg = s.pg.stopping h.kind m := by
  obtain ⟨hq', hpg⟩ := localHalt_of_halted_running (u := guardRecord c m s) hq hk hs hh c m true
  rw [departure, guardHaltsGroup_of_slot (u := guardRecord c m s) hq hk (.inr hs)]
  exact ⟨(faultNotice_queue ..).trans hq', (faultNotice_pg ..).trans hpg⟩

/-- A departure with an announcing head of a slot (R94). -/
theorem departure_of_announcing (hq : s.queue = h :: rest) (hk : h.slot = some k) (ha : h.state.isAnnounce = true)
    (c : Cause) (m : Mode) :
    ((departure c m s).queue = s.queue ∨ (departure c m s).queue = { h with state := .waiting } :: rest)
      ∧ (departure c m s).pg = s.pg ∧ (departure c m s).notices = (s.tellsOfDeparture c m).notices := by
  have hidle : h.state.isMoving = false := not_moving_of_announce ha
  obtain ⟨hq', hpg, ho⟩ := localHalt_of_announcing (u := guardRecord c m s) hq hk ha c m true
  have htag : (localHalt k c m true (guardRecord c m s)).movingTag = if h.state.isMoving then h.tag else 0 := by
    rw [hidle]
    obtain hq' | hq' := hq'
    · rw [movingTag_of_queue (hq'.trans hq), hidle]
    · rw [movingTag_of_queue hq']
      rfl
  rw [departure, guardHaltsGroup_of_slot (u := guardRecord c m s) hq hk (.inl ha), tellsOfDeparture_of_slot hq hk (.inl ha)]
  refine ⟨?_, (faultNotice_pg ..).trans hpg, ?_⟩
  · rw [faultNotice_queue]
    exact hq'
  · rw [faultNotice_eq, htag]
    exact tellsOfFault_notices_congr (x := s.tellsOfHalt k c s.own) (by simp)
      (ho.trans (notices_of_outgoing (tellsOfHalt_outgoing_congr (t := guardRecord c m s) (s := s) rfl rfl rfl ..)))
      (by simp) ..

theorem isReady_of_isNotice {f : TxFrame} (h : f.isNotice = true) : f.isReady = false := by
  cases f <;> first | rfl | cases h

/-- A departure halts the live slot of an announcing or RUNNING head, with a HALT owed (R94). -/
theorem departure_of_live (hq : s.queue = h :: rest) (hk : h.slot = some k) (hs : h.state.isAnnounce = true ∨ h.state = .running)
    (hg : s.group? k = some g) (hh : s.slotHalted k = false) (c : Cause) (m : Mode) :
    (departure c m s).ru = s.ru.halting k g c s.own
      ∧ (departure c m s).tif.owed = (if s.tif.link = .silent ∨ (s.tif.owed[k]).isSome then s.tif.owed
        else s.tif.owed.set k (some { cause := c, mode := m, tag := h.tag, attempts := 0, onLine := false }))
      ∧ (h.state.isAnnounce = true →
        (departure c m s).queue = { h with state := .waiting } :: rest ∧ (departure c m s).readyWithdrawn) := by
  rw [departure, guardHaltsGroup_of_slot (u := guardRecord c m s) hq hk hs]
  refine ⟨?_, ?_, fun ha => ?_⟩
  · rw [faultNotice_ru]
    exact localHalt_ru (s := guardRecord c m s) hg hh ..
  · refine (produce_owed ..).trans ((localHalt_owed ..).trans ?_)
    rw [haltTag_of_underWay (u := guardRecord c m s) hq hk hs]
    rfl
  · obtain ⟨hq', hr⟩ := localHalt_of_announcing_live (u := guardRecord c m s) hg hh hq hk ha c m true
    refine ⟨(faultNotice_queue ..).trans hq', fun e he hready => ?_⟩
    obtain hn | he := mem_produce he
    · rw [isReady_of_isNotice hn] at hready
      cases hready
    · exact hr e he hready

end

/-! ### The Guard takes a cause -/

section
variable {s : State} {h : Segment} {rest : List Segment} {c : Cause} {m : Mode}

theorem headMoving_of_queue (hq : s.queue = h :: rest) : s.headMoving = h.state.isMoving := by
  rw [State.headMoving, State.head?, hq]
  rfl

theorem headEnding_iff : s.headEnding = true ↔ ∃ h rest o m, s.queue = h :: rest ∧ h.state = .ending o m := by
  rw [State.headEnding, State.head?]
  cases hq : s.queue with
  | nil => simp
  | cons h rest =>
    rw [List.head?_cons, Option.any_some]
    constructor
    · intro hv
      cases hs : h.state with
      | ending o m => exact ⟨h, rest, o, m, rfl, hs⟩
      | _ => rw [hs] at hv; cases hv
    · rintro ⟨x, l, o, m, hx, hs⟩
      cases hx
      rw [hs]
      rfl

theorem not_departsWithSlot_of_ending {o : SegOutcome} {m' : Mode} (hq : s.queue = h :: rest) (hs : h.state = .ending o m') :
    ¬ s.departsWithSlot := by
  rintro ⟨x, hx, -, hx'⟩
  rw [hq] at hx
  cases hx
  rw [hs] at hx'
  exact hx'.elim nofun nofun

theorem not_departsWithSlot_of_no_slot (hq : s.queue = h :: rest) (hk : h.slot = none) : ¬ s.departsWithSlot := by
  rintro ⟨x, hx, hslot, -⟩
  rw [hq] at hx
  cases hx
  exact hslot hk

theorem not_departsWithSlot_of_waits (hw : s.queue.head?.all (fun h => h.state == .waiting || h.state == .queued) = true) :
    ¬ s.departsWithSlot := by
  rintro ⟨x, hx, -, hx'⟩
  rw [Option.all_eq_true] at hw
  have hwaits : x.state = .waiting ∨ x.state = .queued := by simpa using hw x hx
  obtain hs | hs := hwaits <;> rw [hs] at hx' <;> exact hx'.elim nofun nofun

/-- The record of a cause that joins the set of a Guard that has left NORMAL (R153). -/
def Gd.joinedBy (gd : Gd) (c : Cause) (m : Mode) : Gd :=
  { gd with causes := gd.causes ||| c.bit, stopMode := if m = .abrupt then some .abrupt else gd.stopMode }

theorem hastenEnding_of_not_ending (hv : s.headEnding = false) : hastenEnding s = s := by
  unfold hastenEnding
  split
  · next h hh =>
    split
    · next o m hs =>
      rw [State.headEnding, hh, Option.any_some, hs] at hv
      cases hv
    · rfl
  · rfl

/-- A later cause that hastens nothing joins the set (R153). -/
theorem guardAdd_of_stays (hover : s.nothingOver = true) (hno : m = .smooth ∨ s.headEnding = false) :
    guardAdd c m s = { s with gd := s.gd.joinedBy c m } := by
  have hstay : (if m = .abrupt then hastenEnding { s with gd := { s.gd with
      causes := s.gd.causes ||| c.bit, stopMode := some .abrupt } } else { s with gd := { s.gd with causes := s.gd.causes ||| c.bit } })
      = { s with gd := s.gd.joinedBy c m } := by
    cases m with
    | smooth => rfl
    | abrupt =>
      obtain hm | hv := hno
      · cases hm
      · exact hastenEnding_of_not_ending hv
  exact (congrArg finishIfOver hstay).trans (finishIfOver_of_not (nothingOver_iff.1 hover))

/-- A later cause with ABRUPT ends an ENDING head (R153, R152). -/
theorem guardAdd_of_ending {o : SegOutcome} {m' : Mode} (hq : s.queue = h :: rest) (hs : h.state = .ending o m') :
    guardAdd c .abrupt s = ({ s with gd := s.gd.joinedBy c .abrupt } : State).atRest.leftBy h rest o := by
  have hhasten : hastenEnding { s with gd := s.gd.joinedBy c .abrupt } = claim o .abrupt { s with gd := s.gd.joinedBy c .abrupt } := by
    simp only [hastenEnding, State.head?, hq, List.head?_cons, hs]
  have hclaim := finishIfOver_claim_abrupt (v := { s with gd := s.gd.joinedBy c .abrupt }) hq (by rw [hs]; rfl) o
  rw [hs] at hclaim
  exact (congrArg finishIfOver hhasten).trans hclaim

/-- A generator at rest tells of the same end (R75). -/
theorem tellsOfEnd_rested (s : State) (gd : Gd) (h : Segment) (o : SegOutcome) (rest : List Segment) :
    (({ s with gd := gd } : State).atRest.tellsOfEnd h o rest).outgoing = (s.tellsOfEnd h o rest).outgoing :=
  tellsOfEnd_outgoing_congr (s := s) (t := ({ s with gd := gd } : State).atRest) rfl rfl rfl rfl ..

/-- The departure of a Guard with a head that does not move ends nothing (R151). -/
theorem guardLeave_of_not_moving (hv : (departure c m s).headMoving = false) : guardLeave c m s = departure c m s := by
  rw [guardLeave_eq, claim_of_not_moving hv, finishIfOver_of_not (headOver_of_not_moving hv)]

/-- The departure keeps a head that does not move from moving (R94). -/
theorem departure_not_moving (hv : s.headMoving = false) (c : Cause) (m : Mode) :
    (departure c m s).headMoving = false ∧ (departure c m s).pg = s.pg
      ∧ (departure c m s).notices = (s.tellsOfDeparture c m).notices := by
  by_cases hdep : s.departsWithSlot
  · obtain ⟨h, hh, hslot, hs⟩ := hdep
    obtain ⟨rest, hq⟩ := List.head?_eq_some_iff.1 hh
    obtain ⟨k, hk⟩ := Option.ne_none_iff_exists'.1 hslot
    have ha : h.state.isAnnounce = true := hs.resolve_right fun hr => by
      rw [headMoving_of_queue hq, hr] at hv
      cases hv
    obtain ⟨hq', hpg, hn⟩ := departure_of_announcing hq hk ha c m
    refine ⟨?_, hpg, hn⟩
    obtain hq' | hq' := hq'
    · rw [headMoving_of_queue (hq'.trans hq), ← headMoving_of_queue hq, hv]
    · rw [headMoving_of_queue hq']
      rfl
  · obtain ⟨hq', hpg, -, -, ho⟩ := departure_stays hdep c m
    refine ⟨?_, hpg, notices_of_outgoing ho⟩
    rw [State.headMoving, State.head?, hq']
    exact hv

end

section
variable {s : State} {h : Segment} {rest : List Segment}

/-- The record after a departure, whatever ends with it (R151). -/
theorem guardLeave_record (c : Cause) (m : Mode) (s : State) :
    (guardLeave c m s).gd.first = some c ∧ (guardLeave c m s).gd.causes = c.bit ∧ (guardLeave c m s).gd.stopMode = some m
      ∧ (guardLeave c m s).gd.originator = s.gd.originator := by
  rw [guardLeave_eq]
  obtain ⟨h1, h2, h3, h4⟩ := finishIfOver_record (claim .faulted m (departure c m s))
  rw [h1, h2, h3, h4, claim_gd, departure_gd]
  exact ⟨rfl, rfl, rfl, rfl⟩

/-- A departure leaves a head that moves one that moves, and a generator that comes to rest as it would have (R94). -/
theorem departure_of_moving (hq : s.queue = h :: rest) (hv : h.state.isMoving = true) (c : Cause) (m : Mode) :
    ∃ h', (departure c m s).queue = h' :: rest ∧ h'.state.isMoving = true ∧ (departure c m s).pg.resting = s.pg.resting := by
  by_cases hdep : s.departsWithSlot
  · obtain ⟨x, hx, hslot, hs⟩ := hdep
    rw [hq] at hx
    cases hx
    obtain ⟨k, hk⟩ := Option.ne_none_iff_exists'.1 hslot
    have hr : h.state = .running := hs.resolve_left fun ha => by
      rw [not_moving_of_announce ha] at hv
      cases hv
    cases hh : s.slotHalted k with
    | false =>
      obtain ⟨hq', hpg, -⟩ := departure_of_running hq hr (fun j hj => by rw [hk] at hj; cases hj; exact hh) c m
      exact ⟨h, hq'.trans hq, hv, by rw [hpg]⟩
    | true =>
      obtain ⟨hq', hpg⟩ := departure_of_halted_running hq hr hk hh c m
      refine ⟨_, hq', rfl, ?_⟩
      rw [hpg, Pg.stopping]
      split <;> rfl
  · obtain ⟨hq', hpg, -⟩ := departure_stays hdep c m
    exact ⟨h, hq'.trans hq, hv, by rw [hpg]⟩

/-- The Guard stops with a head that has left (R152). -/
theorem leftBy_gd_of_stopping {v : State} {o : SegOutcome} (hg : v.gd.state = .stopping) :
    (v.leftBy h rest o).gd = { v.gd with state := .stopped, den := .low } := by
  rw [leftBy_gd, if_pos hg]

theorem departure_stopping (hv : s.headMoving = true) (c : Cause) (m : Mode) : (departure c m s).gd.state = .stopping := by
  rw [departure_gd, guardRecord_gd, hv]
  rfl

end

section
variable {s : State} {h : Segment} {rest : List Segment}

/-- With no head that moves the departure is all, and the guard is STOPPED (R151). -/
theorem guardLeave_not_moving (hv : s.headMoving = false) (c : Cause) (m : Mode) :
    (guardLeave c m s).gd.state = .stopped ∧ (guardLeave c m s).gd.den = .low ∧ (guardLeave c m s).pg = s.pg
      ∧ (guardLeave c m s).pb = s.pb ∧ (guardLeave c m s).notices = (s.tellsOfDeparture c m).notices := by
  obtain ⟨hv', hpg, hnotices⟩ := departure_not_moving hv c m
  rw [guardLeave_of_not_moving hv', departure_gd, guardRecord_gd, hv]
  exact ⟨rfl, if_neg fun ⟨_, h, _⟩ => Bool.false_ne_true h, hpg, departure_pb .., hnotices⟩

theorem not_moving_of_waits (hw : s.queue.head?.all (fun h => h.state == .waiting || h.state == .queued) = true) :
    s.headMoving = false := by
  rw [State.headMoving, State.head?]
  cases hq : s.queue.head? with
  | none => rfl
  | some h =>
    rw [hq, Option.all_some] at hw
    have hwaits : h.state = .waiting ∨ h.state = .queued := by simpa using hw
    rw [Option.any_some]
    obtain hs | hs := hwaits <;> rw [hs] <;> rfl

/-- A head that waits, or none, is left as it is (R71, R151). -/
theorem guardLeave_waits (hw : s.queue.head?.all (fun h => h.state == .waiting || h.state == .queued) = true) (c : Cause) (m : Mode) :
    (guardLeave c m s).queue = s.queue ∧ (guardLeave c m s).ru = s.ru ∧ (guardLeave c m s).tif.owed = s.tif.owed
      ∧ (guardLeave c m s).outgoing = (s.tellsOfDeparture c m).outgoing := by
  obtain ⟨hv, -⟩ := departure_not_moving (not_moving_of_waits hw) c m
  obtain ⟨hq, -, hru, howed, hout⟩ := departure_stays (not_departsWithSlot_of_waits hw) c m
  rw [guardLeave_of_not_moving hv]
  exact ⟨hq, hru, howed, hout⟩

/-- A departure with ABRUPT and a head that moves ends the head (R117, R151, R152). -/
theorem guardLeave_abrupt (hq : s.queue = h :: rest) (hv : h.state.isMoving = true) (c : Cause) :
    (guardLeave c .abrupt s).gd.state = .stopped ∧ (guardLeave c .abrupt s).gd.den = .low
      ∧ (guardLeave c .abrupt s).pg = s.pg.resting ∧ (guardLeave c .abrupt s).queue = promote rest
      ∧ (guardLeave c .abrupt s).pb = s.pb.referredBy rest := by
  obtain ⟨h', hq', hv', hpg⟩ := departure_of_moving hq hv c .abrupt
  have hstop := departure_stopping ((headMoving_of_queue hq).trans hv) c .abrupt
  rw [guardLeave_eq, finishIfOver_claim_abrupt hq' hv', leftBy_gd_of_stopping (v := (departure c .abrupt s).atRest) hstop, leftBy_pg, leftBy_queue, leftBy_pb]
  exact ⟨rfl, rfl, hpg, rfl, congrArg (fun pb : Pb => pb.referredBy rest) (departure_pb c .abrupt s)⟩

/-- The notices of the end of a head after a departure that leaves the generator (R75, R151). -/
theorem leftBy_departure_outgoing (c : Cause) (m : Mode) (hpg : (departure c m s).pg = s.pg)
    (ho : (departure c m s).outgoing = (s.tellsOfDeparture c m).outgoing) (h : Segment) (rest : List Segment) (o : SegOutcome) :
    ((departure c m s).atRest.leftBy h rest o).outgoing
      = ((s.tellsOfDeparture c m).tellsOfEnd h o rest).outgoing := by
  rw [leftBy_outgoing]
  obtain ⟨hss, hpb, hpg'⟩ := tellsOfDeparture_frame c m s
  refine tellsOfEnd_outgoing_congr (t := (departure c m s).atRest) (s := s.tellsOfDeparture c m) ?_
    ((atRest_outgoing _).trans ho) ?_ ?_ h o rest
  · rw [atRest_ss, departure_ss, hss]
  · rw [atRest_pb, departure_pb, hpb]
  · rw [hpg', ← hpg]
    rfl

/-- A departure with ABRUPT ends an ENDING head with its outcome (R151, R152). -/
theorem guardLeave_abrupt_ending {o : SegOutcome} {m' : Mode} (hq : s.queue = h :: rest) (hs : h.state = .ending o m') (c : Cause) :
    (guardLeave c .abrupt s).ru = s.ru ∧ (guardLeave c .abrupt s).tif.owed = s.tif.owed
      ∧ (guardLeave c .abrupt s).outgoing = ((s.tellsOfDeparture c .abrupt).tellsOfEnd h o rest).outgoing := by
  obtain ⟨hq', hpg, hru, howed, hout⟩ := departure_stays (not_departsWithSlot_of_ending hq hs) c .abrupt
  have hend := leftBy_departure_outgoing c .abrupt hpg hout h rest o
  have hleave : guardLeave c .abrupt s = (departure c .abrupt s).atRest.leftBy h rest o := by
    rw [guardLeave_eq, finishIfOver_claim_abrupt (hq'.trans hq) (by rw [hs]; rfl), hs]
    rfl
  rw [hleave, leftBy_ru, leftBy_owed, atRest_ru, atRest_tif]
  exact ⟨hru, howed, hend⟩

/-- The claim and the end of a head leave the slots and the HALTs owed (R151). -/
theorem guardLeave_slots (c : Cause) (m : Mode) (s : State) :
    (guardLeave c m s).ru = (departure c m s).ru ∧ (guardLeave c m s).tif.owed = (departure c m s).tif.owed := by
  rw [guardLeave_eq, finishIfOver_ru, finishIfOver_owed, claim_ru, claim_tif]
  exact ⟨rfl, rfl⟩

/-- A departure with a RUNNING head that stops at once (R116 to R118, R151). -/
theorem guardLeave_running_atOnce {m : Mode} (hq : s.queue = h :: rest) (hs : h.state = .running)
    (hok : ∀ k, h.slot = some k → s.slotHalted k = false) (c : Cause) (ho : s.pg.stopsAtOnce h.kind m = true) :
    (guardLeave c m s).gd.state = .stopped ∧ (guardLeave c m s).gd.den = .low ∧ (guardLeave c m s).pg = s.pg.resting
      ∧ (guardLeave c m s).queue = promote rest ∧ (guardLeave c m s).pb = s.pb.referredBy rest
      ∧ (guardLeave c m s).outgoing = ((s.tellsOfDeparture c m).tellsOfEnd h .faulted rest).outgoing := by
  obtain ⟨hq', hpg, hout⟩ := departure_of_running hq hs hok c m
  have hend := leftBy_departure_outgoing c m hpg hout h rest .faulted
  have hstop := departure_stopping ((headMoving_of_queue hq).trans (by rw [hs]; rfl)) c m
  rw [guardLeave_eq, finishIfOver_claim_atOnce (hq'.trans hq) hs _ _ (by rw [hpg]; exact ho),
    leftBy_gd_of_stopping (v := (departure c m s).atRest) hstop, leftBy_pg, leftBy_queue, leftBy_pb, atRest_pg, atRest_pb,
    departure_pb, hpg]
  exact ⟨rfl, rfl, rfl, rfl, rfl, hend⟩

theorem departure_den (hn : s.ss.node = .run) (hv : s.headMoving = true) (c : Cause) (m : Mode) :
    (departure c m s).gd.den = if s.tif.link = .silent then .low else .high := by
  rw [departure_gd, guardRecord_gd, hv, hn]
  by_cases hl : s.tif.link = .silent <;> simp [hl]

/-- A SMOOTH departure with a RUNNING head above FL begins its deceleration (R118, R151). -/
theorem guardLeave_running_decelerating {m : Mode} (hq : s.queue = h :: rest) (hs : h.state = .running)
    (hok : ∀ k, h.slot = some k → s.slotHalted k = false) (c : Cause) (ho : s.pg.stopsAtOnce h.kind m = false)
    (hseek : h.kind.isSeek = true → s.pg.speedName ≠ .idle) :
    (guardLeave c m s).gd = (departure c m s).gd ∧ (guardLeave c m s).queue = { h with state := .ending .faulted m } :: rest
      ∧ (guardLeave c m s).pg = s.pg.decelerating h.kind ∧ (guardLeave c m s).pb = s.pb
      ∧ (guardLeave c m s).outgoing = (s.tellsOfDeparture c m).outgoing := by
  obtain ⟨hq', hpg, hout⟩ := departure_of_running hq hs hok c m
  rw [guardLeave_eq, finishIfOver_claim_decelerating (hq'.trans hq) hs _ _ (by rw [hpg]; exact ho) (by rw [hpg]; exact hseek)]
  refine ⟨rfl, rfl, ?_, departure_pb c m s, hout⟩
  rw [hpg]

/-- A SMOOTH departure with an ENDING head leaves the head its stop (R151). -/
theorem guardLeave_smooth_ending (hv : s.headEnding = true) (hover : s.nothingOver = true) (c : Cause) :
    guardLeave c .smooth s = departure c .smooth s := by
  obtain ⟨h, rest, o, m', hq, hs⟩ := headEnding_iff.1 hv
  obtain ⟨hq', hpg, -⟩ := departure_stays (not_departsWithSlot_of_ending hq hs) c .smooth
  have hover' : (departure c .smooth s).headOver? = s.headOver? := by rw [State.headOver?, hq', hpg, State.headOver?]
  rw [guardLeave_eq, claim_ending (hq'.trans hq) hs, if_neg (by nofun),
    finishIfOver_of_not (hover'.trans (nothingOver_iff.1 hover))]

end

/-- Settles O23: by the node and the guard state, then by the head and the mode. -/
theorem guardTakesACause : Obligations.GuardTakesACause := by
  intro c m s t
  refine ⟨guardTake_outside .., fun hn => ?_, fun hn => ?_, fun hn hg => ?_, fun hn hg => ?_⟩
  · show guardTake c m s = s
    rw [guardTake, hn]
  · show guardTake c m s = _
    obtain hn | hn := hn <;> rw [guardTake, hn] <;> rfl
  · have ht : t = guardAdd c m s := by
      show guardTake c m s = _
      rw [guardTake, hn]
      exact if_neg hg
    refine ⟨fun hover hno => ht.trans (guardAdd_of_stays hover hno), fun hm hv => ?_, fun hm h rest o m' hq hs => ?_⟩
    · obtain ⟨h, rest, o, m', hq, hs⟩ := headEnding_iff.1 hv
      subst hm
      rw [ht, guardAdd_of_ending hq hs, leftBy_gd, leftBy_pg, leftBy_queue, leftBy_ru, leftBy_owed, leftBy_pb, hq]
      exact ⟨rfl, rfl, rfl, rfl, rfl, rfl⟩
    · subst hm
      rw [ht, guardAdd_of_ending hq hs, leftBy_outgoing]
      exact tellsOfEnd_rested ..
  · have ht : t = guardLeave c m s := by
      show guardTake c m s = _
      rw [guardTake, hn]
      exact if_pos hg
    obtain ⟨hfirst, hcauses, hmode, horiginator⟩ := guardLeave_record c m s
    rw [ht]
    obtain ⟨hru, howed⟩ := guardLeave_slots c m s
    refine ⟨hfirst, hcauses, hmode, horiginator, fun hv => guardLeave_not_moving hv c m, fun hw => guardLeave_waits hw c m,
      fun hv hm => ?_, fun hm h rest o m' hq hs => ?_,
      fun h rest hq hk hv => ?_, fun h rest hq hs hok => ⟨fun hm => ?_, fun hm ho => ?_, fun hm ho hseek => ?_⟩,
      fun hv hm hover => ?_, fun h rest k g hq hs hk hg hh => ?_⟩
    · subst hm
      cases hq : s.queue with
      | nil => rw [State.headMoving, State.head?, hq] at hv; cases hv
      | cons h rest => exact guardLeave_abrupt hq ((headMoving_of_queue hq).symm.trans hv) c
    · subst hm
      exact guardLeave_abrupt_ending hq hs c
    · obtain ⟨-, -, hru', howed', -⟩ := departure_stays (not_departsWithSlot_of_no_slot hq hk) c m
      exact ⟨hru.trans hru', howed.trans howed'⟩
    · subst hm
      obtain ⟨-, -, -, -, -, hout⟩ := guardLeave_running_atOnce (m := .abrupt) hq hs hok c rfl
      exact hout
    · subst hm
      exact guardLeave_running_atOnce hq hs hok c ho
    · subst hm
      have hv : s.headMoving = true := (headMoving_of_queue hq).trans (by rw [hs]; rfl)
      obtain ⟨hgd, hrest⟩ := guardLeave_running_decelerating hq hs hok c ho hseek
      rw [hgd]
      exact ⟨departure_stopping hv c .smooth, departure_den hn hv c .smooth, hrest⟩
    · subst hm
      obtain ⟨h, rest, o, m', hq, hs⟩ := headEnding_iff.1 hv
      have hmoving : s.headMoving = true := (headMoving_of_queue hq).trans (by rw [hs]; rfl)
      obtain ⟨hq', hpg, hru', howed', hout⟩ := departure_stays (not_departsWithSlot_of_ending hq hs) c .smooth
      rw [guardLeave_smooth_ending hv hover]
      exact ⟨departure_stopping hmoving c .smooth, departure_den hn hmoving c .smooth, hq', hpg, departure_pb .., hru', howed', hout⟩
    · obtain ⟨hru', howed', hann⟩ := departure_of_live hq hk hs hg hh c m
      refine ⟨?_, hru.trans hru', howed.trans howed', fun ha => ?_⟩
      · rw [group_eq_some, hru, hru', halting_slot]
      · have hv : s.headMoving = false := (headMoving_of_queue hq).trans (not_moving_of_announce ha)
        rw [guardLeave_of_not_moving (departure_not_moving hv c m).1]
        exact hann ha

end Sys2Proof.Machine
end

