-- ==== Sys2Proof/Proofs/SilentEntry.lean ====
section
/-! PROOFS. The entry into SILENT: nothing is left to send, and the Guard takes DUPLICATE_STATION (R16, R45, R160). -/

namespace Sys2Proof.Machine
open scoped Host.Outcome

/-! ### A node that has nothing to send and may send nothing -/

/-- In SILENT, with an empty transmit queue, a change keeps it so, and keeps the HALTs owed and the mark units. -/
structure StaysMute (s t : State) : Prop where
  ss : t.ss = s.ss
  link : t.tif.link = s.tif.link
  queue : s.ss.node = .silent → s.tif.queue = [] → t.tif.queue = []
  owed : s.tif.link = .silent → t.tif.owed = s.tif.owed
  units : t.pb.units = s.pb.units

theorem StaysMute.refl (s : State) : StaysMute s s := ⟨rfl, rfl, fun _ => id, fun _ => rfl, rfl⟩

theorem StaysMute.trans {s t u : State} (h : StaysMute s t) (h' : StaysMute t u) : StaysMute s u where
  ss := h'.ss.trans h.ss
  link := h'.link.trans h.link
  queue hn hq := h'.queue (by rw [h.ss, hn]) (h.queue hn hq)
  owed hl := (h'.owed (h.link.trans hl)).trans (h.owed hl)
  units := h'.units.trans h.units

theorem StaysMute.of_same {s t : State} (hs : t.ss = s.ss) (ht : t.tif = s.tif) (hu : t.pb.units = s.pb.units) : StaysMute s t :=
  ⟨hs, by rw [ht], fun _ hq => by rw [ht, hq], fun _ => by rw [ht], hu⟩

theorem composeNotice_queue_of_silent {s : State} (hn : s.ss.node = .silent) : (composeNotice s).tif.queue = s.tif.queue := by
  rw [composeNotice_of_held (.inl hn)]

/-- A notice produced in SILENT reaches the backlog alone (R173 to R175). -/
theorem produce_staysMute (n : NoticeType) (c : List Byte) (s : State) : StaysMute s (produce n c s) where
  ss := produce_ss ..
  link := congrArg Outside.link (produce_outside ..)
  queue hn hq := by
    unfold produce
    split
    · exact hq
    · split
      · refine (composeNotice_queue_of_silent ?_).trans ?_
        · exact hn
        · exact hq
      · unfold discardNotice
        dsimp only
        rw [hq]
        exact (congrArg _ hq).trans List.map_nil
  owed _ := produce_owed ..
  units := by rw [produce_pb]

theorem withdrawReady_staysMute (s : State) : StaysMute s (withdrawReady s) where
  ss := rfl
  link := rfl
  queue _ hq := (congrArg _ hq).trans List.filterMap_nil
  owed _ := rfl
  units := rfl

theorem oweHalt_staysMute (k : Fin 8) (c : Cause) (m : Mode) (tag : Byte) (s : State) : StaysMute s (oweHalt k c m tag s) := by
  unfold oweHalt
  split
  · exact .refl s
  · next h => exact ⟨rfl, rfl, fun _ => id, fun hl => absurd (.inl hl) h, rfl⟩

theorem claim_staysMute (o : SegOutcome) (m : Mode) (s : State) : StaysMute s (claim o m s) :=
  .of_same (claim_ss ..) (claim_tif ..) (by rw [claim_pb])

theorem haltHead_staysMute (k : Fin 8) (m : Mode) (b : Bool) (s : State) : StaysMute s (haltHead k m b s) := by
  have hreturn : StaysMute s (returnHead k s) := by
    unfold returnHead
    split
    · split
      · exact (StaysMute.of_same (by simp) (by simp) (by simp)).trans (withdrawReady_staysMute _)
      · exact .refl s
    · exact .refl s
  obtain heq | heq := haltHead_eq k m b s <;> rw [heq]
  · exact hreturn
  · exact hreturn.trans (claim_staysMute ..)

theorem haltSlot_staysMute (k : Fin 8) (c : Cause) (o : StationId) (m : Mode) (b : Bool) (s : State) :
    StaysMute s (haltSlot k c o m b s) := by
  cases hg : s.group? k with
  | none => rw [haltSlot_of_empty hg]; exact .refl s
  | some g =>
    cases hh : s.slotHalted k with
    | true =>
      rw [haltSlot_of_halted hg hh]
      split
      · exact claim_staysMute ..
      · exact .refl s
    | false =>
      rw [haltSlot_told hg hh]
      have hrecord : StaysMute s { s with ru := s.ru.halting k g c o } := .of_same rfl rfl rfl
      exact (hrecord.trans (produce_staysMute ..)).trans (haltHead_staysMute ..)

theorem departure_staysMute (c : Cause) (m : Mode) (s : State) : StaysMute s (departure c m s) := by
  have hrecord : StaysMute s (guardRecord c m s) := .of_same rfl rfl rfl
  refine (hrecord.trans ?_).trans (produce_staysMute ..)
  unfold guardHaltsGroup
  split
  · split
    · split
      · exact (oweHalt_staysMute ..).trans (haltSlot_staysMute ..)
      · exact .refl _
    · exact .refl _
  · exact .refl _

theorem leftBy_staysMute (s : State) (h : Segment) (rest : List Segment) (o : SegOutcome) : StaysMute s (s.leftBy h rest o) := by
  have htold : StaysMute s (s.toldDone h rest o) :=
    (StaysMute.of_same (s := s) (t := { s with
      queue := rest
      gd := if s.gd.state = .stopping then { s.gd with state := .stopped, den := .low } else s.gd
      pb := { s.pb with heard := s.pb.heard.filter fun e => rest.any fun x => x.refersTo e.ref } }) rfl rfl rfl).trans
      (produce_staysMute ..)
  cases rest with
  | nil => exact htold.trans (produce_staysMute ..)
  | cons x more => exact htold.trans (.of_same rfl rfl rfl)

theorem finishIfOver_staysMute (s : State) : StaysMute s (finishIfOver s) := by
  unfold finishIfOver
  split
  · cases hq : s.queue with
    | nil => rw [finishHead_nil hq]; exact .refl s
    | cons h rest => rw [finishHead_eq hq]; exact leftBy_staysMute ..
  · exact .refl s

theorem guardLeave_staysMute (c : Cause) (m : Mode) (s : State) : StaysMute s (guardLeave c m s) :=
  ((departure_staysMute c m s).trans (claim_staysMute ..)).trans (finishIfOver_staysMute _)

theorem guardAdd_staysMute (c : Cause) (m : Mode) (s : State) : StaysMute s (guardAdd c m s) := by
  refine StaysMute.trans ?_ (finishIfOver_staysMute _)
  split
  · exact (StaysMute.of_same (s := s) rfl rfl rfl).trans (.of_same (hastenEnding_ss _) (hastenEnding_tif _) (by rw [hastenEnding_pb]))
  · exact .of_same rfl rfl rfl

/-! ### The entry -/

/-- What the Guard does with DUPLICATE_STATION at the entry into SILENT (R154, R160). -/
def duplicateTaken (s : State) : State :=
  if s.ss.node = .run then
    (if s.gd.state = .normal then guardLeave .duplicateStation .abrupt (silence s)
     else guardAdd .duplicateStation .abrupt (silence s))
  else guardNote .duplicateStation (silence s)

theorem enterSilent_eq (s : State) : enterSilent s = driveDen (stopTimer (duplicateTaken s)) := rfl

theorem duplicateTaken_staysMute (s : State) : StaysMute (silence s) (duplicateTaken s) := by
  unfold duplicateTaken
  split
  · split
    · exact guardLeave_staysMute ..
    · exact guardAdd_staysMute ..
  · exact .of_same rfl rfl rfl

theorem duplicateTaken_outside (s : State) : (duplicateTaken s).outside = (silence s).outside := by
  unfold duplicateTaken
  split
  · split
    · exact guardLeave_outside ..
    · exact guardAdd_outside ..
  · rfl

theorem tif_ext {s t : State} (ho : t.outside = s.outside) (hq : t.tif.queue = s.tif.queue) (hh : t.tif.owed = s.tif.owed) :
    t.tif = s.tif := by
  have hcounts : (t.tif.idleCount, t.tif.stuckCount, t.tif.recoveryCount) = (s.tif.idleCount, s.tif.stuckCount, s.tif.recoveryCount) :=
    congrArg Outside.counts ho
  have hwindow : (t.tif.windowA, t.tif.windowB) = (s.tif.windowA, s.tif.windowB) := congrArg Outside.window ho
  obtain ⟨hidle, hmore⟩ := Prod.mk.inj hcounts
  obtain ⟨hstuck, hrecovery⟩ := Prod.mk.inj hmore
  obtain ⟨ha, hb⟩ := Prod.mk.inj hwindow
  have hlink : t.tif.link = s.tif.link := congrArg Outside.link ho
  have htxd : t.tif.txd = s.tif.txd := congrArg Outside.txd ho
  have hbreak : t.tif.breakLeft = s.tif.breakLeft := congrArg Outside.breakLeft ho
  have hreception : t.tif.reception = s.tif.reception := congrArg Outside.reception ho
  have htest : t.tif.mismatchTest = s.tif.mismatchTest := congrArg Outside.mismatchTest ho
  calc t.tif = ⟨t.tif.link, t.tif.txd, t.tif.idleCount, t.tif.stuckCount, t.tif.recoveryCount, t.tif.breakLeft, t.tif.reception,
          t.tif.mismatchTest, t.tif.windowA, t.tif.windowB, t.tif.queue, t.tif.owed⟩ := rfl
    _ = s.tif := by rw [hlink, htxd, hidle, hstuck, hrecovery, hbreak, hreception, htest, ha, hb, hq, hh]

/-- The Guard's part leaves the silenced Trunk Interface (R16). -/
theorem duplicateTaken_tif (s : State) : (duplicateTaken s).tif = (silence s).tif :=
  have hmute := duplicateTaken_staysMute s
  tif_ext (duplicateTaken_outside s) ((hmute.queue rfl rfl).trans rfl) (hmute.owed rfl)

/-- The Guard's part leaves the pulse lines low (R52). -/
theorem duplicateTaken_lines (s : State) : (duplicateTaken s).pg.stepCw = .low ∧ (duplicateTaken s).pg.dirCcw = .low := by
  by_cases hrun : s.ss.node = .run
  · have hkeeps : Keeps (silence s) (duplicateTaken s) := by
      rw [duplicateTaken, if_pos hrun]
      split
      · exact guardLeave_keeps ..
      · next h => exact guardAdd_keeps _ _ h
    have hlow := hkeeps.lines (by simp [State.linesLow, silence])
    have hss : (duplicateTaken s).ss = (silence s).ss := congrArg Outside.ss (duplicateTaken_outside s)
    simpa [State.linesLow, hss, silence] using hlow
  · rw [duplicateTaken, if_neg hrun]
    exact ⟨rfl, rfl⟩

theorem guardAdd_causes (c : Cause) (m : Mode) (s : State) : (guardAdd c m s).gd.causes = s.gd.causes ||| c.bit := by
  obtain ⟨-, hcauses, -⟩ := finishIfOver_record (if m = .abrupt then hastenEnding { s with gd := { s.gd with
    causes := s.gd.causes ||| c.bit, stopMode := some .abrupt } } else { s with gd := { s.gd with causes := s.gd.causes ||| c.bit } })
  refine hcauses.trans ?_
  split
  · rw [hastenEnding_gd]
  · rfl

/-- DUPLICATE_STATION is held from then on (R154, R160). -/
theorem duplicateTaken_cause (s : State) : hasCause (duplicateTaken s).gd.causes .duplicateStation = true := by
  unfold duplicateTaken
  split
  · split
    · have ⟨_, hcauses, _⟩ := guardLeave_record .duplicateStation .abrupt (silence s)
      rw [hcauses, hasCause_bit]
      rfl
    · rw [guardAdd_causes, hasCause_or, hasCause_bit]
      exact Bool.or_true _
  · show hasCause (_ ||| _) _ = true
    rw [hasCause_or, hasCause_bit]
    exact Bool.or_true _

/-! ### The notices of the departure -/

/-- The notices of a departure rest on the setup, the slots, the segments, the command counter, the notices and the
transmit queue (R94, R151). -/
theorem tellsOfDeparture_outgoing_congr {s t : State} (hs : t.ss = s.ss) (hr : t.ru = s.ru) (hq : t.queue = s.queue)
    (hp : t.pb.command = s.pb.command) (ho : t.outgoing = s.outgoing) (c : Cause) (m : Mode) :
    (t.tellsOfDeparture c m).outgoing = (s.tellsOfDeparture c m).outgoing := by
  have hown : t.own = s.own := by rw [State.own, hs, State.own]
  have hslot (k : Fin 8) := tellsOfHalt_outgoing_congr hs hr ho k c s.own
  unfold State.tellsOfDeparture
  rw [hq]
  split
  · exact tellsOfFault_outgoing_congr hs ho hp ..
  · dsimp only
    split
    · exact tellsOfFault_outgoing_congr hs ho hp ..
    · rw [hown]
      split
      · exact tellsOfFault_outgoing_congr (by simp [hs]) (hslot _) (by simp [hp]) ..
      · exact tellsOfFault_outgoing_congr hs ho hp ..

/-- The end of a head after a departure, told in SILENT (R75, R160). -/
theorem tellsOfEnd_nb_congr {s t : State} (hs : t.ss = s.ss) (ho : t.outgoing = s.outgoing) (hp : t.pb.command = s.pb.command)
    (hr : t.pg.remaining = s.pg.remaining) (h : Segment) (o : SegOutcome) (rest : List Segment) :
    (t.tellsOfEnd h o rest).nb = (s.tellsOfEnd h o rest).nb :=
  congrArg Prod.fst (tellsOfEnd_outgoing_congr hs ho hp hr h o rest)

/-- The guard that has stopped keeps its record when a head leaves (R152). -/
theorem finishIfOver_gd_of_stopped {s : State} (hg : s.gd.state = .stopped) : (finishIfOver s).gd = s.gd := by
  have hno : ¬ s.gd.state = .stopping := by rw [hg]; nofun
  unfold finishIfOver
  split
  · cases hq : s.queue with
    | nil => rw [finishHead_nil hq]
    | cons h rest => rw [finishHead_eq hq, leftBy_gd, if_neg hno]
  · rfl

theorem guardAdd_ru (c : Cause) (m : Mode) (s : State) : (guardAdd c m s).ru = s.ru := by
  refine (finishIfOver_ru _).trans ?_
  split
  · rw [hastenEnding_ru]
  · rfl

/-- A STOPPED guard with a later cause that comes with ABRUPT (R153). -/
theorem guardAdd_gd_of_stopped {s : State} (hg : s.gd.state = .stopped) (c : Cause) :
    (guardAdd c .abrupt s).gd = s.gd.joinedBy c .abrupt := by
  have hhasten : (hastenEnding { s with gd := s.gd.joinedBy c .abrupt }).gd = s.gd.joinedBy c .abrupt := hastenEnding_gd _
  refine (finishIfOver_gd_of_stopped ?_).trans hhasten
  exact (congrArg Gd.state hhasten).trans hg

/-- A STOPPING guard stops with the ENDING head that a cause with ABRUPT ends (R152, R153). -/
theorem guardAdd_gd_of_ending {s : State} {h : Segment} {rest : List Segment} {o : SegOutcome} {m' : Mode} (hq : s.queue = h :: rest)
    (hs : h.state = .ending o m') (hg : s.gd.state = .stopping) {c : Cause} :
    (guardAdd c .abrupt s).gd = { s.gd.joinedBy c .abrupt with state := .stopped, den := .low } := by
  rw [guardAdd_of_ending hq hs]
  exact leftBy_gd_of_stopping hg

/-- A departure with ABRUPT leaves the guard STOPPED (R151, R152). -/
theorem guardLeave_stopped (c : Cause) (s : State) : (guardLeave c .abrupt s).gd.state = .stopped := by
  by_cases hv : s.headMoving = true
  · obtain ⟨h, hh, hm⟩ := (Option.any_eq_true ..).1 hv
    obtain ⟨rest, hq⟩ := List.head?_eq_some_iff.1 hh
    have ⟨hstate, _⟩ := guardLeave_abrupt hq hm c
    exact hstate
  · have ⟨hstate, _⟩ := guardLeave_not_moving (Bool.eq_false_of_not_eq_true hv) c .abrupt
    exact hstate

theorem not_ending_of_not_moving {s : State} (hv : s.headMoving = false) : s.headEnding = false := by
  refine Bool.eq_false_iff.2 fun he => ?_
  obtain ⟨h, rest, o, m, hq, hs⟩ := headEnding_iff.1 he
  rw [headMoving_of_queue hq, hs] at hv
  cases hv

/-- What the end of the entry leaves of the Guard's part (R16, R104). -/
theorem enterSilent_parts {s d : State} (hd : duplicateTaken s = d) :
    (enterSilent s).queue = d.queue ∧ (enterSilent s).pg = d.pg ∧ (enterSilent s).pb = d.pb
      ∧ (enterSilent s).ru.slots = d.ru.slots ∧ (enterSilent s).nb = d.nb := by
  subst hd
  exact ⟨rfl, rfl, rfl, rfl, rfl⟩

theorem enterSilent_gd (s : State) : (enterSilent s).gd = { (duplicateTaken s).gd with den := .low } := by
  have hss : (duplicateTaken s).ss = (silence s).ss := congrArg Outside.ss (duplicateTaken_outside s)
  refine congrArg (fun level => { (duplicateTaken s).gd with den := level }) (if_neg fun hrun => ?_)
  have hsilent : (duplicateTaken s).ss.node = .silent := by rw [hss]; rfl
  exact absurd (hsilent.symm.trans hrun.1) nofun

/-- Settles O12: what every entry does, then the Guard's part by the guard state and the head. -/
theorem mismatchTestEndEntersSilent : Obligations.MismatchTestEndEntersSilent := by
  intro levels s hl htest hlevels
  have hout : (duplicateTaken s).outside = (silence s).outside := duplicateTaken_outside s
  have hss : (duplicateTaken s).ss = (silence s).ss := congrArg Outside.ss hout
  have htif := duplicateTaken_tif s
  have hunits := (duplicateTaken_staysMute s).units
  have hexec : exec (.mismatchTestEnd levels) s = .next (enterSilent s) := by
    refine congrArg Host.Outcome.next ((if_pos ⟨hl, htest⟩).trans (if_neg fun hall => ?_))
    obtain ⟨b, hb, hr⟩ := List.any_eq_true.1 hlevels
    have hd := List.all_eq_true.1 hall b hb
    rw [beq_iff_eq.1 hr] at hd
    cases hd
  obtain ⟨hstep, hdir⟩ := duplicateTaken_lines s
  refine ⟨_, hexec, hss, htif, congrArg (fun o : Outside => o.fh.slots) hout, fun u => ?_, congrArg Outside.command hout,
    congrArg Outside.feedback hout, congrArg Outside.decoder hout, rfl, ?_, hstep, hdir, duplicateTaken_cause s,
    congrArg Outside.pins hout, congrArg Outside.pending hout, fun hn => ?_, fun hn => ?_⟩
  · show (duplicateTaken s).pb.units[u] = _
    simp [hunits, silence]
  · rw [enterSilent_gd]
  · have hd : duplicateTaken s = guardNote .duplicateStation (silence s) := if_neg (by rw [hn]; nofun)
    rw [enterSilent_eq, hd]
    exact ⟨rfl, rfl, rfl, rfl, rfl, rfl⟩
  · intro quiet gone stays
    have hquiet : (silence s).outgoing = quiet.outgoing := Prod.ext rfl (congrArg Tif.queue htif).symm
    refine ⟨fun hg => ?_, fun hg => ?_⟩
    · intro told
      have hd : duplicateTaken s = guardLeave .duplicateStation .abrupt (silence s) := (if_pos hn).trans (if_pos hg)
      have htold : ((silence s).tellsOfDeparture .duplicateStation .abrupt).outgoing = told.outgoing :=
        tellsOfDeparture_outgoing_congr (s := quiet) hss.symm rfl rfl rfl hquiet ..
      have hend (h : Segment) (o : SegOutcome) (rest : List Segment) :
          (((silence s).tellsOfDeparture .duplicateStation .abrupt).tellsOfEnd h o rest).nb = (told.tellsOfEnd h o rest).nb := by
        obtain ⟨hs1, hp1, hr1⟩ := tellsOfDeparture_frame .duplicateStation .abrupt (silence s)
        obtain ⟨hs2, hp2, hr2⟩ := tellsOfDeparture_frame .duplicateStation .abrupt quiet
        refine tellsOfEnd_nb_congr (hs1.trans (hss.symm.trans hs2.symm)) htold ?_ ?_ ..
        · rw [hp1, hp2]
          rfl
        · rw [hr1, hr2]
          rfl
      obtain ⟨hqueue, hpg, hpb, hslots, hnb⟩ := enterSilent_parts hd
      obtain ⟨hfirst, hcauses, hmode, horiginator⟩ := guardLeave_record .duplicateStation .abrupt (silence s)
      have hstays {q : List Segment} (hv : s.headMoving = false) (hq : (guardLeave .duplicateStation .abrupt (silence s)).queue = q) :
          stays q ∧ (enterSilent s).nb = told.nb := by
        obtain ⟨-, -, hpg', hpb', hn'⟩ := guardLeave_not_moving (s := silence s) hv .duplicateStation .abrupt
        refine ⟨⟨hqueue.trans hq, hpg.trans hpg', ?_⟩, ?_⟩
        · exact (congrArg Pb.heard (hpb.trans hpb')).trans rfl
        · exact hnb.trans ((congrArg Prod.fst hn').trans (congrArg Prod.fst htold))
      have hgone {h : Segment} {rest : List Segment} (hq : s.queue = h :: rest) (hv : h.state.isMoving = true) : gone rest := by
        obtain ⟨-, -, hpg', hqueue', hpb'⟩ := guardLeave_abrupt (s := silence s) hq hv .duplicateStation
        refine ⟨hqueue.trans hqueue', hpg.trans hpg', ?_⟩
        exact (congrArg Pb.heard (hpb.trans hpb')).trans rfl
      have hwaits (hw : s.queue.head?.all (fun h => h.state == .waiting || h.state == .queued) = true) :
          stays s.queue ∧ (enterSilent s).ru.slots = s.ru.slots ∧ (enterSilent s).nb = told.nb := by
        obtain ⟨hq, hru, -⟩ := guardLeave_waits (s := silence s) hw .duplicateStation .abrupt
        obtain ⟨hs, hn'⟩ := hstays (not_moving_of_waits hw) hq
        exact ⟨hs, hslots.trans (congrArg Ru.slots hru), hn'⟩
      refine ⟨?_, fun hq => ?_, fun h rest hq => ⟨fun hs => ?_, fun o m hs => ?_, fun hs hok => ?_, fun hs hk => ?_,
        fun k g hs hk hgroup hh => ?_⟩⟩
      · have hstopped := guardLeave_stopped .duplicateStation (silence s)
        rw [enterSilent_gd, hd]
        dsimp only
        rw [hstopped, hfirst, hcauses, hmode, horiginator]
        rfl
      · have ⟨hs, hslots', hn'⟩ := hwaits (by rw [hq]; rfl)
        exact ⟨by rwa [hq] at hs, hslots', hn'⟩
      · refine hwaits ?_
        rw [hq]
        obtain hs | hs := hs <;> simp [hs]
      · obtain ⟨hru, -, hout'⟩ := guardLeave_abrupt_ending (s := silence s) hq hs .duplicateStation
        refine ⟨hgone hq (by rw [hs]; rfl), hslots.trans (congrArg Ru.slots hru), ?_⟩
        exact hnb.trans ((congrArg Prod.fst hout').trans (hend h o rest))
      · obtain ⟨-, -, -, -, -, hout'⟩ := guardLeave_running_atOnce (s := silence s) (m := .abrupt) hq hs hok .duplicateStation rfl
        refine ⟨hgone hq (by rw [hs]; rfl), ?_⟩
        exact hnb.trans ((congrArg Prod.fst hout').trans (hend h .faulted rest))
      · obtain ⟨-, -, hru, -⟩ := departure_stays (not_departsWithSlot_of_no_slot (s := silence s) hq hk) .duplicateStation .abrupt
        have ⟨hru', _⟩ := guardLeave_slots .duplicateStation .abrupt (silence s)
        exact hslots.trans (congrArg Ru.slots (hru'.trans hru))
      · obtain ⟨hru, -, hann⟩ := departure_of_live (s := silence s) hq hk hs hgroup hh .duplicateStation .abrupt
        have ⟨hru', _⟩ := guardLeave_slots .duplicateStation .abrupt (silence s)
        refine ⟨hslots.trans (congrArg Ru.slots (hru'.trans hru)), fun ha => ?_⟩
        have hv : s.headMoving = false := (headMoving_of_queue hq).trans (not_moving_of_announce ha)
        obtain ⟨hq', -⟩ := hann ha
        refine hstays hv ?_
        rw [guardLeave_of_not_moving (departure_not_moving (s := silence s) hv ..).1]
        exact hq'
    · have hd : duplicateTaken s = guardAdd .duplicateStation .abrupt (silence s) := (if_pos hn).trans (if_neg hg)
      obtain ⟨hqueue, hpg, hpb, hslots, hnb⟩ := enterSilent_parts hd
      have hending {h : Segment} {rest : List Segment} {o : SegOutcome} {m : Mode} (hq : s.queue = h :: rest)
          (hs : h.state = .ending o m) := guardAdd_of_ending (s := silence s) (c := .duplicateStation) hq hs
      refine ⟨hslots.trans (congrArg Ru.slots (guardAdd_ru ..)), fun hg' => ?_, fun h rest o m hq hs => ?_, fun hv => ?_⟩
      · have hgd : (guardAdd .duplicateStation .abrupt (silence s)).gd
            = { (silence s).gd.joinedBy .duplicateStation .abrupt with
              state := .stopped, den := (guardAdd .duplicateStation .abrupt (silence s)).gd.den } := by
          by_cases hstopped : s.gd.state = .stopped
          · rw [guardAdd_gd_of_stopped (s := silence s) hstopped, ← hstopped]
            rfl
          · obtain ⟨h, rest, o, m, hq, hs⟩ := headEnding_iff.1 (hg'.resolve_left hstopped)
            have hstopping : s.gd.state = .stopping := by
              cases hst : s.gd.state with
              | normal => exact absurd hst hg
              | stopping => rfl
              | stopped => exact absurd hst hstopped
            rw [guardAdd_gd_of_ending (s := silence s) hq hs hstopping]
        rw [enterSilent_gd, hd, hgd]
        rfl
      · rw [hending hq hs] at hqueue hpg hpb hnb
        rw [leftBy_queue] at hqueue
        rw [leftBy_pg] at hpg
        rw [leftBy_pb] at hpb
        refine ⟨⟨hqueue, hpg, (congrArg Pb.heard hpb).trans rfl⟩, hnb.trans ?_⟩
        refine (congrArg Prod.fst (leftBy_outgoing ..)).trans ((congrArg Prod.fst (tellsOfEnd_rested ..)).trans ?_)
        exact tellsOfEnd_nb_congr (s := quiet) hss.symm hquiet rfl rfl ..
      · have hover : (silence s).nothingOver = true := nothingOver_iff.2 (headOver_of_not_moving (s := silence s) hv)
        rw [guardAdd_of_stays hover (.inr (not_ending_of_not_moving (s := silence s) hv))] at hqueue hpg hpb hnb
        exact ⟨⟨hqueue, hpg, (congrArg Pb.heard hpb).trans rfl⟩, hnb⟩

end Sys2Proof.Machine
end

