-- ==== Sys2Proof/Proofs/HaltAllSlots.lean ====
section
/-! PROOFS. HALT(ALL): every live slot in ascending order, an ungrouped head, then the Guard's latch (R97, R162). -/

namespace Sys2Proof.Machine
open scoped Host.Outcome

/-! ### One slot of HALT(ALL) -/

section
variable {s t : State} {j k : Fin 8} {g : Group} {h : Segment} {rest : List Segment} {c : Cause} {o : StationId} {m : Mode}

/-- The halt of a slot leaves a head of another slot, or of none (R92). -/
theorem haltSlot_of_other (hj : s.headOfSlot? j = none) (c : Cause) (o : StationId) (m : Mode) (b : Bool) :
    (haltSlot j c o m b s).queue = s.queue ∧ (haltSlot j c o m b s).pg = s.pg
      ∧ (haltSlot j c o m b s).outgoing = (s.tellsOfHalt j c o).outgoing := by
  cases hg : s.group? j with
  | none =>
    rw [haltSlot_of_empty hg, State.tellsOfHalt, hg]
    exact ⟨rfl, rfl, rfl⟩
  | some g =>
    rw [State.tellsOfHalt, hg]
    dsimp only
    cases hh : s.slotHalted j with
    | true =>
      rw [haltSlot_of_halted hg hh, hj]
      exact ⟨rfl, rfl, rfl⟩
    | false =>
      rw [haltSlot_told hg hh, haltHead_of_none ((haltTold_headOfSlot ..).trans hj)]
      exact ⟨haltTold_queue .., haltTold_pg .., haltTold_outgoing ..⟩

/-- A claim changes the segments and the generator by the segments and the generator alone (R60). -/
theorem claim_parts_congr (hq : t.queue = s.queue) (hp : t.pg = s.pg) (o : SegOutcome) (m : Mode) :
    (claim o m t).queue = (claim o m s).queue ∧ (claim o m t).pg = (claim o m s).pg := by
  by_cases hv : s.headMoving = true
  · obtain ⟨h, hh, hm⟩ := (Option.any_eq_true ..).1 hv
    obtain ⟨rest, hqs⟩ := List.head?_eq_some_iff.1 hh
    cases hs : h.state with
    | running =>
      rw [claim_running (hq.trans hqs) hs, claim_running hqs hs, hp]
      exact ⟨rfl, rfl⟩
    | ending o' m' =>
      obtain ⟨h1, h2⟩ := claim_ending_result (hq.trans hqs) hs o m
      obtain ⟨h3, h4⟩ := claim_ending_result hqs hs o m
      rw [h1, h2, h3, h4, hp]
      exact ⟨rfl, rfl⟩
    | _ => rw [hs] at hm; cases hm
  · have hv := Bool.eq_false_of_not_eq_true hv
    have hv' : t.headMoving = false := by
      rw [State.headMoving, State.head?, hq]
      exact hv
    rw [claim_of_not_moving hv, claim_of_not_moving hv']
    exact ⟨hq, hp⟩

/-- The halt of a slot whose head moves is the claim on the head (R92). -/
theorem haltSlot_of_moving (hg : s.group? k = some g) (hq : s.queue = h :: rest) (hk : h.slot = some k)
    (hv : h.state.isMoving = true) (c : Cause) (o : StationId) (m : Mode) :
    (haltSlot k c o m false s).queue = (claim .halted m s).queue ∧ (haltSlot k c o m false s).pg = (claim .halted m s).pg
      ∧ (haltSlot k c o m false s).outgoing = (s.tellsOfHalt k c o).outgoing := by
  have hhead := headOfSlot_of_queue hq hk
  rw [State.tellsOfHalt, hg]
  dsimp only
  cases hh : s.slotHalted k with
  | true =>
    rw [haltSlot_of_halted hg hh, hhead, if_pos (by rw [Option.any_some, hv])]
    exact ⟨rfl, rfl, by rw [State.outgoing, claim_nb, claim_tif]; rfl⟩
  | false =>
    have hclaim : haltHead k m false (s.haltTold k g c o) = claim .halted m (s.haltTold k g c o) := by
      cases hs : h.state with
      | running => exact haltHead_of_running ((haltTold_headOfSlot ..).trans hhead) hs m false
      | ending o' m' => exact haltHead_of_ending ((haltTold_headOfSlot ..).trans hhead) hs m false
      | _ => rw [hs] at hv; cases hv
    obtain ⟨hqueue, hpg⟩ := claim_parts_congr (haltTold_queue s k g c o) (haltTold_pg s k g c o) .halted m
    rw [haltSlot_told hg hh, hclaim, State.outgoing, claim_nb, claim_tif]
    exact ⟨hqueue, hpg, haltTold_outgoing ..⟩

/-- The halt of a slot whose head waits leaves the head (R92). -/
theorem haltSlot_of_waits (hq : s.queue = h :: rest) (hs : h.state = .waiting ∨ h.state = .queued) (j : Fin 8)
    (c : Cause) (o : StationId) (m : Mode) (b : Bool) :
    (haltSlot j c o m b s).queue = s.queue ∧ (haltSlot j c o m b s).pg = s.pg
      ∧ (haltSlot j c o m b s).outgoing = (s.tellsOfHalt j c o).outgoing := by
  by_cases hk : h.slot = some j
  · have hhead := headOfSlot_of_queue hq hk
    cases hg : s.group? j with
    | none =>
      rw [haltSlot_of_empty hg, State.tellsOfHalt, hg]
      exact ⟨rfl, rfl, rfl⟩
    | some g =>
      rw [State.tellsOfHalt, hg]
      dsimp only
      cases hh : s.slotHalted j with
      | true =>
        have hidle : h.state.isMoving = false := by obtain hs | hs := hs <;> rw [hs] <;> rfl
        rw [haltSlot_of_halted hg hh, hhead, if_neg (by rw [Option.any_some, hidle]; exact Bool.false_ne_true)]
        exact ⟨rfl, rfl, rfl⟩
      | false =>
        rw [haltSlot_told hg hh, haltHead_of_waits ((haltTold_headOfSlot ..).trans hhead) hs]
        exact ⟨haltTold_queue .., haltTold_pg .., haltTold_outgoing ..⟩
  · exact haltSlot_of_other (by simp [State.headOfSlot?, hq, hk]) ..

end

/-! ### The slots of a list -/

/-- The slots of a list halted in its order (R97). -/
def haltSlots (l : List (Fin 8)) (c : Cause) (o : StationId) (m : Mode) (s : State) : State :=
  l.foldl (fun s k => haltSlot k c o m false s) s

/-- The HALT notices of the slots of a list, in its order (R97). -/
def State.tellsOfHalts (s : State) (l : List (Fin 8)) (c : Cause) (o : StationId) : State :=
  l.foldl (fun u k => u.tellsOfHalt k c o) s

/-- A live slot under a halt: HALTED with the cause and the originator, unless it is HALTED already (R92). -/
def Group.haltedBy (g : Group) (c : Cause) (o : StationId) : Group :=
  match g.state with
  | .halted _ _ => g
  | _ => { g with state := .halted c o, ready := 0 }

theorem Group.haltedBy_haltedBy (g : Group) (c : Cause) (o : StationId) : (g.haltedBy c o).haltedBy c o = g.haltedBy c o := by
  cases hs : g.state <;> simp [Group.haltedBy, hs]

theorem haltedBy_eq {s : State} {k : Fin 8} {g : Group} (hg : s.group? k = some g) (c : Cause) (o : StationId) :
    g.haltedBy c o = if s.slotHalted k then g else { g with state := .halted c o, ready := 0 } := by
  rw [State.slotHalted, hg, Option.any_some, Group.haltedBy]
  cases g.state <;> rfl

section
variable {s t : State} {j k : Fin 8} {g : Group} {h : Segment} {rest : List Segment} {c : Cause} {o : StationId} {m : Mode}
  {l : List (Fin 8)}

theorem haltSlots_cons (k : Fin 8) (l : List (Fin 8)) (c : Cause) (o : StationId) (m : Mode) (s : State) :
    haltSlots (k :: l) c o m s = haltSlots l c o m (haltSlot k c o m false s) := rfl

theorem haltSlot_group (j k : Fin 8) (c : Cause) (o : StationId) (m : Mode) (b : Bool) (s : State) :
    (haltSlot j c o m b s).group? k = if k = j then (s.group? k).map fun g => g.haltedBy c o else s.group? k := by
  by_cases h : k = j
  · subst h
    rw [if_pos rfl]
    cases hg : s.group? k with
    | none => rw [haltSlot_of_empty hg, hg]; rfl
    | some g =>
      rw [Option.map_some, haltedBy_eq hg, group_eq_some, haltSlot_ru hg]
      split
      · exact group_eq_some.1 hg
      · exact halting_slot ..
  · rw [if_neg h, State.group?, haltSlot_slots_other _ _ _ _ h, State.group?]

theorem haltSlots_group (l : List (Fin 8)) (k : Fin 8) (c : Cause) (o : StationId) (m : Mode) (s : State) :
    (haltSlots l c o m s).group? k = if k ∈ l then (s.group? k).map fun g => g.haltedBy c o else s.group? k := by
  induction l generalizing s with
  | nil => exact (if_neg (by simp)).symm
  | cons j l ih =>
    rw [haltSlots_cons, ih, haltSlot_group]
    by_cases hj : k = j
    · subst hj
      by_cases hl : k ∈ l <;> simp [hl, Function.comp_def, Group.haltedBy_haltedBy]
    · simp [hj]

theorem haltSlots_empty_stands (l : List (Fin 8)) (hk : s.group? k = none) :
    (haltSlots l c o m s).ru.slots[k] = s.ru.slots[k] := by
  induction l generalizing s with
  | nil => rfl
  | cons j l ih =>
    have hsame : (haltSlot j c o m false s).ru.slots[k] = s.ru.slots[k] := by
      by_cases h : k = j
      · rw [haltSlot_of_empty (h ▸ hk)]
      · exact haltSlot_slots_other _ _ _ _ h s
    exact (ih (by rw [haltSlot_group, hk]; split <;> rfl)).trans hsame

theorem haltSlot_timer (k : Fin 8) (c : Cause) (o : StationId) (m : Mode) (b : Bool) (s : State) :
    (haltSlot k c o m b s).ru.timer = if s.armedAt k then none else s.ru.timer := by
  unfold State.armedAt
  cases hg : s.group? k with
  | none => rw [haltSlot_of_empty hg]; rfl
  | some g =>
    rw [haltSlot_ru hg, Option.any_some, State.slotHalted, hg, Option.any_some]
    cases hs : g.state <;> simp [Ru.halting, hs]

theorem haltSlot_armedAt (j k : Fin 8) (c : Cause) (o : StationId) (m : Mode) (b : Bool) (s : State) :
    (haltSlot j c o m b s).armedAt k = (decide (k ≠ j) && s.armedAt k) := by
  rw [State.armedAt, haltSlot_group, State.armedAt]
  by_cases h : k = j
  · rw [if_pos h]
    cases s.group? k with
    | none => simp
    | some g => cases hs : g.state <;> simp [h, Group.haltedBy, hs]
  · rw [if_neg h]
    simp [h]

theorem haltSlots_timer (l : List (Fin 8)) (c : Cause) (o : StationId) (m : Mode) (s : State) :
    (haltSlots l c o m s).ru.timer = if l.any s.armedAt then none else s.ru.timer := by
  induction l generalizing s with
  | nil => rfl
  | cons j l ih =>
    rw [haltSlots_cons, ih, haltSlot_timer, List.any_cons]
    cases hj : s.armedAt j with
    | true => simp
    | false =>
      have hsame : (haltSlot j c o m false s).armedAt = s.armedAt := by
        funext k
        rw [haltSlot_armedAt]
        by_cases h : k = j
        · rw [h, hj, Bool.and_false]
        · simp [h]
      rw [hsame]
      rfl

/-- What HALT(ALL) leaves alone (R97). -/
theorem haltSlots_frame (l : List (Fin 8)) (c : Cause) (o : StationId) (m : Mode) (s : State) :
    (haltSlots l c o m s).outside = s.outside ∧ (haltSlots l c o m s).ss = s.ss ∧ (haltSlots l c o m s).pb = s.pb
      ∧ (haltSlots l c o m s).gd = s.gd ∧ (haltSlots l c o m s).tif.owed = s.tif.owed := by
  induction l generalizing s with
  | nil => exact ⟨rfl, rfl, rfl, rfl, rfl⟩
  | cons k l ih =>
    obtain ⟨hout, hss, hpb, hgd, howed⟩ := ih (haltSlot k c o m false s)
    exact ⟨hout.trans (haltSlot_outside ..), hss.trans (haltSlot_ss ..), hpb.trans (haltSlot_pb ..), hgd.trans (haltSlot_gd ..),
      howed.trans (haltSlot_owed ..)⟩

/-! ### The notices of HALT(ALL) -/

@[simp] theorem tellsOfHalt_ru (s : State) (k : Fin 8) (c : Cause) (o : StationId) : (s.tellsOfHalt k c o).ru = s.ru := by
  unfold State.tellsOfHalt
  split
  · rfl
  · split
    · rfl
    · exact produce_ru ..

theorem tellsOfHalt_congr (hs : t.ss = s.ss) (hg : t.group? k = s.group? k) (c : Cause) (o : StationId) :
    (t.outgoing = s.outgoing → (t.tellsOfHalt k c o).outgoing = (s.tellsOfHalt k c o).outgoing)
      ∧ (t.notices = s.notices → (t.tellsOfHalt k c o).notices = (s.tellsOfHalt k c o).notices) := by
  have hh : t.slotHalted k = s.slotHalted k := by rw [State.slotHalted, hg, State.slotHalted]
  simp only [State.tellsOfHalt, hg, hh]
  split
  · exact ⟨id, id⟩
  · split
    · exact ⟨id, id⟩
    · exact ⟨fun ho => produce_outgoing_congr hs ho .., fun hn => produce_notices_congr ⟨hs, hn⟩ ..⟩

/-- Slots whose halt leaves the head are halted one by one, and their notices go as the state before them produces them
(R97). -/
theorem haltSlots_leave (hl : l.Nodup) (q : List Segment)
    (hstep : ∀ u : State, u.queue = q → ∀ j ∈ l, (haltSlot j c o m false u).queue = u.queue
      ∧ (haltSlot j c o m false u).pg = u.pg ∧ (haltSlot j c o m false u).outgoing = (u.tellsOfHalt j c o).outgoing)
    (hq : s.queue = q) (hs : s.ss = t.ss) (hg : ∀ j ∈ l, s.group? j = t.group? j) :
    (haltSlots l c o m s).queue = q ∧ (haltSlots l c o m s).pg = s.pg
      ∧ (s.outgoing = t.outgoing → (haltSlots l c o m s).outgoing = (t.tellsOfHalts l c o).outgoing)
      ∧ (s.notices = t.notices → (haltSlots l c o m s).notices = (t.tellsOfHalts l c o).notices) := by
  induction l generalizing s t with
  | nil => exact ⟨hq, rfl, id, id⟩
  | cons j l ih =>
    obtain ⟨hnew, hl⟩ := List.nodup_cons.1 hl
    obtain ⟨hqueue, hpg, hout⟩ := hstep s hq j List.mem_cons_self
    obtain ⟨ho, hn⟩ := tellsOfHalt_congr hs (hg j List.mem_cons_self) c o
    obtain ⟨hqueue', hpg', hout', hnotices'⟩ := ih (s := haltSlot j c o m false s) (t := t.tellsOfHalt j c o) hl
      (fun u hu k hk => hstep u hu k (List.mem_cons_of_mem _ hk)) (hqueue.trans hq) (by simp [hs]) fun k hk => by
        have hne : k ≠ j := fun h => hnew (h ▸ hk)
        rw [haltSlot_group, if_neg hne, hg k (List.mem_cons_of_mem _ hk)]
        exact (group_congr (by rw [tellsOfHalt_ru]) k).symm
    exact ⟨hqueue', hpg'.trans hpg, fun h => hout' (hout.trans (ho h)),
      fun h => hnotices' ((notices_of_outgoing hout).trans (hn h))⟩

end

/-! ### All slots, and the head -/

section
variable {s t x : State} {k : Fin 8} {g : Group} {h : Segment} {rest : List Segment} {c : Cause} {o : StationId} {m : Mode}

theorem produce_readyWithdrawn (hr : s.readyWithdrawn) (n : NoticeType) (b : List Byte) : (produce n b s).readyWithdrawn := by
  intro e he hready
  obtain hn | he := mem_produce he
  · rw [isReady_of_isNotice hn] at hready
    cases hready
  · exact hr e he hready

theorem haltSlot_readyWithdrawn (hr : s.readyWithdrawn) (k : Fin 8) (c : Cause) (o : StationId) (m : Mode) (b : Bool) :
    (haltSlot k c o m b s).readyWithdrawn := by
  have hclaim {u : State} (hu : u.readyWithdrawn) : (claim .halted m u).readyWithdrawn := by
    rw [State.readyWithdrawn, claim_tif]
    exact hu
  cases hg : s.group? k with
  | none => rwa [haltSlot_of_empty hg]
  | some g =>
    cases hh : s.slotHalted k with
    | true =>
      rw [haltSlot_of_halted hg hh]
      split
      · exact hclaim hr
      · exact hr
    | false =>
      have htold : (s.haltTold k g c o).readyWithdrawn := produce_readyWithdrawn (s := { s with ru := s.ru.halting k g c o }) hr _ _
      have hreturn : (returnHead k (s.haltTold k g c o)).readyWithdrawn := by
        unfold returnHead
        split
        · split
          · exact withdrawReady_readyWithdrawn _
          · exact htold
        · exact htold
      rw [haltSlot_told hg hh]
      obtain heq | heq := haltHead_eq k m b (s.haltTold k g c o) <;> rw [heq]
      · exact hreturn
      · exact hclaim hreturn

theorem haltSlots_readyWithdrawn (hr : s.readyWithdrawn) (l : List (Fin 8)) : (haltSlots l c o m s).readyWithdrawn := by
  induction l generalizing s with
  | nil => exact hr
  | cons k l ih => exact ih (haltSlot_readyWithdrawn hr _ _ _ _ _)

@[simp] theorem tellsOfHalt_gd (s : State) (k : Fin 8) (c : Cause) (o : StationId) : (s.tellsOfHalt k c o).gd = s.gd := by
  unfold State.tellsOfHalt
  split
  · rfl
  · split
    · rfl
    · exact produce_gd ..

@[simp] theorem tellsOfHalts_ss (s : State) (l : List (Fin 8)) (c : Cause) (o : StationId) : (s.tellsOfHalts l c o).ss = s.ss := by
  induction l generalizing s with
  | nil => rfl
  | cons k l ih => exact (ih _).trans (tellsOfHalt_ss ..)

@[simp] theorem tellsOfHalts_gd (s : State) (l : List (Fin 8)) (c : Cause) (o : StationId) : (s.tellsOfHalts l c o).gd = s.gd := by
  induction l generalizing s with
  | nil => rfl
  | cons k l ih => exact (ih _).trans (tellsOfHalt_gd ..)

@[simp] theorem tellsOfHalts_pb (s : State) (l : List (Fin 8)) (c : Cause) (o : StationId) : (s.tellsOfHalts l c o).pb = s.pb := by
  induction l generalizing s with
  | nil => rfl
  | cons k l ih => exact (ih _).trans (tellsOfHalt_pb ..)

@[simp] theorem tellsOfHalts_pg (s : State) (l : List (Fin 8)) (c : Cause) (o : StationId) : (s.tellsOfHalts l c o).pg = s.pg := by
  induction l generalizing s with
  | nil => rfl
  | cons k l ih => exact (ih _).trans (tellsOfHalt_pg ..)

@[simp] theorem tellsOfHalts_ru (s : State) (l : List (Fin 8)) (c : Cause) (o : StationId) : (s.tellsOfHalts l c o).ru = s.ru := by
  induction l generalizing s with
  | nil => rfl
  | cons k l ih => exact (ih _).trans (tellsOfHalt_ru ..)

/-- The slots before that of the head, which leave it, then its own slot, then the others, which leave what has become of
it (R97). -/
theorem haltSlots_of_head (hq : x.queue = h :: rest) (hk : h.slot = some k) (c : Cause) (o : StationId) (m : Mode) :
    ∃ u y : State, u.queue = x.queue ∧ u.pg = x.pg ∧ u.group? k = x.group? k ∧ u.outgoing = y.outgoing ∧ u.ss = y.ss
      ∧ y.group? k = x.group? k
      ∧ ∀ h', (haltSlot k c o m false u).queue = h' :: rest → h'.slot = some k →
        (haltSlots allSlots c o m x).queue = h' :: rest
        ∧ (haltSlots allSlots c o m x).pg = (haltSlot k c o m false u).pg
        ∧ ((haltSlot k c o m false u).readyWithdrawn → (haltSlots allSlots c o m x).readyWithdrawn)
        ∧ ((haltSlot k c o m false u).outgoing = (y.tellsOfHalt k c o).outgoing →
            (haltSlots allSlots c o m x).outgoing = (x.tellsOfHalts allSlots c o).outgoing)
        ∧ ((haltSlot k c o m false u).notices = (y.tellsOfHalt k c o).notices →
            (haltSlots allSlots c o m x).notices = (x.tellsOfHalts allSlots c o).notices) := by
  obtain ⟨before, after, hall, hbefore⟩ := List.eq_append_cons_of_mem (mem_allSlots k)
  have hnodup : (before ++ k :: after).Nodup := hall ▸ (by decide : allSlots.Nodup)
  obtain ⟨hnb, hna, hdisjoint⟩ := List.nodup_append.1 hnodup
  obtain ⟨hafter, hna⟩ := List.nodup_cons.1 hna
  have hother {q : State} {h' : Segment} (hq' : q.queue = h' :: rest) (hk' : h'.slot = some k) {j : Fin 8} (hj : j ≠ k) :
      q.headOfSlot? j = none := by
    simp [State.headOfSlot?, hq', hk', Ne.symm hj]
  obtain ⟨hqueue, hpg, hout, -⟩ := haltSlots_leave (s := x) (t := x) (c := c) (o := o) (m := m) hnb x.queue
    (fun u hu j hj => haltSlot_of_other (hother (hu.trans hq) hk fun h => hbefore (h ▸ hj)) ..) rfl rfl fun _ _ => rfl
  have hgroup : (haltSlots before c o m x).group? k = x.group? k := by rw [haltSlots_group, if_neg hbefore]
  have ⟨_, hss, _⟩ := haltSlots_frame before c o m x
  refine ⟨haltSlots before c o m x, x.tellsOfHalts before c o, hqueue, hpg, hgroup, hout rfl, hss.trans (tellsOfHalts_ss ..).symm,
    group_congr (by rw [tellsOfHalts_ru]) k, fun h' hq' hk' => ?_⟩
  have hfold : haltSlots allSlots c o m x = haltSlots after c o m (haltSlot k c o m false (haltSlots before c o m x)) := by
    rw [hall, haltSlots, List.foldl_append]
    rfl
  have htells : x.tellsOfHalts allSlots c o = ((x.tellsOfHalts before c o).tellsOfHalt k c o).tellsOfHalts after c o := by
    rw [hall, State.tellsOfHalts, List.foldl_append]
    rfl
  obtain ⟨hqueue', hpg', hout', hnotices'⟩ := haltSlots_leave (s := haltSlot k c o m false (haltSlots before c o m x))
    (t := (x.tellsOfHalts before c o).tellsOfHalt k c o) (c := c) (o := o) (m := m) hna (h' :: rest)
    (fun u hu j hj => haltSlot_of_other (hother hu hk' fun h => hafter (h ▸ hj)) ..) hq' (by simp [hss]) fun j hj => by
      have hne : j ≠ k := fun h => hafter (h ▸ hj)
      have hnb' : j ∉ before := fun h => hdisjoint j h j (List.mem_cons_of_mem _ hj) rfl
      rw [haltSlot_group, if_neg hne, haltSlots_group, if_neg hnb']
      exact (group_congr (by rw [tellsOfHalt_ru, tellsOfHalts_ru]) j).symm
  rw [hfold, htells]
  exact ⟨hqueue', hpg', fun hr => haltSlots_readyWithdrawn hr _, hout', hnotices'⟩

/-- A head that waits, or none, is left as it is by the halts of all slots (R97). -/
theorem haltSlots_of_waits (hw : x.queue.head?.all (fun h => h.state == .waiting || h.state == .queued) = true)
    (c : Cause) (o : StationId) (m : Mode) :
    (haltSlots allSlots c o m x).queue = x.queue ∧ (haltSlots allSlots c o m x).pg = x.pg
      ∧ (haltSlots allSlots c o m x).outgoing = (x.tellsOfHalts allSlots c o).outgoing := by
  have hstep (u : State) (hu : u.queue = x.queue) (j : Fin 8) (_ : j ∈ allSlots) :
      (haltSlot j c o m false u).queue = u.queue ∧ (haltSlot j c o m false u).pg = u.pg
        ∧ (haltSlot j c o m false u).outgoing = (u.tellsOfHalt j c o).outgoing := by
    cases hq : x.queue with
    | nil => exact haltSlot_of_other (by simp [State.headOfSlot?, hu, hq]) ..
    | cons h rest =>
      rw [hq, List.head?_cons, Option.all_some] at hw
      have hwaits : h.state = .waiting ∨ h.state = .queued := by simpa using hw
      exact haltSlot_of_waits (hu.trans hq) hwaits ..
  obtain ⟨hqueue, hpg, hout, -⟩ := haltSlots_leave (s := x) (t := x) (by decide) x.queue hstep rfl rfl fun _ _ => rfl
  exact ⟨hqueue, hpg, hout rfl⟩

/-- The head, grouped or not, under a HALT(ALL), before the Guard's latch (R97, R70). -/
def haltedAll (c : Cause) (o : StationId) (m : Mode) (s : State) : State := haltUngrouped m (haltSlots allSlots c o m s)

theorem haltUngrouped_of_slot (hq : s.queue = h :: rest) (hk : h.slot ≠ none) (m : Mode) : haltUngrouped m s = s := by
  simp only [haltUngrouped, State.head?, hq, List.head?_cons]
  exact if_neg hk

theorem haltUngrouped_of_none (hq : s.queue = h :: rest) (hk : h.slot = none) (m : Mode) : haltUngrouped m s = claim .halted m s := by
  simp only [haltUngrouped, State.head?, hq, List.head?_cons]
  exact if_pos hk

theorem haltUngrouped_cases (m : Mode) (s : State) : haltUngrouped m s = s ∨ haltUngrouped m s = claim .halted m s := by
  unfold haltUngrouped
  split
  · split
    · exact .inr rfl
    · exact .inl rfl
  · exact .inl rfl

/-- What a HALT(ALL) leaves alone, before the Guard's latch (R97). -/
theorem haltedAll_frame (c : Cause) (o : StationId) (m : Mode) (s : State) :
    (haltedAll c o m s).outside = s.outside ∧ (haltedAll c o m s).ss = s.ss ∧ (haltedAll c o m s).pb = s.pb
      ∧ (haltedAll c o m s).gd = s.gd ∧ (haltedAll c o m s).tif = (haltSlots allSlots c o m s).tif
      ∧ (haltedAll c o m s).ru = (haltSlots allSlots c o m s).ru ∧ (haltedAll c o m s).nb = (haltSlots allSlots c o m s).nb := by
  obtain ⟨hout, hss, hpb, hgd, -⟩ := haltSlots_frame allSlots c o m s
  obtain heq | heq := haltUngrouped_cases m (haltSlots allSlots c o m s) <;> rw [haltedAll, heq]
  · exact ⟨hout, hss, hpb, hgd, rfl, rfl, rfl⟩
  · exact ⟨(claim_outside ..).trans hout, (claim_ss ..).trans hss, (claim_pb ..).trans hpb, (claim_gd ..).trans hgd,
      claim_tif .., claim_ru .., claim_nb ..⟩

theorem haltedAll_outgoing (c : Cause) (o : StationId) (m : Mode) (s : State) :
    (haltedAll c o m s).outgoing = (haltSlots allSlots c o m s).outgoing := by
  obtain ⟨-, -, -, -, htif, -, hnb⟩ := haltedAll_frame c o m s
  rw [State.outgoing, htif, hnb]
  rfl

theorem haltedAll_of_waits (hw : x.queue.head?.all (fun h => h.state == .waiting || h.state == .queued) = true)
    (c : Cause) (o : StationId) (m : Mode) :
    (haltedAll c o m x).queue = x.queue ∧ (haltedAll c o m x).pg = x.pg
      ∧ (haltedAll c o m x).outgoing = (x.tellsOfHalts allSlots c o).outgoing := by
  obtain ⟨hqueue, hpg, hout⟩ := haltSlots_of_waits hw c o m
  have hstay : haltedAll c o m x = haltSlots allSlots c o m x := by
    obtain heq | heq := haltUngrouped_cases m (haltSlots allSlots c o m x)
    · exact heq
    · refine heq.trans (claim_of_not_moving ?_ ..)
      rw [State.headMoving, State.head?, hqueue]
      exact not_moving_of_waits hw
  rw [hstay]
  exact ⟨hqueue, hpg, hout⟩

/-- An ungrouped head meets the claim of HALT(ALL) if it moves, and stays otherwise (R70, R97). -/
theorem haltedAll_of_ungrouped (hq : x.queue = h :: rest) (hk : h.slot = none) (c : Cause) (o : StationId) (m : Mode) :
    (haltedAll c o m x).queue = (claim .halted m x).queue ∧ (haltedAll c o m x).pg = (claim .halted m x).pg
      ∧ (haltedAll c o m x).outgoing = (x.tellsOfHalts allSlots c o).outgoing := by
  obtain ⟨hqueue, hpg, hout, -⟩ := haltSlots_leave (s := x) (t := x) (c := c) (o := o) (m := m)
    (by decide : allSlots.Nodup) x.queue
    (fun u hu j _ => haltSlot_of_other (by simp [State.headOfSlot?, hu, hq, hk]) ..) rfl rfl fun _ _ => rfl
  obtain ⟨hqueue', hpg'⟩ := claim_parts_congr hqueue hpg .halted m
  rw [haltedAll_outgoing, haltedAll, haltUngrouped_of_none (hqueue.trans hq) hk]
  exact ⟨hqueue', hpg', hout rfl⟩

/-- A head that moves, of a live slot or of none, meets the claim of HALT(ALL) (R70, R97). -/
theorem haltedAll_of_moving (hq : x.queue = h :: rest) (hv : h.state.isMoving = true)
    (hlive : ∀ k, h.slot = some k → x.group? k ≠ none) (c : Cause) (o : StationId) (m : Mode) :
    (haltedAll c o m x).queue = (claim .halted m x).queue ∧ (haltedAll c o m x).pg = (claim .halted m x).pg
      ∧ (haltedAll c o m x).outgoing = (x.tellsOfHalts allSlots c o).outgoing := by
  cases hk : h.slot with
  | none => exact haltedAll_of_ungrouped hq hk c o m
  | some k =>
    obtain ⟨u, y, hqu, hpu, hgu, hout, hss, hgy, hfold⟩ := haltSlots_of_head hq hk c o m
    obtain ⟨g, hg⟩ := Option.ne_none_iff_exists'.1 (hlive k hk)
    obtain ⟨hqueue, hpg, hout'⟩ := haltSlot_of_moving (hgu.trans hg) (hqu.trans hq) hk hv c o m
    obtain ⟨hclaimq, hclaimp⟩ := claim_parts_congr hqu hpu .halted m
    obtain ⟨h', hq', hk'⟩ : ∃ h', (claim .halted m x).queue = h' :: rest ∧ h'.slot = some k := by
      cases hs : h.state with
      | running => exact ⟨{ h with state := .ending .halted m }, congrArg State.queue (claim_running hq hs ..), hk⟩
      | ending o' m' =>
        have ⟨hres, _⟩ := claim_ending_result hq hs .halted m
        exact ⟨_, hres, hk⟩
      | _ => rw [hs] at hv; cases hv
    obtain ⟨hqa, hpa, -, houta, -⟩ := hfold h' (hqueue.trans (hclaimq.trans hq')) hk'
    rw [haltedAll_outgoing, haltedAll, haltUngrouped_of_slot hqa (by rw [hk']; nofun)]
    refine ⟨hqa.trans hq'.symm, hpa.trans (hpg.trans hclaimp), houta (hout'.trans ?_)⟩
    have ⟨hcongr, _⟩ := tellsOfHalt_congr (k := k) hss (hgu.trans hgy.symm) c o
    exact hcongr hout

/-- An announcing head of a slot that is not HALTED goes back (R92, R97). -/
theorem haltedAll_of_announce (hq : x.queue = h :: rest) (ha : h.state.isAnnounce = true) (hk : h.slot = some k)
    (hg : x.group? k = some g) (hh : x.slotHalted k = false) (c : Cause) (o : StationId) (m : Mode) :
    (haltedAll c o m x).queue = { h with state := .waiting } :: rest ∧ (haltedAll c o m x).pg = x.pg
      ∧ (haltedAll c o m x).readyWithdrawn ∧ (haltedAll c o m x).notices = (x.tellsOfHalts allSlots c o).notices := by
  obtain ⟨u, y, hqu, hpu, hgu, hout, hss, hgy, hfold⟩ := haltSlots_of_head hq hk c o m
  have hhu : u.slotHalted k = false := by
    rw [State.slotHalted, hgu]
    exact hh
  have hslot : haltSlot k c o m false u = withdrawReady { u.haltTold k g c o with queue := { h with state := .waiting } :: rest } := by
    rw [haltSlot_told (hgu.trans hg) hhu, haltHead_of_announce ((haltTold_queue ..).trans (hqu.trans hq)) hk ha]
  have htells : u.tellsOfHalt k c o = produce .halt [BitVec.ofNat 8 k.val, g.address.setWidth 8, c.byte, o.setWidth 8] u := by
    rw [State.tellsOfHalt, hgu, hg]
    dsimp only
    rw [hhu]
    rfl
  obtain ⟨hqa, hpa, hra, -, hna⟩ := hfold { h with state := .waiting } (by rw [hslot]; rfl) hk
  have hnotices : (haltSlot k c o m false u).notices = (y.tellsOfHalt k c o).notices := by
    have ⟨hcongr, _⟩ := tellsOfHalt_congr (k := k) hss (hgu.trans hgy.symm) c o
    refine Eq.trans ?_ (notices_of_outgoing (hcongr hout))
    rw [htells, hslot]
    obtain ⟨hnb, hother⟩ := Prod.mk.inj (notices_of_outgoing (haltTold_outgoing u k g c o))
    exact Prod.ext hnb ((withdrawReady_otherFrames _).trans hother)
  rw [haltedAll, haltUngrouped_of_slot hqa (by rw [hk]; nofun)]
  refine ⟨hqa, hpa.trans ?_, hra ?_, hna hnotices⟩
  · rw [hslot]
    exact (haltTold_pg ..).trans hpu
  · rw [hslot]
    exact withdrawReady_readyWithdrawn _

end

end Sys2Proof.Machine
end

