-- ==== Sys2Proof/Proofs/PeerHalt.lean ====
section
/-! PROOFS. The Guard's latch of a HALT(ALL), and what it does with the head that HALT(ALL) has stopped (R97, R162). -/

namespace Sys2Proof.Machine
open scoped Host.Outcome

/-! ### The Guard takes a cause in RUN, with a head that is not RUNNING -/

/-- The FAULT notice of a Guard that leaves NORMAL, and none of one that has left it (R151, R153). -/
def State.tellsIfNormal (s : State) (c : Cause) (m : Mode) (tag : Byte) : State :=
  if s.gd.state = .normal then s.tellsOfFault c m tag else s

section
variable {x : State} {h : Segment} {rest : List Segment} {c : Cause} {m : Mode}

theorem guardTake_of_normal (hn : x.ss.node = .run) (hg : x.gd.state = .normal) (c : Cause) (m : Mode) :
    guardTake c m x = guardLeave c m x := by
  rw [guardTake, hn]
  exact if_pos hg

theorem guardTake_of_left (hn : x.ss.node = .run) (hg : x.gd.state ≠ .normal) (c : Cause) (m : Mode) :
    guardTake c m x = guardAdd c m x := by
  rw [guardTake, hn]
  exact if_neg hg

theorem movingTag_of_not_moving (hv : x.headMoving = false) : x.movingTag = 0 := by
  rw [State.headMoving] at hv
  rw [State.movingTag]
  cases hq : x.head? with
  | none => rfl
  | some h =>
    rw [hq, Option.any_some] at hv
    simp [hv]

/-- With a head that waits, or none, the Guard takes a cause and leaves the axis (R151, R153). -/
theorem guardTake_waits (hn : x.ss.node = .run) (hw : x.queue.head?.all (fun h => h.state == .waiting || h.state == .queued) = true)
    (c : Cause) (m : Mode) :
    (guardTake c m x).queue = x.queue ∧ (guardTake c m x).pg = x.pg ∧ (guardTake c m x).pb = x.pb
      ∧ (guardTake c m x).tif.owed = x.tif.owed ∧ (guardTake c m x).outgoing = (x.tellsIfNormal c m 0).outgoing := by
  have hv := not_moving_of_waits hw
  unfold State.tellsIfNormal
  by_cases hg : x.gd.state = .normal
  · obtain ⟨hqueue, -, howed, hout⟩ := guardLeave_waits hw c m
    obtain ⟨-, -, hpg, hpb, -⟩ := guardLeave_not_moving hv c m
    rw [tellsOfDeparture_stays (not_departsWithSlot_of_waits hw), movingTag_of_not_moving hv] at hout
    rw [guardTake_of_normal hn hg, if_pos hg]
    exact ⟨hqueue, hpg, hpb, howed, hout⟩
  · rw [guardTake_of_left hn hg, if_neg hg, guardAdd_of_stays (nothingOver_iff.2 (headOver_of_not_moving hv))
      (.inr (not_ending_of_not_moving hv))]
    exact ⟨rfl, rfl, rfl, rfl, rfl⟩

theorem tellsOfDeparture_ending {o : SegOutcome} {m' : Mode} (hq : x.queue = h :: rest) (hs : h.state = .ending o m') (c : Cause) (m : Mode) :
    x.tellsOfDeparture c m = x.tellsOfFault c m h.tag := by
  rw [tellsOfDeparture_stays (not_departsWithSlot_of_ending hq hs), movingTag_of_queue hq, hs]
  rfl

/-- A SMOOTH cause leaves an ENDING head its stop (R151, R153). -/
theorem guardTake_goes_on {o : SegOutcome} {m' : Mode} (hn : x.ss.node = .run) (hq : x.queue = h :: rest) (hs : h.state = .ending o m')
    (hover : x.nothingOver = true) (c : Cause) :
    (guardTake c .smooth x).queue = x.queue ∧ (guardTake c .smooth x).pg = x.pg ∧ (guardTake c .smooth x).pb = x.pb
      ∧ (guardTake c .smooth x).tif.owed = x.tif.owed
      ∧ (guardTake c .smooth x).outgoing = (x.tellsIfNormal c .smooth h.tag).outgoing := by
  unfold State.tellsIfNormal
  by_cases hg : x.gd.state = .normal
  · obtain ⟨hqueue, hpg, -, howed, hout⟩ := departure_stays (not_departsWithSlot_of_ending hq hs) c .smooth
    rw [tellsOfDeparture_ending hq hs] at hout
    rw [guardTake_of_normal hn hg, if_pos hg, guardLeave_smooth_ending (headEnding_iff.2 ⟨h, rest, o, m', hq, hs⟩) hover]
    exact ⟨hqueue, hpg, departure_pb .., howed, hout⟩
  · rw [guardTake_of_left hn hg, if_neg hg, guardAdd_of_stays hover (.inl rfl)]
    exact ⟨rfl, rfl, rfl, rfl, rfl⟩

theorem atRest_of_resting (hp : x.pg.resting = x.pg) : x.atRest = x := by
  rw [State.atRest, hp]

/-- What the removal of a head leaves, from a state that differs from `x` in the Guard and in what it has told (R75). -/
theorem atRest_leftBy {v y : State} {o : SegOutcome} (hpg : v.pg = x.pg) (hpb : v.pb = x.pb) (howed : v.tif.owed = x.tif.owed)
    (hss : v.ss = y.ss) (hout : v.outgoing = y.outgoing) (hypb : y.pb = x.pb) (hypg : y.pg = x.pg) :
    (v.atRest.leftBy h rest o).queue = promote rest ∧ (v.atRest.leftBy h rest o).pg = x.pg.resting
      ∧ (v.atRest.leftBy h rest o).pb = x.pb.referredBy rest ∧ (v.atRest.leftBy h rest o).tif.owed = x.tif.owed
      ∧ (v.atRest.leftBy h rest o).outgoing = (y.tellsOfEnd h o rest).outgoing := by
  rw [leftBy_queue, leftBy_pg, leftBy_pb, leftBy_owed, leftBy_outgoing, atRest_pg, atRest_pb, atRest_tif, hpg, hpb, howed]
  refine ⟨rfl, rfl, rfl, rfl, tellsOfEnd_outgoing_congr ?_ ?_ ?_ ?_ ..⟩
  · exact hss
  · exact hout
  · rw [atRest_pb, hpb, hypb]
  · rw [atRest_pg, hpg, hypg]
    rfl

/-- A cause that finds the head ENDING, with the generator at rest, or comes with ABRUPT, ends the head (R75, R152). -/
theorem guardTake_ends {o : SegOutcome} {m' : Mode} (hn : x.ss.node = .run) (hq : x.queue = h :: rest) (hs : h.state = .ending o m')
    (hp : m = .abrupt ∨ x.pg.resting = x.pg) (c : Cause) :
    (guardTake c m x).queue = promote rest ∧ (guardTake c m x).pg = x.pg.resting ∧ (guardTake c m x).pb = x.pb.referredBy rest
      ∧ (guardTake c m x).tif.owed = x.tif.owed
      ∧ (guardTake c m x).outgoing = ((x.tellsIfNormal c m h.tag).tellsOfEnd h o rest).outgoing := by
  unfold State.tellsIfNormal
  by_cases hg : x.gd.state = .normal
  · obtain ⟨hqueue, hpg, -, howed, hout⟩ := departure_stays (not_departsWithSlot_of_ending hq hs) c m
    rw [tellsOfDeparture_ending hq hs] at hout
    have hleave : guardLeave c m x = (departure c m x).atRest.leftBy h rest o := by
      rw [guardLeave_eq]
      cases m with
      | abrupt =>
        rw [finishIfOver_claim_abrupt (hqueue.trans hq) (by rw [hs]; rfl), hs]
        rfl
      | smooth =>
        have hrest : x.pg.resting = x.pg := hp.resolve_left nofun
        rw [atRest_of_resting (by rw [hpg, hrest]), claim_ending (hqueue.trans hq) hs, if_neg (by nofun)]
        exact finishIfOver_of_ended (hqueue.trans hq) hs (by rw [hpg, ← hrest]; rfl)
    rw [guardTake_of_normal hn hg, if_pos hg, hleave]
    refine atRest_leftBy hpg (departure_pb ..) howed ?_ hout (produce_pb ..) (produce_pg ..)
    exact (departure_ss ..).trans (produce_ss ..).symm
  · have hadd : guardAdd c m x = ({ x with gd := x.gd.joinedBy c m } : State).atRest.leftBy h rest o := by
      cases m with
      | abrupt => exact guardAdd_of_ending hq hs
      | smooth =>
        have hrest : x.pg.resting = x.pg := hp.resolve_left nofun
        rw [atRest_of_resting (x := { x with gd := x.gd.joinedBy c .smooth }) hrest]
        exact finishIfOver_of_ended (s := { x with gd := x.gd.joinedBy c .smooth }) hq hs (by rw [← hrest]; rfl)
    rw [guardTake_of_left hn hg, if_neg hg, hadd]
    exact atRest_leftBy rfl rfl rfl rfl rfl rfl rfl

end

/-! ### The latch -/

/-- The originator of a HALT(ALL) is recorded unless PEER_ALL_HALT is held already (R162). -/
def Gd.latched (gd : Gd) (o : StationId) : Gd := if hasCause gd.causes .peerAllHalt then gd else { gd with originator := some o }

theorem guardLatchPeer_eq (o : StationId) (m : Mode) (s : State) :
    guardLatchPeer o m s = guardTake .peerAllHalt m { s with gd := s.gd.latched o } := by
  unfold guardLatchPeer Gd.latched
  split <;> rfl

section
variable {x : State} {c : Cause} {m : Mode}

theorem latched_state (gd : Gd) (o : StationId) : (gd.latched o).state = gd.state ∧ (gd.latched o).causes = gd.causes := by
  unfold Gd.latched
  split <;> exact ⟨rfl, rfl⟩

/-- A claim on a head that moves leaves it ENDING (R60, R70). -/
theorem claim_makes_ending {s : State} {h : Segment} {rest : List Segment} (hq : s.queue = h :: rest) (hv : h.state.isMoving = true)
    (o : SegOutcome) (m : Mode) : ∃ h' o' m', (claim o m s).queue = h' :: rest ∧ h'.state = .ending o' m' := by
  cases hs : h.state with
  | running => exact ⟨{ h with state := .ending o m }, o, m, congrArg State.queue (claim_running hq hs ..), rfl⟩
  | ending o' m' =>
    have ⟨hres, _⟩ := claim_ending_result hq hs o m
    exact ⟨_, _, _, hres, rfl⟩
  | _ => rw [hs] at hv; cases hv

theorem not_ending_of_promoted {s : State} {rest : List Segment} (hq : s.queue = promote rest) : s.headEnding = false := by
  rw [State.headEnding, State.head?, hq]
  cases rest <;> rfl

/-- A departure from NORMAL leaves the guard STOPPING while a head is ENDING, and STOPPED otherwise (R151, R152). -/
theorem guardLeave_state (c : Cause) (m : Mode) (x : State) :
    (guardLeave c m x).gd.state = if (guardLeave c m x).headEnding then .stopping else .stopped := by
  by_cases hv : x.headMoving = true
  · obtain ⟨h, hh, hm⟩ := (Option.any_eq_true ..).1 hv
    obtain ⟨rest, hq⟩ := List.head?_eq_some_iff.1 hh
    obtain ⟨h', hq', hm', -⟩ := departure_of_moving hq hm c m
    obtain ⟨x', o, m', hqc, hsc⟩ := claim_makes_ending hq' hm' .faulted m
    have hstop : (claim .faulted m (departure c m x)).gd.state = .stopping := by
      rw [claim_gd]
      exact departure_stopping hv c m
    rw [guardLeave_eq]
    cases ho : (claim .faulted m (departure c m x)).headOver? with
    | none =>
      rw [finishIfOver_of_not ho, hstop, if_pos (headEnding_iff.2 ⟨x', rest, o, m', hqc, hsc⟩)]
    | some o' =>
      rw [finishIfOver_of_over hqc ho, leftBy_gd_of_stopping hstop, not_ending_of_promoted (leftBy_queue ..)]
      rfl
  · have hv := Bool.eq_false_of_not_eq_true hv
    obtain ⟨hv', -⟩ := departure_not_moving hv c m
    have ⟨hstate, _⟩ := guardLeave_not_moving hv c m
    rw [hstate, guardLeave_of_not_moving hv', not_ending_of_not_moving hv']
    rfl

/-- The end of a head leaves the guard's state but for a STOPPING one, which stops (R152). -/
theorem finishIfOver_state (s : State) (hg : s.gd.state ≠ .normal) : (finishIfOver s).gd.state ≠ .normal := by
  unfold finishIfOver
  split
  · cases hq : s.queue with
    | nil => rwa [finishHead_nil hq]
    | cons h rest =>
      rw [finishHead_eq hq, leftBy_gd]
      split
      · nofun
      · exact hg
  · exact hg

/-- A Guard that takes a cause in RUN holds it, has left NORMAL, and keeps its originator (R151, R153). -/
theorem guardTake_record (hn : x.ss.node = .run) (c : Cause) (m : Mode) :
    hasCause (guardTake c m x).gd.causes c = true ∧ (guardTake c m x).gd.originator = x.gd.originator
      ∧ (guardTake c m x).gd.state ≠ .normal := by
  by_cases hg : x.gd.state = .normal
  · obtain ⟨-, hcauses, -, horiginator⟩ := guardLeave_record c m x
    rw [guardTake_of_normal hn hg, hcauses, hasCause_bit]
    refine ⟨decide_eq_true rfl, horiginator, ?_⟩
    rw [guardLeave_state]
    split <;> nofun
  · rw [guardTake_of_left hn hg, guardAdd_causes, hasCause_or, hasCause_bit]
    have hjoined : ∃ u, guardAdd c m x = finishIfOver u ∧ u.gd.originator = x.gd.originator ∧ u.gd.state = x.gd.state := by
      refine ⟨_, rfl, ?_⟩
      split
      · rw [hastenEnding_gd]
        exact ⟨rfl, rfl⟩
      · exact ⟨rfl, rfl⟩
    obtain ⟨u, hu, horiginator, hstate⟩ := hjoined
    have ⟨_, _, _, hkept⟩ := finishIfOver_record u
    rw [hu]
    exact ⟨by simp, hkept.trans horiginator, finishIfOver_state u (by rw [hstate]; exact hg)⟩

/-- With every live slot HALTED already, a cause leaves the slots (R92, R94). -/
theorem guardTake_ru_of_halted (hn : x.ss.node = .run) (hall : ∀ k g, x.group? k = some g → x.slotHalted k = true) (c : Cause)
    (m : Mode) : (guardTake c m x).ru = x.ru := by
  by_cases hg : x.gd.state = .normal
  · have hhalt (k : Fin 8) : (localHalt k c m true (guardRecord c m x)).ru = x.ru := by
      cases hgr : x.group? k with
      | none =>
        rw [localHalt, haltSlot_of_empty ((oweHalt_group (s := guardRecord c m x) ..).trans hgr), oweHalt_ru]
        rfl
      | some g =>
        rw [localHalt, haltSlot_ru ((oweHalt_group (s := guardRecord c m x) ..).trans hgr),
          if_pos ((oweHalt_slotHalted (s := guardRecord c m x) ..).trans (hall k g hgr)), oweHalt_ru]
        rfl
    have ⟨hru, _⟩ := guardLeave_slots c m x
    rw [guardTake_of_normal hn hg, hru, departure, faultNotice_ru]
    unfold guardHaltsGroup
    repeat' split
    · exact hhalt _
    all_goals rfl
  · rw [guardTake_of_left hn hg, guardAdd_ru]

end

/-! ### HALT(ALL) -/

/-- The node that a HALT(ALL) has stopped, with the originator recorded, as the Guard takes PEER_ALL_HALT (R97, R162). -/
def peerHalted (c : Cause) (o : StationId) (m : Mode) (s : State) : State :=
  { haltedAll c o m s with gd := s.gd.latched o }

/-- What HALT(ALL) leaves to the Guard (R97, R162). -/
theorem peerHalted_frame (c : Cause) (o : StationId) (m : Mode) (s : State) :
    (peerHalted c o m s).outside = s.outside ∧ (peerHalted c o m s).ss = s.ss ∧ (peerHalted c o m s).pb = s.pb
      ∧ (peerHalted c o m s).gd = s.gd.latched o ∧ (peerHalted c o m s).tif.owed = s.tif.owed
      ∧ (peerHalted c o m s).ru = (haltSlots allSlots c o m s).ru := by
  obtain ⟨hout, hss, hpb, -, htif, hru, -⟩ := haltedAll_frame c o m s
  have ⟨_, _, _, _, howed⟩ := haltSlots_frame allSlots c o m s
  unfold peerHalted
  generalize haltedAll c o m s = v at *
  exact ⟨hout, hss, hpb, rfl, (congrArg Tif.owed htif).trans howed, hru⟩

/-- The segments, the generator and what goes out are those that HALT(ALL) has left (R97). -/
theorem peerHalted_parts (c : Cause) (o : StationId) (m : Mode) (s : State) :
    (peerHalted c o m s).queue = (haltedAll c o m s).queue ∧ (peerHalted c o m s).pg = (haltedAll c o m s).pg
      ∧ (peerHalted c o m s).outgoing = (haltedAll c o m s).outgoing
      ∧ (peerHalted c o m s).notices = (haltedAll c o m s).notices
      ∧ ((haltedAll c o m s).readyWithdrawn → (peerHalted c o m s).readyWithdrawn) := by
  unfold peerHalted
  generalize haltedAll c o m s = v
  exact ⟨rfl, rfl, rfl, rfl, id⟩

theorem tellsOfHalts_finRange (s : State) (c : Cause) (o : StationId) :
    (List.finRange 8).foldl (fun u k => u.tellsOfHalt k c o) s = s.tellsOfHalts allSlots c o := by
  rw [(by decide : List.finRange 8 = allSlots)]
  rfl

section
variable {s : State} {h : Segment} {rest : List Segment} {k : Fin 8} {g : Group} {c : Cause} {o : StationId} {m : Mode}

theorem peerHalted_of_waits (hw : s.queue.head?.all (fun h => h.state == .waiting || h.state == .queued) = true)
    (c : Cause) (o : StationId) (m : Mode) :
    (peerHalted c o m s).queue = s.queue ∧ (peerHalted c o m s).pg = s.pg
      ∧ (peerHalted c o m s).outgoing = (s.tellsOfHalts allSlots c o).outgoing := by
  obtain ⟨hqueue, hpg, hout, -⟩ := peerHalted_parts c o m s
  rw [hqueue, hpg, hout]
  exact haltedAll_of_waits hw c o m

theorem peerHalted_of_ungrouped (hq : s.queue = h :: rest) (hk : h.slot = none) (c : Cause) (o : StationId) (m : Mode) :
    (peerHalted c o m s).queue = (claim .halted m s).queue := by
  obtain ⟨hqueue, -⟩ := peerHalted_parts c o m s
  have ⟨hclaim, _⟩ := haltedAll_of_ungrouped hq hk c o m
  exact hqueue.trans hclaim

theorem peerHalted_of_moving (hq : s.queue = h :: rest) (hv : h.state.isMoving = true)
    (hlive : ∀ k, h.slot = some k → s.group? k ≠ none) (c : Cause) (o : StationId) (m : Mode) :
    (peerHalted c o m s).queue = (claim .halted m s).queue ∧ (peerHalted c o m s).pg = (claim .halted m s).pg
      ∧ (peerHalted c o m s).outgoing = (s.tellsOfHalts allSlots c o).outgoing := by
  obtain ⟨hqueue, hpg, hout, -⟩ := peerHalted_parts c o m s
  rw [hqueue, hpg, hout]
  exact haltedAll_of_moving hq hv hlive c o m

theorem peerHalted_of_announce (hq : s.queue = h :: rest) (ha : h.state.isAnnounce = true) (hk : h.slot = some k)
    (hg : s.group? k = some g) (hh : s.slotHalted k = false) (c : Cause) (o : StationId) (m : Mode) :
    (peerHalted c o m s).queue = { h with state := .waiting } :: rest ∧ (peerHalted c o m s).pg = s.pg
      ∧ (peerHalted c o m s).readyWithdrawn
      ∧ (peerHalted c o m s).notices = (s.tellsOfHalts allSlots c o).notices := by
  obtain ⟨hqueue, hpg, -, hnotices, hready⟩ := peerHalted_parts c o m s
  obtain ⟨hq', hp', hr', hn'⟩ := haltedAll_of_announce hq ha hk hg hh c o m
  exact ⟨hqueue.trans hq', hpg.trans hp', hready hr', hnotices.trans hn'⟩

/-- An announcing head stands for an ARMED slot, which is not HALTED (R82). -/
theorem not_halted_of_announce (harmed : s.armedRight = true) (hq : s.queue = h :: rest) (hk : h.slot = some k)
    (ha : h.state.isAnnounce = true) : s.slotHalted k = false := by
  have hk' := List.all_eq_true.1 harmed k (mem_allSlots k)
  rw [headOfSlot_of_queue hq hk, Option.any_some, ha, beq_iff_eq, Option.any_eq_true] at hk'
  obtain ⟨g, hg, hstate⟩ := hk'
  rw [State.slotHalted, hg, Option.any_some, beq_iff_eq.1 hstate]

/-- A HALT(ALL) leaves no head that a departure would halt (R94, R97). -/
theorem peerHalted_not_departs (harmed : s.armedRight = true)
    (hlive : ∀ h rest k, s.queue = h :: rest → h.slot = some k → s.group? k ≠ none) (c : Cause) (o : StationId) (m : Mode) :
    ¬ (peerHalted c o m s).departsWithSlot := by
  have hwaits (hw : s.queue.head?.all (fun h => h.state == .waiting || h.state == .queued) = true) :
      ¬ (peerHalted c o m s).departsWithSlot := by
    have ⟨hq', _⟩ := peerHalted_of_waits hw c o m
    exact not_departsWithSlot_of_waits (by rw [hq']; exact hw)
  cases hq : s.queue with
  | nil => exact hwaits (by rw [hq]; rfl)
  | cons h rest =>
    by_cases hv : h.state.isMoving = true
    · have ⟨hq', _⟩ := peerHalted_of_moving hq hv (fun k hk => hlive h rest k hq hk) c o m
      obtain ⟨h', o', m', hclaim, hs⟩ := claim_makes_ending hq hv .halted m
      exact not_departsWithSlot_of_ending (hq'.trans hclaim) hs
    · by_cases ha : h.state.isAnnounce = true
      · cases hk : h.slot with
        | none =>
          have hq' := peerHalted_of_ungrouped hq hk c o m
          rw [claim_of_not_moving ((headMoving_of_queue hq).trans (Bool.eq_false_of_not_eq_true hv))] at hq'
          exact not_departsWithSlot_of_no_slot (hq'.trans hq) hk
        | some k =>
          obtain ⟨g, hg⟩ := Option.ne_none_iff_exists'.1 (hlive h rest k hq hk)
          have ⟨hq', _⟩ := peerHalted_of_announce hq ha hk hg (not_halted_of_announce harmed hq hk ha) c o m
          exact not_departsWithSlot_of_waits (by rw [hq']; rfl)
      · refine hwaits ?_
        rw [hq, List.head?_cons, Option.all_some]
        cases hs : h.state <;> simp_all [SegState.isMoving, SegState.isAnnounce]

end

/-- A cause whose departure halts no slot leaves the HALTs owed (R94). -/
theorem guardTake_owed {x : State} (hn : x.ss.node = .run) (hno : ¬ x.departsWithSlot) (c : Cause) (m : Mode) :
    (guardTake c m x).tif.owed = x.tif.owed := by
  by_cases hg : x.gd.state = .normal
  · have ⟨_, howed⟩ := guardLeave_slots c m x
    have ⟨_, _, _, hstay, _⟩ := departure_stays hno c m
    rw [guardTake_of_normal hn hg, howed, hstay]
  · rw [guardTake_of_left hn hg]
    refine (finishIfOver_owed _).trans ?_
    split
    · rw [hastenEnding_tif]
    · rfl

theorem exec_haltAllTaken {source : StationId} {cause mode tag : Byte} {c : Cause} {m : Mode} {s : State}
    (ht : s.takesCommand (.haltAllTaken source cause mode tag) = true) (hn : s.ss.node = .run)
    (hc : causeOf cause = some c) (hm : modeOf mode = some m) :
    exec (.haltAllTaken source cause mode tag) s
      = .next (guardTake .peerAllHalt m (peerHalted c source m (taken s))) := by
  refine (congrArg Host.Outcome.next (takeFrame_inRun ht hn _)).trans ?_
  have ⟨_, _, _, hgd, _⟩ := haltedAll_frame c source m (taken s)
  rw [hc, hm]
  refine congrArg Host.Outcome.next ((guardLatchPeer_eq ..).trans ?_)
  exact congrArg (fun gd : Gd => guardTake .peerAllHalt m { haltedAll c source m (taken s) with gd := gd.latched source }) hgd

section
variable {s : State} {c : Cause} {o : StationId} {m : Mode}

theorem peerHalted_group (k : Fin 8) : (peerHalted c o m s).group? k = (s.group? k).map fun g => g.haltedBy c o := by
  have ⟨_, _, _, _, _, hru⟩ := peerHalted_frame c o m s
  rw [group_congr (s := haltSlots allSlots c o m s) (congrArg Ru.slots hru), haltSlots_group, if_pos (mem_allSlots k)]

theorem peerHalted_halted (k : Fin 8) (g : Group) (hg : (peerHalted c o m s).group? k = some g) :
    (peerHalted c o m s).slotHalted k = true := by
  rw [State.slotHalted, hg, Option.any_some]
  rw [peerHalted_group] at hg
  obtain ⟨g', -, rfl⟩ := Option.map_eq_some_iff.1 hg
  unfold Group.haltedBy
  cases hs : g'.state <;> simp [hs]

/-- What HALT(ALL) tells, and nothing else, is what the notices of its halts tell (R97). -/
theorem tellsIfNormal_congr {x y : State} (hss : x.ss = y.ss) (hpb : x.pb = y.pb) (hg : x.gd.state = y.gd.state) (c : Cause) (m : Mode) (tag : Byte) :
    (x.outgoing = y.outgoing → (x.tellsIfNormal c m tag).outgoing = (y.tellsIfNormal c m tag).outgoing)
      ∧ (x.notices = y.notices → (x.tellsIfNormal c m tag).notices = (y.tellsIfNormal c m tag).notices) := by
  unfold State.tellsIfNormal
  rw [hg]
  split
  · have hcommand : x.pb.command = y.pb.command := congrArg Pb.command hpb
    exact ⟨fun h => tellsOfFault_outgoing_congr (u := x) (x := y) hss h hcommand c m tag,
      fun h => tellsOfFault_notices_congr (u := x) (x := y) hss h hcommand c m tag⟩
  · exact ⟨id, id⟩

end

theorem tellsIfNormal_frame (c : Cause) (m : Mode) (tag : Byte) (s : State) :
    (s.tellsIfNormal c m tag).ss = s.ss ∧ (s.tellsIfNormal c m tag).pb = s.pb ∧ (s.tellsIfNormal c m tag).pg = s.pg := by
  unfold State.tellsIfNormal State.tellsOfFault
  split
  · exact ⟨produce_ss .., produce_pb .., produce_pg ..⟩
  · exact ⟨rfl, rfl, rfl⟩

theorem tellsIfNormal_readyWithdrawn {s : State} (hr : s.readyWithdrawn) (c : Cause) (m : Mode) (tag : Byte) :
    (s.tellsIfNormal c m tag).readyWithdrawn := by
  unfold State.tellsIfNormal
  split
  · exact produce_readyWithdrawn hr _ _
  · exact hr

theorem taken_armedRight (s : State) : (taken s).armedRight = s.armedRight := by
  simp only [State.armedRight, taken_group, taken_headOfSlot]

theorem nothingOver_congr {s t : State} (hq : t.queue = s.queue) (hp : t.pg = s.pg) : t.nothingOver = s.nothingOver := by
  rw [State.nothingOver, hq, hp, State.nothingOver]

/-- Settles O25: the slots and the head first, then what the Guard makes of the head. -/
theorem haltAllTakenHaltsEverySlot : Obligations.HaltAllTakenHaltsEverySlot := by
  intro source cause mode tag c m s ht hn hc hm
  have hexec := exec_haltAllTaken ht hn hc hm
  obtain ⟨hout, hss, hpb, hgd, howed, hru⟩ := peerHalted_frame c source m (taken s)
  have hgroup (k : Fin 8) := peerHalted_group (s := taken s) (c := c) (o := source) (m := m) k
  have hhalted := peerHalted_halted (s := taken s) (c := c) (o := source) (m := m)
  have hempty (k : Fin 8) := haltSlots_empty_stands (s := taken s) (k := k) (c := c) (o := source) (m := m) allSlots
  have htimer := haltSlots_timer allSlots c source m (taken s)
  have hsame : (taken s).armedAt = s.armedAt := by
    funext k
    rw [State.armedAt, taken_group, State.armedAt]
  rw [← hru] at hempty htimer
  have hwaits (hw) := peerHalted_of_waits (s := taken s) hw c source m
  have hmoves (h rest) (hq : (taken s).queue = h :: rest) (hv hlive) := peerHalted_of_moving (s := taken s) hq hv hlive c source m
  have hannounces (h rest k g) (hq : (taken s).queue = h :: rest) (ha) (hk : h.slot = some k) (hg : (taken s).group? k = some g) (hh) :=
    peerHalted_of_announce (s := taken s) hq ha hk hg hh c source m
  have hnodeparts (harmed hlive) := peerHalted_not_departs (s := taken s) harmed hlive c source m
  generalize peerHalted c source m (taken s) = x at *
  have hrun : x.ss.node = .run := by rw [hss, taken_ss, hn]
  rw [taken_gd] at hgd
  obtain ⟨hstate, -⟩ := latched_state s.gd source
  rw [← hgd] at hstate
  have hrut := guardTake_ru_of_halted hrun hhalted .peerAllHalt m
  obtain ⟨hcause, horiginator, hleft⟩ := guardTake_record hrun .peerAllHalt m
  refine ⟨_, hexec, (guardTake_outside ..).trans hout, fun k g hg => ?_, fun k hk => ?_, ?_, hcause,
    fun hheld => ?_, fun hheld => ?_, hleft, fun hg => ?_, fun harmed hlive => ?_⟩
  · rw [group_congr (congrArg Ru.slots hrut) k, hgroup, hg, Option.map_some, haltedBy_eq hg]
  · rw [hrut]
    exact hempty k hk
  · rw [hrut, htimer, hsame, taken_ru]
    rfl
  · rw [horiginator, hgd, Gd.latched, if_pos hheld]
  · rw [horiginator, hgd, Gd.latched, if_neg (by rw [hheld]; exact Bool.false_ne_true)]
  · rw [guardTake_of_normal hrun (hstate.trans hg)]
    obtain ⟨hfirst, hcauses, hmode, -⟩ := guardLeave_record .peerAllHalt m x
    exact ⟨hfirst, hcauses, hmode, guardLeave_state ..⟩
  · intro halts
    have hhalts : halts = (taken s).tellsOfHalts allSlots c source := tellsOfHalts_finRange ..
    clear_value halts
    rw [← hhalts] at hwaits hmoves hannounces
    have hhgd : halts.gd = s.gd := by rw [hhalts, tellsOfHalts_gd, taken_gd]
    intro tells
    have htells (tag : Byte) : tells tag = halts.tellsIfNormal .peerAllHalt m tag := by
      rw [State.tellsIfNormal, hhgd]
    have htold := tellsIfNormal_congr (x := x) (y := halts) (by rw [hhalts, tellsOfHalts_ss, hss])
      (by rw [hhalts, tellsOfHalts_pb, hpb]) (by rw [hhgd, hstate]) .peerAllHalt m
    have hwaiting (hw : s.queue.head?.all (fun h => h.state == .waiting || h.state == .queued) = true) :
        (guardTake .peerAllHalt m x).queue = s.queue ∧ (guardTake .peerAllHalt m x).pg = s.pg
          ∧ (guardTake .peerAllHalt m x).pb = (taken s).pb ∧ (guardTake .peerAllHalt m x).outgoing = (tells 0).outgoing := by
      obtain ⟨hxq, hxp, hxo⟩ := hwaits (by rw [taken_queue]; exact hw)
      rw [taken_queue] at hxq
      obtain ⟨htq, htp, htb, -, hto⟩ := guardTake_waits hrun (by rw [hxq]; exact hw) .peerAllHalt m
      rw [htq, htp, htb, hto, htells, hxp, taken_pg]
      exact ⟨hxq, rfl, hpb, (htold 0).1 hxo⟩
    have hend {tag : Byte} (hr : x.pg.remaining = s.pg.remaining) (ho : x.outgoing = halts.outgoing) (h : Segment)
        (o : SegOutcome) (rest : List Segment) :
        ((x.tellsIfNormal .peerAllHalt m tag).tellsOfEnd h o rest).outgoing = ((tells tag).tellsOfEnd h o rest).outgoing := by
      obtain ⟨hs1, hp1, hg1⟩ := tellsIfNormal_frame .peerAllHalt m tag x
      obtain ⟨hs2, hp2, hg2⟩ := tellsIfNormal_frame .peerAllHalt m tag halts
      rw [htells]
      refine tellsOfEnd_outgoing_congr ?_ ((htold tag).1 ho) ?_ ?_ ..
      · rw [hs1, hs2, hhalts, tellsOfHalts_ss, hss]
      · rw [hp1, hp2, hhalts, tellsOfHalts_pb, hpb]
      · rw [hg1, hg2, hhalts, tellsOfHalts_pg, taken_pg, hr]
    have hmoving (h : Segment) (rest : List Segment) (hq : s.queue = h :: rest) (hv : h.state.isMoving = true) :=
      hmoves h rest (by rw [taken_queue, hq]) hv fun k hk => by
        rw [taken_group]
        exact hlive h rest k hq hk
    refine ⟨?_, fun hq => ?_, fun h rest hq => ⟨fun hs => ?_, fun ha hk => ?_, fun hs ho => ?_, fun hs ho hseek => ?_,
      fun o m' hs => ⟨fun hab => ?_, fun hsm hover => ?_⟩⟩⟩
    · have hliveT (h : Segment) (rest : List Segment) (k : Fin 8) (hq : (taken s).queue = h :: rest) (hk : h.slot = some k) :
          (taken s).group? k ≠ none := by
        rw [taken_group]
        exact hlive h rest k (by rwa [taken_queue] at hq) hk
      rw [guardTake_owed hrun (hnodeparts (by rw [taken_armedRight]; exact harmed) hliveT), howed]
    · have hrest := hwaiting (by rw [hq]; rfl)
      rwa [hq] at hrest
    · refine hwaiting ?_
      rw [hq]
      obtain hs | hs := hs <;> simp [hs]
    · obtain ⟨k, hk⟩ := Option.ne_none_iff_exists'.1 hk
      obtain ⟨g, hg⟩ := Option.ne_none_iff_exists'.1 (hlive h rest k hq hk)
      obtain ⟨hxq, hxp, hxr, hxn⟩ := hannounces h rest k g (by rw [taken_queue, hq]) ha hk (by rw [taken_group, hg])
        (by rw [taken_slotHalted]; exact not_halted_of_announce harmed hq hk ha)
      obtain ⟨htq, htp, htb, -, hto⟩ := guardTake_waits hrun (by rw [hxq]; rfl) .peerAllHalt m
      have htx : (guardTake .peerAllHalt m x).tif.queue = (x.tellsIfNormal .peerAllHalt m 0).tif.queue := congrArg Prod.snd hto
      have hready := tellsIfNormal_readyWithdrawn hxr .peerAllHalt m 0
      rw [State.readyWithdrawn, ← htx] at hready
      rw [htq, htp, htb, htells, hxp, taken_pg, hpb]
      exact ⟨hxq, rfl, hready, rfl, (notices_of_outgoing hto).trans ((htold 0).2 hxn)⟩
    · obtain ⟨hxq, hxp, hxo⟩ := hmoving h rest hq (by rw [hs]; rfl)
      rw [claim_running (by rw [taken_queue, hq]) hs] at hxq hxp
      have hrest : x.pg = s.pg.resting := by
        rw [hxp, taken_pg]
        exact if_pos ho
      obtain ⟨htq, htp, htb, -, hto⟩ := guardTake_ends hrun hxq rfl (.inr (by rw [hrest]; rfl)) .peerAllHalt
      rw [htq, htp, htb, hto, hpb, hrest]
      exact ⟨rfl, rfl, rfl, hend (by rw [hrest]; rfl) hxo h .halted rest⟩
    · have hsm : m = .smooth := by
        cases m with
        | smooth => rfl
        | abrupt => cases ho
      subst hsm
      obtain ⟨hxq, hxp, hxo⟩ := hmoving h rest hq (by rw [hs]; rfl)
      rw [claim_running (by rw [taken_queue, hq]) hs] at hxq hxp
      have hdec : x.pg = s.pg.decelerating h.kind := by
        rw [hxp, taken_pg]
        exact if_neg (by rw [ho]; exact Bool.false_ne_true)
      have hover : x.nothingOver = true := by
        rw [State.nothingOver, hdec]
        exact Bool.or_eq_true_iff.2 (.inl (by simpa using decelerating_phase hseek))
      obtain ⟨htq, htp, htb, -, hto⟩ := guardTake_goes_on hrun hxq rfl hover .peerAllHalt
      rw [htq, htp, htb, hto, hxq, hdec, hpb, htells]
      exact ⟨rfl, rfl, rfl, (htold h.tag).1 hxo⟩
    · subst hab
      obtain ⟨hxq, hxp, hxo⟩ := hmoving h rest hq (by rw [hs]; rfl)
      rw [claim_ending (by rw [taken_queue, hq]) hs, if_pos rfl] at hxq hxp
      obtain ⟨htq, htp, htb, -, hto⟩ := guardTake_ends hrun hxq rfl (.inl rfl) .peerAllHalt
      rw [htq, htp, htb, hto, hpb, hxp, taken_pg]
      exact ⟨rfl, rfl, rfl, hend (by rw [hxp, taken_pg]; rfl) hxo h o rest⟩
    · subst hsm
      obtain ⟨hxq, hxp, hxo⟩ := hmoving h rest hq (by rw [hs]; rfl)
      rw [claim_ending (by rw [taken_queue, hq]) hs, if_neg (by nofun), taken_queue] at hxq
      rw [claim_ending (by rw [taken_queue, hq]) hs, if_neg (by nofun), taken_pg] at hxp
      obtain ⟨htq, htp, htb, -, hto⟩ := guardTake_goes_on hrun (hxq.trans hq) hs (by rw [nothingOver_congr hxq hxp]; exact hover) .peerAllHalt
      rw [htq, htp, htb, hto, hxq, hxp, hpb, htells]
      exact ⟨rfl, rfl, rfl, (htold h.tag).1 hxo⟩

end Sys2Proof.Machine
end

