-- ==== Sys2Proof/Proofs/RefusedPulse.lean ====
section
/-! PROOFS. A pulse that the check refuses: the end of the motion, the turn of a SEEK and its failure (R108, R127, R128,
R155). -/

namespace Sys2Proof.Machine
open scoped Host.Outcome

/-! ### The causes of a refused pulse -/

theorem Dir.limitCause_eq (d : Dir) : d.limitCause = if d = .plus then .limitPlus else .limitMinus := by
  cases d <;> rfl

section
variable {s : State} {h : Segment} {rest : List Segment} {d : Dir}

theorem limitRefuses_eq (s : State) (d : Dir) : s.limitRefuses d = if d = .plus then s.limpActive else s.limnActive := by
  cases d <;> rfl

theorem softRefuses_eq (s : State) (d : Dir) : s.softRefuses d = (s.ss.settings.softEnable &&
    if d = .plus then decide (s.ss.settings.softMax < s.pb.command + if d = .plus then 1 else -1)
    else decide (s.pb.command + (if d = .plus then 1 else -1) < s.ss.settings.softMin)) := by
  cases d <;> rfl

theorem rangeRefuses_eq (s : State) (d : Dir) :
    s.rangeRefuses d = decide (1073741823 < (s.pb.command + if d = .plus then 1 else -1).natAbs) := by
  rw [State.rangeRefuses, not_inCounterRange_eq, Dir.step_eq]

/-- A SPAN whose accumulator reaches the span, and every other kind, offers a pulse (R113). -/
theorem carriesPulse_of_reached {k : SegKind} {pg : Pg} (hreach : ∀ d n p, k = .span d n p → n ≤ pg.acc + d.natAbs) :
    k.carriesPulse pg = true := by
  unfold SegKind.carriesPulse
  split
  · next d n p => exact decide_eq_true (hreach d n p rfl)
  · rfl

/-- A pulse that some test refuses is treated as a refused one (R108). -/
theorem execIntervalEnd_of_refused (hq : s.queue = h :: rest) (hruns : s.intervalRuns = true) (hd : s.pg.dir = some d)
    (hcarries : h.kind.carriesPulse s.pg = true) (hcauses : s.pulseCauses h.kind d ≠ []) :
    exec .intervalEnd s = .next (refusePulse h d (s.pulseCauses h.kind d) s) := by
  rw [execIntervalEnd_of_runs hq hruns, hcarries, hd]
  exact congrArg Host.Outcome.next (if_neg hcauses)

/-- A motion that is not a SEEK looking for its reference, or that the range test refuses, ends (R108, R155). -/
theorem refusePulse_ends (hno : (h.kind.isSeek && h.state == .running && s.pg.seek.any fun x => x.stage != some .settle) = false
      ∨ s.rangeRefuses d = true) (causes : List (Cause × Mode)) :
    refusePulse h d causes s = guardTakeAll causes s.atRest := by
  unfold refusePulse
  split
  · next spec p x hk hs hx =>
    refine if_neg ?_
    rintro ⟨hstage, hrange⟩
    obtain hno | hno := hno
    · rw [hk, hs, hx] at hno
      simp [SegKind.isSeek, hstage] at hno
    · rw [hno] at hrange
      cases hrange
  · rfl

/-- A RUNNING SEEK that looks for its reference turns or fails when its limit alone refuses the pulse (R127, R128). -/
theorem refusePulse_seek {spec : SeekSpec} {p : Profile} {x : Seek} (hk : h.kind = .seek spec p) (hx : s.pg.seek = some x)
    (hseeks : (h.kind.isSeek && h.state == .running && s.pg.seek.any fun x => x.stage != some .settle) = true)
    (hrange : s.rangeRefuses d = false) (causes : List (Cause × Mode)) :
    refusePulse h d causes s = if spec.reverse && !x.reversed then reverseSeek d p s else failSeek h d s := by
  have hparts : h.state = .running ∧ x.stage ≠ some .settle := by
    rw [hk, hx] at hseeks
    simpa [SegKind.isSeek] using hseeks
  obtain ⟨hs, hstage⟩ := hparts
  unfold refusePulse
  rw [hk, hs, hx]
  exact if_pos ⟨hstage, by rw [hrange]; rfl⟩

theorem reverseSeek_eq (d : Dir) (p : Profile) (s : State) :
    reverseSeek d p s = { s with pg := { s.pg.started s.ss.settings.form (some d.opposite) s.pg.remaining .search p with
      seek := some (seekStart true s) } } :=
  firstInterval_started p true s.pg (some d.opposite) s.pg.remaining (some (seekStart true s)) s

/-! ### The failure of a SEEK -/

theorem tellsOfFault_ss (c : Cause) (m : Mode) (tag : Byte) : (s.tellsOfFault c m tag).ss = s.ss := produce_ss ..
theorem tellsOfFault_pb (c : Cause) (m : Mode) (tag : Byte) : (s.tellsOfFault c m tag).pb = s.pb := produce_pb ..
theorem tellsOfFault_pg (c : Cause) (m : Mode) (tag : Byte) : (s.tellsOfFault c m tag).pg = s.pg := produce_pg ..

/-- The state of a failed SEEK before its slot is halted: it has left, and the generator is at rest (R128). -/
def State.seekStopped (s : State) : State := { s.atRest with queue := s.queue.tail }

/-- The state of a failed SEEK whose slot, if OPEN, has been halted (R128). -/
def State.seekHalted (s : State) (h : Segment) : State :=
  match h.slot with
  | some k =>
    if (s.group? k).any fun g => g.state == .opened then
      haltSlot k .seekFailed s.own .abrupt false (oweHalt k .seekFailed .abrupt h.tag s.seekStopped)
    else s.seekStopped
  | none => s.seekStopped

theorem seekHalted_of_opened {k : Fin 8} {g : Group} (hk : h.slot = some k) (hg : s.group? k = some g) (ho : g.state = .opened) :
    s.seekHalted h = haltSlot k .seekFailed s.own .abrupt false (oweHalt k .seekFailed .abrupt h.tag s.seekStopped) := by
  rw [State.seekHalted, hk]
  exact if_pos (by rw [hg, Option.any_some, ho]; rfl)

/-- A SEEK fails in four steps: its slot, the Guard, the notice of its end, and the next head (R128). -/
theorem failSeek_eq (h : Segment) (d : Dir) (s : State) : failSeek h d s = settle (evalHead (afterRemoval h.tag .seekFailed 0
    (guardTake d.limitCause (s.seekHalted h).ss.settings.limitMode (s.seekHalted h)))) := by
  have hstopped : ({ pgIdle s with queue := s.queue.tail } : State) = s.seekStopped := rfl
  unfold failSeek State.seekHalted
  cases h.slot with
  | none => rfl
  | some k => rfl

/-- A segment that has left with nothing counted, by a Guard that is not STOPPING, leaves as a head does (R75). -/
theorem afterRemoval_eq {v : State} (hc : h.kind.counts = false) (hg : v.gd.state ≠ .stopping) (o : SegOutcome) :
    afterRemoval h.tag o 0 v = v.leftBy h v.queue o := by
  have hfinish := finishHead_eq (s := { v with queue := h :: v.queue }) (h := h) (rest := v.queue) rfl o
  have hstops : guardStops { v with queue := v.queue } = v := by
    rw [guardStops_eq, if_neg hg]
  have hleft : (({ v with queue := h :: v.queue } : State)).leftBy h v.queue o = v.leftBy h v.queue o := by
    cases hq : v.queue <;> rfl
  rw [hleft] at hfinish
  rw [← hfinish, finishHead]
  show _ = afterRemoval h.tag o (h.notEmitted v.pg) (guardStops { v with queue := v.queue })
  rw [hstops, Segment.notEmitted, hc]
  rfl

/-- With the Guard not NORMAL a head that waits, or none, is neither started nor over (R62, R75). -/
theorem settle_evalHead_of_guarded {w : State} (hg : w.gd.state ≠ .normal)
    (hw : w.queue.head?.all (fun h => h.state == .waiting || h.state == .queued) = true) : settle (evalHead w) = w := by
  have hstays : evalHead w = w := by
    cases hq : w.queue with
    | nil => rw [evalHead, hq]
    | cons x more => exact evalHead_of_not_mayProgress hq (.inr (.inr (.inl hg)))
  rw [hstays, settle_of_nothingOver (headOver_of_not_moving (not_moving_of_waits hw))]

theorem promote_waits (q : List Segment) : (promote q).head?.all (fun h => h.state == .waiting || h.state == .queued) = true := by
  cases q <;> rfl

/-- The halt of the slot of a failed SEEK, whose other segments all wait: its record, its notice and the HALT owed (R92, R93). -/
theorem seekHalted_told {k : Fin 8} {g : Group} (hk : h.slot = some k) (hg : s.group? k = some g) (ho : g.state = .opened)
    (hw : s.queue.tail.head?.all (fun h => h.state == .waiting || h.state == .queued) = true) :
    s.seekHalted h = (oweHalt k .seekFailed .abrupt h.tag s.seekStopped).haltTold k g .seekFailed s.own := by
  have hg' : (oweHalt k .seekFailed .abrupt h.tag s.seekStopped).group? k = some g := (oweHalt_group ..).trans hg
  have hh : (oweHalt k .seekFailed .abrupt h.tag s.seekStopped).slotHalted k = false := by
    rw [State.slotHalted, hg', Option.any_some, ho]
  rw [seekHalted_of_opened hk hg ho, haltSlot_told hg' hh]
  cases hhead : s.seekStopped.headOfSlot? k with
  | none => exact haltHead_of_none ((haltTold_headOfSlot ..).trans ((oweHalt_headOfSlot ..).trans hhead)) ..
  | some x =>
    refine haltHead_of_waits ((haltTold_headOfSlot ..).trans ((oweHalt_headOfSlot ..).trans hhead)) ?_ ..
    obtain ⟨-, rest, hq⟩ := queue_of_headOfSlot hhead
    have hq : s.queue.tail = x :: rest := hq
    rw [hq] at hw
    simpa using hw

/-- What the halt of its slot leaves of a failed SEEK: the waiting segments, and the generator at rest (R128). -/
theorem seekHalted_frame (hw : s.queue.tail.head?.all (fun h => h.state == .waiting || h.state == .queued) = true) :
    (s.seekHalted h).outside = s.outside ∧ (s.seekHalted h).queue = s.queue.tail ∧ (s.seekHalted h).pg = s.pg.resting
      ∧ (s.seekHalted h).pb = s.pb ∧ (s.seekHalted h).gd = s.gd := by
  by_cases ho : ∃ k g, h.slot = some k ∧ s.group? k = some g ∧ g.state = .opened
  · obtain ⟨k, g, hk, hg, ho⟩ := ho
    have hout : (s.seekHalted h).outside = s.outside := by
      rw [seekHalted_of_opened hk hg ho, haltSlot_outside, oweHalt_outside]
      rfl
    rw [hout, seekHalted_told hk hg ho hw, haltTold_queue, haltTold_pg, haltTold_pb, haltTold_gd, oweHalt_queue, oweHalt_pg,
      oweHalt_pb, oweHalt_gd]
    exact ⟨rfl, rfl, rfl, rfl, rfl⟩
  · have hstays : s.seekHalted h = s.seekStopped := by
      unfold State.seekHalted
      split
      · next k hk =>
        refine if_neg fun hany => ho ?_
        obtain ⟨g, hg, hopen⟩ := (Option.any_eq_true ..).1 hany
        exact ⟨k, g, hk, hg, by simpa using hopen⟩
      · rfl
    rw [hstays]
    exact ⟨rfl, rfl, rfl, rfl, rfl⟩

/-- A SEEK that fails with the guard NORMAL: the Guard stops, and the SEEK leaves with SEEK_FAILED (R128). -/
theorem failSeek_eq_leftBy (hn : s.ss.node = .run) (hg : s.gd.state = .normal) (hc : h.kind.counts = false)
    (hw : s.queue.tail.head?.all (fun h => h.state == .waiting || h.state == .queued) = true) (d : Dir) :
    failSeek h d s = (guardLeave d.limitCause s.ss.settings.limitMode (s.seekHalted h)).leftBy h s.queue.tail .seekFailed := by
  obtain ⟨hout, hq, -, -, hgd⟩ := seekHalted_frame (h := h) hw
  have hss : (s.seekHalted h).ss = s.ss := congrArg Outside.ss hout
  have hw' : (s.seekHalted h).queue.head?.all (fun h => h.state == .waiting || h.state == .queued) = true := by rwa [hq]
  obtain ⟨hstopped, -⟩ := guardLeave_not_moving (not_moving_of_waits hw') d.limitCause s.ss.settings.limitMode
  obtain ⟨hqueue, -⟩ := guardLeave_waits hw' d.limitCause s.ss.settings.limitMode
  rw [failSeek_eq, hss, guardTake_of_normal (by rw [hss, hn]) (by rw [hgd, hg])]
  have hremoved := afterRemoval_eq (o := .seekFailed) hc (v := guardLeave d.limitCause s.ss.settings.limitMode (s.seekHalted h))
    (by rw [hstopped]; nofun)
  rw [hqueue, hq] at hremoved
  rw [hremoved]
  refine settle_evalHead_of_guarded ?_ ?_
  · rw [leftBy_gd, hstopped, if_neg (by nofun), hstopped]
    nofun
  · rw [leftBy_queue]
    exact promote_waits _

/-- What a failed SEEK leaves when the Guard was NORMAL (R128, R151, R168). -/
theorem failSeek_leaves (hn : s.ss.node = .run) (hg : s.gd.state = .normal) (hc : h.kind.counts = false) (hq : s.queue = h :: rest)
    (hw : rest.head?.all (fun h => h.state == .waiting || h.state == .queued) = true) (d : Dir) :
    (failSeek h d s).outside = s.outside ∧ (failSeek h d s).pg = s.pg.resting ∧ (failSeek h d s).queue = promote rest
      ∧ (failSeek h d s).pb = s.pb.referredBy rest
      ∧ (failSeek h d s).gd = { s.gd with
          state := .stopped, first := some d.limitCause, causes := d.limitCause.bit, stopMode := some s.ss.settings.limitMode
          den := .low }
      ∧ (failSeek h d s).ru = (s.seekHalted h).ru ∧ (failSeek h d s).tif.owed = (s.seekHalted h).tif.owed
      ∧ ∀ told : State, told.ss = s.ss → told.pb = s.pb → told.pg = s.pg → (s.seekHalted h).outgoing = told.outgoing →
          (failSeek h d s).outgoing
            = ((told.tellsOfFault d.limitCause s.ss.settings.limitMode 0).tellsOfEnd h .seekFailed rest).outgoing := by
  have hw' : s.queue.tail.head?.all (fun h => h.state == .waiting || h.state == .queued) = true := by rwa [hq]
  have hleft := failSeek_eq_leftBy (h := h) hn hg hc hw' d
  obtain ⟨hout, hxq, hxp, hxb, hxg⟩ := seekHalted_frame (h := h) hw'
  have hxs : (s.seekHalted h).ss = s.ss := congrArg Outside.ss hout
  have hwaits : (s.seekHalted h).queue.head?.all (fun h => h.state == .waiting || h.state == .queued) = true := by rwa [hxq]
  have hv := not_moving_of_waits hwaits
  obtain ⟨hstopped, hden, hpg, hpb, -⟩ := guardLeave_not_moving hv d.limitCause s.ss.settings.limitMode
  obtain ⟨-, hru, howed, htold⟩ := guardLeave_waits hwaits d.limitCause s.ss.settings.limitMode
  obtain ⟨hfirst, hcauses, hmode, horiginator⟩ := guardLeave_record d.limitCause s.ss.settings.limitMode (s.seekHalted h)
  have hgd : ∀ g : Gd, g.state = .stopped → g.first = some d.limitCause → g.causes = d.limitCause.bit →
      g.stopMode = some s.ss.settings.limitMode → g.originator = s.gd.originator → g.den = .low → g = { s.gd with
        state := .stopped, first := some d.limitCause, causes := d.limitCause.bit, stopMode := some s.ss.settings.limitMode
        den := .low } := by
    rintro ⟨⟩ rfl rfl rfl rfl rfl rfl
    rfl
  have houtside := guardLeave_outside d.limitCause s.ss.settings.limitMode (s.seekHalted h)
  rw [tellsOfDeparture_stays (not_departsWithSlot_of_waits hwaits), movingTag_of_not_moving hv] at htold
  refine ⟨?_, ?_⟩
  · rw [failSeek_eq, settle_outside, evalHead_outside, afterRemoval_outside, guardTake_outside, hout]
  rw [hleft, hq, List.tail_cons]
  generalize guardLeave d.limitCause s.ss.settings.limitMode (s.seekHalted h) = v at *
  refine ⟨by rw [leftBy_pg, hpg, hxp], leftBy_queue .., by rw [leftBy_pb, hpb, hxb], ?_, by rw [leftBy_ru, hru],
    by rw [leftBy_owed, howed], fun told hts htb htp hto => ?_⟩
  · rw [leftBy_gd, hstopped, if_neg (by nofun)]
    exact hgd v.gd hstopped hfirst hcauses hmode (by rw [horiginator, hxg]) hden
  · rw [leftBy_outgoing]
    refine tellsOfEnd_outgoing_congr ?_ ?_ ?_ ?_ ..
    · rw [tellsOfFault_ss, hts, ← hxs]
      exact congrArg Outside.ss houtside
    · rw [htold]
      exact tellsOfFault_outgoing_congr (hxs.trans hts.symm) hto (by rw [hxb, htb]) ..
    · rw [tellsOfFault_pb, hpb, htb, hxb]
    · rw [tellsOfFault_pg, hpg, hxp, htp]
      rfl

end

/-- Settles O44: the tests by which a pulse is refused, then the end, the turn or the failure of the motion. -/
theorem refusedPulseEndsOrTurnsTheMotion : Obligations.RefusedPulseEndsOrTurnsTheMotion := by
  intro s h rest dir hq hruns hd hreach honly n limit soft range limitCause causes seeks
  have hlimit : s.limitRefuses dir = limit := limitRefuses_eq s dir
  have hrange : s.rangeRefuses dir = range := rangeRefuses_eq s dir
  have hcause : dir.limitCause = limitCause := dir.limitCause_eq
  have hcauses : s.pulseCauses h.kind dir = causes := by
    rw [State.pulseCauses, hlimit, hrange, hcause, softRefuses_eq, ← Bool.and_assoc]
  have hrefused (hne : causes ≠ []) := execIntervalEnd_of_refused hq hruns hd (carriesPulse_of_reached hreach) (by rwa [hcauses])
  refine ⟨fun hne hends => ?_, fun hl hr hseeks spec p x hk hx => ?_⟩
  · rw [hrefused hne, hcauses]
    exact congrArg Host.Outcome.next (refusePulse_ends (hends.imp_right hrange.trans) causes)
  · have hne : causes ≠ [] := by
      intro hnil
      have hnil : (if limit = true then [(limitCause, s.ss.settings.limitMode)] else []) ++ _ ++ _ = [] := hnil
      rw [if_pos hl] at hnil
      cases hnil
    have hrefuse := hrefused hne
    rw [refusePulse_seek hk hx hseeks (hrange.trans hr)] at hrefuse
    refine ⟨fun hback hfirst => ?_, fun hno hg => ?_⟩
    · intro back
      have hopposite : dir.opposite = back := by cases dir <;> rfl
      rw [hrefuse, hback, hfirst, ← hopposite]
      exact congrArg Host.Outcome.next (reverseSeek_eq dir p s)
    · have hfails : (spec.reverse && !x.reversed) = false := by
        obtain hno | hno := hno <;> simp [hno]
      rw [hfails, if_neg Bool.false_ne_true] at hrefuse
      obtain ⟨-, -, hn, -, hlink⟩ := intervalRuns_iff.1 hruns
      have hw : rest.head?.all (fun h => h.state == .waiting || h.state == .queued) = true := by
        rw [State.onlyHeadMoves, hq, List.tail_cons] at honly
        cases rest with
        | nil => rfl
        | cons y more =>
          rw [List.all_cons, Bool.and_eq_true, beq_iff_eq] at honly
          simp [honly]
      obtain ⟨hout, hpg, hqueue, hpb, hgd, hru, howed, htells⟩ :=
        failSeek_leaves hn hg (h := h) (by rw [hk]; rfl) hq hw dir
      rw [hcause] at hgd htells
      refine ⟨failSeek h dir s, hrefuse, hout, hpg, hqueue, hpb, hgd, fun hslot => ?_, fun k g hslot hgroup hopen => ?_⟩
      · have hstays : s.seekHalted h = s.seekStopped := by
          rw [State.seekHalted, hslot]
        rw [hru, howed, htells s rfl rfl rfl (by rw [hstays]; rfl), hstays]
        exact ⟨rfl, rfl, rfl⟩
      · have htold := seekHalted_told hslot hgroup hopen (by rwa [hq])
        have hgroup' : s.seekStopped.group? k = some g := hgroup
        have hh : s.seekStopped.slotHalted k = false := by
          rw [State.slotHalted, hgroup', Option.any_some, hopen]
        have hout : (s.seekHalted h).outgoing = (s.tellsOfHalt k .seekFailed s.own).outgoing := by
          rw [htold, oweHalt_haltTold_outgoing hgroup' hh]
          exact tellsOfHalt_outgoing_congr (t := s.seekStopped) (s := s) rfl rfl rfl k .seekFailed s.own
        refine ⟨?_, htells _ (by simp) (by simp) (by simp) hout, fun hfree => ?_⟩
        · rw [hru, htold, haltTold_ru, oweHalt_ru, Ru.halting, if_neg (by rw [hopen]; nofun)]
          rfl
        · rw [howed, htold, haltTold_owed, oweHalt, if_neg]
          · rfl
          · rintro (hsilent | howes)
            · exact hlink hsilent
            · rw [show s.seekStopped.tif.owed[k] = none from hfree] at howes
              cases howes

end Sys2Proof.Machine
end

