-- ==== Sys2Proof/Proofs/FrameReadback.lean ====
section
/-! PROOFS. A command written as its frame reads back as that command (R26 to R33, R37). -/

namespace Sys2Proof.Machine

/-! ### Numbers of several bytes -/

theorem word2_bytes2 (x : BitVec 16) : word2 (x.extractLsb' 8 8) (x.extractLsb' 0 8) = x := by
  rw [word2, BitVec.extractLsb'_append_extractLsb'_eq_extractLsb' (start₂ := 8) (start₁ := 0) rfl]
  exact BitVec.extractLsb'_eq_self

theorem word3_bytes3 (x : BitVec 24) : word3 (x.extractLsb' 16 8) (x.extractLsb' 8 8) (x.extractLsb' 0 8) = x := by
  rw [word3, BitVec.extractLsb'_append_extractLsb'_eq_extractLsb' (start₂ := 16) (start₁ := 8) rfl,
    BitVec.extractLsb'_append_extractLsb'_eq_extractLsb' (start₂ := 8) (start₁ := 0) rfl]
  exact BitVec.extractLsb'_eq_self

theorem word4_bytes4 (x : BitVec 32) :
    word4 (x.extractLsb' 24 8) (x.extractLsb' 16 8) (x.extractLsb' 8 8) (x.extractLsb' 0 8) = x := by
  rw [word4, BitVec.extractLsb'_append_extractLsb'_eq_extractLsb' (start₂ := 24) (start₁ := 16) rfl,
    BitVec.extractLsb'_append_extractLsb'_eq_extractLsb' (start₂ := 16) (start₁ := 8) rfl,
    BitVec.extractLsb'_append_extractLsb'_eq_extractLsb' (start₂ := 8) (start₁ := 0) rfl]
  exact BitVec.extractLsb'_eq_self

/-- Eight bytes are two times four (R26). -/
theorem word8_eq (a b c d e f g h : Byte) : word8 a b c d e f g h = word4 a b c d ++ word4 e f g h := by
  simp only [word8, word4]
  ext j hj
  simp only [BitVec.getElem_append]
  grind

theorem word8_bytes8 (x : BitVec 64) :
    word8 ((x.extractLsb' 32 32).extractLsb' 24 8) ((x.extractLsb' 32 32).extractLsb' 16 8)
      ((x.extractLsb' 32 32).extractLsb' 8 8) ((x.extractLsb' 32 32).extractLsb' 0 8)
      ((x.extractLsb' 0 32).extractLsb' 24 8) ((x.extractLsb' 0 32).extractLsb' 16 8)
      ((x.extractLsb' 0 32).extractLsb' 8 8) ((x.extractLsb' 0 32).extractLsb' 0 8) = x := by
  rw [word8_eq, word4_bytes4, word4_bytes4,
    BitVec.extractLsb'_append_extractLsb'_eq_extractLsb' (start₂ := 32) (start₁ := 0) rfl]
  exact BitVec.extractLsb'_eq_self

/-! ### The payloads of LOAD and SETUP -/

theorem profileOfBytes_bytes (p : RawProfile) : profileOfBytes p.bytes = some p := by
  simp only [RawProfile.bytes, bytes3, List.cons_append, List.nil_append, profileOfBytes, word3_bytes3]

theorem bodyOfBytes_bytes (b : LoadBody) : bodyOfBytes b.code b.bytes = some b := by
  have hprofile (p : RawProfile) := profileOfBytes_bytes p
  cases b <;> simp [LoadBody.code, LoadBody.bytes, bodyOfBytes, bytes4, bytes3, bytes2, word4_bytes4, word3_bytes3, word2_bytes2, hprofile]

theorem setupOfBytes_bytes (f : SetupFields) : setupOfBytes f.bytes = some f := by
  simp only [SetupFields.bytes, bytes2, bytes4, List.cons_append, List.nil_append, setupOfBytes, word2_bytes2, word4_bytes4]

/-! ### The command by destination -/

section
variable {own : StationId} {straps : Straps} {qi : Level} {f : Frame}

/-- A request to the node is read by its payload (R37). -/
theorem commandOf_request (hd : f.dest = destStation own) (hr : f.isRequest = true) :
    commandOf own straps qi f = requestOf f.kind f.source qi f.payload := by
  rw [commandOf, hd, if_pos (destType_destStation own), destNumber_destStation, hr]
  exact if_pos (by simp)

theorem destType_destGroup (g : GroupAddr) : destType (destGroup g) = 1 := by
  revert g
  decide

theorem destNumber_destGroup (g : GroupAddr) : destNumber (destGroup g) = g := by
  revert g
  decide

/-- A coordination frame for a group is read by its kind (R37). -/
theorem commandOf_group {g : GroupAddr} (hd : f.dest = destGroup g) :
    commandOf own straps qi f =
      if f.kind = kindHalt then
        match f.payload with
        | [cause, mode, tag] => some (.haltGroupTaken f.source g cause mode tag)
        | _ => none
      else if f.kind = kindClear then
        match f.payload with
        | [n] => some (.clearGroupTaken f.source g n)
        | _ => none
      else if f.kind = kindReady then
        match f.payload with
        | [n, tag] => some (.readyTaken f.source g n tag)
        | _ => none
      else none := by
  rw [commandOf, hd, destType_destGroup, destNumber_destGroup]
  rfl

/-- A frame for ALL is read by its kind (R37). -/
theorem commandOf_all (hd : f.dest = destAll) :
    commandOf own straps qi f =
      if f.kind = kindHalt then
        match f.payload with
        | [cause, mode, tag] => some (.haltAllTaken f.source cause mode tag)
        | _ => none
      else if f.kind = kindClear then
        match f.payload with
        | [n] => some (.clearAllTaken f.source n)
        | _ => none
      else if f.kind = kindRestart then some (.restartTaken f.source straps)
      else if f.kind = kindMark then
        match f.payload with
        | [unit, packed, a, b, c, d] => some (.markTaken f.source unit packed (word4 a b c d))
        | _ => none
      else some (.frameTakenNoEffect f) := by
  have htype : destType destAll = 2 := by decide
  rw [commandOf, hd, htype]
  rfl

/-- A frame of a request kind other than CLEAR is a request, whatever its destination (section 2.2). -/
theorem requestFrame_isRequest {kind : BitVec 4} (hr : isRequestKind kind.toNat = true) (hk : kind ≠ kindClear)
    (source : StationId) (payload : List Byte) : (requestFrame kind source own payload).isRequest = true :=
  Bool.and_eq_true_iff.2 ⟨hr, Bool.or_eq_true_iff.2 (.inl (bne_iff_ne.2 hk))⟩

end

/-- Settles O55: each frame command by its destination and its payload. -/
theorem commandsReadBackFromTheirFrames : Obligations.CommandsReadBackFromTheirFrames := by
  intro own straps qi c f hf hno hstraps hqi
  have hrequest (kind : BitVec 4) (hr : isRequestKind kind.toNat = true) (hk : kind ≠ kindClear) (source : StationId)
      (payload : List Byte) : commandOf own straps qi (requestFrame kind source own payload) = requestOf kind source qi payload :=
    commandOf_request rfl (requestFrame_isRequest hr hk source payload)
  cases c <;> cases hf
  case restartTaken source x =>
    rw [hstraps source x rfl]
    exact commandOf_all rfl
  case frameTakenNoEffect => exact absurd rfl (hno f)
  case haltGroupTaken => exact commandOf_group rfl
  case haltAllTaken => exact commandOf_all rfl
  case clearGroupTaken => exact commandOf_group rfl
  case clearAllTaken => exact commandOf_all rfl
  case clearStationTaken =>
    exact commandOf_request rfl (Bool.and_eq_true_iff.2 ⟨rfl, Bool.or_eq_true_iff.2 (.inr (beq_iff_eq.2 (destType_destStation own)))⟩)
  case readyTaken => exact commandOf_group rfl
  case markTaken source unit packed position =>
    refine (commandOf_all rfl).trans ?_
    exact congrArg (fun x => some (Instr.markTaken source unit packed x)) (word4_bytes4 position)
  case load source reference r =>
    rw [hrequest kindLoad (by decide) (by decide)]
    show (bodyOfBytes r.body.code r.body.bytes).map _ = _
    rw [bodyOfBytes_bytes]
    rfl
  case setup source reference f =>
    rw [hrequest kindSetup (by decide) (by decide)]
    show (setupOfBytes f.bytes).map _ = _
    rw [setupOfBytes_bytes]
    rfl
  case marksetArm source reference unit sc t p =>
    rw [hrequest kindMarkset (by decide) (by decide)]
    show some (Instr.marksetArm source reference unit sc (word4 ..) (word3 ..)) = _
    rw [word4_bytes4, word3_bytes3]
  case marksetDisarm source reference unit x =>
    rw [hrequest kindMarkset (by decide) (by decide)]
    exact congrArg (fun x => some (Instr.marksetDisarm source reference unit x)) (word8_bytes8 x)
  case define source reference slot address roster =>
    rw [hrequest kindDefine (by decide) (by decide)]
    exact congrArg (fun x => some (Instr.define source reference slot address x)) (word8_bytes8 roster)
  case queryStatus source reference item x =>
    rw [hqi source reference item x rfl]
    exact hrequest kindQuery (by decide) (by decide) source _
  case flushAll | flushTag | flushSlot => exact hrequest kindFlush (by decide) (by decide) _ _
  case stop => exact hrequest kindStop (by decide) (by decide) _ _
  case commit => exact hrequest kindCommit (by decide) (by decide) _ _
  case queryPosition | queryQueue | queryGroup | queryMarks | querySetup => exact hrequest kindQuery (by decide) (by decide) _ _

end Sys2Proof.Machine
end

