-- ==== Sys2Proof/Proofs/Receiver.lean ====
section
/-! PROOFS. The receiver follows the coded bits of a frame: how insert bits are read, and where an error is found (R2,
R3, R6). -/

namespace Sys2Proof.Machine
open scoped Host.Outcome

/-! ### Coded bits, one data bit at a time -/

theorem stuffFrom_cons {run : Nat} (hr : run ≠ 7) (last b : TrunkBit) (rest : List TrunkBit) :
    stuffFrom last run (b :: rest) = b :: stuffFrom b (if b = last then run + 1 else 1) rest := by
  rw [stuffFrom]
  exact if_neg hr

theorem stuffFrom_nil {run : Nat} (hr : run ≠ 7) (last : TrunkBit) : stuffFrom last run [] = [] := by
  rw [stuffFrom]
  exact if_neg hr

/-- After a full run an insert bit is sent, and a new run begins with it (R2). -/
theorem stuffFrom_full (last : TrunkBit) (rest : List TrunkBit) :
    stuffFrom last 7 rest = (!last) :: stuffFrom (!last) 1 rest := by
  cases rest with
  | nil => rfl
  | cons b rest =>
    rw [stuffFrom_cons (last := !last) (by decide), stuffFrom, if_pos (show 7 = Config.insertAfter from rfl)]
    cases b <;> cases last <;> rfl

/-! ### One bit read -/

/-- What a receiver makes of a data bit that is not an insert bit (R3, R6). -/
def afterBit (data : List TrunkBit) (last : TrunkBit) (run : Nat) : Rx :=
  if data.length = 26 && decide (29 ≤ lengthCode data) then .failed
  else if dataComplete data && run != 7 then .whole data
  else .reading data last run

section
variable {data : List TrunkBit} {last b : TrunkBit} {run : Nat}

theorem rxStep_data (hr : run ≠ 7) (hd : data ≠ []) :
    rxStep (.reading data last run) b = afterBit (data ++ [b]) b (if b = last then run + 1 else 1) := by
  rw [rxStep, if_neg (show ¬ run = Config.insertAfter from hr), if_neg (by simp [hd])]
  rfl

/-- The start bit (R5). -/
theorem rxStep_start : rxStep (.reading [] recessive 0) dominant = .reading [dominant] dominant 1 := by decide

theorem rxStep_idle : rxStep (.reading [] recessive 0) recessive = .reading [] recessive 0 := by decide

/-- After 7 equal bits the next is an insert bit, or an error if it is the eighth (R2, R3). -/
theorem rxStep_insert : rxStep (.reading data last 7) b
    = if b = last then .failed else if dataComplete data then .whole data else .reading data b 1 := rfl

end

/-! ### What has been read -/

/-- A receiver that is still reading these bits: an idle line only, or a part of a frame whose coded bits they are, with a
run of equal bits at their end (R2). -/
def Reads (bits data : List TrunkBit) (last : TrunkBit) (run : Nat) : Prop :=
  (data = [] ∧ last = recessive ∧ run = 0 ∧ bits = List.replicate bits.length recessive)
    ∨ (data.head? = some dominant ∧ 1 ≤ run ∧ run ≤ 7
      ∧ (∃ pre : List TrunkBit, bits = pre ++ List.replicate run last ∧ pre.getLast? ≠ some last)
      ∧ ∃ (idle : Nat) (coded : List TrunkBit), bits = List.replicate idle recessive ++ coded
          ∧ ∀ rest, stuff (data ++ rest) = coded ++ stuffFrom last run rest)

section
variable {bits data : List TrunkBit} {last b : TrunkBit} {run : Nat}

/-- A run goes on, or a new one begins. -/
theorem run_append (h : ∃ pre : List TrunkBit, bits = pre ++ List.replicate run last ∧ pre.getLast? ≠ some last)
    (hrun : 1 ≤ run) : ∃ pre : List TrunkBit, bits ++ [b] = pre ++ List.replicate (if b = last then run + 1 else 1) b
      ∧ pre.getLast? ≠ some b := by
  obtain ⟨pre, rfl, hpre⟩ := h
  by_cases hb : b = last
  · subst hb
    rw [if_pos rfl]
    exact ⟨pre, by rw [List.append_assoc, ← List.replicate_succ'], hpre⟩
  · rw [if_neg hb]
    refine ⟨pre ++ List.replicate run last, rfl, ?_⟩
    obtain ⟨n, rfl⟩ := Nat.exists_eq_succ_of_ne_zero (by omega : run ≠ 0)
    rw [List.replicate_succ', ← List.append_assoc, List.getLast?_concat]
    exact fun h => hb (Option.some.inj h).symm

theorem afterBit_eq_reading {d : List TrunkBit} {l : TrunkBit} {r : Nat} (h : afterBit data last run = .reading d l r) :
    d = data ∧ l = last ∧ r = run := by
  unfold afterBit at h
  split_ifs at h
  cases h
  exact ⟨rfl, rfl, rfl⟩

/-- One bit more, and still reading. -/
theorem Reads.step (h : Reads bits data last run) {d : List TrunkBit} {l : TrunkBit} {r : Nat}
    (hs : rxStep (.reading data last run) b = .reading d l r) : Reads (bits ++ [b]) d l r := by
  obtain ⟨rfl, rfl, rfl, hidle⟩ | ⟨hhead, hpos, hfull, hrun, idle, coded, hbits, hcoded⟩ := h
  · cases b with
    | true =>
      cases rxStep_idle.symm.trans hs
      refine .inl ⟨rfl, rfl, rfl, ?_⟩
      rw [List.length_append, List.length_singleton, List.replicate_succ', ← hidle]
    | false =>
      cases rxStep_start.symm.trans hs
      refine .inr ⟨rfl, Nat.le_refl 1, by decide, ⟨bits, rfl, ?_⟩, bits.length, [dominant], by rw [← hidle], fun rest => rfl⟩
      rw [hidle, List.getLast?_replicate]
      split <;> simp
  · by_cases hr : run = 7
    · subst hr
      rw [rxStep_insert] at hs
      split_ifs at hs with hb hc
      cases hs
      have hb : b = !last := by cases b <;> cases last <;> simp_all
      have hnext := run_append (b := b) hrun hpos
      rw [if_neg (by rw [hb]; cases last <;> nofun)] at hnext
      refine .inr ⟨hhead, Nat.le_refl 1, by decide, hnext, idle, coded ++ [b], by rw [hbits, List.append_assoc], fun rest => ?_⟩
      rw [hcoded, stuffFrom_full, ← hb, List.append_assoc]
      rfl
    · have hd : data ≠ [] := by rintro rfl; cases hhead
      rw [rxStep_data hr hd] at hs
      obtain ⟨rfl, rfl, rfl⟩ := afterBit_eq_reading hs
      refine .inr ⟨by rw [List.head?_append, hhead]; rfl, by split <;> omega, by split <;> omega, run_append hrun hpos, idle, coded ++ [l],
        by rw [hbits, List.append_assoc], fun rest => ?_⟩
      rw [List.append_assoc, hcoded, List.append_assoc]
      exact congrArg (coded ++ ·) (stuffFrom_cons hr last l rest)

theorem receive_concat (bits : List TrunkBit) (b : TrunkBit) : receive (bits ++ [b]) = rxStep (receive bits) b := by
  rw [receive, List.foldl_append]
  rfl

/-- What a receiver that is still reading has read (R2). -/
theorem reads_of_receive (h : receive bits = .reading data last run) : Reads bits data last run := by
  induction bits using List.reverseRecOn generalizing data last run with
  | nil =>
    cases h
    exact .inl ⟨rfl, rfl, rfl, rfl⟩
  | append_singleton bits b ih =>
    rw [receive_concat] at h
    cases hx : receive bits with
    | reading d l r =>
      rw [hx] at h
      exact (ih hx).step h
    | failed => rw [hx] at h; cases h
    | whole d => rw [hx] at h; cases h
    | overrun => rw [hx] at h; cases h

end

/-! ### The coded bits of a frame are read as its data bits -/

/-- No part of these data bits is an error or a whole frame before its end. -/
def ReadsOn (data : List TrunkBit) : Prop :=
  ∀ part, part <+: data → (part.length = 26 → lengthCode part ≤ 28) ∧ (part ≠ data → dataComplete part = false)

section
variable {data : List TrunkBit}

theorem afterBit_of_readsOn (h : ReadsOn data) {part : List TrunkBit} (hp : part <+: data) (last : TrunkBit) (run : Nat) :
    afterBit part last run = if dataComplete part && run != 7 then .whole part else .reading part last run := by
  obtain ⟨hcode, -⟩ := h part hp
  rw [afterBit, if_neg]
  intro he
  obtain ⟨hlen, hover⟩ := Bool.and_eq_true_iff.1 he
  have := hcode (beq_iff_eq.1 hlen)
  have := of_decide_eq_true hover
  omega

theorem foldl_stuffFrom_full (part : List TrunkBit) (last : TrunkBit) (rest : List TrunkBit) :
    (stuffFrom last 7 rest).foldl rxStep (.reading part last 7)
      = (stuffFrom (!last) 1 rest).foldl rxStep (if dataComplete part then .whole part else .reading part (!last) 1) := by
  rw [stuffFrom_full, List.foldl_cons, rxStep_insert, if_neg (by cases last <;> nofun)]

/-- What a receiver makes of the coded bits after a first part of the data bits (R2, R6). -/
theorem foldl_stuffFrom (h : ReadsOn data) (rest : List TrunkBit) {part : List TrunkBit} (hne : part ≠ [])
    (hdata : part ++ rest = data) (last : TrunkBit) (run : Nat) :
    ∃ l r, r ≠ 7 ∧ (stuffFrom last run rest).foldl rxStep (afterBit part last run)
      = if dataComplete data then .whole data else .reading data l r := by
  induction rest generalizing part last run with
  | nil =>
    rw [List.append_nil] at hdata
    subst hdata
    rw [afterBit_of_readsOn h (List.prefix_refl part)]
    by_cases hr : run = 7
    · subst hr
      rw [Bool.and_comm, if_neg nofun, foldl_stuffFrom_full, stuffFrom_nil (by decide)]
      exact ⟨!last, 1, by decide, rfl⟩
    · rw [bne_iff_ne.2 hr, Bool.and_true, stuffFrom_nil hr]
      exact ⟨last, run, hr, rfl⟩
  | cons b rest ih =>
    have hpart : part <+: data := ⟨_, hdata⟩
    have ⟨_, hproper⟩ := h part hpart
    have hmore : dataComplete part = false := hproper fun he => by
      rw [he] at hdata
      simp at hdata
    have hgoes (l : TrunkBit) (r : Nat) (hr : r ≠ 7) := ih (part := part ++ [b]) (by simp) (by simpa using hdata) b (if b = l then r + 1 else 1)
    rw [afterBit_of_readsOn h hpart, hmore, Bool.false_and, if_neg Bool.false_ne_true]
    by_cases hr : run = 7
    · subst hr
      rw [foldl_stuffFrom_full, hmore, if_neg Bool.false_ne_true, stuffFrom_cons (by decide), List.foldl_cons, rxStep_data (by decide) hne]
      exact hgoes (!last) 1 (by decide)
    · rw [stuffFrom_cons hr, List.foldl_cons, rxStep_data hr hne]
      exact hgoes last run hr

/-- What a receiver makes of the coded bits of data bits that begin with a start bit (R2, R5, R6). -/
theorem receive_stuff (h : ReadsOn data) (hd : data.head? = some dominant) :
    ∃ l r, r ≠ 7 ∧ receive (stuff data) = if dataComplete data then .whole data else .reading data l r := by
  obtain ⟨rest, rfl⟩ := List.head?_eq_some_iff.1 hd
  have hfold := foldl_stuffFrom h rest (part := [dominant]) (by simp) rfl dominant 1
  rwa [afterBit_of_readsOn h ⟨rest, rfl⟩] at hfold

end

/-! ### Where an error is found -/

theorem dataComplete_of_short {data : List TrunkBit} (h : data.length ≤ 25) : dataComplete data = false := by
  rw [dataComplete, decide_eq_false (by omega), Bool.false_and]

/-- Data bits up to the one before the end of the length field are read on. -/
theorem readsOn_of_short {data : List TrunkBit} (h : data.length ≤ 25) : ReadsOn data := fun part hp =>
  have hle := hp.length_le
  ⟨fun hlen => by omega, fun _ => dataComplete_of_short (by omega)⟩

theorem lengthCode_of_header {data : List TrunkBit} (h : data.length = 26) : lengthCode data = natOfBits (data.drop 21) := by
  rw [lengthCode, List.take_of_length_le (by rw [List.length_drop]; omega)]

/-- The last bit of a length field is judged (R3). -/
theorem afterBit_header {data : List TrunkBit} (h : data.length = 26) (last : TrunkBit) (run : Nat) :
    afterBit data last run = .failed ↔ 29 ≤ natOfBits (data.drop 21) := by
  rw [← lengthCode_of_header h, afterBit, h]
  by_cases hc : 29 ≤ lengthCode data
  · simp [hc]
  · rw [if_neg (by simpa using hc)]
    split <;> simp [hc]

theorem afterBit_of_failed {data : List TrunkBit} {last : TrunkBit} {run : Nat} (h : afterBit data last run = .failed) :
    data.length = 26 := by
  unfold afterBit at h
  split_ifs at h with hc
  obtain ⟨hlen, -⟩ := Bool.and_eq_true_iff.1 hc
  exact beq_iff_eq.1 hlen

theorem breaksAtLast_concat (bits : List TrunkBit) (b : TrunkBit) :
    breaksAtLast (bits ++ [b]) = true ↔ rxStep (receive bits) b = .failed ∧ receive bits ≠ .failed := by
  rw [breaksAtLast, receive_concat, List.dropLast_concat]
  simp

/-- A receiver that has read seven equal bits, and not of an idle line, is at the end of a full run (R2). -/
theorem full_run_of_replicate {bits data : List TrunkBit} {b last : TrunkBit} {run : Nat} (hb : dominant ∈ bits ∨ b = dominant)
    (h : Reads (bits ++ List.replicate 7 b) data last run) : run = 7 ∧ last = b := by
  obtain ⟨-, -, -, hidle⟩ | ⟨-, hpos, hfull, ⟨pre, hrun, hpre⟩, -⟩ := h
  · have hall := List.eq_replicate_iff.1 hidle
    obtain ⟨-, hall⟩ := hall
    have hdominant : dominant ∈ bits ++ List.replicate 7 b := by
      obtain hb | hb := hb
      · exact List.mem_append_left _ hb
      · exact List.mem_append_right _ (by rw [hb]; simp)
    cases hall dominant hdominant
  · obtain ⟨n, rfl⟩ := Nat.exists_eq_add_of_le' hpos
    have hlast : b = last := by
      simpa [List.getLast?_append, List.getLast?_replicate] using congrArg List.getLast? hrun
    subst hlast
    refine ⟨?_, rfl⟩
    by_contra hne
    obtain ⟨m, hm⟩ := Nat.exists_eq_add_of_lt (show n + 1 < 7 by omega)
    rw [hm, Nat.add_comm (n + 1) m, Nat.add_right_comm, ← List.replicate_append_replicate, ← List.append_assoc] at hrun
    have hpre' := List.append_cancel_right hrun
    exact hpre (by rw [← hpre', List.replicate_succ', ← List.append_assoc, List.getLast?_concat])

/-- Settles O13: the rows by their conditions, then where a receiver finds an error and where it does not. -/
theorem codingErrorDrivesABreak : Obligations.CodingErrorDrivesABreak := by
  refine ⟨fun gap bits s hr hb => ?_, fun t ht => congrArg Host.Outcome.next (if_neg ht), fun bits s hl hs hno => ?_, fun s hs => ?_,
    fun bits b hb ⟨data, last, run, h⟩ => ?_, fun idle header b hlen hhead => ?_, fun bits h => ?_⟩
  · obtain ⟨m, hm⟩ := hr.decodes bits
    obtain ⟨hl, hleft⟩ := hears_iff.1 hr.hears
    refine congrArg Host.Outcome.next (if_pos ⟨hl, hleft, ?_⟩)
    rw [hm, Option.any_some]
    exact breaksAtLast_recessives m hb
  · refine ⟨codingError_of_skips hs hno, fun a b => ?_, fun hleft f => ?_⟩
    · refine congrArg Host.Outcome.next ?_
      split_ifs with hears
      · obtain ⟨-, hzero⟩ := hears
        rw [decodes_eq_none hs (hno.resolve_left fun hne => hne hzero)]
        rfl
      · rfl
    · simp [State.takes, hl, hleft]
  · obtain ⟨hl, -⟩ := hears_iff.1 hs
    rw [taken_of_listening hl]
    rfl
  · obtain ⟨rfl, rfl⟩ := full_run_of_replicate hb (reads_of_receive h)
    rw [List.replicate_succ', ← List.append_assoc, breaksAtLast_concat, h, rxStep_insert, if_pos rfl]
    exact ⟨rfl, nofun⟩
  · obtain ⟨l, r, hr, hreceive⟩ := receive_stuff (readsOn_of_short (Nat.le_of_eq hlen)) hhead
    rw [dataComplete_of_short (Nat.le_of_eq hlen), if_neg Bool.false_ne_true] at hreceive
    rw [breaksAtLast_concat, receive_recessives, hreceive, rxStep_data hr (by rintro rfl; cases hhead)]
    exact (and_iff_left nofun).trans (afterBit_header (by rw [List.length_append, hlen]; rfl) ..)
  · obtain rfl | ⟨bits, b, rfl⟩ := bits.eq_nil_or_concat'
    · cases h
    obtain ⟨hfail, hreads⟩ := (breaksAtLast_concat bits b).1 h
    cases hx : receive bits with
    | failed => exact absurd hx hreads
    | whole data => rw [hx] at hfail; cases hfail
    | overrun => rw [hx] at hfail; cases hfail
    | reading data last run =>
      rw [hx] at hfail
      obtain ⟨rfl, rfl, rfl, -⟩ | ⟨hhead, -, -, ⟨pre, hrun, -⟩, idle, coded, hbits, hcoded⟩ := reads_of_receive hx
      · cases b <;> cases hfail
      by_cases hr : run = 7
      · subst hr
        rw [rxStep_insert] at hfail
        split_ifs at hfail with hb
        subst hb
        exact .inl ⟨pre, b, by rw [hrun, List.append_assoc, ← List.replicate_succ']⟩
      · rw [rxStep_data hr (by rintro rfl; cases hhead)] at hfail
        have hlen := afterBit_of_failed hfail
        rw [List.length_append, List.length_singleton] at hlen
        have hwhole := hcoded []
        rw [List.append_nil, stuffFrom_nil hr, List.append_nil] at hwhole
        exact .inr ⟨idle, data, b, by omega, hhead, by rw [hwhole, hbits]⟩

end Sys2Proof.Machine
end

