-- ==== Sys2Proof/Proofs/FrameBits.lean ====
section
/-! PROOFS. The coded bits of a frame read back as that frame with a check that agrees (R2, R6, R7). -/

namespace Sys2Proof.Machine

/-! ### Fields as bits -/

@[simp] theorem length_bitsOf {w : Nat} (x : BitVec w) : (bitsOf x).length = w := by
  simp [bitsOf]

theorem natOfBits_concat (bits : List TrunkBit) (b : TrunkBit) : natOfBits (bits ++ [b]) = 2 * natOfBits bits + b.toNat := by
  rw [natOfBits, List.foldl_append]
  rfl

/-- The bits of a number from bit w - 1 down spell its rest modulo 2^w (R6). -/
theorem natOfBits_testBits (n w : Nat) : natOfBits ((List.range w).reverse.map fun i => n.testBit i) = n % 2 ^ w := by
  induction w generalizing n with
  | zero => simp [natOfBits, Nat.mod_one]
  | succ w ih =>
    rw [List.range_succ_eq_map, List.reverse_cons, List.map_append, ← List.map_reverse, List.map_map]
    have hshift : (fun i => n.testBit i) ∘ Nat.succ = fun i => (n / 2).testBit i := by
      funext i
      exact Nat.testBit_succ ..
    rw [hshift, List.map_singleton, natOfBits_concat, ih, Nat.testBit_zero, Nat.pow_succ']
    have := Nat.mod_mul (x := n) (a := 2) (b := 2 ^ w)
    obtain h | h := Nat.mod_two_eq_zero_or_one n <;> simp [h] <;> omega

theorem natOfBits_bitsOf {w : Nat} (x : BitVec w) : natOfBits (bitsOf x) = x.toNat := by
  have h := natOfBits_testBits x.toNat w
  rwa [Nat.mod_eq_of_lt x.isLt] at h

/-- A field's bits spell it (R6). -/
theorem ofBits_bitsOf {w : Nat} (x : BitVec w) : ofBits w (bitsOf x) = x := by
  rw [ofBits, natOfBits_bitsOf]
  simp

@[simp] theorem length_flatMap_bitsOf (payload : List Byte) : (payload.flatMap bitsOf).length = 8 * payload.length := by
  induction payload with
  | nil => rfl
  | cons b rest ih =>
    rw [List.flatMap_cons, List.length_append, length_bitsOf, ih, List.length_cons]
    omega

/-- The payload's bytes read back, whatever follows them (R6). -/
theorem payloadOf_flatMap (payload : List Byte) (more : List TrunkBit) :
    payloadOf payload.length (payload.flatMap bitsOf ++ more) = payload := by
  induction payload with
  | nil => rfl
  | cons b rest ih =>
    rw [List.flatMap_cons, List.append_assoc, List.length_cons, payloadOf, List.take_left' (length_bitsOf b),
      List.drop_left' (length_bitsOf b), ofBits_bitsOf, ih]

/-! ### The fields of a frame's data bits -/

section
variable (f : Frame)

/-- The bits of Table 1-2, with what follows each of the fields. -/
theorem dataBits_eq : f.dataBits = [dominant] ++ (bitsOf f.cls ++ (bitsOf f.kind ++ (bitsOf f.source ++ (bitsOf f.dest
    ++ (bitsOf (BitVec.ofNat 5 f.payload.length) ++ (f.payload.flatMap bitsOf ++ bitsOf (crc f.checkedBits))))))) := by
  simp only [Frame.dataBits, Frame.checkedBits, List.append_assoc, List.singleton_append]

theorem dataBits_class : (f.dataBits.drop 1).take 2 = bitsOf f.cls := by
  rw [dataBits_eq]
  simp

theorem dataBits_kind : (f.dataBits.drop 3).take 4 = bitsOf f.kind := by
  rw [dataBits_eq]
  simp

theorem dataBits_source : (f.dataBits.drop 7).take 6 = bitsOf f.source := by
  rw [dataBits_eq]
  simp [List.drop_append, List.drop_eq_nil_of_le]

theorem dataBits_dest : (f.dataBits.drop 13).take 8 = bitsOf f.dest := by
  rw [dataBits_eq]
  simp [List.drop_append, List.drop_eq_nil_of_le]

theorem dataBits_length : (f.dataBits.drop 21).take 5 = bitsOf (BitVec.ofNat 5 f.payload.length) := by
  rw [dataBits_eq]
  simp [List.drop_append, List.drop_eq_nil_of_le]

theorem dataBits_payload : f.dataBits.drop 26 = f.payload.flatMap bitsOf ++ bitsOf (crc f.checkedBits) := by
  rw [dataBits_eq]
  simp [List.drop_append, List.drop_eq_nil_of_le]

theorem length_checkedBits : f.checkedBits.length = 25 + 8 * f.payload.length := by
  simp [Frame.checkedBits]
  omega

theorem length_dataBits : f.dataBits.length = 42 + 8 * f.payload.length := by
  rw [Frame.dataBits, List.length_cons, List.length_append, length_checkedBits, length_bitsOf]
  omega

end

section
variable {f : Frame}

theorem lengthCode_dataBits (h : f.payload.length ≤ 28) : lengthCode f.dataBits = f.payload.length := by
  rw [lengthCode, dataBits_length, natOfBits_bitsOf, BitVec.toNat_ofNat, Nat.mod_eq_of_lt (by omega)]

theorem frameOfData_dataBits (h : f.payload.length ≤ 28) : frameOfData f.dataBits = f := by
  rw [frameOfData, dataBits_class, dataBits_kind, dataBits_source, dataBits_dest, dataBits_payload, lengthCode_dataBits h,
    payloadOf_flatMap, ofBits_bitsOf, ofBits_bitsOf, ofBits_bitsOf, ofBits_bitsOf]

/-- The check of the data bits of a frame agrees (R7). -/
theorem checkOk_dataBits (h : f.payload.length ≤ 28) : checkOk f.dataBits = true := by
  have hlen := length_checkedBits f
  rw [checkOk, lengthCode_dataBits h, Nat.add_comm 1, Frame.dataBits, List.drop_succ_cons, List.drop_succ_cons, List.drop_zero,
    List.drop_left' hlen, List.take_left' hlen, List.take_of_length_le (by simp), ofBits_bitsOf]
  exact beq_self_eq_true _

/-- A part of data bits that holds the length field has their length code (Table 1-2). -/
theorem lengthCode_of_prefix {part data : List TrunkBit} (hp : part <+: data) (h : 26 ≤ part.length) :
    lengthCode part = lengthCode data := by
  obtain ⟨rest, rfl⟩ := hp
  rw [lengthCode, lengthCode, List.drop_append_of_le_length (by omega),
    List.take_append_of_le_length (by rw [List.length_drop]; omega)]

theorem dataComplete_dataBits (h : f.payload.length ≤ 28) : dataComplete f.dataBits = true := by
  rw [dataComplete, dataLength, lengthCode_dataBits h, length_dataBits]
  simp
  omega

theorem readsOn_dataBits (h : f.payload.length ≤ 28) : ReadsOn f.dataBits := by
  intro part hp
  have hcode (hlen : 26 ≤ part.length) : lengthCode part = f.payload.length :=
    (lengthCode_of_prefix hp hlen).trans (lengthCode_dataBits h)
  refine ⟨fun hlen => (hcode (by omega)).le.trans h, fun hne => ?_⟩
  have hshort : part.length < f.dataBits.length := lt_of_le_of_ne hp.length_le fun he => hne (hp.eq_of_length he)
  rw [length_dataBits] at hshort
  by_cases hlen : 26 ≤ part.length
  · rw [dataComplete, dataLength, hcode hlen, beq_eq_false_iff_ne.2 hshort.ne, Bool.and_false]
  · exact dataComplete_of_short (by omega)

end

/-- Settles O54: the receiver follows the coded bits to the end of the data bits, which read back as the frame. -/
theorem codedFrameReadsBack : Obligations.CodedFrameReadsBack := by
  intro f h
  obtain ⟨l, r, -, hreceive⟩ := receive_stuff (readsOn_dataBits h) (data := f.dataBits) rfl
  rw [dataComplete_dataBits h, if_pos rfl] at hreceive
  rw [receivedFrame, Frame.codedBits, hreceive]
  exact congrArg some (Prod.ext (frameOfData_dataBits h) (checkOk_dataBits h))

end Sys2Proof.Machine
end

