-- ==== Sys2Proof/Proofs/QueryAnswers.lean ====
section
/-! PROOFS. The answers to the QUERY rows: their packed bytes, their contents, and the codes they are written in (R35,
R172). -/

namespace Sys2Proof.Machine
open scoped Host.Outcome

/-! ### Packed bytes -/

/-- A flag in bit 7 and a count in the low four bits (Table 2-14). -/
theorem flagCount_eq (o : Bool) (n : Nat) :
    BitVec.ofBool o ++ 0#3 ++ BitVec.ofNat 4 n = (if o then 0x80 else 0) + BitVec.ofNat 8 (n % 16) :=
  Firings.packed_eq { saturated := o, count := n, position := 0 }

/-- The pending byte of a MARK that waits: pending, saturated and count (Table 2-15). -/
theorem pendingFirings_eq (f : Firings) : 1#1 ++ BitVec.ofBool f.saturated ++ 0#2 ++ BitVec.ofNat 4 f.count
    = BitVec.ofNat 8 (128 + (if f.saturated then 64 else 0) + f.count % 16) := by
  have hfinite : ∀ (b : Bool) (c : Fin 16),
      1#1 ++ BitVec.ofBool b ++ 0#2 ++ BitVec.ofNat 4 c.val = BitVec.ofNat 8 (128 + (if b then 64 else 0) + c.val) := by decide
  have hmod : BitVec.ofNat 4 f.count = BitVec.ofNat 4 (f.count % 16) := BitVec.eq_of_toNat_eq (by simp)
  rw [hmod]
  exact hfinite f.saturated ⟨f.count % 16, Nat.mod_lt _ (by decide)⟩

/-- A byte of five input bits (Table 2-14). -/
theorem inputBits_eq (a b c d e : Bool) :
    0#3 ++ BitVec.ofBool e ++ BitVec.ofBool d ++ BitVec.ofBool c ++ BitVec.ofBool b ++ BitVec.ofBool a
      = (if a then 1 else 0) + (if b then 2 else 0) + (if c then 4 else 0) + (if d then 8 else 0) + (if e then 16 else 0 : Byte) := by
  revert a b c d e
  decide

section
variable {s : State}

theorem headStateByte_eq (s : State) : s.headStateByte = match s.queue with
    | [] => 0
    | h :: _ =>
      match h.state with
      | .queued => 1
      | .waiting => 2
      | .announcing => 3
      | .announced => 4
      | .running => 5
      | .ending _ _ => 6 := by
  rw [State.headStateByte, State.head?]
  cases s.queue with
  | nil => rfl
  | cons h rest => cases hs : h.state <;> simp [SegState.byte, hs]

theorem headTagByte_eq (s : State) : s.headTagByte = match s.queue with
    | [] => 0
    | h :: _ => h.tag := by
  rw [State.headTagByte, State.head?]
  cases s.queue <;> rfl

theorem stationByte_eq (o : Option StationId) : stationByte o = match o with
    | none => 0
    | some o => o.setWidth 8 := by
  cases o <;> rfl

/-- A set built from the bits of a list of slots (R26). -/
theorem foldl_slotBits_getLsbD (p : Fin 8 → Bool) (l : List (Fin 8)) (set : Byte) (k : Fin 8) :
    (l.foldl (fun set j => if p j then set ||| (1#8 <<< j.val) else set) set).getLsbD k.val
      = (set.getLsbD k.val || (l.contains k && p k)) := by
  have hbit : ∀ j k : Fin 8, (1#8 <<< j.val).getLsbD k.val = (k == j) := by decide
  induction l generalizing set with
  | nil => simp
  | cons j l ih =>
    have hnext : (if p j then set ||| (1#8 <<< j.val) else set).getLsbD k.val = (set.getLsbD k.val || (k == j && p j)) := by
      cases p j with
      | false => rw [if_neg Bool.false_ne_true, Bool.and_false, Bool.or_false]
      | true => rw [if_pos rfl, BitVec.getLsbD_or, hbit, Bool.and_true]
    rw [List.foldl_cons, ih, List.contains_cons, hnext]
    by_cases hj : k = j
    · subst hj
      rw [beq_self_eq_true, Bool.true_and, Bool.true_or, Bool.true_and]
      cases p k <;> simp
    · rw [beq_eq_false_iff_ne.2 hj, Bool.false_and, Bool.or_false, Bool.false_or]

/-- The halt-owed set has the bit of each slot that owes a HALT (R26). -/
theorem owedByte_getLsbD (s : State) (k : Fin 8) : s.owedByte.getLsbD k.val = (s.tif.owed[k]).isSome := by
  refine (foldl_slotBits_getLsbD (fun k => (s.tif.owed[k]).isSome) allSlots 0 k).trans ?_
  rw [List.contains_iff_mem.2 (mem_allSlots k), Bool.true_and]
  exact congrArg (· || _) BitVec.getLsbD_zero

/-- The answer slots in use when a request has taken slot `i` (R170). -/
theorem slotsInUse_served {i : Fin 2} (h : s.freeSlot? = some i) (source : StationId) (reference : Byte) (kind : BitVec 4) :
    BitVec.ofNat 8 (s.served i source reference kind).slotsInUse
      = 1 + (if s.fh.slots[0].isSome || s.fh.slots[1].isSome then 1 else 0) := by
  have hfree := freeSlot_some h
  have hslots : (s.served i source reference kind).fh.slots = s.fh.slots.set i (some { station := source, reference, kind }) := rfl
  rw [State.slotsInUse, hslots]
  obtain rfl | rfl : i = 0 ∨ i = 1 := by omega
  · have hfree : s.fh.slots[0] = none := hfree
    cases h1 : s.fh.slots[1] <;> simp [hfree, h1]
  · have hfree : s.fh.slots[1] = none := hfree
    have hfirst : s.fh.slots[0].isSome = true := by
      rw [State.freeSlot?] at h
      cases h0 : s.fh.slots[0] with
      | none => rw [h0] at h; cases h
      | some x => rfl
    simp [hfree, hfirst]

theorem inputsByte_eq (s : State) : s.inputsByte = (if s.limpActive then 1 else 0) + (if s.limnActive then 2 else 0)
    + (if s.refActive then 4 else 0) + (if s.dfltActive then 8 else 0) + (if s.pins.qi = .high then 16 else 0) := by
  rw [State.inputsByte, inputBits_eq]
  simp only [beq_iff_eq]

theorem reportedRemaining_steps3 (s : State) : steps3 s.reportedRemaining = bytes3 (BitVec.ofNat 24 (match s.queue with
    | [] => 0
    | h :: _ => if (h.state = .running ∨ s.headEnding = true) ∧ h.kind.counts = true then min s.pg.remaining 16777215 else 0)) := by
  have hcases (h : Segment) (rest : List Segment) (hq : s.queue = h :: rest) :
      (h.state.isMoving = true) ↔ (h.state = .running ∨ s.headEnding = true) := by
    rw [headEnding_iff]
    cases hs : h.state <;> simp [SegState.isMoving, hq, hs]
  rw [steps3, State.reportedRemaining, State.head?]
  cases hq : s.queue with
  | nil => rfl
  | cons h rest =>
    have hm := hcases h rest hq
    by_cases hc : h.state.isMoving = true ∧ h.kind.counts = true
    · obtain ⟨hv, hk⟩ := hc
      simp [hv, hk, hm.1 hv]
      rfl
    · have hc' := mt (And.imp_left hm.2) hc
      simp [hc, hc']

/-- The contents of a group by what its slot holds (Table 2-14). -/
theorem groupBytes_eq (s : State) (k : Fin 8) : s.groupBytes k = match s.ru.slots[k] with
    | .empty => List.replicate 18 0 ++ [3, 0, 0, 0, 0]
    | .defined d => d.address.setWidth 8 :: (bytes8 d.roster ++ List.replicate 9 0 ++ [3, 0, 0, 0, 0])
    | .live g => g.address.setWidth 8 :: (bytes8 g.roster ++ [g.sequence] ++ bytes8 g.ready
        ++ (match g.state with
          | .opened => [0, 0, 0]
          | .armed => [1, 0, 0]
          | .halted cause o => [2, cause.byte, o.setWidth 8])
        ++ bytes2 (BitVec.ofNat 16 (if g.state = .armed then s.ru.timer.getD 0 else 0))) := by
  rw [State.groupBytes]
  cases s.ru.slots[k] with
  | empty => rfl
  | defined d => simp only [List.append_assoc, List.singleton_append]; rfl
  | live g => cases hs : g.state <;> simp [hs, GroupState.byte, GroupState.haltBytes]

/-- The unit byte: source, condition and state (Table 2-15). -/
theorem unitByte_eq (source : MarkSource) (cond : MarkCond) (state : MarkState) :
    0#3 ++ source.code ++ cond.code ++ state.code = BitVec.ofNat 8 (16 * (match source with
      | .command => 0
      | .feedback => 1) + 4 * (match cond with
      | .crossUp => 0
      | .crossDown => 1
      | .atOrAbove => 2
      | .atOrBelow => 3) + match state with
      | .disarmed => 0
      | .armed => 1
      | .fired => 2) := by
  cases source <;> cases cond <;> cases state <;> rfl

/-- The MARK of a unit that waits, as the first in the transmit queue that is one (Table 2-15). -/
theorem pendingByte_eq (s : State) (u : Fin 4) : s.pendingByte u = match s.tif.queue.findSome? fun e => match e.frame with
      | .mark v f => if v = u then some f else none
      | _ => none with
    | none => 0
    | some f => BitVec.ofNat 8 (128 + (if f.saturated then 64 else 0) + f.count % 16) := by
  rw [State.pendingByte, State.markEntry?]
  induction s.tif.queue with
  | nil => rfl
  | cons e q ih =>
    rw [List.find?_cons, List.findSome?_cons]
    cases hf : e.frame with
    | mark v f =>
      by_cases hv : v = u
      · simp [TxFrame.isMark, hv, hf, pendingFirings_eq]
      · simpa [TxFrame.isMark, hv, beq_eq_false_iff_ne.2 (Ne.symm hv), hf] using ih
    | _ => simpa [TxFrame.isMark, hf] using ih

end

/-! ### Codes -/

theorem causeOf_eq_some {b : Byte} {c : Cause} : causeOf b = some c ↔ b = c.byte := by
  have hround : ∀ c : Cause, causeOf c.byte = some c := fun c => by cases c <;> rfl
  have hcode : ∀ c : Cause, c.byte.toNat = c.code := fun c => by cases c <;> rfl
  constructor
  · intro h
    have hfound := List.find?_some h
    exact BitVec.eq_of_toNat_eq (by rw [hcode]; exact (beq_iff_eq.1 hfound).symm)
  · rintro rfl
    exact hround c

theorem Cause.code_eq (c : Cause) : c.byte.toNat = c.code := by
  cases c <;> rfl

/-- The number that bytes spell, most significant first (R26). -/
def valueOf (bytes : List Byte) : Nat := bytes.foldl (fun n b => 256 * n + b.toNat) 0

theorem valueOf_bytes2 (x : BitVec 16) : valueOf (bytes2 x) = x.toNat := by
  have hx := x.isLt
  simp only [valueOf, bytes2, List.foldl_cons, List.foldl_nil, BitVec.extractLsb'_toNat, Nat.shiftRight_eq_div_pow]
  omega

theorem valueOf_bytes3 (x : BitVec 24) : valueOf (bytes3 x) = x.toNat := by
  have hx := x.isLt
  simp only [valueOf, bytes3, List.foldl_cons, List.foldl_nil, BitVec.extractLsb'_toNat, Nat.shiftRight_eq_div_pow]
  omega

theorem valueOf_bytes4 (x : BitVec 32) : valueOf (bytes4 x) = x.toNat := by
  have hx := x.isLt
  simp only [valueOf, bytes4, List.foldl_cons, List.foldl_nil, BitVec.extractLsb'_toNat, Nat.shiftRight_eq_div_pow]
  omega

theorem valueOf_concat (bytes : List Byte) (b : Byte) : valueOf (bytes ++ [b]) = 256 * valueOf bytes + b.toNat :=
  List.foldl_concat ..

theorem valueOf_append (a b : List Byte) : valueOf (a ++ b) = valueOf a * 256 ^ b.length + valueOf b := by
  induction b using List.reverseRecOn with
  | nil => simp [valueOf]
  | append_singleton b y ih =>
    rw [← List.append_assoc, valueOf_concat, valueOf_concat, ih, List.length_append, List.length_singleton, Nat.pow_succ]
    ring

theorem valueOf_bytes8 (x : BitVec 64) : valueOf (bytes8 x) = x.toNat := by
  have hx := x.isLt
  rw [bytes8, valueOf_append, valueOf_bytes4, valueOf_bytes4, BitVec.extractLsb'_toNat, BitVec.extractLsb'_toNat,
    Nat.shiftRight_eq_div_pow]
  show _ * 256 ^ 4 + _ = _
  omega

/-! ### The reply -/

/-- A request served is answered by what it replies (R170, R172). -/
theorem serve_of_reply {s : State} {c : Instr} {i : Fin 2} {f : Frame} {source : StationId} {reference : Byte} {kind : BitVec 4}
    {act : State → Reply} {r : Reply} (hc : s.canServe c i) (hf : frameOf s.own c = some f)
    (hr : act (s.served i source reference kind) = r) (ha : r.state.answers = s.answers) :
    serve c source reference kind act s = r.state.withAnswer i source reference kind r.result r.contents := by
  rw [serve_eq source reference kind act hc hf (by rwa [hr]), hr]

section
variable {s : State} {i : Fin 2} {source : StationId} {reference item : Byte}

/-- A QUERY of a reply that leaves the answers as they are (R172). -/
theorem exec_query {c : Instr} {f : Frame} {act : State → Reply} {r : Reply} (hc : s.canServe c i) (hf : frameOf s.own c = some f)
    (hexec : exec c s = .next (serve c source reference kindQuery act s)) (hr : act (s.served i source reference kindQuery) = r)
    (ha : r.state.answers = s.answers) :
    exec c s = .next (r.state.withAnswer i source reference kindQuery r.result r.contents) := by
  rw [hexec, serve_of_reply hc hf hr ha]

/-- An item outside the range of its subject is refused (R32). -/
theorem query_refused {c : Instr} (hc : s.canServe c i)
    (h : (∃ qi, c = .queryStatus source reference item qi ∧ item ≠ 0 ∧ qi = s.pins.qi)
        ∨ c = .queryPosition source reference item ∧ item ≠ 0 ∨ c = .queryQueue source reference item ∧ item ≠ 0
        ∨ c = .queryGroup source reference item ∧ 7 < item.toNat
        ∨ c = .queryMarks source reference item ∧ 4 < item.toNat
        ∨ c = .querySetup source reference item ∧ item ≠ 0) :
    exec c s = .next ((s.served i source reference kindQuery).withAnswer i source reference kindQuery .range []) := by
  obtain ⟨qi, rfl, hitem, rfl⟩ | ⟨rfl, hitem⟩ | ⟨rfl, hitem⟩ | ⟨rfl, hitem⟩ | ⟨rfl, hitem⟩ | ⟨rfl, hitem⟩ := h
  · exact exec_query (r := refuse .range (s.served i source reference kindQuery)) hc rfl rfl (if_neg hitem) rfl
  · exact exec_query hc rfl rfl (if_neg hitem) rfl
  · exact exec_query hc rfl rfl (if_neg hitem) rfl
  · refine exec_query (r := refuse .range (s.served i source reference kindQuery)) hc rfl rfl ?_ rfl
    simp only [slotIndexOf_eq_none hitem]
  · refine exec_query (r := refuse .range (s.served i source reference kindQuery)) hc rfl rfl ?_ rfl
    simp only [unitOf_eq_none (by omega : 3 < item.toNat)]
    exact if_neg fun h => by rw [h] at hitem; exact absurd hitem (by decide)
  · exact exec_query hc rfl rfl (if_neg hitem) rfl

end

/-- Settles O38: the items out of range, the contents of each subject, and the codes. -/
theorem queriesReportTheState : Obligations.QueriesReportTheState := by
  refine ⟨fun source reference item c i s hc => ?_, rfl, rfl, rfl, rfl, rfl, rfl, rfl, rfl, fun c => ⟨rfl, ?_, fun set => ?_, fun b => causeOf_eq_some⟩,
    fun b => rfl, fun x => ⟨rfl, valueOf_bytes2 x⟩, fun x => ⟨rfl, valueOf_bytes3 x⟩, fun x => ⟨rfl, valueOf_bytes4 x⟩,
    fun x => ⟨rfl, valueOf_bytes8 x⟩, fun n => rfl⟩
  · intro t answers active headState
    have hcontents (u : State) (subject : Byte) {x y : List Byte} (h : x = y) :
        Host.Outcome.next (u.withAnswer i source reference kindQuery .accepted ([subject, item] ++ x))
          = (.next (u.withAnswer i source reference kindQuery .accepted ([subject, item] ++ y)) : Host.Outcome State Fault Refusal) := by
      rw [h]
    refine ⟨query_refused hc, fun qi hq h0 => ?_, fun hq h0 => ?_, fun hq h0 => ?_, fun k hq hk => ?_, fun u hq hu => ?_, fun hq h4 => ?_, fun hq h0 => ?_⟩
    · subst hq
      intro u
      refine ⟨u.owedByte, owedByte_getLsbD u,
        (exec_query (r := queryReply 0 item u.statusBytes u) hc rfl rfl (if_pos h0) rfl).trans (hcontents u 0 ?_)⟩
      have hactive (level : Level) (activeHigh : Bool) (w : Byte) :
          (if isActive level activeHigh then w else 0) = active level activeHigh w := if_congr (isActive_iff ..) rfl rfl
      have hqi : (if u.pins.qi = .high then 16 else 0) = active qi true 16 := if_congr (by simp [u]) rfl rfl
      obtain ⟨-, -, hfree, -⟩ := hc
      have hslots : BitVec.ofNat 8 u.slotsInUse = _ := slotsInUse_served hfree source reference kindQuery
      rw [State.statusBytes, headTagByte_eq, headStateByte_eq, inputsByte_eq, flagCount_eq, stationByte_eq, hslots, hqi,
        State.limpActive, State.limnActive, State.refActive, State.dfltActive, hactive, hactive, hactive, hactive]
      rfl
    · subst hq
      intro left
      refine (exec_query hc rfl rfl (if_pos h0) rfl).trans (hcontents t 1 ?_)
      rw [State.positionBytes, reportedRemaining_steps3]
      rfl
    · subst hq
      refine (exec_query hc rfl rfl (if_pos h0) rfl).trans (hcontents t 2 ?_)
      rw [State.queueBytes, headStateByte_eq]
      rfl
    · subst hq
      have hact : (match slotIndexOf item with
        | none => refuse .range t
        | some k => queryReply 3 item (t.groupBytes k) t) = queryReply 3 item (t.groupBytes k) t := by
        rw [slotIndexOf_eq_some hk]
      exact (exec_query hc rfl rfl hact rfl).trans (hcontents t 3 (groupBytes_eq t k))
    · subst hq
      have hact : (match unitOf item with
        | some u => queryReply 4 item (t.unitBytes u) t
        | none => if item = 4 then queryReply 4 item t.heardBytes t else refuse .range t) = queryReply 4 item (t.unitBytes u) t := by
        rw [unitOf_eq_some hu]
      intro x unitSource cond state
      refine (exec_query hc rfl rfl hact rfl).trans (hcontents t 4 ?_)
      rw [State.unitBytes, pendingByte_eq, unitByte_eq]
      rfl
    · subst hq h4
      exact exec_query (r := queryReply 4 4 t.heardBytes t) hc rfl rfl rfl rfl
    · subst hq
      exact exec_query hc rfl rfl (if_pos h0) rfl
  · rw [Cause.code_eq]; rfl
  · rw [Cause.code_eq]; rfl

end Sys2Proof.Machine
end
